-- ==== Sys2Proof/Word.lean ====
section
/-! DEFINITION. The smallest words of the model: the byte of a message and the digit of a called number. -/
namespace Sys2Proof

/-- One byte of a message (10_ports R172). -/
abbrev Byte := BitVec 8

/-- One digit of a called number or prefix, 0 to 15 (03 section 3.1). -/
abbrev Digit := BitVec 4

/-- A message as the lanes deliver it: its bytes, the first at offset 0 (10_ports R172). -/
abbrev Frame := List Byte

end Sys2Proof
end

