-- ==== Sys2Proof/Syntax.lean ====
section
/-! DEFINITION. The commands: one constructor per row of spec/opcode_table.json. The table gives the rows no
fields; the operands are the model's (log entry 27): what names the timer, the port or the frame concerned.
Everything else a command needs stands in the message at the head of its input queue (R162, R166). -/
namespace Sys2Proof

/-- The two message ports (10_ports section 10.1). -/
inductive Port where
  | forward
  | backward
  deriving DecidableEq, Repr

/-- One step of the device (95_what_each_step_holds.md). -/
inductive Instr where
  /-- HARD_RESET (R171): the reset line is asserted. -/
  | hardReset
  /-- RESET_RELEASE (R161): the reset line is released. -/
  | resetRelease
  /-- REFERENCE_TICK (R152). -/
  | referenceTick
  /-- MESSAGE_ARRIVAL (R162): the lanes of a port's input have delivered these bytes whole. -/
  | messageArrival (port : Port) (bytes : Frame)
  /-- PASS_THROUGH (R165): the head message of a port, of a pass-through kind. -/
  | passThrough (port : Port)
  /-- SETUP (R6): the head message of the forward input. -/
  | setup
  /-- ORIGIN_RELEASE (R20, R21, R23): the head message of the forward input. -/
  | originRelease
  /-- ORIGIN_RELEASE_CONFIRM (R21, R23). -/
  | originReleaseConfirm
  /-- PROGRESS (R12, R36): the head message of the backward input. -/
  | progress
  /-- ANSWER (R13, R36). -/
  | answer
  /-- FAR_RELEASE (R15, R16, R34, R36). -/
  | farRelease
  /-- FAR_RELEASE_CONFIRM (R19, R34, R36). -/
  | farReleaseConfirm
  /-- BLOCK (R38). -/
  | block
  /-- UNBLOCK (R40). -/
  | unblock
  /-- FAR_SEIZE (R42, R43). -/
  | farSeize
  /-- FAR_CLEAR (R44). -/
  | farClear
  /-- TARIFF_OFFER (R113 to R115). -/
  | tariffOffer
  /-- BATCH_ACCEPT (R145): the head message of the forward input. -/
  | batchAccept
  /-- EXPORT_HALT (R147). -/
  | exportHalt
  /-- EXPORT_RESUME (R148). -/
  | exportResume
  /-- T_PROCEED_EXPIRY (R17) of the context with this index. -/
  | tProceedExpiry (context : Nat)
  /-- T_CLEAR_EXPIRY (R22) of the context with this index. -/
  | tClearExpiry (context : Nat)
  /-- GUARD_EXPIRY (R32) of the circuit at the head of this group's guard list. -/
  | guardExpiry (group : Nat)
  /-- CLEARING_EXPIRY (R35) of this circuit. -/
  | clearingExpiry (circuit : Nat)
  /-- PROBE_TIMER_EXPIRY (R88) of this group. -/
  | probeTimerExpiry (group : Nat)
  /-- GAP_TIMER_EXPIRY (R98) of this route list. -/
  | gapTimerExpiry (list : Nat)
  /-- ACCEPT_TIMER_EXPIRY (R146). -/
  | acceptTimerExpiry
  /-- SAMPLE_EXPIRY (R79). -/
  | sampleExpiry
  /-- UNKNOWN_REQUEST (R174): a Management Request at the head of the forward input, as are all that follow. -/
  | unknownRequest
  /-- ENTER_SERVICE (R175). -/
  | enterService
  /-- QUIESCE (R176). -/
  | quiesce
  /-- RESTART (R179, R180). -/
  | restart
  /-- READ_DEVICE_STATUS (R177). -/
  | readDeviceStatus
  /-- CLEAR_ERROR_FLAGS (R169, R177). -/
  | clearErrorFlags
  /-- SET_EXCHANGE_TIME (R156). -/
  | setExchangeTime
  /-- SET_GLOBAL_PARAMETERS (R178). -/
  | setGlobalParameters
  /-- LOAD_DESTINATION (R56). -/
  | loadDestination
  /-- DELETE_DESTINATION (R56). -/
  | deleteDestination
  /-- LOOKUP_DESTINATION (R56). -/
  | lookupDestination
  /-- LOAD_ROUTE_LIST (R59). -/
  | loadRouteList
  /-- RESTART_GAP (R102). -/
  | restartGap
  /-- LOAD_THRESHOLD_SET (R78). -/
  | loadThresholdSet
  /-- LOAD_TRUNK_GROUP (R47, R48). -/
  | loadTrunkGroup
  /-- REMOVE_TRUNK_GROUP (R49). -/
  | removeTrunkGroup
  /-- SET_GROUP_STATE (R45). -/
  | setGroupState
  /-- BLOCK_CIRCUIT (R41). -/
  | blockCircuit
  /-- UNBLOCK_CIRCUIT (R41). -/
  | unblockCircuit
  /-- DECLARE_CARRIER (R111). -/
  | declareCarrier
  /-- REMOVE_CARRIER (R112). -/
  | removeCarrier
  /-- LOAD_TARIFF (R116). -/
  | loadTariff
  /-- PIN_CARRIER (R117). -/
  | pinCarrier
  /-- UNPIN_CARRIER (R117). -/
  | unpinCarrier
  /-- READ_GROUP (R50, R90). -/
  | readGroup
  /-- READ_CIRCUIT (R50). -/
  | readCircuit
  /-- READ_CONTEXT (R177). -/
  | readContext
  /-- READ_ROUTE_LIST (R75). -/
  | readRouteList
  /-- READ_CARRIER (R122). -/
  | readCarrier
  /-- LATCH_COUNTERS (R92). -/
  | latchCounters
  /-- READ_LATCHED (R93). -/
  | readLatched
  deriving DecidableEq, Repr

end Sys2Proof
end

