-- ==== Sys2Proof/Decode.lean ====
section
/-! DEFINITION. The table's bits: spec/opcode_table.json gives no row any, so no word spells a command. -/
namespace Sys2Proof

/-- The command that a word of `nbits` bits spells: none, because no row of the table has bits (log entry 25).
Commands reach the device as messages, ticks and the reset line (00_scope 1.2). -/
def decodeTableWord (_nbits _w : Nat) : Option Instr := none

end Sys2Proof
end

