-- ==== Sys2Proof/Config.lean ====
section
/-! DEFINITION. Sizes and limits that the manual fixes, and the free values: what the manual leaves open. -/
namespace Sys2Proof.Config

/-- Call contexts, indexed 0 to 8,191 (01 section 1.2). -/
def contextCount : Nat := 8192
/-- Circuits, numbered 0 to 16,383 (02 section 2.2). -/
def circuitCount : Nat := 16384
/-- Trunk groups are numbered 1 to 255 (00_scope 2.4). -/
def groupMax : Nat := 255
/-- Carriers are numbered 1 to 63 (00_scope 2.4). -/
def carrierMax : Nat := 63
/-- Route lists, numbered 0 to 511 (03 section 3.2). -/
def listCount : Nat := 512
/-- Destination table entries (R53). -/
def destinationMax : Nat := 8192
/-- The tried set holds at most 8 ids (R1). -/
def triedMax : Nat := 8
/-- Messages an input queue holds (R162). -/
def queueMax : Nat := 128
/-- Slots of the Settlement Queue (08 section 8.1). -/
def slotMax : Nat := 4096
/-- The slot sum below which a non-priority handover finds a slot (R66). -/
def slotMaxOrdinary : Nat := 4080
/-- Centiseconds in a day (00_scope 2.1). -/
def dayLength : Nat := 8640000
/-- The largest day number (00_scope 2.1). -/
def dayMax : Nat := 65535
/-- Rounding offset of the Rating Unit (R124). -/
def roundingOffset : Nat := 30
/-- Charge limit of the Rating Unit (R124). -/
def chargeLimit : Nat := 4294967295
/-- Bytes of results that one part of a Management Reply carries (R182). -/
def resultsPerPart : Nat := 109

/-- Maxima of the saturating counters (00_scope 2.5). -/
def max16 : Nat := 65535
def max32 : Nat := 4294967295
def max48 : Nat := 281474976710655
def max64 : Nat := 18446744073709551615

/-- FREE VALUE (log entry 6): the place that the `i`-th of several things of one event takes at the `d`-th
draw, where the manual gives no order among them (R79, R118, R157). Nothing constrains it. -/
opaque rank (d i : Nat) : Nat

/-- FREE VALUE (log entry 7): whether Set Group State with both an unequipped group and a state outside the
three is answered with Not Found (true) or Bad Parameter (false); R45 gives no order of the two. -/
opaque notFoundFirst (group adminByte : Nat) : Bool

end Sys2Proof.Config
end

