-- ==== Sys2Proof/Machine/State.lean ====
section
/-! DEFINITION. The state of the DX-2460 as plain data, block by block (spec/00_scope.md 1.3), and its value after a
hard reset. Numbers are Nat, bounded by the rules that write them; bits are kept where the manual has bits. -/
namespace Sys2Proof.Machine

/-- A table of like things by number: only the numbers that hold something are listed, keys strictly rising
(`Table.wf`), so that equal tables are equal data (log entry 23). -/
abbrev Table (α : Type) := List (Nat × α)

/-- Why a step faults: nothing in the manual stops the device (INVENTORY.md, Faults), so there is no constructor. -/
inductive Fault where
  deriving DecidableEq, Repr

/-- Why a step is refused. -/
inductive Refusal where
  /-- Raised by `exec` alone, in an arm whose command has no meaning yet. Safe: the model stops. No arm raises it now. -/
  | notModelled (mnemonic : String)
  deriving DecidableEq, Repr

/-- Exchange time: day number and centisecond of day (09 section 9.1). -/
structure ExTime where
  day : Nat
  cs : Nat
  deriving DecidableEq, Repr

/-! ### Causes, reply codes, small sets -/

/-- The causes that the device itself names (section 10.6). A cause byte it only carries stays a number. -/
inductive Cause where
  | noRoute | invalidNumber | gapped | congestion | pricedOut | settlementFull | routeUnavailable | resourceExhausted
  | notInService | duplicateReference | noResponse | normal | circuitUnavailable | numberUnobtainable | circuitFailure
  deriving DecidableEq, Repr

/-- Reply codes of a Management Reply (section 11.2). -/
inductive ReplyCode where
  | done | badParameter | notAvailable | busy | notFound | tableFull
  deriving DecidableEq, Repr

/-- Congestion levels of a group (00_scope 2.2). -/
inductive Band where
  | clear | busy | congested | critical
  deriving DecidableEq, Repr

inductive Health where
  | normal | suspect
  deriving DecidableEq, Repr

/-- A probe gate (R87) or a list's gate (R96). -/
inductive Gate where
  | opened | closed
  deriving DecidableEq, Repr

inductive Direction where
  | outgoing | bothWay
  deriving DecidableEq, Repr

inductive GlareRole where
  | controlling | yielding
  deriving DecidableEq, Repr

inductive HuntMode where
  | oldestFree | lowestNumber
  deriving DecidableEq, Repr

inductive AdminState where
  | inService | draining | outOfService
  deriving DecidableEq, Repr

inductive GapState where
  | off | active
  deriving DecidableEq, Repr

/-- Where a tariff came from (R109). -/
inductive Source where
  | localLoad | offered
  deriving DecidableEq, Repr

inductive OfferState where
  | opened | held
  deriving DecidableEq, Repr

inductive ExportState where
  | ready | awaitingAccept | stalled
  deriving DecidableEq, Repr

inductive DeviceState where
  | unconfigured | inService | quiesced
  deriving DecidableEq, Repr

/-- Phases of a context in use (R2). The fifth state, Idle, is that of a context the table does not list. -/
inductive Phase where
  | proceeding | alerting | connected | clearing
  deriving DecidableEq, Repr

/-- The four port errors (R169). -/
inductive PortErr where
  | check | length | kind | overrun
  deriving DecidableEq, Repr

/-- Why a Tariff Offer is rejected (R113, R115). -/
inductive OfferReason where
  | unauthorised | invalid
  deriving DecidableEq, Repr

/-- What the latch buffer can copy (R91). -/
inductive ObjectKind where
  | trunkGroup | routeList | carrier
  deriving DecidableEq, Repr

/-! ### Contexts -/

/-- The locked terms of a handover seizure (R1, R125). -/
structure Quote where
  carrier : Nat
  rate : Nat
  setupFee : Nat
  billingStep : Nat
  minSeconds : Nat
  band : Band
  source : Source
  deriving DecidableEq, Repr

/-- A context in use (R1). `circuit` is the current group and the current circuit. -/
structure Context where
  callRef : Nat
  phase : Phase
  number : List Digit
  inCircuit : Nat
  list : Nat
  category : Nat
  priority : Bool
  tried : List Nat
  examined : Nat
  circuit : Option (Nat × Nat)
  probe : Bool
  quote : Option Quote
  slot : Bool
  seizeTime : ExTime
  answerTime : Option ExTime
  lastCause : Option Cause
  noFurther : Bool
  timer : Option Nat
  deriving DecidableEq, Repr

/-- Counters of R24. -/
structure ContextCounters where
  setupsTaken : Nat
  refusedEarly : Nat
  protoProgress : Nat
  protoAnswer : Nat
  protoReleaseConfirm : Nat
  unknownRelease : Nat
  unknownOther : Nat
  clearingTimeouts : Nat
  deriving DecidableEq, Repr

/-- The Context Table (01 section 1.2), with the offer state (R105). -/
structure ContextTable where
  contexts : Table Context
  refMap : Table Nat
  inUse : Nat
  peak : Nat
  offer : OfferState
  counters : ContextCounters
  deriving DecidableEq, Repr

/-! ### Groups and circuits -/

/-- Configuration fields of a trunk group (R26). -/
structure GroupConfig where
  first : Nat
  size : Nat
  owner : Nat
  direction : Direction
  glare : GlareRole
  hunt : HuntMode
  guardTime : Nat
  reservation : Nat
  thrSet : Nat
  theta : Nat
  probeInterval : Nat
  bandReport : Bool
  deriving DecidableEq, Repr

/-- The six circuit counts of a group (R27). -/
structure Counts where
  free : Nat
  blocked : Nat
  seized : Nat
  farSeized : Nat
  releasing : Nat
  guard : Nat
  deriving DecidableEq, Repr

/-- Traffic counters of a group (R89). -/
structure Traffic where
  attempts : Nat
  seizures : Nat
  overflows : Nat
  answers : Nat
  failures : Nat
  glareLosses : Nat
  usage : Nat
  deriving DecidableEq, Repr

/-- The Occupancy Monitor's fields of one group (R77). -/
structure GroupMonitor where
  s256 : Nat
  band : Band
  health : Health
  failCount : Nat
  gate : Gate
  probeTimer : Option Nat
  traffic : Traffic
  deriving DecidableEq, Repr

/-- An equipped trunk group (02 section 2.1). -/
structure Group where
  cfg : GroupConfig
  admin : AdminState
  drainedSent : Bool
  counts : Counts
  freeQueue : List Nat
  guardList : List Nat
  mon : GroupMonitor
  deriving DecidableEq, Repr

/-- Conditions of an equipped circuit, with what each one holds (R28). Timers are due tick counts. -/
inductive Condition where
  | idle
  | seized (owner : Nat)
  | farSeized
  | releasing (due : Nat)
  | guard (due : Nat)
  deriving DecidableEq, Repr

/-- An equipped circuit (02 section 2.2). -/
structure Circuit where
  group : Nat
  cond : Condition
  remote : Bool
  localBlock : Bool
  deriving DecidableEq, Repr

/-- Counters of R51. -/
structure CircuitCounters where
  unexpectedRelease : Nat
  strayProgress : Nat
  strayAnswer : Nat
  strayReleaseConfirm : Nat
  unequipped : Nat
  seizeOnBlocked : Nat
  seizeProtocol : Nat
  glareHeld : Nat
  clearDiscarded : Nat
  clearingExpiry : Nat
  deriving DecidableEq, Repr

structure CircuitMap where
  groups : Table Group
  circuits : Table Circuit
  counters : CircuitCounters
  deriving DecidableEq, Repr

/-! ### Destinations and route lists -/

/-- What a destination entry says (R53). A class mask has bit c set for category c (R182). -/
inductive DestKind where
  | route (list : Nat) (mask : Option Byte)
  | bar
  deriving DecidableEq, Repr

structure DestEntry where
  pfx : List Digit
  kind : DestKind
  deriving DecidableEq, Repr

/-- One choice of a route list (03 section 3.2). -/
structure Choice where
  group : Nat
  ceiling : Nat
  deriving DecidableEq, Repr

/-- Counters of a route list (R60). -/
structure ListCounters where
  offered : Nat
  gapped : Nat
  refusedCongestion : Nat
  refusedPricedOut : Nat
  refusedSettlementFull : Nat
  refusedRouteUnavailable : Nat
  reselections : Nat
  reselectionFailures : Nat
  deriving DecidableEq, Repr

/-- A route list with Admission Control's gap state beside it (03 section 3.2, R96). -/
structure RouteList where
  loaded : Bool
  choices : List Choice
  budget : Nat
  pointer : Nat
  gapEnable : Bool
  gapFloor : Nat
  gapMax : Nat
  gapStep : Nat
  gapState : GapState
  gap : Nat
  gate : Gate
  gapTimer : Option Nat
  counters : ListCounters
  deriving DecidableEq, Repr

/-- The Route Selector: both tables and the routing counters of R55. -/
structure RouteSelector where
  dests : List DestEntry
  lists : Table RouteList
  unmatched : Nat
  barred : Nat
  classExcluded : Nat
  deriving DecidableEq, Repr

/-! ### Occupancy Monitor -/

/-- A threshold set (04 section 4.2). -/
structure ThresholdSet where
  t1 : Nat
  t2 : Nat
  t3 : Nat
  hysteresis : Nat
  shift : Nat
  deriving DecidableEq, Repr

/-- The counters of a carrier that a latch copies (R91). -/
structure CarrierCounters where
  accepted : Nat
  ignored : Nat
  rejected : Nat
  answers : Nat
  chargeTotal : Nat
  deriving DecidableEq, Repr

/-- Counters copied by Latch Counters (R91). -/
inductive LatchedCounters where
  | group (t : Traffic)
  | list (c : ListCounters)
  | carrier (c : CarrierCounters)
  deriving DecidableEq, Repr

/-- A latched copy (R91). -/
structure Latch where
  kind : ObjectKind
  id : Nat
  time : ExTime
  valid : Bool
  counters : LatchedCounters
  deriving DecidableEq, Repr

structure OccupancyMonitor where
  thresholds : Table ThresholdSet
  latch : Option Latch
  sampleTimer : Option Nat
  deriving DecidableEq, Repr

/-! ### Tariffs -/

structure Period where
  start : Nat
  base : Nat
  deriving DecidableEq, Repr

/-- A tariff body (06 section 6.2). -/
structure Tariff where
  periods : List Period
  setupFee : Nat
  mults : List Nat
  slopes : List Int
  floor : Nat
  ceiling : Nat
  billingStep : Nat
  minSeconds : Nat
  deriving DecidableEq, Repr

/-- A pending tariff with its effective time and source (R109). -/
structure Pending where
  body : Tariff
  day : Nat
  minute : Nat
  source : Source
  deriving DecidableEq, Repr

/-- A declared carrier's record (06 section 6.1). -/
structure Carrier where
  current : Tariff
  source : Source
  pending : Option Pending
  pinned : Bool
  counters : CarrierCounters
  deriving DecidableEq, Repr

structure TariffTable where
  carriers : Table Carrier
  unknownRejected : Nat
  deriving DecidableEq, Repr

/-- Counters of the Rating Unit (R137). -/
structure RatingCounters where
  quotes : Nat
  raised : Nat
  lowered : Nat
  rated : Nat
  durationsClamped : Nat
  chargesSaturated : Nat
  deriving DecidableEq, Repr

/-! ### Settlement -/

/-- A Settlement Record (R141). -/
structure SettlementRecord where
  seq : Nat
  carrier : Nat
  group : Nat
  circuit : Nat
  callRef : Nat
  answerTime : ExTime
  releaseTime : ExTime
  chargeable : Nat
  rate : Nat
  band : Band
  setupFee : Nat
  charge : Nat
  source : Source
  clamped : Bool
  resent : Bool
  deriving DecidableEq, Repr

/-- Counters of R150. -/
structure SettlementCounters where
  batchesSent : Nat
  batchesResent : Nat
  recordsSent : Nat
  batchesAccepted : Nat
  recordsAccepted : Nat
  unexpectedAccepts : Nat
  stalls : Nat
  deriving DecidableEq, Repr

/-- The Settlement Queue (08 section 8.1). -/
structure SettlementQueue where
  reservations : Nat
  queued : List SettlementRecord
  nextSeq : Nat
  exportState : ExportState
  halt : Bool
  outstanding : Nat
  acceptTimer : Option Nat
  counters : SettlementCounters
  deriving DecidableEq, Repr

/-! ### Time Base, Management Agent, ports -/

/-- The Time Base. `ticks` and `tickTime` are the model's own (log entries 3 and 5). -/
structure TimeBase where
  now : ExTime
  valid : Bool
  ticks : Nat
  tickTime : ExTime
  deriving DecidableEq, Repr

/-- Global parameters (11 section 11.4). -/
structure GlobalParams where
  tProceed : Nat
  tClear : Nat
  tAccept : Nat
  samplePeriod : Nat
  highWater : Nat
  lowWater : Nat
  batchSize : Nat
  deriving DecidableEq, Repr

structure ManagementAgent where
  device : DeviceState
  params : GlobalParams
  deriving DecidableEq, Repr

/-- One flag per port error (R169). -/
structure ErrFlags where
  check : Bool
  length : Bool
  kind : Bool
  overrun : Bool
  deriving DecidableEq, Repr

/-- One 16-bit counter per port error (R169). -/
structure ErrCounters where
  check : Nat
  length : Nat
  kind : Nat
  overrun : Nat
  deriving DecidableEq, Repr

/-- A port's input side (10_ports section 10.1). The queue depth is `queue.length`. -/
structure PortState where
  queue : List Frame
  peak : Nat
  flags : ErrFlags
  errors : ErrCounters
  passed : Nat
  deriving DecidableEq, Repr

/-! ### What the device emits -/

/-- The fields of each notice kind (section 10.6). -/
inductive Notice where
  | holdOffer (inUse high : Nat)
  | resumeOffer (inUse low : Nat)
  | bandChange (group : Nat) (before after : Band) (s : Nat)
  | healthChange (group : Nat) (health : Health) (failCount : Nat)
  | groupDrained (group : Nat)
  | maintenanceBlock (group circuit : Nat)
  | clearingTimeout (callRef : Nat)
  | tariffActivated (carrier : Nat) (source : Source) (day minute : Nat)
  | offerRejected (claimed circuit owner : Nat) (reason : OfferReason)
  | exportStalled (first count queued : Nat)
  | portError (port : Port) (err : PortErr) (value : Nat)
  deriving DecidableEq, Repr

/-- An emitted message by its fields; `OutMsg.wire` gives its bytes (R168, R172). A Release, Release Confirm,
Progress or Answer is keyed by circuit on the forward output and by call reference on the backward output (R167). -/
inductive OutMsg where
  | setup (circuit group inCircuit category : Nat) (priority : Bool) (number : List Digit)
  | progress (key : Nat)
  | answer (key : Nat)
  | release (key cause : Nat)
  | releaseConfirm (key : Nat)
  | refuse (callRef inCircuit : Nat) (cause : Cause)
  | blockConfirm (circuit : Nat)
  | unblockConfirm (circuit : Nat)
  | record (r : SettlementRecord)
  | batchEnd (count first : Nat) (resent : Bool)
  | notice (time : ExTime) (n : Notice)
  | reply (tag code : Nat) (rc : ReplyCode) (results : List Byte)
  | passed (frame : Frame)
  deriving DecidableEq, Repr

/-! ### The whole state -/

/-- The DX-2460. The model's own fields beside the blocks: `pending` (log entry 1), `fwdOut` and `bwdOut`
(log entry 8), `draws` (log entry 6). -/
structure State where
  pending : List Instr
  resetLine : Bool
  fwd : PortState
  bwd : PortState
  ctx : ContextTable
  circ : CircuitMap
  routes : RouteSelector
  mon : OccupancyMonitor
  tariffs : TariffTable
  rating : RatingCounters
  settle : SettlementQueue
  time : TimeBase
  mgmt : ManagementAgent
  fwdOut : List OutMsg
  bwdOut : List OutMsg
  draws : Nat
  deriving DecidableEq, Repr

/-! ### Values after a hard reset -/

def PortState.reset : PortState :=
  { queue := [], peak := 0, flags := ⟨false, false, false, false⟩, errors := ⟨0, 0, 0, 0⟩, passed := 0 }

def ContextTable.reset : ContextTable :=
  { contexts := [], refMap := [], inUse := 0, peak := 0, offer := .opened, counters := ⟨0, 0, 0, 0, 0, 0, 0, 0⟩ }

def CircuitMap.reset : CircuitMap :=
  { groups := [], circuits := [], counters := ⟨0, 0, 0, 0, 0, 0, 0, 0, 0, 0⟩ }

def Traffic.zero : Traffic := ⟨0, 0, 0, 0, 0, 0, 0⟩

/-- The Occupancy Monitor's fields of a new group (R94), and what a Restart leaves of them (R95). -/
def GroupMonitor.fresh : GroupMonitor :=
  { s256 := 0, band := .clear, health := .normal, failCount := 0, gate := .opened, probeTimer := none,
    traffic := Traffic.zero }

def ListCounters.zero : ListCounters := ⟨0, 0, 0, 0, 0, 0, 0, 0⟩

/-- A route list that has not been loaded (R75, R76, R96, R104). -/
def RouteList.unloaded : RouteList :=
  { loaded := false, choices := [], budget := 0, pointer := 1, gapEnable := false, gapFloor := 0, gapMax := 0,
    gapStep := 0, gapState := .off, gap := 0, gate := .opened, gapTimer := none, counters := ListCounters.zero }

def RouteSelector.reset : RouteSelector :=
  { dests := [], lists := [], unmatched := 0, barred := 0, classExcluded := 0 }

/-- Every threshold set after a hard reset (R78). -/
def ThresholdSet.default : ThresholdSet := { t1 := 600, t2 := 750, t3 := 900, hysteresis := 20, shift := 2 }

/-- The sample timer is started at the release of the line with 100 ticks (R158, R161). -/
def OccupancyMonitor.reset : OccupancyMonitor := { thresholds := [], latch := none, sampleTimer := some 100 }

def TariffTable.reset : TariffTable := { carriers := [], unknownRejected := 0 }

def SettlementQueue.reset : SettlementQueue :=
  { reservations := 0, queued := [], nextSeq := 1, exportState := .ready, halt := false, outstanding := 0,
    acceptTimer := none, counters := ⟨0, 0, 0, 0, 0, 0, 0⟩ }

def TimeBase.reset : TimeBase := { now := ⟨0, 0⟩, valid := false, ticks := 0, tickTime := ⟨0, 0⟩ }

/-- Defaults of the global parameters (R178, R181). -/
def GlobalParams.default : GlobalParams :=
  { tProceed := 2000, tClear := 6000, tAccept := 500, samplePeriod := 10, highWater := 7680, lowWater := 6144,
    batchSize := 16 }

def ManagementAgent.reset : ManagementAgent := { device := .unconfigured, params := GlobalParams.default }

/-- The device right after a hard reset, the reset line released (log entry 9): every item at the value its chapter's
table of reset values gives (R25, R52, R76, R95, R104, R108, R123, R137, R151, R161, R171, R181). -/
def State.reset : State :=
  { pending := [], resetLine := false, fwd := PortState.reset, bwd := PortState.reset, ctx := ContextTable.reset,
    circ := CircuitMap.reset, routes := RouteSelector.reset, mon := OccupancyMonitor.reset,
    tariffs := TariffTable.reset, rating := ⟨0, 0, 0, 0, 0, 0⟩, settle := SettlementQueue.reset,
    time := TimeBase.reset, mgmt := ManagementAgent.reset, fwdOut := [], bwdOut := [], draws := 0 }

end Sys2Proof.Machine
end

