-- ==== Sys2Proof/Machine/Table.lean ====
section
/-! DEFINITION. The operations of the sparse tables (log entry 23) and the free order of several things of one
event (log entry 6). -/
namespace Sys2Proof.Machine

/-- What the table holds under a number. -/
def Table.find {α : Type} (i : Nat) : Table α → Option α
  | [] => none
  | (k, v) :: t => if k = i then some v else Table.find i t

/-- Hold `x` under a number, in place of what was there. -/
def Table.put {α : Type} (i : Nat) (x : α) : Table α → Table α
  | [] => [(i, x)]
  | (k, v) :: t => if i < k then (i, x) :: (k, v) :: t else if i = k then (i, x) :: t else (k, v) :: Table.put i x t

/-- Hold nothing under a number. -/
def Table.del {α : Type} (i : Nat) : Table α → Table α
  | [] => []
  | (k, v) :: t => if k = i then Table.del i t else (k, v) :: Table.del i t

/-- Change what is held under a number, where something is. -/
def Table.adjust {α : Type} (i : Nat) (f : α → α) : Table α → Table α
  | [] => []
  | (k, v) :: t => if k = i then (k, f v) :: Table.adjust i f t else (k, v) :: Table.adjust i f t

/-- Change everything that is held. -/
def Table.mapAll {α β : Type} (f : Nat → α → β) (t : Table α) : Table β := t.map fun p => (p.1, f p.1 p.2)

/-- The numbers that hold something. -/
def Table.keys {α : Type} (t : Table α) : List Nat := t.map (·.1)

/-- Every number of the table is above `lo`. -/
def Table.above {α : Type} (lo : Nat) : Table α → Bool
  | [] => true
  | (k, _) :: t => decide (lo < k) && Table.above lo t

/-- The canonical form: the numbers rise strictly. -/
def Table.wf {α : Type} : Table α → Bool
  | [] => true
  | (k, _) :: t => Table.above k t && Table.wf t

/-- The lowest number that is not in the list, searching up from `i` through `fuel` numbers. -/
def lowestFree (used : List Nat) : Nat → Nat → Option Nat
  | _, 0 => none
  | i, fuel + 1 => if i ∈ used then lowestFree used (i + 1) fuel else some i

/-- Insert by the free rank of the `d`-th draw. -/
def insertRanked {α : Type} (d : Nat) (x : α × Nat) : List (α × Nat) → List (α × Nat)
  | [] => [x]
  | y :: t => if Config.rank d x.2 < Config.rank d y.2 then x :: y :: t else y :: insertRanked d x t

/-- The things in the free order of the `d`-th draw: some order of them, which nothing constrains. -/
def arrange {α : Type} (d : Nat) (xs : List α) : List α :=
  (xs.zipIdx.foldr (insertRanked d) []).map (·.1)

end Sys2Proof.Machine
end

