-- ==== Sys2Proof/Machine/Flags.lean ====
section
/-! DEFINITION. Saturating counters and the port error flags. -/
namespace Sys2Proof.Machine

/-- A counter rises by `n` and saturates at its maximum (00_scope 2.5). -/
def satAdd (max n v : Nat) : Nat := min (v + n) max

/-- A 32-bit counter rises by one. -/
def inc32 (v : Nat) : Nat := satAdd Config.max32 1 v

/-- A port's flag for an error (R169). -/
def ErrFlags.get (f : ErrFlags) : PortErr → Bool
  | .check => f.check
  | .length => f.length
  | .kind => f.kind
  | .overrun => f.overrun

/-- Set a port's flag for an error (R169). -/
def ErrFlags.raise (f : ErrFlags) : PortErr → ErrFlags
  | .check => { f with check := true }
  | .length => { f with length := true }
  | .kind => { f with kind := true }
  | .overrun => { f with overrun := true }

/-- All four flags clear. -/
def ErrFlags.none : ErrFlags := ⟨false, false, false, false⟩

/-- A port's counter for an error (R169). -/
def ErrCounters.get (c : ErrCounters) : PortErr → Nat
  | .check => c.check
  | .length => c.length
  | .kind => c.kind
  | .overrun => c.overrun

/-- A port's counter for an error rises by one; it is 16 bits wide and saturates (R169). -/
def ErrCounters.count (c : ErrCounters) : PortErr → ErrCounters
  | .check => { c with check := satAdd Config.max16 1 c.check }
  | .length => { c with length := satAdd Config.max16 1 c.length }
  | .kind => { c with kind := satAdd Config.max16 1 c.kind }
  | .overrun => { c with overrun := satAdd Config.max16 1 c.overrun }

end Sys2Proof.Machine
end

