-- ==== Sys2Proof/Machine/Operands.lean ====
section
/-! DEFINITION. What a frame says: the common header, the fields of every message kind the device takes (section
10.6) and the parameters of every Management Request (R182). Total on any bytes: a byte that is not there reads as 0,
which no checked frame meets (R163). -/
namespace Sys2Proof.Machine

/-! ### Bytes and numbers -/

/-- An unsigned number from its bytes, high byte first (section 10.6). -/
def be (bs : List Byte) : Nat := bs.foldl (fun a b => a * 256 + b.toNat) 0

/-- The unsigned field of `len` bytes at offset `off`. -/
def field (off len : Nat) (bs : List Byte) : Nat := be ((bs.drop off).take len)

/-- The number in two's complement of two bytes (section 10.6). -/
def signed16 (v : Nat) : Int := if v < 32768 then (v : Int) else (v : Int) - 65536

/-- A flag byte: 0 is clear and any other value is set (R182). -/
def flagAt (off : Nat) (bs : List Byte) : Bool := decide (field off 1 bs ≠ 0)

/-- Digits two to a byte, first digit in the high half; halves beyond the count are not read (section 10.6, R182). -/
def digitsOf (count : Nat) (bs : List Byte) : List Digit :=
  (bs.flatMap fun b => [b.extractLsb' 4 4, b.extractLsb' 0 4]).take count

/-! ### The check (R163) -/

/-- One bit of the cyclic redundancy check, generator x^16 + x^12 + x^5 + 1. -/
def crcBit (r : BitVec 16) : BitVec 16 := if r.getLsbD 15 then (r <<< 1) ^^^ 0x1021#16 else r <<< 1

/-- One byte enters, most significant bit first. -/
def crcByte (r : BitVec 16) (b : Byte) : BitVec 16 :=
  let x := r ^^^ (b.setWidth 16 <<< 8)
  crcBit (crcBit (crcBit (crcBit (crcBit (crcBit (crcBit (crcBit x)))))))

/-- The check over the bytes from the kind byte on, from 0xFFFF, without final inversion. -/
def crc (bs : List Byte) : BitVec 16 := bs.foldl crcByte 0xFFFF#16

/-! ### Common header (section 10.6) -/

def kindOf (f : Frame) : Nat := field 0 1 f
def lengthOf (f : Frame) : Nat := field 1 1 f
def keyOf (f : Frame) : Nat := field 2 3 f
def kindByteOf (f : Frame) : Nat := field 5 1 f

/-- The circuit number stands in the low 14 bits of the key; the upper 10 are not read (R167). -/
def circuitOf (f : Frame) : Nat := keyOf f % 16384

/-! ### Kind codes (section 10.6) -/

def kSetup : Nat := 0x01
def kProgress : Nat := 0x02
def kAnswer : Nat := 0x03
def kRelease : Nat := 0x04
def kReleaseConfirm : Nat := 0x05
def kRefuse : Nat := 0x06
def kBlock : Nat := 0x08
def kUnblock : Nat := 0x09
def kBlockConfirm : Nat := 0x0A
def kUnblockConfirm : Nat := 0x0B
def kFarSeize : Nat := 0x0C
def kFarClear : Nat := 0x0D
def kTariffOffer : Nat := 0x10
def kRecord : Nat := 0x20
def kBatchEnd : Nat := 0x21
def kBatchAccept : Nat := 0x22
def kExportHalt : Nat := 0x23
def kExportResume : Nat := 0x24
def kNotice : Nat := 0x30
def kRequest : Nat := 0x40
def kReply : Nat := 0x41

/-- Pass-through kinds are 0x80 to 0xFF (R165). -/
def isPassThrough (kind : Nat) : Bool := decide (0x80 ≤ kind)

/-- The kinds each port accepts (R164). -/
def accepts : Port → Nat → Bool
  | .forward, k => decide (k ∈ [kSetup, kRelease, kReleaseConfirm, kBatchAccept, kExportHalt, kExportResume, kRequest])
  | .backward, k =>
    decide (k ∈ [kProgress, kAnswer, kRelease, kReleaseConfirm, kBlock, kUnblock, kFarSeize, kFarClear, kTariffOffer])

/-- Whether a frame of an accepted kind has the length that its kind requires (section 10.6, kind codes and lengths). -/
def lengthFits (f : Frame) : Bool :=
  let k := kindOf f
  if k = kSetup then decide (f.length = 13 + (field 9 1 f + 1) / 2)
  else if k = kTariffOffer then decide (f.length = 70)
  else if k = kRequest then decide (9 ≤ f.length ∧ f.length ≤ 120)
  else decide (f.length = 8)

/-- The check in the last two bytes of a frame, high byte first. -/
def checkOf (f : Frame) : Nat := field (f.length - 2) 2 f

/-- The checks of R163 in their order; `none` where the frame passes them all. -/
def frameError (p : Port) (f : Frame) : Option PortErr :=
  if lengthOf f ≠ f.length ∨ f.length < 8 ∨ 120 < f.length then some .length
  else if checkOf f ≠ (crc (f.take (f.length - 2))).toNat then some .check
  else if isPassThrough (kindOf f) then none
  else if accepts p (kindOf f) = false then some .kind
  else if lengthFits f = false then some .length
  else none

/-! ### Setup (section 10.6) -/

structure SetupMsg where
  callRef : Nat
  inCircuit : Nat
  category : Nat
  priority : Bool
  count : Nat
  number : List Digit
  deriving DecidableEq, Repr

def setupOf (f : Frame) : SetupMsg :=
  { callRef := keyOf f, inCircuit := field 6 2 f, category := field 8 1 f % 8,
    priority := decide (128 ≤ field 8 1 f), count := field 9 1 f,
    number := digitsOf (field 9 1 f) (f.drop 11) }

/-! ### Tariff bodies (section 10.6) -/

/-- The periods of a body; entries beyond the count are not read. -/
def periodsOf (bs : List Byte) : Nat → Nat → List Period
  | _, 0 => []
  | off, n + 1 => ⟨field off 2 bs, field (off + 2) 3 bs⟩ :: periodsOf bs (off + 5) n

/-- A body of 57 bytes from its period count to its minimum seconds; a count that the four entries cannot hold
gives no body. -/
def tariffOf (bs : List Byte) : Option Tariff :=
  let n := field 0 1 bs
  if 4 < n then none
  else some
    { periods := periodsOf bs 1 n
      setupFee := field 21 3 bs
      mults := [field 24 2 bs, field 26 2 bs, field 28 2 bs, field 30 2 bs]
      slopes := [32, 34, 36, 38, 40, 42, 44, 46].map fun o => signed16 (field o 2 bs)
      floor := field 48 3 bs
      ceiling := field 51 3 bs
      billingStep := field 54 1 bs
      minSeconds := field 55 2 bs }

structure OfferMsg where
  circuit : Nat
  claimed : Nat
  day : Nat
  minute : Nat
  body : Option Tariff
  deriving DecidableEq, Repr

def offerOf (f : Frame) : OfferMsg :=
  { circuit := circuitOf f, claimed := field 6 1 f, day := field 7 2 f, minute := field 9 2 f,
    body := tariffOf (f.drop 11) }

/-! ### Management Requests (section 10.6, R182) -/

/-- The request code, at offset 6. -/
def requestCode (f : Frame) : Nat := field 6 1 f

/-- The parameters, from offset 7 to the check. -/
def paramsOf (f : Frame) : List Byte := (f.drop 7).take (f.length - 9)

/-- The length that R182 gives for a request code; `none` for a code that the table of section 11.3 does not hold. -/
def requestLength (code : Nat) : Option Nat :=
  if code ∈ [0x01, 0x02, 0x04, 0x05, 0x49] then some 9
  else if code = 0x03 then some 10
  else if code = 0x06 then some 15
  else if code = 0x07 then some 21
  else if code = 0x10 then some 23
  else if code = 0x11 then some 18
  else if code = 0x12 then some 20
  else if code = 0x18 then some 52
  else if code = 0x19 then some 11
  else if code = 0x20 then some 19
  else if code = 0x21 then some 25
  else if code = 0x22 then some 10
  else if code = 0x23 then some 11
  else if code ∈ [0x24, 0x25] then some 11
  else if code = 0x30 then some 67
  else if code ∈ [0x31, 0x33, 0x34] then some 10
  else if code = 0x32 then some 73
  else if code ∈ [0x40, 0x44] then some 10
  else if code = 0x41 then some 11
  else if code = 0x42 then some 12
  else if code = 0x43 then some 11
  else if code = 0x48 then some 12
  else none

/-- A Management Request whose code and length R182 gives (first check of R174). -/
def knownRequest (f : Frame) : Bool := decide (requestLength (requestCode f) = some f.length)

def globalParamsOf (p : List Byte) : GlobalParams :=
  { tProceed := field 0 2 p, tClear := field 2 2 p, tAccept := field 4 2 p, samplePeriod := field 6 1 p,
    highWater := field 7 2 p, lowWater := field 9 2 p, batchSize := field 11 1 p }

/-- A digit string as R182 lays it out: the count byte, then the digits two to a byte. -/
structure DigitString where
  count : Nat
  digits : List Digit
  deriving DecidableEq, Repr

def digitStringOf (off bytes : Nat) (p : List Byte) : DigitString :=
  { count := field off 1 p, digits := digitsOf (field off 1 p) ((p.drop (off + 1)).take bytes) }

structure LoadDestReq where
  pfx : DigitString
  kind : Nat
  list : Nat
  maskPresent : Bool
  mask : Byte
  deriving DecidableEq, Repr

def loadDestOf (p : List Byte) : LoadDestReq :=
  { pfx := digitStringOf 0 8 p, kind := field 9 1 p, list := field 10 2 p, maskPresent := flagAt 12 p,
    mask := BitVec.ofNat 8 (field 13 1 p) }

/-- The choice entries of Load Route List; entries beyond the count are not read. -/
def choicesOf (p : List Byte) : Nat → Nat → List Choice
  | _, 0 => []
  | off, n + 1 => ⟨field off 1 p, field (off + 1) 3 p⟩ :: choicesOf p (off + 4) n

structure LoadListReq where
  list : Nat
  count : Nat
  choices : List Choice
  budget : Nat
  gapEnable : Bool
  gapFloor : Nat
  gapMax : Nat
  gapStep : Nat
  deriving DecidableEq, Repr

def loadListOf (p : List Byte) : LoadListReq :=
  { list := field 0 2 p, count := field 2 1 p, choices := choicesOf p 3 (min (field 2 1 p) 8), budget := field 35 1 p,
    gapEnable := flagAt 36 p, gapFloor := field 37 2 p, gapMax := field 39 2 p, gapStep := field 41 2 p }

structure LoadGroupReq where
  id : Nat
  first : Nat
  size : Nat
  owner : Nat
  direction : Nat
  glare : Nat
  hunt : Nat
  guardTime : Nat
  reservation : Nat
  thrSet : Nat
  theta : Nat
  probeInterval : Nat
  bandReport : Bool
  deriving DecidableEq, Repr

def loadGroupOf (p : List Byte) : LoadGroupReq :=
  { id := field 0 1 p, first := field 1 2 p, size := field 3 2 p, owner := field 5 1 p, direction := field 6 1 p,
    glare := field 7 1 p, hunt := field 8 1 p, guardTime := field 9 1 p, reservation := field 10 2 p,
    thrSet := field 12 1 p, theta := field 13 1 p, probeInterval := field 14 1 p, bandReport := flagAt 15 p }

structure LoadTariffReq where
  carrier : Nat
  mode : Nat
  day : Nat
  minute : Nat
  discard : Bool
  body : Option Tariff
  deriving DecidableEq, Repr

def loadTariffOf (p : List Byte) : LoadTariffReq :=
  { carrier := field 0 1 p, mode := field 1 1 p, day := field 2 2 p, minute := field 4 2 p, discard := flagAt 6 p,
    body := tariffOf (p.drop 7) }

end Sys2Proof.Machine
end

