-- ==== Sys2Proof/Machine/Ops.lean ====
section
/-! DEFINITION. The named operations over the state: the blocks, the tables' entries, what is emitted, the timers, and
the two ways a command takes a message (R162, R174). A command that names no step that can occur changes nothing (log
entry 2). -/
namespace Sys2Proof.Machine

/-! ### Blocks -/

def State.withCtx (s : State) (x : ContextTable) : State := { s with ctx := x }
def State.withCirc (s : State) (x : CircuitMap) : State := { s with circ := x }
def State.withRoutes (s : State) (x : RouteSelector) : State := { s with routes := x }
def State.withMon (s : State) (x : OccupancyMonitor) : State := { s with mon := x }
def State.withTariffs (s : State) (x : TariffTable) : State := { s with tariffs := x }
def State.withRating (s : State) (x : RatingCounters) : State := { s with rating := x }
def State.withSettle (s : State) (x : SettlementQueue) : State := { s with settle := x }
def State.withTime (s : State) (x : TimeBase) : State := { s with time := x }
def State.withMgmt (s : State) (x : ManagementAgent) : State := { s with mgmt := x }

/-- A port's input side. -/
def State.port (s : State) : Port → PortState
  | .forward => s.fwd
  | .backward => s.bwd

def State.withPort (s : State) : Port → PortState → State
  | .forward, x => { s with fwd := x }
  | .backward, x => { s with bwd := x }

/-! ### Emission (R168, R170) -/

/-- Emit on the forward output. -/
def State.emitFwd (s : State) (m : OutMsg) : State := { s with fwdOut := s.fwdOut ++ [m] }

/-- Emit on the backward output. -/
def State.emitBwd (s : State) (m : OutMsg) : State := { s with bwdOut := s.bwdOut ++ [m] }

/-- Emit on the output of a direction. -/
def State.emitOn (s : State) : Port → OutMsg → State
  | .forward, m => s.emitFwd m
  | .backward, m => s.emitBwd m

/-- Emit a notice carrying the exchange time `now` of its event (R170). -/
def State.notify (s : State) (now : ExTime) (n : Notice) : State := s.emitBwd (.notice now n)

/-- Emit several notices of one event that no rule orders, in a free order (log entry 6). -/
def State.notifyAll (s : State) (now : ExTime) : List Notice → State
  | [] => s
  | [n] => s.notify now n
  | ns =>
    { s with
      bwdOut := s.bwdOut ++ (arrange s.draws ns).map (OutMsg.notice now)
      draws := s.draws + 1 }

/-! ### Entries of the tables -/

def State.context (s : State) (i : Nat) : Option Context := Table.find i s.ctx.contexts
def State.circuit (s : State) (c : Nat) : Option Circuit := Table.find c s.circ.circuits
def State.group (s : State) (g : Nat) : Option Group := Table.find g s.circ.groups
def State.carrier (s : State) (c : Nat) : Option Carrier := Table.find c s.tariffs.carriers

/-- A route list; one that is not listed is unloaded (R75, R96). -/
def State.routeList (s : State) (l : Nat) : RouteList := (Table.find l s.routes.lists).getD RouteList.unloaded

/-- A threshold set; one that is not listed holds the values of R78. -/
def State.thresholds (s : State) (n : Nat) : ThresholdSet := (Table.find n s.mon.thresholds).getD ThresholdSet.default

/-- Change a context in use. -/
def State.updContext (s : State) (i : Nat) (f : Context → Context) : State :=
  s.withCtx { s.ctx with contexts := Table.adjust i f s.ctx.contexts }

/-- Change an equipped group. -/
def State.updGroup (s : State) (g : Nat) (f : Group → Group) : State :=
  s.withCirc { s.circ with groups := Table.adjust g f s.circ.groups }

/-- Change the Occupancy Monitor's fields of an equipped group. -/
def State.updMonitor (s : State) (g : Nat) (f : GroupMonitor → GroupMonitor) : State :=
  s.updGroup g fun r => { r with mon := f r.mon }

/-- Change the traffic counters of an equipped group (R89). -/
def State.updTraffic (s : State) (g : Nat) (f : Traffic → Traffic) : State :=
  s.updMonitor g fun m => { m with traffic := f m.traffic }

/-- Change a declared carrier. -/
def State.updCarrier (s : State) (c : Nat) (f : Carrier → Carrier) : State :=
  s.withTariffs { s.tariffs with carriers := Table.adjust c f s.tariffs.carriers }

/-- Hold a route list; the table lists no list that is as an unloaded one is (log entry 23). -/
def State.setList (s : State) (l : Nat) (x : RouteList) : State :=
  s.withRoutes { s.routes with
    lists := if x = RouteList.unloaded then Table.del l s.routes.lists else Table.put l x s.routes.lists }

/-- Change a route list. -/
def State.updList (s : State) (l : Nat) (f : RouteList → RouteList) : State := s.setList l (f (s.routeList l))

/-- Change the counters of a route list (R60). -/
def State.countList (s : State) (l : Nat) (f : ListCounters → ListCounters) : State :=
  s.updList l fun r => { r with counters := f r.counters }

/-- Hold a threshold set; the table lists no set that is at the values of R78. -/
def State.setThresholds (s : State) (n : Nat) (x : ThresholdSet) : State :=
  s.withMon { s.mon with
    thresholds := if x = ThresholdSet.default then Table.del n s.mon.thresholds else Table.put n x s.mon.thresholds }

/-- Change the Context Table's counters (R24). -/
def State.countCtx (s : State) (f : ContextCounters → ContextCounters) : State :=
  s.withCtx { s.ctx with counters := f s.ctx.counters }

/-- Change the Circuit Map's counters (R51). -/
def State.countCirc (s : State) (f : CircuitCounters → CircuitCounters) : State :=
  s.withCirc { s.circ with counters := f s.circ.counters }

/-! ### Timers (R157, R159) -/

/-- A timer started now with this many ticks. -/
def State.timerOf (s : State) (ticks : Nat) : Option Nat := some (s.time.ticks + ticks)

/-- The length of a supervision interval: a held 0 stands for 65,536 ticks (R159). -/
def supervision (v : Nat) : Nat := if v = 0 then 65536 else v

/-- A timer is due at the tick that makes its count (R157). -/
def timerDue (ticks : Nat) : Option Nat → Bool
  | some d => decide (d ≤ ticks)
  | none => false

/-- Ticks remaining on a running timer. One that is due and whose expiry has not been taken yet reads as running with 0
(log entry 28). -/
def remaining (ticks : Nat) (timer : Option Nat) : Option Nat := timer.map (· - ticks)

/-! ### Time -/

/-- Absolute time in centiseconds (00_scope 2.1). -/
def ExTime.absolute (t : ExTime) : Nat := t.day * Config.dayLength + t.cs

/-- Minute of day (00_scope 2.1). -/
def ExTime.minute (t : ExTime) : Nat := t.cs / 6000

/-- Absolute minutes (00_scope 2.1). -/
def ExTime.absoluteMinutes (t : ExTime) : Nat := t.day * 1440 + t.minute

/-! ### Taking a message (R162, R166) -/

/-- The head message of a port's queue, when it is one that `p` picks, leaves the queue and `act` handles it;
otherwise no such step can occur and nothing changes. -/
def takeHead (port : Port) (p : Frame → Bool) (act : Frame → State → State) (s : State) : State :=
  match (s.port port).queue with
  | [] => s
  | m :: rest => if p m then act m (s.withPort port { s.port port with queue := rest }) else s

/-- A message of one kind at the head of a port's queue. -/
def takeKind (port : Port) (kind : Nat) (act : Frame → State → State) (s : State) : State :=
  takeHead port (fun m => decide (kindOf m = kind)) act s

/-! ### Management Requests (R174) -/

/-- What a request's own checks and effects come to: the state, the reply code, the results. -/
structure Answer where
  state : State
  code : ReplyCode
  results : List Byte

/-- A refusal changes no state and carries no results (R174). -/
def Answer.refuse (s : State) (rc : ReplyCode) : Answer := ⟨s, rc, []⟩

/-- Done, with results. -/
def Answer.ok (s : State) (results : List Byte) : Answer := ⟨s, .done, results⟩

/-- Send the Management Reply after the effects: the tag and the request code echoed (R174). -/
def Answer.send (m : Frame) (a : Answer) : State :=
  a.state.emitBwd (.reply (kindByteOf m) (requestCode m) a.code a.results)

/-- Availability of a request in the present device state, by the table of section 11.3. -/
def available (code : Nat) : DeviceState → Bool
  | .unconfigured => decide (code ≠ 0x02 ∧ code ≠ 0x03)
  | .inService => decide (code ≠ 0x01)
  | .quiesced => true

/-- A Management Request with a known code and its length at the head of the forward queue: the second check of R174,
then the request's own checks and effects, then the reply. -/
def takeRequest (code : Nat) (act : List Byte → State → Answer) (s : State) : State :=
  takeHead .forward (fun m => decide (kindOf m = kRequest) && knownRequest m && decide (requestCode m = code))
    (fun m s =>
      (if available code s.mgmt.device then act (paramsOf m) s else Answer.refuse s .notAvailable).send m) s

end Sys2Proof.Machine
end

