-- ==== Sys2Proof/Machine/Circuits.lean ====
section
/-! DEFINITION. The Circuit Map (chapter 2): what a circuit's change of condition or flags does to the counts, the free
queue and the guard list, and the shared moves of a circuit. -/
namespace Sys2Proof.Machine

/-- The six classes that a group counts its circuits in (R27, R28). -/
inductive CircuitClass where
  | free | blocked | seized | farSeized | releasing | guard
  deriving DecidableEq, Repr

/-- An Idle circuit with a flag is Blocked, with none it is Free (R28). -/
def Circuit.cls (c : Circuit) : CircuitClass :=
  match c.cond with
  | .idle => if c.remote || c.localBlock then .blocked else .free
  | .seized _ => .seized
  | .farSeized => .farSeized
  | .releasing _ => .releasing
  | .guard _ => .guard

/-- The number of a group's circuits in a class (R27). -/
def Counts.get (n : Counts) : CircuitClass → Nat
  | .free => n.free
  | .blocked => n.blocked
  | .seized => n.seized
  | .farSeized => n.farSeized
  | .releasing => n.releasing
  | .guard => n.guard

/-- Change the number of one class. -/
def Counts.upd (n : Counts) (k : CircuitClass) (f : Nat → Nat) : Counts :=
  match k with
  | .free => { n with free := f n.free }
  | .blocked => { n with blocked := f n.blocked }
  | .seized => { n with seized := f n.seized }
  | .farSeized => { n with farSeized := f n.farSeized }
  | .releasing => { n with releasing := f n.releasing }
  | .guard => { n with guard := f n.guard }

/-- All the circuits of a group, whatever their class. -/
def Counts.total (n : Counts) : Nat := n.free + n.blocked + n.seized + n.farSeized + n.releasing + n.guard

/-- The circuits that hold back Group Drained (R46). -/
def Counts.draining (n : Counts) : Nat := n.seized + n.farSeized + n.releasing

/-- One circuit passes from one class to another. -/
def Counts.move (n : Counts) (old new : CircuitClass) : Counts :=
  if old = new then n else (n.upd old (· - 1)).upd new (· + 1)

/-- A list that holds exactly the circuits of one class in the order in which they came to it: leaving it gives up
the place, entering it joins the tail (R29, R31). -/
def requeue (k : CircuitClass) (c : Nat) (old new : CircuitClass) (q : List Nat) : List Nat :=
  if old = new then q
  else if old = k then q.filter (fun x => decide (x ≠ c))
  else if new = k then q ++ [c]
  else q

/-- A group sees one of its circuits pass from one class to another (R27, R29, R31). -/
def Group.reclass (r : Group) (c : Nat) (old new : CircuitClass) : Group :=
  { r with
    counts := r.counts.move old new
    freeQueue := requeue .free c old new r.freeQueue
    guardList := requeue .guard c old new r.guardList }

/-- The one operation that changes an equipped circuit's condition or flags: the record, and in the same event the
group's counts, free queue and guard list (R27, R29). -/
def State.recast (s : State) (c : Nat) (f : Circuit → Circuit) : State :=
  match s.circuit c with
  | none => s
  | some r =>
    s.withCirc { s.circ with
      circuits := Table.put c (f r) s.circ.circuits
      groups := Table.adjust r.group (fun g => g.reclass c r.cls (f r).cls) s.circ.groups }

/-- Is the Group Drained notice of this spell of Draining due (R46)? -/
def Group.drainDue (r : Group) : Bool :=
  decide (r.admin = .draining) && !r.drainedSent && decide (r.counts.draining = 0)

/-- The Group Drained notices that the look at a group gives (R46). -/
def State.drainNotices (s : State) (g : Nat) : List Notice :=
  match s.group g with
  | some r => if r.drainDue then [.groupDrained g] else []
  | none => []

/-- Mark the group's spell of Draining as reported where the notice is due (R46). -/
def State.markDrained (s : State) (g : Nat) : State :=
  s.updGroup g fun r => if r.drainDue then { r with drainedSent := true } else r

/-- Look at a group whose Seized, Far-Seized or Releasing count has fallen, or that enters Draining (R46). -/
def State.drainCheck (s : State) (now : ExTime) (g : Nat) : State :=
  (s.markDrained g).notifyAll now (s.drainNotices g)

/-- A circuit is released: into Guard for the group's guard time, or with none to Idle at once (R31). -/
def State.enterGuard (s : State) (now : ExTime) (c : Nat) : State :=
  match s.circuit c with
  | none => s
  | some r =>
    match s.group r.group with
    | none => s
    | some g =>
      let cond := if g.cfg.guardTime = 0 then Condition.idle else .guard (s.time.ticks + g.cfg.guardTime)
      (s.recast c fun x => { x with cond := cond }).drainCheck now r.group

/-- A circuit awaits the far side's Release Confirm; the clearing timer starts with the current T-clear (R33). -/
def State.enterReleasing (s : State) (c : Nat) : State :=
  s.recast c fun x => { x with cond := .releasing (s.time.ticks + supervision s.mgmt.params.tClear) }

/-- The circuit that the group's hunt mode picks from its free queue (R30). -/
def Group.hunt (r : Group) : Option Nat :=
  match r.cfg.hunt with
  | .oldestFree => r.freeQueue.head?
  | .lowestNumber => r.freeQueue.min?

/-- Set a circuit's remote flag (R38, R40). -/
def State.setRemote (s : State) (c : Nat) (b : Bool) : State := s.recast c fun x => { x with remote := b }

/-- Set a circuit's local flag (R41). -/
def State.setLocal (s : State) (c : Nat) (b : Bool) : State := s.recast c fun x => { x with localBlock := b }

/-- The circuits of a configured range (R26). -/
def GroupConfig.range (g : GroupConfig) : List Nat := (List.range g.size).map (g.first + ·)

/-- Count a list of circuits by class (R48, R52). -/
def countClasses (cs : List Circuit) : Counts :=
  cs.foldl (fun n c => n.upd c.cls (· + 1)) ⟨0, 0, 0, 0, 0, 0⟩

end Sys2Proof.Machine
end

