-- ==== Sys2Proof/Machine/Admission.lean ====
section
/-! DEFINITION. Admission Control (chapter 5): the gate of a route list, its adaptation to a band, offer control. -/
namespace Sys2Proof.Machine

/-- Put a list's gap state Off: G at the floor, gate Open, timer stopped (R96, R103, R104). -/
def RouteList.gapOff (r : RouteList) : RouteList :=
  { r with gapState := .off, gap := r.gapFloor, gate := .opened, gapTimer := none }

/-- Does the gate admit a Setup (R97)? -/
def RouteList.admits (r : RouteList) (priority : Bool) : Bool :=
  match r.gapState, r.gate with
  | .off, _ => true
  | .active, .opened => true
  | .active, .closed => priority

/-- What judging a Setup does to the gate: a non-priority admission in Active closes it and starts the timer with G
(R97, R98). -/
def RouteList.judge (r : RouteList) (priority : Bool) (timer : Nat → Option Nat) : RouteList :=
  match r.gapState, r.gate, priority with
  | .active, .opened, false => { r with gate := .closed, gapTimer := timer r.gap }
  | _, _, _ => r

/-- Active and the band Clear or Busy: Off from the floor, else one step down (R100). -/
def RouteList.recover (r : RouteList) : RouteList :=
  if r.gap = r.gapFloor then { r with gapState := .off, gate := .opened, gapTimer := none }
  else { r with gap := max (r.gap - r.gapStep) r.gapFloor }

/-- The adaptation of a gap-enabled list to a band (R100). -/
def RouteList.adapt (r : RouteList) (b : Band) : RouteList :=
  match r.gapState, b with
  | .off, .clear => r
  | .off, .busy => r
  | .off, .congested => { r with gapState := .active, gap := r.gapFloor, gate := .opened, gapTimer := none }
  | .off, .critical => { r with gapState := .active, gap := r.gapFloor, gate := .opened, gapTimer := none }
  | .active, .critical => { r with gap := min (r.gap + r.gapStep) r.gapMax }
  | .active, .congested => r
  | .active, .clear => r.recover
  | .active, .busy => r.recover
/-- Is the list adapted from this group: loaded, gap enable set, choice 0 names it (R99)? -/
def RouteList.drivenBy (r : RouteList) (g : Nat) : Bool :=
  r.loaded && r.gapEnable && decide (r.choices.head?.map (·.group) = some g)

/-- Hand the band of an evaluated group to Admission Control (R79, R99). -/
def State.handBand (s : State) (g : Nat) (b : Band) : State :=
  s.withRoutes { s.routes with
    lists := Table.mapAll (fun _ r => if r.drivenBy g then r.adapt b else r) s.routes.lists }

/-! ### Offer control (R105 to R107) -/

/-- The contexts-in-use count against the high watermark: Open becomes Held with a Hold Offer (R105). -/
def State.compareHigh (s : State) (now : ExTime) : State :=
  if s.ctx.offer = .opened ∧ s.mgmt.params.highWater ≤ s.ctx.inUse then
    (s.withCtx { s.ctx with offer := .held }).notify now (.holdOffer s.ctx.inUse s.mgmt.params.highWater)
  else s

/-- The contexts-in-use count against the low watermark: Held becomes Open with a Resume Offer (R105). -/
def State.compareLow (s : State) (now : ExTime) : State :=
  if s.ctx.offer = .held ∧ s.ctx.inUse ≤ s.mgmt.params.lowWater then
    (s.withCtx { s.ctx with offer := .opened }).notify now (.resumeOffer s.ctx.inUse s.mgmt.params.lowWater)
  else s

/-- New watermarks against the present count (R107). -/
def State.compareBoth (s : State) (now : ExTime) : State :=
  match s.ctx.offer with
  | .opened => s.compareHigh now
  | .held => s.compareLow now

end Sys2Proof.Machine
end

