-- ==== Sys2Proof/Machine/Wire.lean ====
section
/-! DEFINITION. The bytes of what the device emits: the value of every named set (section 10.6, R182), the layouts of
section 10.6 and the parts of a Management Reply (R168). -/
namespace Sys2Proof.Machine

/-- A number in `w` bytes, high byte first. -/
def enc : Nat → Nat → List Byte
  | 0, _ => []
  | w + 1, n => BitVec.ofNat 8 (n / 256 ^ w) :: enc w n

/-- A signed number of two bytes in two's complement. -/
def encSigned16 (v : Int) : List Byte := enc 2 ((v % 65536).toNat)

/-- A flag byte: 0 is clear; of the values that are set the device sends 1 (R182, log entry 29). -/
def encFlag (b : Bool) : List Byte := [if b then 1 else 0]

/-- An exchange time: day number (2), centisecond of day (4) (R182). -/
def encTime (t : ExTime) : List Byte := enc 2 t.day ++ enc 4 t.cs

/-- Digits two to a byte, first digit in the high half; an unused half is 0. -/
def packDigits : List Digit → List Byte
  | [] => []
  | [d] => [d.setWidth 8 <<< 4]
  | d :: e :: t => (d.setWidth 8 <<< 4 ||| e.setWidth 8) :: packDigits t

/-- A digit string in its fixed number of bytes (R182). -/
def encDigits (bytes : Nat) (ds : List Digit) : List Byte :=
  let b := packDigits ds
  enc 1 ds.length ++ (b ++ List.replicate (bytes - b.length) 0)

/-! ### Values of the named sets -/

/-- Cause values (section 10.6). -/
def Cause.value : Cause → Nat
  | .noRoute => 1 | .invalidNumber => 2 | .gapped => 3 | .congestion => 4 | .pricedOut => 5 | .settlementFull => 6
  | .routeUnavailable => 7 | .resourceExhausted => 8 | .notInService => 9 | .duplicateReference => 10
  | .noResponse => 11 | .normal => 16 | .circuitUnavailable => 17 | .numberUnobtainable => 18 | .circuitFailure => 19

/-- Reply codes (section 10.6). -/
def ReplyCode.value : ReplyCode → Nat
  | .done => 0 | .badParameter => 1 | .notAvailable => 2 | .busy => 3 | .notFound => 4 | .tableFull => 5

def Band.value : Band → Nat
  | .clear => 0 | .busy => 1 | .congested => 2 | .critical => 3

def Health.value : Health → Nat
  | .normal => 0 | .suspect => 1

def Gate.value : Gate → Nat
  | .opened => 0 | .closed => 1

def Direction.value : Direction → Nat
  | .outgoing => 0 | .bothWay => 1

def GlareRole.value : GlareRole → Nat
  | .controlling => 0 | .yielding => 1

def HuntMode.value : HuntMode → Nat
  | .oldestFree => 0 | .lowestNumber => 1

def AdminState.value : AdminState → Nat
  | .inService => 0 | .draining => 1 | .outOfService => 2

def GapState.value : GapState → Nat
  | .off => 0 | .active => 1

def Source.value : Source → Nat
  | .localLoad => 0 | .offered => 1

def OfferState.value : OfferState → Nat
  | .opened => 0 | .held => 1

def ExportState.value : ExportState → Nat
  | .ready => 0 | .awaitingAccept => 1 | .stalled => 2

def DeviceState.value : DeviceState → Nat
  | .unconfigured => 0 | .inService => 1 | .quiesced => 2

/-- States of a context in the order of the table of section 1.1, Idle first. -/
def Phase.value : Phase → Nat
  | .proceeding => 1 | .alerting => 2 | .connected => 3 | .clearing => 4

def Condition.value : Condition → Nat
  | .idle => 0 | .seized _ => 1 | .farSeized => 2 | .releasing _ => 3 | .guard _ => 4

def portValue : Port → Nat
  | .forward => 0 | .backward => 1

def PortErr.value : PortErr → Nat
  | .check => 1 | .length => 2 | .kind => 3 | .overrun => 4

def OfferReason.value : OfferReason → Nat
  | .unauthorised => 1 | .invalid => 2

def ObjectKind.value : ObjectKind → Nat
  | .trunkGroup => 0 | .routeList => 1 | .carrier => 2

/-! ### Layouts -/

/-- A whole message: the header with its length filled in, the body, the check (R168). -/
def build (kind key kindByte : Nat) (body : List Byte) : Frame :=
  let head := enc 1 kind ++ enc 1 (body.length + 8) ++ enc 3 key ++ enc 1 kindByte ++ body
  head ++ enc 2 (crc head).toNat

/-- A tariff body in its 57 bytes; period entries beyond the count are sent as 0 (log entry 18). -/
def encTariff (t : Tariff) : List Byte :=
  enc 1 t.periods.length
    ++ (t.periods ++ List.replicate (4 - t.periods.length) (Period.mk 0 0)).flatMap (fun p => enc 2 p.start ++ enc 3 p.base)
    ++ enc 3 t.setupFee ++ t.mults.flatMap (enc 2) ++ t.slopes.flatMap encSigned16
    ++ enc 3 t.floor ++ enc 3 t.ceiling ++ enc 1 t.billingStep ++ enc 2 t.minSeconds

/-- The body of a Settlement Record (section 10.6). -/
def encRecord (r : SettlementRecord) : List Byte :=
  enc 4 r.seq ++ enc 1 r.carrier ++ enc 1 r.group ++ enc 2 r.circuit ++ encTime r.answerTime ++ encTime r.releaseTime
    ++ enc 4 r.chargeable ++ enc 4 r.rate ++ enc 1 r.band.value ++ enc 4 r.setupFee ++ enc 4 r.charge
    ++ enc 1 (r.source.value + 2 * r.clamped.toNat + 4 * r.resent.toNat)

/-- Kind code and kind fields of a notice (section 10.6). -/
def encNotice : Notice → Nat × List Byte
  | .holdOffer n h => (1, enc 2 n ++ enc 2 h)
  | .resumeOffer n l => (2, enc 2 n ++ enc 2 l)
  | .bandChange g b a s => (3, enc 1 g ++ enc 1 b.value ++ enc 1 a.value ++ enc 2 s)
  | .healthChange g h n => (4, enc 1 g ++ enc 1 h.value ++ enc 1 n)
  | .groupDrained g => (5, enc 1 g)
  | .maintenanceBlock g c => (6, enc 1 g ++ enc 2 c)
  | .clearingTimeout r => (7, enc 3 r)
  | .tariffActivated c s d m => (8, enc 1 c ++ enc 1 s.value ++ enc 2 d ++ enc 2 m)
  | .offerRejected k c o r => (9, enc 1 k ++ enc 2 c ++ enc 1 o ++ enc 1 r.value)
  | .exportStalled f b q => (10, enc 4 f ++ enc 1 b ++ enc 2 q)
  | .portError p e v => (11, enc 1 (portValue p) ++ enc 1 e.value ++ enc 2 v)

/-- The parts of a Management Reply (R168): the same tag, request code and reply code in each, a part number from 0,
the final mark on the last. -/
def replyParts (tag code : Nat) (rc : ReplyCode) (n : Nat) : Nat → List Byte → List Frame
  | 0, _ => []
  | fuel + 1, rest =>
    let now := rest.take Config.resultsPerPart
    let later := rest.drop Config.resultsPerPart
    let last := later.isEmpty
    build kReply 0 tag (enc 1 code ++ enc 1 rc.value ++ enc 1 (n % 128 + (if last then 128 else 0)) ++ now)
      :: (if last then [] else replyParts tag code rc (n + 1) fuel later)

/-- The messages on the lanes for one emission (R168, R172): one frame, or the parts of one reply. -/
def OutMsg.wire : OutMsg → List Frame
  | .setup c g i cat pri num =>
    [build kSetup c 0 (enc 2 i ++ enc 1 (cat % 8 + (if pri then 128 else 0)) ++ enc 1 num.length ++ enc 1 g
      ++ packDigits num)]
  | .progress k => [build kProgress k 0 []]
  | .answer k => [build kAnswer k 0 []]
  | .release k cause => [build kRelease k cause []]
  | .releaseConfirm k => [build kReleaseConfirm k 0 []]
  | .refuse r i cause => [build kRefuse r cause.value (enc 2 i)]
  | .blockConfirm c => [build kBlockConfirm c 0 []]
  | .unblockConfirm c => [build kUnblockConfirm c 0 []]
  | .record r => [build kRecord r.callRef 0 (encRecord r)]
  | .batchEnd b first again => [build kBatchEnd 0 0 (enc 1 b ++ enc 4 first ++ encFlag again)]
  | .notice t n => [build kNotice 0 (encNotice n).1 (encTime t ++ (encNotice n).2)]
  | .reply tag code rc results => replyParts tag code rc 0 (results.length + 1) results
  | .passed f => [f]

/-- The frames that have left on the forward output, oldest first. -/
def State.forwardLane (s : State) : List Frame := s.fwdOut.flatMap OutMsg.wire

/-- The frames that have left on the backward output, oldest first. -/
def State.backwardLane (s : State) : List Frame := s.bwdOut.flatMap OutMsg.wire

end Sys2Proof.Machine
end

