-- ==== Sys2Proof/Machine/Monitor.lean ====
section
/-! DEFINITION. The Occupancy Monitor (chapter 4): reports about a group's calls, the probe gate, occupancy and band. -/
namespace Sys2Proof.Machine

/-- Reported smoothed occupancy S (R77). -/
def GroupMonitor.s (m : GroupMonitor) : Nat := m.s256 / 256

/-! ### Reports (R9, R85 to R89) -/

def Traffic.attempt (t : Traffic) : Traffic := { t with attempts := inc32 t.attempts }
def Traffic.seize (t : Traffic) : Traffic := { t with seizures := inc32 t.seizures }
def Traffic.overflow (t : Traffic) : Traffic := { t with overflows := inc32 t.overflows }
def Traffic.answer (t : Traffic) : Traffic := { t with answers := inc32 t.answers }
def Traffic.failure (t : Traffic) : Traffic := { t with failures := inc32 t.failures }
def Traffic.glareLoss (t : Traffic) : Traffic := { t with glareLosses := inc32 t.glareLosses }
def Traffic.use (t : Traffic) (n : Nat) : Traffic := { t with usage := satAdd Config.max48 n t.usage }

/-- A health success on a group's fields: the count is cleared and a Suspect group becomes Normal (R85). -/
def GroupMonitor.success (m : GroupMonitor) : GroupMonitor :=
  match m.health with
  | .normal => { m with failCount := 0 }
  | .suspect => { m with failCount := 0, health := .normal, gate := .opened, probeTimer := none }

/-- A health success is reported for a group (R85). -/
def State.healthSuccess (s : State) (now : ExTime) (g : Nat) : State :=
  match s.group g with
  | none => s
  | some r =>
    let s1 := s.updMonitor g GroupMonitor.success
    if r.mon.health = .suspect then s1.notify now (.healthChange g .normal 0) else s1

/-- Does a failure make this Normal group Suspect, with its new count (R86)? -/
def GroupMonitor.turnsSuspect (m : GroupMonitor) (theta : Nat) : Bool :=
  decide (m.health = .normal) && decide (theta ≤ satAdd 15 1 m.failCount) && decide (1 ≤ satAdd 15 1 m.failCount)

/-- A health failure on a group's fields (R86). -/
def GroupMonitor.fail (m : GroupMonitor) (theta : Nat) : GroupMonitor :=
  let m1 := { m with failCount := satAdd 15 1 m.failCount, traffic := m.traffic.failure }
  if m.turnsSuspect theta then { m1 with health := .suspect, gate := .opened, probeTimer := none } else m1

/-- A health failure is reported for a group (R86). -/
def State.healthFailure (s : State) (now : ExTime) (g : Nat) : State :=
  match s.group g with
  | none => s
  | some r =>
    let s1 := s.updMonitor g fun m => m.fail r.cfg.theta
    if r.mon.turnsSuspect r.cfg.theta then
      s1.notify now (.healthChange g .suspect (satAdd 15 1 r.mon.failCount))
    else s1

/-- Probe unsuccessful on a group's fields: a Suspect group's gate closes and its probe timer starts afresh (R88). -/
def GroupMonitor.probeFailed (m : GroupMonitor) (due : Option Nat) : GroupMonitor :=
  match m.health with
  | .normal => m
  | .suspect => { m with gate := .closed, probeTimer := due }

/-- Probe unsuccessful is reported for a group (R88). -/
def State.probeUnsuccessful (s : State) (g : Nat) : State :=
  match s.group g with
  | none => s
  | some r => s.updMonitor g fun m => m.probeFailed (s.timerOf (r.cfg.probeInterval * 100))

/-- The probe timer of a group expires: a group that is still Suspect has its gate set Open (R88). -/
def GroupMonitor.probeExpired (m : GroupMonitor) : GroupMonitor :=
  match m.health with
  | .normal => { m with probeTimer := none }
  | .suspect => { m with gate := .opened, probeTimer := none }

/-! ### Evaluation at a sample expiry (R79 to R84) -/

/-- Instantaneous occupancy O from the counts (R80). -/
def occupancy (size : Nat) (n : Counts) : Nat :=
  if size - n.blocked = 0 then 1000
  else 1000 * (n.seized + n.farSeized + n.releasing + n.guard) / (size - n.blocked)

/-- The smoothing step: the difference divided by 2 to the power k and rounded toward minus infinity (R81). -/
def smooth (k : Nat) (o s256 : Nat) : Nat :=
  ((s256 : Int) + Int.fdiv (256 * (o : Int) - (s256 : Int)) (2 ^ k)).toNat

def bandOf : Nat → Band
  | 0 => .clear
  | 1 => .busy
  | 2 => .congested
  | _ => .critical

/-- T(1), T(2) and T(3) (R82). -/
def ThresholdSet.bound (t : ThresholdSet) : Nat → Nat
  | 1 => t.t1
  | 2 => t.t2
  | _ => t.t3

/-- The rising loop of R82, from a band number. -/
def riseBand (t : ThresholdSet) (s : Nat) : Nat → Nat → Nat
  | 0, b => b
  | fuel + 1, b => if b < 3 ∧ t.bound (b + 1) + t.hysteresis ≤ s then riseBand t s fuel (b + 1) else b

/-- The falling loop of R82, from a band number. -/
def fallBand (t : ThresholdSet) (s : Nat) : Nat → Nat → Nat
  | 0, b => b
  | fuel + 1, b => if 0 < b ∧ s < t.bound b then fallBand t s fuel (b - 1) else b

/-- The band after an evaluation (R82): at most three rises, then at most three falls. -/
def evalBand (t : ThresholdSet) (s : Nat) (b : Band) : Band :=
  bandOf (fallBand t s 3 (riseBand t s 3 b.value))

/-- Stages 1 to 4 of the evaluation of a group (R79). -/
def Group.evaluate (r : Group) (t : ThresholdSet) : Group :=
  let s256 := smooth t.shift (occupancy r.cfg.size r.counts) r.mon.s256
  { r with
    mon := { r.mon with
      s256 := s256
      band := evalBand t (s256 / 256) r.mon.band
      traffic := r.mon.traffic.use (r.counts.seized + r.counts.farSeized) } }

/-- Groups that are In Service or Draining are evaluated (R79, R84). -/
def Group.sampled (r : Group) : Bool := decide (r.admin ≠ .outOfService)

end Sys2Proof.Machine
end

