-- ==== Sys2Proof/Machine/Settlement.lean ====
section
/-! DEFINITION. The Settlement Queue (chapter 8): slots, records, batches. -/
namespace Sys2Proof.Machine

/-- Reservations plus queued records (R138). -/
def SettlementQueue.slotSum (q : SettlementQueue) : Nat := q.reservations + q.queued.length

/-- Reserve a slot (R139). -/
def SettlementQueue.reserve (q : SettlementQueue) : SettlementQueue := { q with reservations := q.reservations + 1 }

/-- Give a reservation back (R140). -/
def SettlementQueue.giveBack (q : SettlementQueue) : SettlementQueue := { q with reservations := q.reservations - 1 }

/-- The number after a sequence number: after 4,294,967,295 comes 1 (R141). -/
def nextSeqAfter (n : Nat) : Nat := if Config.max32 ≤ n then 1 else n + 1

/-- A rating turns a reservation into a record with the next sequence number and its repeat flag clear (R141). -/
def SettlementQueue.append (q : SettlementQueue) (r : SettlementRecord) : SettlementQueue :=
  { q with
    reservations := q.reservations - 1
    queued := q.queued ++ [{ r with seq := q.nextSeq, resent := false }]
    nextSeq := nextSeqAfter q.nextSeq }

/-- The sequence number of the first record of the queue. -/
def SettlementQueue.firstSeq (q : SettlementQueue) : Nat := (q.queued.head?.map (·.seq)).getD 0

/-- Set the repeat flag of the first `b` records (R148). -/
def markRepeats (b : Nat) (rs : List SettlementRecord) : List SettlementRecord :=
  (rs.take b).map (fun r => { r with resent := true }) ++ rs.drop b

/-- Emit the first `b` records and a Batch End in one unbroken run (R144, R148). -/
def State.emitBatch (s : State) (b : Nat) (again : Bool) : State :=
  { s with bwdOut := s.bwdOut ++ (s.settle.queued.take b).map OutMsg.record
      ++ [.batchEnd b s.settle.firstSeq again] }

/-- Send a batch (R144). -/
def State.sendBatch (s : State) : State :=
  let b := min s.mgmt.params.batchSize s.settle.queued.length
  let c := s.settle.counters
  (s.emitBatch b false).withSettle { s.settle with
    outstanding := b
    exportState := .awaitingAccept
    acceptTimer := s.timerOf (supervision s.mgmt.params.tAccept)
    counters := { c with batchesSent := inc32 c.batchesSent, recordsSent := satAdd Config.max32 b c.recordsSent } }

/-- The look at the condition of R143, at the end of an event that can make it true. -/
def State.exportLook (s : State) : State :=
  if s.settle.exportState = .ready ∧ s.settle.halt = false ∧ s.settle.queued ≠ [] then s.sendBatch else s

/-- The outstanding batch is accepted (R145). -/
def SettlementQueue.accept (q : SettlementQueue) : SettlementQueue :=
  { q with
    queued := q.queued.drop q.outstanding
    outstanding := 0
    exportState := .ready
    acceptTimer := none
    counters := { q.counters with
      batchesAccepted := inc32 q.counters.batchesAccepted
      recordsAccepted := satAdd Config.max32 q.outstanding q.counters.recordsAccepted } }

/-- The stalled batch is sent again (R148). -/
def State.resendBatch (s : State) : State :=
  let b := s.settle.outstanding
  let c := s.settle.counters
  let s1 := s.withSettle { s.settle with
    queued := markRepeats b s.settle.queued
    exportState := .awaitingAccept
    acceptTimer := s.timerOf (supervision s.mgmt.params.tAccept)
    counters := { c with batchesResent := inc32 c.batchesResent, recordsSent := satAdd Config.max32 b c.recordsSent } }
  s1.emitBatch b true

end Sys2Proof.Machine
end

