-- ==== Sys2Proof/Machine/Tariffs.lean ====
section
/-! DEFINITION. The Tariff Table (chapter 6): validity, activation, settlement totals. -/
namespace Sys2Proof.Machine

/-- Start minutes rise strictly (R110). -/
def startsAscend : List Period → Bool
  | [] => true
  | [_] => true
  | p :: q :: t => decide (p.start < q.start) && startsAscend (q :: t)

/-- A valid tariff body (R110). -/
def Tariff.valid (t : Tariff) : Bool :=
  decide (1 ≤ t.periods.length ∧ t.periods.length ≤ 4)
    && decide (t.periods.head?.map (·.start) = some 0)
    && startsAscend t.periods
    && t.periods.all (fun p => decide (p.start ≤ 1439 ∧ p.base ≤ 1000000))
    && decide (t.setupFee ≤ 1000000)
    && decide (t.mults.length = 4) && t.mults.all (fun m => decide (m ≤ 1023))
    && decide (t.slopes.length = 8) && t.slopes.all (fun v => decide (-20000 ≤ v ∧ v ≤ 20000))
    && decide (t.floor ≤ t.ceiling ∧ t.ceiling ≤ 2000000)
    && decide (1 ≤ t.billingStep ∧ t.billingStep ≤ 60)
    && decide (t.minSeconds ≤ 600)

/-- The body when it is there and valid. -/
def validBody (t : Option Tariff) : Option Tariff := t.filter Tariff.valid

/-- A pending tariff is due (R118). -/
def Pending.due (p : Pending) (now : ExTime) : Bool := decide (p.day * 1440 + p.minute ≤ now.absoluteMinutes)

/-- Activation of one carrier (R118). -/
def Carrier.activate (c : Carrier) (now : ExTime) : Carrier :=
  match c.pending with
  | none => c
  | some p => if p.due now then { c with current := p.body, source := p.source, pending := none } else c

/-- The notice that the activation of one carrier gives (R118). -/
def Carrier.activation (id : Nat) (c : Carrier) (now : ExTime) : List Notice :=
  match c.pending with
  | none => []
  | some p => if p.due now then [.tariffActivated id p.source p.day p.minute] else []

/-- A whole-second event (R118, R119): the due carriers activate while the time-valid flag is set; their notices
have no order among themselves. -/
def State.wholeSecond (s : State) (now : ExTime) : State :=
  if s.time.valid then
    (s.withTariffs { s.tariffs with
        carriers := Table.mapAll (fun _ c => c.activate now) s.tariffs.carriers }).notifyAll now
      (s.tariffs.carriers.flatMap fun p => p.2.activation p.1 now)
  else s

/-- The totals of a carrier grow at a rating (R121). -/
def Carrier.settle (c : Carrier) (charge : Nat) : Carrier :=
  { c with counters := { c.counters with
      answers := inc32 c.counters.answers
      chargeTotal := satAdd Config.max64 charge c.counters.chargeTotal } }

/-- Change the counters of a carrier. -/
def Carrier.count (c : Carrier) (f : CarrierCounters → CarrierCounters) : Carrier := { c with counters := f c.counters }

end Sys2Proof.Machine
end

