-- ==== Sys2Proof/Machine/Rating.lean ====
section
/-! DEFINITION. The Rating Unit (chapter 7): quotes and ratings. -/
namespace Sys2Proof.Machine

/-! ### The quote arithmetic (R126 to R129) -/

/-- Of two periods, the one with the greatest start minute at or below the minute of day (R126). -/
def laterPeriod (minute : Nat) (best : Option Period) (p : Period) : Option Period :=
  if minute < p.start then best
  else match best with
    | none => some p
    | some q => if q.start ≤ p.start then some p else best

/-- The base rate B of the period in force at the minute of day (R126). -/
def Tariff.baseAt (t : Tariff) (minute : Nat) : Nat :=
  ((t.periods.foldl (laterPeriod minute) none).map (·.base)).getD 0

/-- The banded rate Bb (R127). -/
def Tariff.banded (t : Tariff) (minute : Nat) (band : Band) : Nat :=
  t.baseAt minute * t.mults.getD band.value 0 / 256

/-- The surcharge A (R128). -/
def Tariff.surcharge (t : Tariff) (s : Nat) : Int :=
  let j := s / 125
  (t.slopes.take j).sum
    + (if j < 8 then Int.tdiv (t.slopes.getD j 0 * ((s : Int) - 125 * (j : Int))) 125 else 0)

/-- The raw rate (R129). -/
def Tariff.rawRate (t : Tariff) (minute : Nat) (band : Band) (s : Nat) : Int :=
  (t.banded minute band : Int) + t.surcharge s

/-- The rate P: the raw rate clamped to floor and ceiling (R129). -/
def Tariff.rate (t : Tariff) (minute : Nat) (band : Band) (s : Nat) : Nat :=
  let raw := t.rawRate minute band s
  if raw < (t.floor : Int) then t.floor else if (t.ceiling : Int) < raw then t.ceiling else raw.toNat

/-- The quote of a carrier on a group (R125). -/
def Carrier.quote (c : Carrier) (id : Nat) (m : GroupMonitor) (now : ExTime) : Quote :=
  { carrier := id, rate := c.current.rate now.minute m.band m.s, setupFee := c.current.setupFee,
    billingStep := c.current.billingStep, minSeconds := c.current.minSeconds, band := m.band, source := c.source }

/-- What computing a quote adds to the counters (R125, R129). -/
def RatingCounters.quoted (k : RatingCounters) (t : Tariff) (raw : Int) : RatingCounters :=
  { k with
    quotes := inc32 k.quotes
    raised := if raw < (t.floor : Int) then inc32 k.raised else k.raised
    lowered := if ¬ raw < (t.floor : Int) ∧ (t.ceiling : Int) < raw then inc32 k.lowered else k.lowered }

/-! ### The rating arithmetic (R132 to R134) -/

/-- Release time minus answer time in centiseconds, exactly (R132). -/
def elapsed (answer release : ExTime) : Int := (release.absolute : Int) - (answer.absolute : Int)

/-- The duration D in whole seconds (R132). -/
def duration (answer release : ExTime) : Nat := (elapsed answer release).toNat / 100

/-- The chargeable seconds before the 32-bit limit (R133). -/
def exactChargeable (q : Quote) (d : Nat) : Nat :=
  max ((d + (q.billingStep - 1)) / q.billingStep * q.billingStep) q.minSeconds

/-- The chargeable seconds C (R133). -/
def chargeable (q : Quote) (d : Nat) : Nat := min (exactChargeable q d) Config.max32

/-- Is the duration-clamped flag set (R132, R133)? -/
def durationClamped (q : Quote) (answer release : ExTime) : Bool :=
  decide (elapsed answer release < 0) || decide (Config.max32 < exactChargeable q (duration answer release))

/-- The exact charge for C chargeable seconds at rate P (R134). -/
def exactCharge (fee c p : Nat) : Nat := fee + (c * p + Config.roundingOffset) / 60

/-- The charge, limited (R134). -/
def chargeOf (fee c p : Nat) : Nat := min (exactCharge fee c p) Config.chargeLimit

/-- The contents of the record of a rated call (R135); the Settlement Queue gives it its number (R141). -/
def recordOf (q : Quote) (callRef group circuit : Nat) (answer release : ExTime) : SettlementRecord :=
  let c := chargeable q (duration answer release)
  { seq := 0, carrier := q.carrier, group := group, circuit := circuit, callRef := callRef, answerTime := answer,
    releaseTime := release, chargeable := c, rate := q.rate, band := q.band, setupFee := q.setupFee,
    charge := chargeOf q.setupFee c q.rate, source := q.source, clamped := durationClamped q answer release,
    resent := false }

/-- What a rating adds to the counters (R132 to R135). -/
def RatingCounters.rate (k : RatingCounters) (r : SettlementRecord) : RatingCounters :=
  { k with
    rated := inc32 k.rated
    durationsClamped := if r.clamped then inc32 k.durationsClamped else k.durationsClamped
    chargesSaturated :=
      if Config.chargeLimit < exactCharge r.setupFee r.chargeable r.rate then inc32 k.chargesSaturated
      else k.chargesSaturated }

/-- A rating (R135): the counters, the record in the queue, the carrier's totals. -/
def State.rateRecord (s : State) (r : SettlementRecord) : State :=
  ((s.withRating (s.rating.rate r)).withSettle (s.settle.append r)).updCarrier r.carrier fun c => c.settle r.charge

end Sys2Proof.Machine
end

