-- ==== Sys2Proof/Machine/Routing.lean ====
section
/-! DEFINITION. The Route Selector (chapter 3): destination match, the selection pass, the alternate pointer. -/
namespace Sys2Proof.Machine

/-! ### Destination match (R54, R55) -/

/-- Is the entry's prefix a prefix of the number (R54)? -/
def DestEntry.fits (e : DestEntry) (number : List Digit) : Bool := e.pfx.isPrefixOf number

/-- Of two matches the longer (R54). -/
def longer (number : List Digit) (best : Option DestEntry) (e : DestEntry) : Option DestEntry :=
  if e.fits number then
    match best with
    | none => some e
    | some b => if b.pfx.length < e.pfx.length then some e else best
  else best

/-- The longest-prefix match (R54). -/
def destMatch (dests : List DestEntry) (number : List Digit) : Option DestEntry :=
  dests.foldl (longer number) none

/-- What the matched entry decides (R55). -/
inductive MatchResult where
  | toList (list : Nat)
  | unmatched
  | barred
  | classExcluded
  deriving DecidableEq, Repr

/-- The judgement of R55 on the matched entry. -/
def judgeMatch (category : Nat) : Option DestEntry → MatchResult
  | none => .unmatched
  | some ⟨_, .bar⟩ => .barred
  | some ⟨_, .route l none⟩ => .toList l
  | some ⟨_, .route l (some m)⟩ => if m.getLsbD category then .toList l else .classExcluded

/-- The routing counters of R55. -/
def RouteSelector.countMatch (r : RouteSelector) : MatchResult → RouteSelector
  | .toList _ => r
  | .unmatched => { r with unmatched := inc32 r.unmatched }
  | .barred => { r with barred := inc32 r.barred }
  | .classExcluded => { r with classExcluded := inc32 r.classExcluded }

/-! ### The alternate pointer (R58, R72) -/

/-- The alternate after index `i` of a list with `n` choices (R58). -/
def afterAlternate (n i : Nat) : Nat := if i + 1 < n then i + 1 else 1

/-- The index of a group among the alternates of a list (R72). -/
def alternateIndex (choices : List Choice) (g : Nat) : Option Nat :=
  match choices.findIdx? (fun c => decide (c.group = g)) with
  | some (i + 1) => some (i + 1)
  | _ => none

/-- A call has lost its circuit on group `g`: the pointer moves past the group where it is an alternate (R72). -/
def RouteList.pastLost (r : RouteList) (g : Nat) : RouteList :=
  match alternateIndex r.choices g with
  | some i => { r with pointer := afterAlternate r.choices.length i }
  | none => r

/-! ### The selection pass (R62 to R70) -/

/-- Why a choice failed. -/
inductive Reason where
  | unavailable | bandCritical | noCircuit | pricedOut | settlementFull
  deriving DecidableEq, Repr

/-- The order of a pass: the primary, the alternate at the pointer, the following ones round the list (R62). -/
def passOrder (n pointer : Nat) : List Nat :=
  if n = 0 then []
  else 0 :: ((List.range n).drop pointer ++ ((List.range n).take pointer).drop 1)

/-- A group is added to the tried set; with 8 ids held the context is marked as having no further choice (R1). -/
def Context.addTried (c : Context) (g : Nat) : Context :=
  if g ∈ c.tried then c
  else if Config.triedMax ≤ c.tried.length then { c with noFurther := true }
  else { c with tried := c.tried ++ [g] }

/-- Is the free-circuit check passed (R64)? -/
def freeEnough (k : Nat) (priority : Bool) (r : Group) : Bool :=
  if k = 0 ∨ priority then decide (1 ≤ r.counts.free) else decide (r.cfg.reservation < r.counts.free)

/-- Checks 1 to 4 of choice `k` on a group: the reason of the first that fails (R63, R64, R69). -/
def groupReason (k : Nat) (priority : Bool) : Option Group → Option Reason
  | none => some .unavailable
  | some r =>
    if r.admin ≠ .inService then some .unavailable
    else if r.mon.health = .suspect ∧ r.mon.gate = .closed then some .unavailable
    else if k ≠ 0 ∧ priority = false ∧ r.mon.band = .critical then some .bandCritical
    else if freeEnough k priority r then none
    else some .noCircuit

/-- Check 5 on a computed quote: a non-priority call does not pay more than the ceiling (R65, R69). -/
def overCeiling (priority : Bool) (ceiling p : Nat) : Bool :=
  !priority && decide (ceiling ≠ 0) && decide (ceiling < p)

/-- Check 6: the slot sum is below the call's limit (R66). -/
def slotFree (priority : Bool) (q : SettlementQueue) : Bool :=
  decide (q.slotSum < if priority then Config.slotMax else Config.slotMaxOrdinary)

/-- How an examined choice ends its checks. -/
inductive Verdict where
  | fail (r : Reason)
  | pass (q : Option Quote)
  deriving DecidableEq, Repr

/-- Check 5 and 6 of a choice on a handover group (R65, R66). A group names a declared carrier alone (R47, R112); where
the table holds none, which no run reaches, the choice is Unavailable (log entry 20). -/
def State.priceCheck (s : State) (now : ExTime) (priority : Bool) (ceiling : Nat) (r : Group) : State × Verdict :=
  match s.carrier r.cfg.owner with
  | none => (s, .fail .unavailable)
  | some c =>
    let q := c.quote r.cfg.owner r.mon now
    let s1 := s.withRating (s.rating.quoted c.current (c.current.rawRate now.minute r.mon.band r.mon.s))
    if overCeiling priority ceiling q.rate then (s1, .fail .pricedOut)
    else if slotFree priority s.settle then (s1, .pass (some q))
    else (s1, .fail .settlementFull)

/-- The examination of choice `k`: the attempt of R62, the six checks, and the Overflow of a primary without a circuit
(R63 to R66). -/
def State.examine (s : State) (now : ExTime) (k : Nat) (priority : Bool) (ch : Choice) : State × Verdict :=
  let s1 := s.updTraffic ch.group Traffic.attempt
  match groupReason k priority (s.group ch.group) with
  | some .noCircuit => (if k = 0 then s1.updTraffic ch.group Traffic.overflow else s1, .fail .noCircuit)
  | some r => (s1, .fail r)
  | none =>
    match s.group ch.group with
    | none => (s1, .fail .unavailable)
    | some r => if r.cfg.owner = 0 then (s1, .pass none) else s1.priceCheck now priority ch.ceiling r

/-- A choice that fails: its group joins the tried set and an alternate moves the pointer (R67). -/
def State.choiceFailed (s : State) (i l k g : Nat) : State :=
  let s1 := s.updContext i fun c => c.addTried g
  if k = 0 then s1 else s1.updList l fun r => { r with pointer := afterAlternate r.choices.length k }

/-- The seizure of circuit `c` of group `g` for context `i` on choice `k` of list `l` (R8, R68). -/
def State.seizeCircuit (s : State) (now : ExTime) (i l k g c : Nat) (q : Option Quote) : State :=
  let suspect := decide ((s.group g).map (·.mon.health) = some .suspect)
  let s1 := (s.recast c fun x => { x with cond := .seized i }).updTraffic g Traffic.seize
  let s2 := if q.isSome then s1.withSettle s1.settle.reserve else s1
  let s3 := if suspect then s2.updMonitor g fun m => { m with gate := .closed } else s2
  let s4 := if k = 0 then s3 else s3.updList l fun r => { r with pointer := k }
  s4.updContext i fun x =>
    { x with circuit := some (g, c), seizeTime := now, quote := q, slot := q.isSome, probe := suspect }

/-- How a pass ends. -/
inductive PassEnd where
  | seized (group circuit : Nat)
  | failed (reasons : List Reason)
  deriving DecidableEq, Repr

/-- The pass takes the choices of its order (R62, R67, R68). -/
def passLoop (now : ExTime) (i l : Nat) : List Nat → List Reason → State → State × PassEnd
  | [], reasons, s => (s, .failed reasons)
  | k :: ks, reasons, s =>
    match s.context i, (s.routeList l).choices[k]? with
    | some c, some ch =>
      if ch.group ∈ c.tried then passLoop now i l ks reasons s
      else if k ≠ 0 ∧ (s.routeList l).budget ≤ c.examined then passLoop now i l ks reasons s
      else
        let s1 := if k = 0 then s else s.updContext i fun x => { x with examined := x.examined + 1 }
        match s1.examine now k c.priority ch with
        | (s2, .fail r) => passLoop now i l ks (reasons ++ [r]) (s2.choiceFailed i l k ch.group)
        | (s2, .pass q) =>
          match (s2.group ch.group).bind Group.hunt with
          | some circuit => (s2.seizeCircuit now i l k ch.group circuit q, .seized ch.group circuit)
          | none => passLoop now i l ks (reasons ++ [.noCircuit]) (s2.choiceFailed i l k ch.group)
    | _, _ => passLoop now i l ks reasons s

/-- A selection pass for context `i` over list `l` (R62); with the no-further-choice mark it examines nothing. -/
def State.selectionPass (s : State) (now : ExTime) (i l : Nat) : State × PassEnd :=
  match s.context i with
  | none => (s, .failed [])
  | some c =>
    if c.noFurther then (s, .failed [])
    else passLoop now i l (passOrder (s.routeList l).choices.length (s.routeList l).pointer) [] s

/-- The cause that a failed pass reports, by the precedence of R70. -/
def passCause (reasons : List Reason) (last : Option Cause) : Cause :=
  if .noCircuit ∈ reasons ∨ .bandCritical ∈ reasons then .congestion
  else if .pricedOut ∈ reasons then .pricedOut
  else if .settlementFull ∈ reasons then .settlementFull
  else if reasons ≠ [] then .routeUnavailable
  else last.getD .routeUnavailable

/-- The refused counter of a cause that a Setup's first pass reports (R60). -/
def ListCounters.refuse (c : ListCounters) : Cause → ListCounters
  | .congestion => { c with refusedCongestion := inc32 c.refusedCongestion }
  | .pricedOut => { c with refusedPricedOut := inc32 c.refusedPricedOut }
  | .settlementFull => { c with refusedSettlementFull := inc32 c.refusedSettlementFull }
  | .routeUnavailable => { c with refusedRouteUnavailable := inc32 c.refusedRouteUnavailable }
  | _ => c

end Sys2Proof.Machine
end

