-- ==== Sys2Proof/Machine/Calls.lean ====
section
/-! DEFINITION. The Context Table (chapter 1): allocation and freeing, the disposal of a seizure, reselection, and the
meanings of the origin side's commands SETUP, ORIGIN_RELEASE and ORIGIN_RELEASE_CONFIRM. -/
namespace Sys2Proof.Machine

/-! ### Allocation and freeing (R3, R4) -/

/-- The context that a call reference names in the call-reference map (R4). -/
def State.lookupRef (s : State) (callRef : Nat) : Option Nat := Table.find callRef s.ctx.refMap

/-- The lowest-numbered Idle context (R3). -/
def State.idleContext (s : State) : Option Nat :=
  lowestFree (Table.keys s.ctx.contexts) 0 Config.contextCount

/-- A context as allocation leaves it: the Setup's fields, everything else absent or clear (R3). Its phase shows only
within the event (log entry 22). -/
def SetupMsg.context (m : SetupMsg) (now : ExTime) : Context :=
  { callRef := m.callRef, phase := .proceeding, number := m.number, inCircuit := m.inCircuit, list := 0,
    category := m.category, priority := m.priority, tried := [], examined := 0, circuit := none, probe := false,
    quote := none, slot := false, seizeTime := now, answerTime := none, lastCause := none, noFurther := false,
    timer := none }

/-- Allocate context `i` and report the new count (R3, R105). -/
def State.allocate (s : State) (now : ExTime) (i : Nat) (c : Context) : State :=
  (s.withCtx { s.ctx with
    contexts := Table.put i c s.ctx.contexts
    refMap := Table.put c.callRef i s.ctx.refMap
    inUse := s.ctx.inUse + 1
    peak := max s.ctx.peak (s.ctx.inUse + 1) }).compareHigh now

/-- Context `i` enters Idle and is freed, and the new count is reported (R3, R105). -/
def State.free (s : State) (now : ExTime) (i : Nat) : State :=
  match s.context i with
  | none => s
  | some c =>
    (s.withCtx { s.ctx with
      contexts := Table.del i s.ctx.contexts
      refMap := Table.del c.callRef s.ctx.refMap
      inUse := s.ctx.inUse - 1 }).compareLow now

/-! ### Supervision (R5) -/

/-- Context `i` is in Proceeding on a new seizure: T-proceed starts (R5). -/
def State.startProceeding (s : State) (i : Nat) : State :=
  s.updContext i fun c =>
    { c with phase := .proceeding, timer := s.timerOf (supervision s.mgmt.params.tProceed) }

/-- Context `i` enters Clearing: no circuit, T-clear starts (R2, R5). -/
def State.startClearing (s : State) (i : Nat) : State :=
  s.updContext i fun c =>
    { c with phase := .clearing, circuit := none, probe := false,
             timer := s.timerOf (supervision s.mgmt.params.tClear) }

/-! ### The disposal of a seizure (R10) -/

/-- Is the seizure of a context to be rated (R10)? -/
def Context.rated (c : Context) : Bool := decide (c.phase = .connected) && c.quote.isSome

/-- The record of a rated call that is released at `now` (R135). -/
def Context.record (c : Context) (now : ExTime) : Option SettlementRecord :=
  match c.quote, c.answerTime, c.circuit with
  | some q, some a, some (g, k) => if c.phase = .connected then some (recordOf q c.callRef g k a now) else none
  | _, _, _ => none

/-- The seizure of context `i` is disposed of: rated, or its slot returned; the quote and the slot flag are cleared
(R10, R140). -/
def State.dispose (s : State) (now : ExTime) (i : Nat) : State :=
  match s.context i with
  | none => s
  | some c =>
    let s1 :=
      match c.record now with
      | some r => s.rateRecord r
      | none => if c.slot then s.withSettle s.settle.giveBack else s
    s1.updContext i fun x => { x with quote := none, slot := false }

/-- The look of R143 at the end of an event that has rated the call (log entry 11). -/
def State.exportIf (s : State) (rated : Bool) : State := if rated then s.exportLook else s

/-! ### Loss of a circuit and reselection (R14 to R18) -/

/-- Probe unsuccessful for context `i`, when its probe flag is set; the flag is then cleared (R9). -/
def State.endProbe (s : State) (i g : Nat) : State :=
  match s.context i with
  | none => s
  | some c => (if c.probe then s.probeUnsuccessful g else s).updContext i fun x => { x with probe := false }

/-- What a lost seizure on group `g` leaves: the group tried, the pointer past it, the slot returned, the cause kept, no
circuit and no timer (R15, R17, R18, R72). -/
def State.loseCircuit (s : State) (now : ExTime) (i l g : Nat) (cause : Cause) : State :=
  let s1 := (s.updContext i fun c => c.addTried g).updList l fun r => r.pastLost g
  (s1.dispose now i).updContext i fun c => { c with lastCause := some cause, circuit := none, timer := none }

/-- The Setup that goes forward on a seized circuit (R7). -/
def Context.forwardSetup (c : Context) (g k : Nat) : OutMsg := .setup k g c.inCircuit c.category c.priority c.number

/-- Context `i` has seized circuit `k` of group `g`: it proceeds and the Setup goes forward (R7, R14). -/
def State.proceed (s : State) (i g k : Nat) : State :=
  match s.context i with
  | none => s
  | some c => (s.startProceeding i).emitFwd (c.forwardSetup g k)

/-- A reselection that has failed: a Release to origin with the cause, and Clearing (R14). -/
def State.failCall (s : State) (i : Nat) (cause : Cause) : State :=
  match s.context i with
  | none => s
  | some c => (s.emitBwd (.release c.callRef cause.value)).startClearing i

/-- A reselection for context `i` (R14, R71). `instead` is the cause that the Context Table substitutes for the one
the pass reports, after a T-proceed expiry and after a glare loss. -/
def State.reselect (s : State) (now : ExTime) (i : Nat) (instead : Option Cause) : State :=
  match s.context i with
  | none => s
  | some c =>
    let s1 := s.countList c.list fun k => { k with reselections := inc32 k.reselections }
    match s1.selectionPass now i c.list with
    | (s2, .seized g k) => s2.proceed i g k
    | (s2, .failed reasons) =>
      (s2.countList c.list fun k => { k with reselectionFailures := inc32 k.reselectionFailures }).failCall i
        (instead.getD (passCause reasons c.lastCause))

/-! ### SETUP (R6, R7) -/

/-- A Setup refused by the checks of R6: no context is allocated. -/
def State.refuseEarly (s : State) (m : SetupMsg) (cause : Cause) : State :=
  (s.countCtx fun k => { k with refusedEarly := inc32 k.refusedEarly }).emitBwd (.refuse m.callRef m.inCircuit cause)

/-- A Setup refused in routing: the Refuse, then the context returns to Idle (R7). -/
def State.refuseRouted (s : State) (now : ExTime) (i : Nat) (m : SetupMsg) (cause : Cause) : State :=
  (s.emitBwd (.refuse m.callRef m.inCircuit cause)).free now i

/-- The pass of a new call over its list (third step of R61). -/
def State.routePass (s : State) (now : ExTime) (i l : Nat) (m : SetupMsg) : State :=
  match s.selectionPass now i l with
  | (s1, .seized g k) => s1.proceed i g k
  | (s1, .failed reasons) =>
    let cause := passCause reasons none
    (s1.countList l fun k => k.refuse cause).refuseRouted now i m cause

/-- Gate and pass of a new call whose list is known (second and third step of R61). -/
def State.routeOver (s : State) (now : ExTime) (i l : Nat) (m : SetupMsg) : State :=
  let s1 := (s.updContext i fun c => { c with list := l }).countList l fun k => { k with offered := inc32 k.offered }
  if (s1.routeList l).admits m.priority then
    (s1.updList l fun r => r.judge m.priority s1.timerOf).routePass now i l m
  else
    (s1.countList l fun k => { k with gapped := inc32 k.gapped }).refuseRouted now i m .gapped

/-- Routing of a new call (R61). -/
def State.route (s : State) (now : ExTime) (i : Nat) (m : SetupMsg) : State :=
  let r := judgeMatch m.category (destMatch s.routes.dests m.number)
  let s1 := s.withRoutes (s.routes.countMatch r)
  match r with
  | .toList l => s1.routeOver now i l m
  | .unmatched => s1.refuseRouted now i m .noRoute
  | .barred => s1.refuseRouted now i m .noRoute
  | .classExcluded => s1.refuseRouted now i m .noRoute

/-- A Setup is taken (R6). -/
def State.takeSetup (s : State) (m : SetupMsg) : State :=
  let now := s.time.now
  let s1 := s.countCtx fun k => { k with setupsTaken := inc32 k.setupsTaken }
  if s1.mgmt.device ≠ .inService then s1.refuseEarly m .notInService
  else if (s1.lookupRef m.callRef).isSome then s1.refuseEarly m .duplicateReference
  else match s1.idleContext with
    | none => s1.refuseEarly m .resourceExhausted
    | some i =>
      if m.count = 0 ∨ 20 < m.count then s1.refuseEarly m .invalidNumber
      else (s1.allocate now i (m.context now)).route now i m

/-- SETUP (R6). -/
def execSetup (s : State) : Host.Outcome State Fault Refusal :=
  .next (takeKind .forward kSetup (fun f s => s.takeSetup (setupOf f)) s)

/-! ### Origin Release and Release Confirm (R20, R21, R23) -/

/-- An origin Release ends a call that holds circuit `k` of group `g` (R20). -/
def State.originEnds (s : State) (i g k cause : Nat) (c : Context) : State :=
  let now := s.time.now
  let s1 := ((s.emitBwd (.releaseConfirm c.callRef)).emitFwd (.release k cause)).enterReleasing k
  let s2 := if c.phase = .proceeding then s1.endProbe i g else s1
  ((s2.dispose now i).free now i).exportIf c.rated

/-- An origin Release meets a context in its state (R20, R21). -/
def State.originRelease (s : State) (i cause : Nat) : State :=
  match s.context i with
  | none => s
  | some c =>
    match c.phase, c.circuit with
    | .clearing, _ => (s.emitBwd (.releaseConfirm c.callRef)).free s.time.now i
    | _, some (g, k) => s.originEnds i g k cause c
    | _, none => s

/-- ORIGIN_RELEASE (R20, R21, R23). -/
def execOriginRelease (s : State) : Host.Outcome State Fault Refusal :=
  .next (takeKind .forward kRelease (fun f s =>
    match s.lookupRef (keyOf f) with
    | some i => s.originRelease i (kindByteOf f)
    | none =>
      (s.countCtx fun k => { k with unknownRelease := inc32 k.unknownRelease }).emitBwd (.releaseConfirm (keyOf f))) s)

/-- A Release Confirm that a context does not expect (R19, R21). -/
def State.protoReleaseConfirm (s : State) : State :=
  s.countCtx fun k => { k with protoReleaseConfirm := inc32 k.protoReleaseConfirm }

/-- ORIGIN_RELEASE_CONFIRM (R21, R23). -/
def execOriginReleaseConfirm (s : State) : Host.Outcome State Fault Refusal :=
  .next (takeKind .forward kReleaseConfirm (fun f s =>
    match s.lookupRef (keyOf f) with
    | none => s.countCtx fun k => { k with unknownOther := inc32 k.unknownOther }
    | some i =>
      match s.context i with
      | none => s
      | some c => if c.phase = .clearing then s.free s.time.now i else s.protoReleaseConfirm) s)

end Sys2Proof.Machine
end

