-- ==== Sys2Proof/Machine/FarSide.lean ====
section
/-! DEFINITION. The far side's commands (chapter 2, and chapter 1 for the owning context): PROGRESS, ANSWER, FAR_RELEASE,
FAR_RELEASE_CONFIRM, BLOCK, UNBLOCK, FAR_SEIZE, FAR_CLEAR, TARIFF_OFFER. -/
namespace Sys2Proof.Machine

/-- The Circuit Map resolves the circuit that a far message names; an Unequipped one is counted and no more (R37). -/
def onCircuit (act : Nat → Circuit → State → State) (f : Frame) (s : State) : State :=
  match s.circuit (circuitOf f) with
  | none => s.countCirc fun k => { k with unequipped := inc32 k.unequipped }
  | some c => act (circuitOf f) c s

/-! ### PROGRESS and ANSWER (R11 to R13, R36) -/

/-- A Progress taken by a context (R12). -/
def State.contextProgress (s : State) (i : Nat) : State :=
  match s.context i with
  | none => s
  | some c =>
    match c.phase, c.circuit with
    | .proceeding, some (g, _) =>
      ((s.updContext i fun x => { x with phase := .alerting, timer := none, probe := false }).healthSuccess
        s.time.now g).emitBwd (.progress c.callRef)
    | .alerting, _ => s.emitBwd (.progress c.callRef)
    | _, _ => s.countCtx fun k => { k with protoProgress := inc32 k.protoProgress }

/-- PROGRESS (R12, R36). -/
def execProgress (s : State) : Host.Outcome State Fault Refusal :=
  .next (takeKind .backward kProgress (onCircuit fun _ c s =>
    match c.cond with
    | .seized i => s.contextProgress i
    | _ => s.countCirc fun k => { k with strayProgress := inc32 k.strayProgress }) s)

/-- Context `i` is Connected from now on, with the Answer report for its group (R13). -/
def State.connect (s : State) (i g : Nat) : State :=
  (s.updContext i fun x =>
    { x with phase := .connected, answerTime := some s.time.now, timer := none, probe := false }).updTraffic g
      Traffic.answer

/-- An Answer taken by a context (R13). -/
def State.contextAnswer (s : State) (i : Nat) : State :=
  match s.context i with
  | none => s
  | some c =>
    match c.phase, c.circuit with
    | .proceeding, some (g, _) => ((s.connect i g).healthSuccess s.time.now g).emitBwd (.answer c.callRef)
    | .alerting, some (g, _) => (s.connect i g).emitBwd (.answer c.callRef)
    | _, _ => s.countCtx fun k => { k with protoAnswer := inc32 k.protoAnswer }

/-- ANSWER (R13, R36). -/
def execAnswer (s : State) : Host.Outcome State Fault Refusal :=
  .next (takeKind .backward kAnswer (onCircuit fun _ c s =>
    match c.cond with
    | .seized i => s.contextAnswer i
    | _ => s.countCirc fun k => { k with strayAnswer := inc32 k.strayAnswer }) s)

/-! ### FAR_RELEASE (R15, R16, R34, R36) -/

/-- Is a cause byte in Proceeding a crankback, and of which cause (R15)? -/
def crankbackCause (cause : Nat) : Option Cause :=
  if cause = Cause.congestion.value then some .congestion
  else if cause = Cause.circuitUnavailable.value then some .circuitUnavailable
  else none

/-- A crankback of context `i` from circuit `k` of group `g` (R15). -/
def State.crankback (s : State) (i g k : Nat) (cause : Cause) (c : Context) : State :=
  let now := s.time.now
  let s1 := ((s.emitFwd (.releaseConfirm k)).enterGuard now k).updTraffic g Traffic.overflow
  let s2 := if cause = .circuitUnavailable then s1.healthFailure now g else s1
  ((s2.endProbe i g).loseCircuit now i c.list g cause).reselect now i none

/-- A far Release that ends the call of context `i` on circuit `k` of group `g` (R16). -/
def State.farEnds (s : State) (i g k cause : Nat) (c : Context) : State :=
  let now := s.time.now
  let s1 := (s.emitFwd (.releaseConfirm k)).enterGuard now k
  let s2 :=
    if c.phase = .proceeding then
      (if cause = Cause.circuitFailure.value then s1.healthFailure now g else s1).endProbe i g
    else s1
  (((s2.dispose now i).emitBwd (.release c.callRef cause)).startClearing i).exportIf c.rated

/-- A far Release taken by a context (R15, R16). -/
def State.contextRelease (s : State) (i cause : Nat) : State :=
  match s.context i with
  | none => s
  | some c =>
    match c.circuit with
    | none => s
    | some (g, k) =>
      match c.phase, crankbackCause cause with
      | .proceeding, some cb => s.crankback i g k cb c
      | _, _ => s.farEnds i g k cause c

/-- FAR_RELEASE, by the circuit's condition (R36). -/
def execFarRelease (s : State) : Host.Outcome State Fault Refusal :=
  .next (takeKind .backward kRelease (fun f => onCircuit (fun k c s =>
    match c.cond with
    | .seized i => s.contextRelease i (kindByteOf f)
    | .releasing _ => (s.emitFwd (.releaseConfirm k)).enterGuard s.time.now k
    | _ =>
      (s.countCirc fun n => { n with unexpectedRelease := inc32 n.unexpectedRelease }).emitFwd (.releaseConfirm k)) f) s)

/-- FAR_RELEASE_CONFIRM (R19, R34, R36). -/
def execFarReleaseConfirm (s : State) : Host.Outcome State Fault Refusal :=
  .next (takeKind .backward kReleaseConfirm (onCircuit fun k c s =>
    match c.cond with
    | .seized _ => s.protoReleaseConfirm
    | .releasing _ => s.enterGuard s.time.now k
    | _ => s.countCirc fun n => { n with strayReleaseConfirm := inc32 n.strayReleaseConfirm }) s)

/-! ### BLOCK and UNBLOCK (R38, R40) -/

/-- BLOCK (R38). -/
def execBlock (s : State) : Host.Outcome State Fault Refusal :=
  .next (takeKind .backward kBlock (onCircuit fun k _ s => (s.setRemote k true).emitFwd (.blockConfirm k)) s)

/-- UNBLOCK (R40). -/
def execUnblock (s : State) : Host.Outcome State Fault Refusal :=
  .next (takeKind .backward kUnblock (onCircuit fun k _ s => (s.setRemote k false).emitFwd (.unblockConfirm k)) s)

/-! ### FAR_SEIZE and FAR_CLEAR (R42 to R44) -/

/-- A Far Seize that is a protocol error (R42). -/
def State.seizeProtocolError (s : State) : State :=
  s.countCirc fun n => { n with seizeProtocol := inc32 n.seizeProtocol }

/-- The far side holds the circuit (R42, R43). -/
def State.farTakes (s : State) (k : Nat) : State := s.recast k fun x => { x with cond := .farSeized }

/-- Context `i` has lost its circuit of group `g` to a far seizure (R18). -/
def State.glareLost (s : State) (i g : Nat) (c : Context) : State :=
  let now := s.time.now
  (((s.updTraffic g Traffic.glareLoss).endProbe i g).loseCircuit now i c.list g .congestion).reselect now i
    (some .congestion)

/-- A Far Seize on a Seized circuit (R42, R43). -/
def State.glare (s : State) (i k : Nat) (r : Group) (g : Nat) : State :=
  match s.context i with
  | none => s.seizeProtocolError
  | some c =>
    if c.phase = .proceeding then
      match r.cfg.glare with
      | .controlling => s.countCirc fun n => { n with glareHeld := inc32 n.glareHeld }
      | .yielding => (s.farTakes k).glareLost i g c
    else s.seizeProtocolError

/-- A Far Seize on an equipped circuit, judged first by the group and then by the condition (R42). -/
def State.farSeize (s : State) (k : Nat) (c : Circuit) : State :=
  match s.group c.group with
  | none => s.seizeProtocolError
  | some r =>
    match r.cfg.direction, c.cond with
    | .outgoing, _ => s.seizeProtocolError
    | .bothWay, .idle =>
      if c.remote || c.localBlock then s.countCirc fun n => { n with seizeOnBlocked := inc32 n.seizeOnBlocked }
      else s.farTakes k
    | .bothWay, .guard _ => s.farTakes k
    | .bothWay, .seized i => s.glare i k r c.group
    | .bothWay, .farSeized => s.seizeProtocolError
    | .bothWay, .releasing _ => s.seizeProtocolError

/-- FAR_SEIZE (R42, R43). -/
def execFarSeize (s : State) : Host.Outcome State Fault Refusal :=
  .next (takeKind .backward kFarSeize (onCircuit fun k c s => s.farSeize k c) s)

/-- FAR_CLEAR (R44). -/
def execFarClear (s : State) : Host.Outcome State Fault Refusal :=
  .next (takeKind .backward kFarClear (onCircuit fun k c s =>
    match c.cond with
    | .farSeized => s.enterGuard s.time.now k
    | _ => s.countCirc fun n => { n with clearDiscarded := inc32 n.clearDiscarded }) s)

/-! ### TARIFF_OFFER (R113 to R115) -/

/-- The owner carrier of the group of a circuit, 0 for an own-network group and for an Unequipped circuit (R113). -/
def State.ownerOf (s : State) (k : Nat) : Nat :=
  (((s.circuit k).bind fun c => s.group c.group).map (·.cfg.owner)).getD 0

/-- The Tariff Offer Rejected notice (R113, R115). -/
def State.rejectOffer (s : State) (m : OfferMsg) (owner : Nat) (reason : OfferReason) : State :=
  let s1 :=
    match s.carrier m.claimed with
    | some _ => s.updCarrier m.claimed fun c => c.count fun k => { k with rejected := inc32 k.rejected }
    | none => s.withTariffs { s.tariffs with unknownRejected := inc32 s.tariffs.unknownRejected }
  s1.notify s.time.now (.offerRejected m.claimed m.circuit owner reason)

/-- An authorised offer is judged by pinning and validity (R114, R115). -/
def State.judgeOffer (s : State) (m : OfferMsg) (owner : Nat) (c : Carrier) : State :=
  if c.pinned then s.updCarrier m.claimed fun x => x.count fun k => { k with ignored := inc32 k.ignored }
  else match validBody m.body with
    | none => s.rejectOffer m owner .invalid
    | some b =>
      if 1439 < m.minute then s.rejectOffer m owner .invalid
      else s.updCarrier m.claimed fun x =>
        { (x.count fun k => { k with accepted := inc32 k.accepted }) with
          pending := some ⟨b, m.day, m.minute, .offered⟩ }

/-- A Tariff Offer is judged by authorisation first (R113). -/
def State.takeOffer (s : State) (m : OfferMsg) : State :=
  let owner := s.ownerOf m.circuit
  let s1 := match s.circuit m.circuit with
    | none => s.countCirc fun k => { k with unequipped := inc32 k.unequipped }
    | some _ => s
  if m.claimed = 0 ∨ Config.carrierMax < m.claimed ∨ m.claimed ≠ owner then s1.rejectOffer m owner .unauthorised
  else match s1.carrier m.claimed with
    | some c => s1.judgeOffer m owner c
    | none => s1.rejectOffer m owner .unauthorised

/-- TARIFF_OFFER (R113 to R115). -/
def execTariffOffer (s : State) : Host.Outcome State Fault Refusal :=
  .next (takeKind .backward kTariffOffer (fun f s => s.takeOffer (offerOf f)) s)

end Sys2Proof.Machine
end

