-- ==== Sys2Proof/Machine/Expiries.lean ====
section
/-! DEFINITION. The expiries of the timer array, each a step of its own (95_what_each_step_holds.md): T_PROCEED_EXPIRY,
T_CLEAR_EXPIRY, GUARD_EXPIRY, CLEARING_EXPIRY, PROBE_TIMER_EXPIRY, GAP_TIMER_EXPIRY, ACCEPT_TIMER_EXPIRY, SAMPLE_EXPIRY. An
expiry reads exchange time as its tick has set it (R152, log entry 5). A timer that is not due does not expire, and
then nothing changes (R157, log entry 2). -/
namespace Sys2Proof.Machine

/-! ### Supervision timers -/

/-- T-proceed has expired for context `i` on circuit `k` of group `g` (R17). -/
def State.noResponse (s : State) (i g k : Nat) (c : Context) : State :=
  let now := s.time.tickTime
  let s1 := (s.emitFwd (.release k Cause.noResponse.value)).enterReleasing k
  ((((s1.healthFailure now g).endProbe i g).loseCircuit now i c.list g .noResponse)).reselect now i (some .noResponse)

/-- The expiry of T-proceed of context `i`, where it is due (R17). -/
def State.expireProceed (s : State) (i : Nat) : State :=
  match s.context i with
  | none => s
  | some c =>
    match c.phase, c.circuit, timerDue s.time.ticks c.timer with
    | .proceeding, some (g, k), true => s.noResponse i g k c
    | _, _, _ => s

/-- T_PROCEED_EXPIRY (R17). -/
def execTProceedExpiry (i : Nat) (s : State) : Host.Outcome State Fault Refusal := .next (s.expireProceed i)

/-- The expiry of T-clear of context `i`, where it is due (R22). -/
def State.expireClear (s : State) (i : Nat) : State :=
  match s.context i with
  | none => s
  | some c =>
    match c.phase, timerDue s.time.ticks c.timer with
    | .clearing, true =>
      ((s.free s.time.tickTime i).notify s.time.tickTime (.clearingTimeout c.callRef)).countCtx
        fun k => { k with clearingTimeouts := inc32 k.clearingTimeouts }
    | _, _ => s

/-- T_CLEAR_EXPIRY (R22). -/
def execTClearExpiry (i : Nat) (s : State) : Host.Outcome State Fault Refusal := .next (s.expireClear i)

/-! ### Circuit timers -/

/-- The guard expiry of the circuit at the head of a group's guard list, where it is due (R32). -/
def State.expireGuard (s : State) (g : Nat) : State :=
  match (s.group g).bind fun r => r.guardList.head? with
  | none => s
  | some k =>
    match s.circuit k with
    | none => s
    | some c =>
      match c.cond with
      | .guard d => if d ≤ s.time.ticks then s.recast k fun x => { x with cond := .idle } else s
      | _ => s

/-- GUARD_EXPIRY (R32). -/
def execGuardExpiry (g : Nat) (s : State) : Host.Outcome State Fault Refusal := .next (s.expireGuard g)

/-- The clearing timer of circuit `k` has expired: Idle with the local flag set, the notice, the counter (R35), and the
look of R46 at the group. No rule orders the two notices of the event (log entry 6). -/
def State.maintenanceBlock (s : State) (g k : Nat) : State :=
  let s1 := s.recast k fun x => { x with cond := .idle, localBlock := true }
  ((s1.markDrained g).notifyAll s.time.tickTime (.maintenanceBlock g k :: s1.drainNotices g)).countCirc
    fun n => { n with clearingExpiry := inc32 n.clearingExpiry }

/-- The expiry of the clearing timer of circuit `k`, where it is due (R35). -/
def State.expireClearing (s : State) (k : Nat) : State :=
  match s.circuit k with
  | none => s
  | some c =>
    match c.cond with
    | .releasing d => if d ≤ s.time.ticks then s.maintenanceBlock c.group k else s
    | _ => s

/-- CLEARING_EXPIRY (R35). -/
def execClearingExpiry (k : Nat) (s : State) : Host.Outcome State Fault Refusal := .next (s.expireClearing k)

/-! ### Probe, gap and accept timers -/

/-- The expiry of a group's probe timer, where it is due (R88). -/
def State.expireProbe (s : State) (g : Nat) : State :=
  match s.group g with
  | none => s
  | some r => if timerDue s.time.ticks r.mon.probeTimer then s.updMonitor g GroupMonitor.probeExpired else s

/-- PROBE_TIMER_EXPIRY (R88). -/
def execProbeTimerExpiry (g : Nat) (s : State) : Host.Outcome State Fault Refusal := .next (s.expireProbe g)

/-- The expiry of a list's gap timer, where it is due: the gate is set Open (R98). -/
def State.expireGap (s : State) (l : Nat) : State :=
  if timerDue s.time.ticks (s.routeList l).gapTimer then
    s.updList l fun r => { r with gate := .opened, gapTimer := none }
  else s

/-- GAP_TIMER_EXPIRY (R98). -/
def execGapTimerExpiry (l : Nat) (s : State) : Host.Outcome State Fault Refusal := .next (s.expireGap l)

/-- The expiry of the accept timer in Awaiting Accept, where it is due (R146). -/
def State.expireAccept (s : State) : State :=
  let q := s.settle
  if timerDue s.time.ticks q.acceptTimer ∧ q.exportState = .awaitingAccept then
    (s.withSettle { q with
      exportState := .stalled
      acceptTimer := none
      counters := { q.counters with stalls := inc32 q.counters.stalls } }).notify s.time.tickTime
        (.exportStalled q.firstSeq q.outstanding q.queued.length)
  else s

/-- ACCEPT_TIMER_EXPIRY (R146). -/
def execAcceptTimerExpiry (s : State) : Host.Outcome State Fault Refusal := .next s.expireAccept

/-! ### The sample timer (R79, R158) -/

/-- The Band Change notice of a group's evaluation (R83). -/
def Group.bandNotice (before after : Group) (g : Nat) : List Notice :=
  if before.mon.band ≠ after.mon.band ∧ after.cfg.bandReport then
    [.bandChange g before.mon.band after.mon.band after.mon.s]
  else []

/-- The evaluation of one group (R79): stages 1 to 4, and the band handed to Admission Control. -/
def State.evaluateGroup (s : State) (g : Nat) : State :=
  match s.group g with
  | none => s
  | some r =>
    if r.sampled then
      let r1 := r.evaluate (s.thresholds r.cfg.thrSet)
      (s.updGroup g fun _ => r1).handBand g r1.mon.band
    else s

/-- The Band Change notices of a sample expiry, group by group (R83). -/
def State.bandNotices (s : State) : List Notice :=
  s.circ.groups.flatMap fun p =>
    if p.2.sampled then p.2.bandNotice (p.2.evaluate (s.thresholds p.2.cfg.thrSet)) p.1 else []

/-- The sample timer restarts at once with the sample period held (R79, R158). -/
def State.restartSample (s : State) : State :=
  s.withMon { s.mon with sampleTimer := s.timerOf (s.mgmt.params.samplePeriod * 10) }

/-- The expiry of the sample timer, where it is due: every In Service and Draining group is evaluated. The groups need
no order among themselves; their notices leave in a free order (log entry 6). -/
def State.expireSample (s : State) : State :=
  if timerDue s.time.ticks s.mon.sampleTimer then
    (((Table.keys s.circ.groups).foldl State.evaluateGroup s).restartSample).notifyAll s.time.tickTime s.bandNotices
  else s

/-- SAMPLE_EXPIRY (R79). -/
def execSampleExpiry (s : State) : Host.Outcome State Fault Refusal := .next s.expireSample

end Sys2Proof.Machine
end

