-- ==== Sys2Proof/Machine/Export.lean ====
section
/-! DEFINITION. The settlement collector's commands: BATCH_ACCEPT, EXPORT_HALT, EXPORT_RESUME (chapter 8). -/
namespace Sys2Proof.Machine

/-- BATCH_ACCEPT (R145). -/
def execBatchAccept (s : State) : Host.Outcome State Fault Refusal :=
  .next (takeKind .forward kBatchAccept (fun _ s =>
    match s.settle.exportState with
    | .awaitingAccept => (s.withSettle s.settle.accept).exportLook
    | _ => s.withSettle { s.settle with
        counters := { s.settle.counters with unexpectedAccepts := inc32 s.settle.counters.unexpectedAccepts } }) s)

/-- EXPORT_HALT (R147). -/
def execExportHalt (s : State) : Host.Outcome State Fault Refusal :=
  .next (takeKind .forward kExportHalt (fun _ s => s.withSettle { s.settle with halt := true }) s)

/-- EXPORT_RESUME (R148). -/
def execExportResume (s : State) : Host.Outcome State Fault Refusal :=
  .next (takeKind .forward kExportResume (fun _ s =>
    let s1 := s.withSettle { s.settle with halt := false }
    match s1.settle.exportState with
    | .ready => s1.exportLook
    | .awaitingAccept => s1
    | .stalled => s1.resendBatch) s)

end Sys2Proof.Machine
end

