-- ==== Sys2Proof/Machine/Service.lean ====
section
/-! DEFINITION. The Management Agent's own requests (chapter 11): UNKNOWN_REQUEST, ENTER_SERVICE, QUIESCE, RESTART,
SET_EXCHANGE_TIME, SET_GLOBAL_PARAMETERS. -/
namespace Sys2Proof.Machine

/-- UNKNOWN_REQUEST: an unknown code or a length that R182 does not give is answered with Bad Parameter (R174). -/
def execUnknownRequest (s : State) : Host.Outcome State Fault Refusal :=
  .next (takeHead .forward (fun m => decide (kindOf m = kRequest) && !knownRequest m)
    (fun m s => (Answer.refuse s .badParameter).send m) s)

/-- Set the device state. -/
def State.setDevice (s : State) (d : DeviceState) : State := s.withMgmt { s.mgmt with device := d }

/-- Enter Service, where it is available: from Unconfigured only with the time-valid flag set (R175). -/
def enterService (s : State) : Answer :=
  if s.mgmt.device = .unconfigured ∧ s.time.valid = false then Answer.refuse s .notAvailable
  else Answer.ok (s.setDevice .inService) []

/-- ENTER_SERVICE (R175). -/
def execEnterService (s : State) : Host.Outcome State Fault Refusal := .next (takeRequest 0x01 (fun _ => enterService) s)

/-- QUIESCE (R176). -/
def execQuiesce (s : State) : Host.Outcome State Fault Refusal :=
  .next (takeRequest 0x02 (fun _ s => Answer.ok (s.setDevice .quiesced) []) s)

/-! ### RESTART (R179, R180) -/

/-- The Context Table after a Restart (R25). -/
def ContextTable.restart (c : ContextTable) : ContextTable :=
  { c with contexts := [], refMap := [], inUse := 0, peak := 0, offer := .opened }

/-- The equipped circuits of a group, in circuit-number order. -/
def membersOf (g : Nat) (t : Table Circuit) : Table Circuit := t.filter fun p => decide (p.2.group = g)

/-- Counts and lists of a group drawn anew from its circuits, in circuit-number order (R52). -/
def Group.recount (r : Group) (members : Table Circuit) : Group :=
  { r with
    counts := countClasses (members.map (·.2))
    freeQueue := (members.filter fun p => decide (p.2.cls = .free)).map (·.1)
    guardList := [] }

/-- A group after a Restart, before the look of R46 (R52, R95). -/
def Group.restarted (r : Group) (members : Table Circuit) : Group :=
  { r.recount members with mon := GroupMonitor.fresh }

/-- Every equipped circuit Idle, keeping both flags (R52). -/
def idleCircuits (t : Table Circuit) : Table Circuit := Table.mapAll (fun _ c => { c with cond := .idle }) t

/-- The Circuit Map after a Restart, with the Occupancy Monitor's fields of the groups (R52, R95). -/
def CircuitMap.restart (m : CircuitMap) : CircuitMap :=
  let cs := idleCircuits m.circuits
  { m with
    circuits := cs
    groups := Table.mapAll (fun g r =>
      let r1 := r.restarted (membersOf g cs)
      if r1.drainDue then { r1 with drainedSent := true } else r1) m.groups }

/-- The Group Drained notices of a Restart (R52). -/
def CircuitMap.restartNotices (m : CircuitMap) : List Notice :=
  m.groups.flatMap fun p =>
    if (p.2.restarted (membersOf p.1 (idleCircuits m.circuits))).drainDue then [.groupDrained p.1] else []

/-- A route list after a Restart (R76, R104). -/
def RouteList.restart (r : RouteList) : RouteList := { r.gapOff with pointer := 1, counters := ListCounters.zero }

/-- The Route Selector after a Restart (R76, R104). -/
def RouteSelector.restart (r : RouteSelector) : RouteSelector :=
  { r with
    lists := (Table.mapAll (fun _ x => x.restart) r.lists).filter fun p => decide (p.2 ≠ RouteList.unloaded)
    unmatched := 0, barred := 0, classExcluded := 0 }

/-- The Settlement Queue after a Restart (R151). -/
def SettlementQueue.restart (q : SettlementQueue) : SettlementQueue :=
  { q with reservations := 0, queued := [], exportState := .ready, halt := false, outstanding := 0, acceptTimer := none }

/-- A Restart carried out (R180). -/
def State.restart (s : State) : State :=
  (((((s.withCtx s.ctx.restart).withCirc s.circ.restart).withRoutes s.routes.restart).withSettle
    s.settle.restart).setDevice .quiesced).notifyAll s.time.now s.circ.restartNotices

/-- The three numbers of R179: contexts in use, reservations, queued records. -/
def State.restartNumbers (s : State) : List Byte :=
  enc 2 s.ctx.inUse ++ enc 2 s.settle.reservations ++ enc 2 s.settle.queued.length

/-- Restart with its force option (R179). -/
def restartRequest (force : Bool) (s : State) : Answer :=
  if force = false ∧ (0 < s.ctx.inUse ∨ 0 < s.settle.reservations ∨ s.settle.queued ≠ []) then Answer.refuse s .busy
  else Answer.ok s.restart s.restartNumbers

/-- RESTART (R179, R180). -/
def execRestart (s : State) : Host.Outcome State Fault Refusal :=
  .next (takeRequest 0x03 (fun p => restartRequest (flagAt 0 p)) s)

/-! ### Time and global parameters -/

/-- Set Exchange Time (R156). -/
def setExchangeTime (day cs : Nat) (s : State) : Answer :=
  if Config.dayLength ≤ cs then Answer.refuse s .badParameter
  else Answer.ok (s.withTime { s.time with now := ⟨day, cs⟩, valid := true })
    (encTime s.time.now ++ encFlag s.time.valid)

/-- SET_EXCHANGE_TIME (R156). -/
def execSetExchangeTime (s : State) : Host.Outcome State Fault Refusal :=
  .next (takeRequest 0x06 (fun p => setExchangeTime (field 0 2 p) (field 2 4 p)) s)

/-- The ranges of R178; the three supervision fields are valid at every value. -/
def GlobalParams.valid (g : GlobalParams) : Bool :=
  decide (1 ≤ g.samplePeriod ∧ 1 ≤ g.highWater ∧ g.highWater ≤ 8192 ∧ g.lowWater < g.highWater ∧ 1 ≤ g.batchSize
    ∧ g.batchSize ≤ 64)

/-- The seven values as a request and its reply carry them (R178, R182). -/
def GlobalParams.bytes (g : GlobalParams) : List Byte :=
  enc 2 g.tProceed ++ enc 2 g.tClear ++ enc 2 g.tAccept ++ enc 1 g.samplePeriod ++ enc 2 g.highWater ++ enc 2 g.lowWater
    ++ enc 1 g.batchSize

/-- Set Global Parameters (R178), with the comparison of new watermarks (R107). -/
def setGlobalParameters (g : GlobalParams) (s : State) : Answer :=
  if g.valid then
    let old := s.mgmt.params
    let s1 := s.withMgmt { s.mgmt with params := g }
    Answer.ok
      (if g.highWater = old.highWater ∧ g.lowWater = old.lowWater then s1 else s1.compareBoth s.time.now) old.bytes
  else Answer.refuse s .badParameter

/-- SET_GLOBAL_PARAMETERS (R178). -/
def execSetGlobalParameters (s : State) : Host.Outcome State Fault Refusal :=
  .next (takeRequest 0x07 (fun p => setGlobalParameters (globalParamsOf p)) s)

end Sys2Proof.Machine
end

