-- ==== Sys2Proof/Machine/Loads.lean ====
section
/-! DEFINITION. The requests that load, change and remove table entries (chapters 2 to 6). -/
namespace Sys2Proof.Machine

/-! ### Destinations (R56) -/

/-- What a Load Destination asks for, where R56 accepts it: the entry. -/
def LoadDestReq.entry (r : LoadDestReq) : Option DestEntry :=
  if r.pfx.count = 0 ∨ 15 < r.pfx.count then none
  else if r.kind = 0 then
    if 511 < r.list ∨ (r.maskPresent ∧ r.mask = 0) then none
    else some ⟨r.pfx.digits, .route r.list (if r.maskPresent then some r.mask else none)⟩
  else if r.kind = 1 then
    if r.list ≠ 0xFFFF ∨ r.maskPresent then none else some ⟨r.pfx.digits, .bar⟩
  else none

/-- The entry replaces the one with its prefix, or joins the table (R53, R56). -/
def putDest (e : DestEntry) : List DestEntry → List DestEntry
  | [] => [e]
  | x :: t => if x.pfx = e.pfx then e :: t else x :: putDest e t

/-- Is there an entry for a prefix? -/
def hasPrefix (dests : List DestEntry) (p : List Digit) : Bool := dests.any fun e => decide (e.pfx = p)

/-- Hold the destination table. -/
def State.withDests (s : State) (d : List DestEntry) : State := s.withRoutes { s.routes with dests := d }

/-- Load Destination (R56). -/
def loadDestination (r : LoadDestReq) (s : State) : Answer :=
  match r.entry with
  | none => Answer.refuse s .badParameter
  | some e =>
    if hasPrefix s.routes.dests e.pfx = false ∧ Config.destinationMax ≤ s.routes.dests.length then
      Answer.refuse s .tableFull
    else Answer.ok (s.withDests (putDest e s.routes.dests)) []

/-- LOAD_DESTINATION (R56). -/
def execLoadDestination (s : State) : Host.Outcome State Fault Refusal :=
  .next (takeRequest 0x10 (fun p => loadDestination (loadDestOf p)) s)

/-- Delete Destination (R56). A digit string that is no prefix names no entry (log entry 19). -/
def deleteDestination (d : DigitString) (s : State) : Answer :=
  if d.digits.length = d.count ∧ hasPrefix s.routes.dests d.digits then
    Answer.ok (s.withDests (s.routes.dests.filter fun e => decide (e.pfx ≠ d.digits))) []
  else Answer.refuse s .notFound

/-- DELETE_DESTINATION (R56). -/
def execDeleteDestination (s : State) : Host.Outcome State Fault Refusal :=
  .next (takeRequest 0x11 (fun p => deleteDestination (digitStringOf 0 8 p)) s)

/-! ### Route lists (R59, R102) -/

/-- The two checks of R59. -/
def LoadListReq.valid (r : LoadListReq) : Bool :=
  decide (r.list ≤ 511 ∧ 1 ≤ r.count ∧ r.count ≤ 8 ∧ r.budget ≤ 7 ∧ 1 ≤ r.gapFloor ∧ r.gapFloor ≤ r.gapMax)
    && r.choices.all (fun c => decide (1 ≤ c.group ∧ c.group ≤ 255 ∧ c.ceiling ≤ 2000000))
    && decide (r.choices.map (·.group)).Nodup

/-- The list that a load leaves: loaded, pointer 1, gap state Off at the new floor, counters kept (R59, R103). -/
def RouteList.reload (old : RouteList) (r : LoadListReq) : RouteList :=
  ({ old with
    loaded := true, choices := r.choices, budget := r.budget, pointer := 1, gapEnable := r.gapEnable,
    gapFloor := r.gapFloor, gapMax := r.gapMax, gapStep := r.gapStep } : RouteList).gapOff

/-- Load Route List (R59). -/
def loadRouteList (r : LoadListReq) (s : State) : Answer :=
  if r.valid then Answer.ok (s.updList r.list fun x => x.reload r) [] else Answer.refuse s .badParameter

/-- LOAD_ROUTE_LIST (R59). -/
def execLoadRouteList (s : State) : Host.Outcome State Fault Refusal :=
  .next (takeRequest 0x18 (fun p => loadRouteList (loadListOf p)) s)

/-- Restart Gap on a loaded list (R102). -/
def RouteList.restartGap (r : RouteList) : RouteList :=
  match r.gapState with
  | .off => r
  | .active => { r with gap := r.gapFloor, gate := .opened, gapTimer := none }

/-- Restart Gap (R102). -/
def restartGap (l : Nat) (s : State) : Answer :=
  if 511 < l then Answer.refuse s .badParameter
  else if (s.routeList l).loaded then Answer.ok (s.updList l RouteList.restartGap) []
  else Answer.refuse s .notFound

/-- RESTART_GAP (R102). -/
def execRestartGap (s : State) : Host.Outcome State Fault Refusal :=
  .next (takeRequest 0x19 (fun p => restartGap (field 0 2 p)) s)

/-! ### Threshold sets (R78) -/

/-- The ranges of R78. -/
def ThresholdSet.valid (t : ThresholdSet) : Bool :=
  decide (1 ≤ t.t1 ∧ t.t1 < t.t2 ∧ t.t2 < t.t3 ∧ t.t3 ≤ 999 ∧ t.hysteresis ≤ 200 ∧ t.shift ≤ 6)

/-- Load Threshold Set (R78). -/
def loadThresholdSet (n : Nat) (t : ThresholdSet) (s : State) : Answer :=
  if n ≤ 15 ∧ t.valid then Answer.ok (s.setThresholds n t) [] else Answer.refuse s .badParameter

/-- LOAD_THRESHOLD_SET (R78). -/
def execLoadThresholdSet (s : State) : Host.Outcome State Fault Refusal :=
  .next (takeRequest 0x20 (fun p =>
    loadThresholdSet (field 0 1 p) ⟨field 1 2 p, field 3 2 p, field 5 2 p, field 7 2 p, field 9 1 p⟩) s)

/-! ### Trunk groups (R45 to R49) -/

/-- The configuration that a Load Trunk Group carries, where its fields are in range (first check of R47). -/
def LoadGroupReq.config (r : LoadGroupReq) : Option GroupConfig :=
  if 1 ≤ r.id ∧ r.id ≤ 255 ∧ r.first ≤ 16383 ∧ 1 ≤ r.size ∧ r.size ≤ 1024 ∧ r.first + r.size ≤ 16384 ∧ r.owner ≤ 63
      ∧ r.direction ≤ 1 ∧ r.glare ≤ 1 ∧ r.hunt ≤ 1 ∧ r.guardTime ≤ 255 ∧ r.reservation ≤ 1023 ∧ r.thrSet ≤ 15
      ∧ r.theta ≤ 15 ∧ 1 ≤ r.probeInterval ∧ r.probeInterval ≤ 255 then
    some
      { first := r.first, size := r.size, owner := r.owner
        direction := if r.direction = 0 then .outgoing else .bothWay
        glare := if r.glare = 0 then .controlling else .yielding
        hunt := if r.hunt = 0 then .oldestFree else .lowestNumber
        guardTime := r.guardTime, reservation := r.reservation, thrSet := r.thrSet, theta := r.theta,
        probeInterval := r.probeInterval, bandReport := r.bandReport }
  else none

/-- Is a circuit number in the configured range? -/
def GroupConfig.holds (g : GroupConfig) (c : Nat) : Bool := decide (g.first ≤ c ∧ c < g.first + g.size)

/-- Does the range include a circuit of another equipped group (second check of R47)? -/
def overlapsOther (id : Nat) (g : GroupConfig) (t : Table Circuit) : Bool :=
  t.any fun p => g.holds p.1 && decide (p.2.group ≠ id)

/-- Is every circuit of the group Idle? -/
def allIdle (id : Nat) (t : Table Circuit) : Bool := (membersOf id t).all fun p => decide (p.2.cond = .idle)

/-- Is the group idle and Out of Service, so that it may be reloaded or removed (R47, R49)? -/
def Group.idleOut (r : Group) (id : Nat) (t : Table Circuit) : Bool :=
  decide (r.admin = .outOfService) && allIdle id t

/-- A circuit as a load equips it (R47). -/
def Circuit.new (id : Nat) : Circuit := { group := id, cond := .idle, remote := false, localBlock := false }

/-- The circuits of a range that no load has equipped, ascending (R47, R48). -/
def newCircuits (g : GroupConfig) (t : Table Circuit) : List Nat :=
  g.range.filter fun c => (Table.find c t).isNone

/-- The circuit range redrawn: circuits outside it become Unequipped, new ones Idle with both flags clear (R47, R48). -/
def redraw (id : Nat) (g : GroupConfig) (t : Table Circuit) : Table Circuit :=
  (newCircuits g t).foldl (fun t c => Table.put c (Circuit.new id) t)
    (t.filter fun p => decide (p.2.group ≠ id) || g.holds p.1)

/-- The group that a load leaves, new or reloaded (R47, R48, R94). -/
def loadedGroup (id : Nat) (g : GroupConfig) (old : Option Group) (t : Table Circuit) : Group :=
  { cfg := g, admin := .outOfService, drainedSent := false
    counts := countClasses ((membersOf id (redraw id g t)).map (·.2))
    freeQueue := ((old.map (·.freeQueue)).getD []).filter (fun c => g.holds c) ++ newCircuits g t
    guardList := []
    mon := (old.map (·.mon)).getD GroupMonitor.fresh }

/-- The group and its circuits take their places (R47, R48). -/
def State.equip (s : State) (id : Nat) (g : GroupConfig) : State :=
  s.withCirc { s.circ with
    groups := Table.put id (loadedGroup id g (s.group id) s.circ.circuits) s.circ.groups
    circuits := redraw id g s.circ.circuits }

/-- Load Trunk Group, with the checks of R47 in their order. -/
def loadTrunkGroup (r : LoadGroupReq) (s : State) : Answer :=
  match r.config with
  | none => Answer.refuse s .badParameter
  | some g =>
    if overlapsOther r.id g s.circ.circuits then Answer.refuse s .badParameter
    else if g.owner ≠ 0 ∧ (s.carrier g.owner).isNone then Answer.refuse s .notFound
    else match s.group r.id with
      | none => Answer.ok (s.equip r.id g) []
      | some old =>
        if old.idleOut r.id s.circ.circuits then Answer.ok (s.equip r.id g) [] else Answer.refuse s .busy

/-- LOAD_TRUNK_GROUP (R47, R48). -/
def execLoadTrunkGroup (s : State) : Host.Outcome State Fault Refusal :=
  .next (takeRequest 0x21 (fun p => loadTrunkGroup (loadGroupOf p)) s)

/-- The group and its circuits are gone (R49). -/
def State.unequip (s : State) (id : Nat) : State :=
  s.withCirc { s.circ with
    groups := Table.del id s.circ.groups
    circuits := s.circ.circuits.filter fun p => decide (p.2.group ≠ id) }

/-- Remove Trunk Group (R49). -/
def removeTrunkGroup (id : Nat) (s : State) : Answer :=
  match s.group id with
  | none => Answer.refuse s .notFound
  | some r =>
    if r.idleOut id s.circ.circuits then Answer.ok (s.unequip id) [] else Answer.refuse s .busy

/-- REMOVE_TRUNK_GROUP (R49). -/
def execRemoveTrunkGroup (s : State) : Host.Outcome State Fault Refusal :=
  .next (takeRequest 0x22 (fun p => removeTrunkGroup (field 0 1 p)) s)

/-- The admin states by their bytes (R182). -/
def adminOf : Nat → Option AdminState
  | 0 => some .inService
  | 1 => some .draining
  | 2 => some .outOfService
  | _ => none

/-- A group takes a new admin state; an entry into Draining clears the flag and looks at the counts (R45, R46). -/
def State.changeAdmin (s : State) (id : Nat) (a : AdminState) : State :=
  match a with
  | .draining => (s.updGroup id fun r => { r with admin := a, drainedSent := false }).drainCheck s.time.now id
  | _ => s.updGroup id fun r => { r with admin := a }

/-- Set Group State (R45). With both the group and the state wrong R45 does not say which reply goes out: a free value
decides (log entry 7). -/
def setGroupState (id adminByte : Nat) (s : State) : Answer :=
  match s.group id, adminOf adminByte with
  | none, none => Answer.refuse s (if Config.notFoundFirst id adminByte then .notFound else .badParameter)
  | none, some _ => Answer.refuse s .notFound
  | some _, none => Answer.refuse s .badParameter
  | some r, some a => Answer.ok (if r.admin = a then s else s.changeAdmin id a) []

/-- SET_GROUP_STATE (R45). -/
def execSetGroupState (s : State) : Host.Outcome State Fault Refusal :=
  .next (takeRequest 0x23 (fun p => setGroupState (field 0 1 p) (field 1 1 p)) s)

/-! ### Local blocks (R41) -/

/-- Set or clear a circuit's local flag by request (R41). -/
def localBlock (c : Nat) (b : Bool) (s : State) : Answer :=
  if Config.circuitCount ≤ c then Answer.refuse s .badParameter
  else if (s.circuit c).isNone then Answer.refuse s .notFound
  else Answer.ok (s.setLocal c b) []

/-- BLOCK_CIRCUIT (R41). -/
def execBlockCircuit (s : State) : Host.Outcome State Fault Refusal :=
  .next (takeRequest 0x24 (fun p => localBlock (field 0 2 p) true) s)

/-- UNBLOCK_CIRCUIT (R41). -/
def execUnblockCircuit (s : State) : Host.Outcome State Fault Refusal :=
  .next (takeRequest 0x25 (fun p => localBlock (field 0 2 p) false) s)

/-! ### Carriers (R111, R112, R116, R117) -/

/-- A carrier id lies in 1 to 63. -/
def carrierId (c : Nat) : Bool := decide (1 ≤ c ∧ c ≤ Config.carrierMax)

/-- Hold a carrier's record. -/
def State.putCarrier (s : State) (id : Nat) (c : Carrier) : State :=
  s.withTariffs { s.tariffs with carriers := Table.put id c s.tariffs.carriers }

/-- A carrier as it is declared (R111). -/
def Carrier.declared (body : Tariff) : Carrier :=
  { current := body, source := .localLoad, pending := none, pinned := false, counters := ⟨0, 0, 0, 0, 0⟩ }

/-- Declare Carrier (R111). -/
def declareCarrier (id : Nat) (body : Option Tariff) (s : State) : Answer :=
  match carrierId id, validBody body with
  | true, some b =>
    if (s.carrier id).isSome then Answer.refuse s .busy else Answer.ok (s.putCarrier id (Carrier.declared b)) []
  | _, _ => Answer.refuse s .badParameter

/-- DECLARE_CARRIER (R111). -/
def execDeclareCarrier (s : State) : Host.Outcome State Fault Refusal :=
  .next (takeRequest 0x30 (fun p => declareCarrier (field 0 1 p) (tariffOf (p.drop 1))) s)

/-- Does an equipped group name the carrier as owner (R112)? -/
def State.ownsGroup (s : State) (id : Nat) : Bool := s.circ.groups.any fun p => decide (p.2.cfg.owner = id)

/-- Remove Carrier (R112). -/
def removeCarrier (id : Nat) (s : State) : Answer :=
  if carrierId id = false then Answer.refuse s .badParameter
  else if (s.carrier id).isNone then Answer.refuse s .notFound
  else if s.ownsGroup id then Answer.refuse s .busy
  else Answer.ok (s.withTariffs { s.tariffs with carriers := Table.del id s.tariffs.carriers }) []

/-- REMOVE_CARRIER (R112). -/
def execRemoveCarrier (s : State) : Host.Outcome State Fault Refusal :=
  .next (takeRequest 0x31 (fun p => removeCarrier (field 0 1 p)) s)

/-- The first check of R116 on what is no tariff body. -/
def LoadTariffReq.fieldsFit (r : LoadTariffReq) : Bool :=
  carrierId r.carrier && decide (r.mode = 0 ∨ (r.mode = 1 ∧ r.minute ≤ 1439))

/-- The carrier's record after an accepted load (R116). -/
def Carrier.load (c : Carrier) (r : LoadTariffReq) (body : Tariff) : Carrier :=
  if r.mode = 0 then
    { c with current := body, source := .localLoad, pending := if r.discard then none else c.pending }
  else { c with pending := some ⟨body, r.day, r.minute, .localLoad⟩ }

/-- Load Tariff (R116). -/
def loadTariff (r : LoadTariffReq) (s : State) : Answer :=
  match r.fieldsFit, validBody r.body with
  | true, some b =>
    if (s.carrier r.carrier).isNone then Answer.refuse s .notFound
    else Answer.ok (s.updCarrier r.carrier fun c => c.load r b) []
  | _, _ => Answer.refuse s .badParameter

/-- LOAD_TARIFF (R116). -/
def execLoadTariff (s : State) : Host.Outcome State Fault Refusal :=
  .next (takeRequest 0x32 (fun p => loadTariff (loadTariffOf p)) s)

/-- Does the carrier hold a pending tariff of source Offered (R117)? -/
def Carrier.offeredPending (c : Carrier) : Bool := decide (c.pending.map (·.source) = some .offered)

/-- A carrier pinned: an Offered pending tariff is withdrawn (R117). -/
def Carrier.pin (c : Carrier) : Carrier :=
  { c with pinned := true, pending := if c.offeredPending then none else c.pending }

/-- Pin Carrier; the reply indicates a withdrawal (R117, log entry 17). -/
def pinCarrier (id : Nat) (s : State) : Answer :=
  if carrierId id = false then Answer.refuse s .badParameter
  else match s.carrier id with
    | none => Answer.refuse s .notFound
    | some c => Answer.ok (s.updCarrier id Carrier.pin) (encFlag c.offeredPending)

/-- PIN_CARRIER (R117). -/
def execPinCarrier (s : State) : Host.Outcome State Fault Refusal :=
  .next (takeRequest 0x33 (fun p => pinCarrier (field 0 1 p)) s)

/-- Unpin Carrier (R117). -/
def unpinCarrier (id : Nat) (s : State) : Answer :=
  if carrierId id = false then Answer.refuse s .badParameter
  else if (s.carrier id).isNone then Answer.refuse s .notFound
  else Answer.ok (s.updCarrier id fun c => { c with pinned := false }) []

/-- UNPIN_CARRIER (R117). -/
def execUnpinCarrier (s : State) : Host.Outcome State Fault Refusal :=
  .next (takeRequest 0x34 (fun p => unpinCarrier (field 0 1 p)) s)

end Sys2Proof.Machine
end

