-- ==== Sys2Proof/Machine/Ports.lean ====
section
/-! DEFINITION. The Port Interface (chapter 10): MESSAGE_ARRIVAL, PASS_THROUGH, CLEAR_ERROR_FLAGS. -/
namespace Sys2Proof.Machine

/-- A checked message joins the tail of its port's queue (R162). -/
def PortState.join (p : PortState) (f : Frame) : PortState :=
  { p with queue := p.queue ++ [f], peak := max p.peak (p.queue.length + 1) }

/-- A message is discarded for an error: its counter, and its flag (R169). -/
def PortState.discard (p : PortState) (e : PortErr) : PortState :=
  { p with errors := p.errors.count e, flags := p.flags.raise e }

/-- A message is discarded for an error: where the flag was clear a Port Error notice is emitted (R169). -/
def State.portError (s : State) (port : Port) (e : PortErr) : State :=
  let p := s.port port
  let s1 := s.withPort port (p.discard e)
  if p.flags.get e then s1 else s1.notify s.time.now (.portError port e ((p.errors.count e).get e))

/-- A message has arrived whole on a port's input (R162). -/
def State.arrive (s : State) (port : Port) (f : Frame) : State :=
  let p := s.port port
  if Config.queueMax ≤ p.queue.length then s.portError port .overrun
  else match frameError port f with
    | some e => s.portError port e
    | none => s.withPort port (p.join f)

/-- MESSAGE_ARRIVAL (R162, R163, R169). Messages that arrive while the reset line is held are not taken (R171). -/
def execMessageArrival (port : Port) (f : Frame) (s : State) : Host.Outcome State Fault Refusal :=
  .next (if s.resetLine then s else s.arrive port f)

/-- The port's pass-through counter rises by one (R165). -/
def PortState.countPassed (p : PortState) : PortState := { p with passed := inc32 p.passed }

/-- PASS_THROUGH (R165): emitted on the output of the same direction, byte for byte. -/
def execPassThrough (port : Port) (s : State) : Host.Outcome State Fault Refusal :=
  .next (takeHead port (fun f => isPassThrough (kindOf f))
    (fun f s => (s.withPort port (s.port port).countPassed).emitOn port (.passed f)) s)

/-- The four flags of a port are cleared; the counters stay (R169). -/
def PortState.clearFlags (p : PortState) : PortState := { p with flags := ErrFlags.none }

/-- CLEAR_ERROR_FLAGS (R169, R177). -/
def execClearErrorFlags (s : State) : Host.Outcome State Fault Refusal :=
  .next (takeRequest 0x05 (fun _ s =>
    Answer.ok ({ s with fwd := s.fwd.clearFlags, bwd := s.bwd.clearFlags } : State) []) s)

end Sys2Proof.Machine
end

