-- ==== Sys2Proof/Machine/Reads.lean ====
section
/-! DEFINITION. The requests that read, and the counter latch (R50, R56, R75, R90 to R93, R122, R150, R177). Results stand in
the order in which the rule of each request names them, at the widths of R182 (log entries 13 to 18). -/
namespace Sys2Proof.Machine

/-- An item that may be absent: a presence flag, then its bytes, 0 when it is absent (R182). -/
def encOpt (w : Nat) : Option (List Byte) → List Byte
  | some bs => encFlag true ++ bs
  | none => encFlag false ++ List.replicate w 0

/-- The ticks remaining on a timer that may run (R182). -/
def encTicks (w : Nat) (ticks : Nat) (timer : Option Nat) : List Byte := encOpt w ((remaining ticks timer).map (enc w))

/-- A list of 32-bit counters. -/
def enc32s (ns : List Nat) : List Byte := ns.flatMap (enc 4)

/-! ### Read Device Status (R177) -/

def ContextCounters.bytes (c : ContextCounters) : List Byte :=
  enc32s [c.setupsTaken, c.refusedEarly, c.protoProgress, c.protoAnswer, c.protoReleaseConfirm, c.unknownRelease,
    c.unknownOther, c.clearingTimeouts]

def CircuitCounters.bytes (c : CircuitCounters) : List Byte :=
  enc32s [c.unexpectedRelease, c.strayProgress, c.strayAnswer, c.strayReleaseConfirm, c.unequipped, c.seizeOnBlocked,
    c.seizeProtocol, c.glareHeld, c.clearDiscarded, c.clearingExpiry]

def RatingCounters.bytes (c : RatingCounters) : List Byte :=
  enc32s [c.quotes, c.raised, c.lowered, c.rated, c.durationsClamped, c.chargesSaturated]

def SettlementCounters.bytes (c : SettlementCounters) : List Byte :=
  enc32s [c.batchesSent, c.batchesResent, c.recordsSent, c.batchesAccepted, c.recordsAccepted, c.unexpectedAccepts,
    c.stalls]

def ErrFlags.bytes (f : ErrFlags) : List Byte :=
  encFlag f.check ++ encFlag f.length ++ encFlag f.kind ++ encFlag f.overrun

def ErrCounters.bytes (c : ErrCounters) : List Byte := enc 2 c.check ++ enc 2 c.length ++ enc 2 c.kind ++ enc 2 c.overrun

/-- The items and counters of R150 (log entry 13); the sequence numbers at the head and at the tail of the list, absent when
it is empty, carry a presence flag each (log entry 15). -/
def SettlementQueue.bytes (q : SettlementQueue) (ticks : Nat) : List Byte :=
  enc 2 q.reservations ++ enc 2 q.queued.length ++ encOpt 4 (q.queued.head?.map fun r => enc 4 r.seq)
    ++ encOpt 4 (q.queued.getLast?.map fun r => enc 4 r.seq) ++ enc 4 q.nextSeq ++ enc 1 q.exportState.value
    ++ encFlag q.halt ++ enc 1 q.outstanding ++ encTicks 3 ticks q.acceptTimer ++ q.counters.bytes

/-- The results of Read Device Status, group by group (R177). -/
def State.statusBytes (s : State) : List Byte :=
  enc 1 s.mgmt.device.value ++ encTime s.time.now ++ encFlag s.time.valid ++ s.mgmt.params.bytes
    ++ enc 2 s.ctx.inUse ++ enc 2 s.ctx.peak ++ enc 1 s.ctx.offer.value ++ s.ctx.counters.bytes
    ++ s.circ.counters.bytes ++ enc32s [s.routes.unmatched, s.routes.barred, s.routes.classExcluded]
    ++ enc 4 s.tariffs.unknownRejected ++ s.rating.bytes
    ++ s.settle.bytes s.time.ticks
    ++ s.fwd.flags.bytes ++ s.bwd.flags.bytes ++ s.fwd.errors.bytes ++ s.bwd.errors.bytes
    ++ enc 4 s.fwd.passed ++ enc 4 s.bwd.passed
    ++ enc 1 s.fwd.queue.length ++ enc 1 s.fwd.peak ++ enc 1 s.bwd.queue.length ++ enc 1 s.bwd.peak

/-- READ_DEVICE_STATUS (R177). -/
def execReadDeviceStatus (s : State) : Host.Outcome State Fault Refusal :=
  .next (takeRequest 0x04 (fun _ s => Answer.ok s s.statusBytes) s)

/-! ### Lookup Destination (R56) -/

/-- A destination entry as Lookup Destination returns it; the list id that a Bar entry has not is sent as 0xFFFF, with no
presence flag (log entry 15). -/
def DestEntry.bytes (e : DestEntry) : List Byte :=
  encDigits 8 e.pfx ++
    match e.kind with
    | .route l m => enc 1 0 ++ enc 2 l ++ encOpt 1 (m.map fun b => [b])
    | .bar => enc 1 1 ++ enc 2 0xFFFF ++ encOpt 1 none

/-- Lookup Destination (R56). -/
def lookupDestination (d : DigitString) (s : State) : Answer :=
  if d.count = 0 ∨ 20 < d.count then Answer.refuse s .badParameter
  else match destMatch s.routes.dests d.digits with
    | some e => Answer.ok s e.bytes
    | none => Answer.refuse s .notFound

/-- LOOKUP_DESTINATION (R56). -/
def execLookupDestination (s : State) : Host.Outcome State Fault Refusal :=
  .next (takeRequest 0x12 (fun p => lookupDestination (digitStringOf 0 10 p)) s)

/-! ### Read Group (R50, R90) -/

/-- Configuration fields in the order of R26, with the widths of Load Trunk Group. -/
def GroupConfig.bytes (g : GroupConfig) : List Byte :=
  enc 2 g.first ++ enc 2 g.size ++ enc 1 g.owner ++ enc 1 g.direction.value ++ enc 1 g.glare.value ++ enc 1 g.hunt.value
    ++ enc 1 g.guardTime ++ enc 2 g.reservation ++ enc 1 g.thrSet ++ enc 1 g.theta ++ enc 1 g.probeInterval
    ++ encFlag g.bandReport

def Counts.bytes (n : Counts) : List Byte :=
  enc 2 n.free ++ enc 2 n.blocked ++ enc 2 n.seized ++ enc 2 n.farSeized ++ enc 2 n.releasing ++ enc 2 n.guard

/-- The seven traffic counters; usage is 48 bits wide (R89). -/
def Traffic.bytes (t : Traffic) : List Byte :=
  enc32s [t.attempts, t.seizures, t.overflows, t.answers, t.failures, t.glareLosses] ++ enc 6 t.usage

/-- The Occupancy Monitor's fields of a group (R90). -/
def GroupMonitor.bytes (m : GroupMonitor) (ticks : Nat) : List Byte :=
  enc 3 m.s256 ++ enc 2 m.s ++ enc 1 m.band.value ++ enc 1 m.health.value ++ enc 1 m.failCount ++ enc 1 m.gate.value
    ++ encTicks 2 ticks m.probeTimer ++ m.traffic.bytes

def Group.bytes (r : Group) (ticks : Nat) : List Byte :=
  r.cfg.bytes ++ enc 1 r.admin.value ++ encFlag r.drainedSent ++ r.counts.bytes ++ r.mon.bytes ticks

/-- Read Group (R50, R90). -/
def readGroup (id : Nat) (s : State) : Answer :=
  match s.group id with
  | none => Answer.refuse s .notFound
  | some r => Answer.ok s (r.bytes s.time.ticks)

/-- READ_GROUP (R50, R90). -/
def execReadGroup (s : State) : Host.Outcome State Fault Refusal :=
  .next (takeRequest 0x40 (fun p => readGroup (field 0 1 p)) s)

/-! ### Read Circuit (R50) -/

/-- The call reference of the context that owns a Seized circuit. -/
def State.ownerRef (s : State) (c : Circuit) : Option Nat :=
  match c.cond with
  | .seized i => (s.context i).map (·.callRef)
  | _ => none

/-- The running timer of a circuit. -/
def Circuit.timer (c : Circuit) : Option Nat :=
  match c.cond with
  | .guard d => some d
  | .releasing d => some d
  | _ => none

/-- Read Circuit of an equipped circuit (R50). -/
def State.circuitBytes (s : State) (c : Circuit) : List Byte :=
  enc 1 c.group ++ enc 1 c.cond.value ++ encFlag c.remote ++ encFlag c.localBlock
    ++ encOpt 3 ((s.ownerRef c).map (enc 3)) ++ encTicks 3 s.time.ticks c.timer

/-- Read Circuit (R50); an Unequipped circuit has group none and nothing else (log entry 16). -/
def readCircuit (k : Nat) (s : State) : Answer :=
  if Config.circuitCount ≤ k then Answer.refuse s .badParameter
  else match s.circuit k with
    | none => Answer.ok s (enc 1 0)
    | some c => Answer.ok s (s.circuitBytes c)

/-- READ_CIRCUIT (R50). -/
def execReadCircuit (s : State) : Host.Outcome State Fault Refusal :=
  .next (takeRequest 0x41 (fun p => readCircuit (field 0 2 p)) s)

/-! ### Read Context (R177) -/

def Quote.bytes (q : Quote) : List Byte :=
  enc 1 q.carrier ++ enc 4 q.rate ++ enc 4 q.setupFee ++ enc 1 q.billingStep ++ enc 2 q.minSeconds ++ enc 1 q.band.value
    ++ enc 1 q.source.value

/-- The context's index, its state, its fields in the order of section 1.1, and its timer (R177). -/
def Context.bytes (c : Context) (i ticks : Nat) : List Byte :=
  enc 2 i ++ enc 1 c.phase.value ++ enc 3 c.callRef ++ encDigits 10 c.number ++ enc 2 c.inCircuit ++ enc 2 c.list
    ++ enc 1 c.category ++ encFlag c.priority ++ enc 1 c.tried.length ++ c.tried.flatMap (enc 1) ++ enc 1 c.examined
    ++ encOpt 3 (c.circuit.map fun p => enc 1 p.1 ++ enc 2 p.2) ++ encFlag c.probe ++ encOpt 14 (c.quote.map Quote.bytes)
    ++ encFlag c.slot ++ encTime c.seizeTime ++ encOpt 6 (c.answerTime.map encTime)
    ++ encOpt 1 (c.lastCause.map fun x => enc 1 x.value) ++ encFlag c.noFurther ++ encTicks 3 ticks c.timer

/-- Read Context (R177). -/
def readContext (callRef : Nat) (s : State) : Answer :=
  match s.lookupRef callRef with
  | none => Answer.refuse s .notFound
  | some i =>
    match s.context i with
    | none => Answer.refuse s .notFound
    | some c => Answer.ok s (c.bytes i s.time.ticks)

/-- READ_CONTEXT (R177). -/
def execReadContext (s : State) : Host.Outcome State Fault Refusal :=
  .next (takeRequest 0x42 (fun p => readContext (field 0 3 p)) s)

/-! ### Read Route List (R75) -/

def ListCounters.bytes (c : ListCounters) : List Byte :=
  enc32s [c.offered, c.gapped, c.refusedCongestion, c.refusedPricedOut, c.refusedSettlementFull,
    c.refusedRouteUnavailable, c.reselections, c.reselectionFailures]

/-- An item that a loaded list holds and an unloaded one does not (log entry 15). -/
def RouteList.whenLoaded (r : RouteList) (bs : List Byte) : Option (List Byte) := if r.loaded then some bs else none

/-- The results of Read Route List (R75); the four gap fields share one presence flag (log entry 15). -/
def RouteList.bytes (r : RouteList) : List Byte :=
  enc 1 r.choices.length ++ r.choices.flatMap (fun c => enc 1 c.group ++ enc 3 c.ceiling)
    ++ encOpt 1 (r.whenLoaded (enc 1 r.budget)) ++ enc 1 r.pointer
    ++ encOpt 7 (r.whenLoaded (encFlag r.gapEnable ++ enc 2 r.gapFloor ++ enc 2 r.gapMax ++ enc 2 r.gapStep))
    ++ enc 1 r.gapState.value ++ enc 2 r.gap ++ enc 1 r.gate.value ++ r.counters.bytes

/-- Read Route List (R75). -/
def readRouteList (l : Nat) (s : State) : Answer :=
  if 511 < l then Answer.refuse s .badParameter else Answer.ok s (s.routeList l).bytes

/-- READ_ROUTE_LIST (R75). -/
def execReadRouteList (s : State) : Host.Outcome State Fault Refusal :=
  .next (takeRequest 0x43 (fun p => readRouteList (field 0 2 p)) s)

/-! ### Read Carrier (R122) -/

def Pending.bytes (p : Pending) : List Byte := encTariff p.body ++ enc 2 p.day ++ enc 2 p.minute ++ enc 1 p.source.value

/-- Offer counters, handover answers, charge total of 64 bits (R91, R122). -/
def CarrierCounters.bytes (k : CarrierCounters) : List Byte :=
  enc32s [k.accepted, k.ignored, k.rejected, k.answers] ++ enc 8 k.chargeTotal

def Carrier.bytes (c : Carrier) : List Byte :=
  encTariff c.current ++ enc 1 c.source.value ++ encOpt 62 (c.pending.map Pending.bytes) ++ encFlag c.pinned
    ++ c.counters.bytes

/-- Read Carrier (R122). -/
def readCarrier (id : Nat) (s : State) : Answer :=
  if carrierId id = false then Answer.refuse s .badParameter
  else match s.carrier id with
    | none => Answer.refuse s .notFound
    | some c => Answer.ok s c.bytes

/-- READ_CARRIER (R122). -/
def execReadCarrier (s : State) : Host.Outcome State Fault Refusal :=
  .next (takeRequest 0x44 (fun p => readCarrier (field 0 1 p)) s)

/-! ### The counter latch (R91 to R93) -/

/-- The object kinds by their bytes (R182). -/
def objectOf : Nat → Option ObjectKind
  | 0 => some .trunkGroup
  | 1 => some .routeList
  | 2 => some .carrier
  | _ => none

/-- The id ranges of R92. -/
def ObjectKind.idFits : ObjectKind → Nat → Bool
  | .trunkGroup, i => decide (1 ≤ i ∧ i ≤ Config.groupMax)
  | .routeList, i => decide (i < Config.listCount)
  | .carrier, i => decide (1 ≤ i ∧ i ≤ Config.carrierMax)

/-- The counters of an object, where it is there to be latched (R91, R92). -/
def State.countersOf (s : State) : ObjectKind → Nat → Option LatchedCounters
  | .trunkGroup, i => (s.group i).map fun r => .group r.mon.traffic
  | .routeList, i => some (.list (s.routeList i).counters)
  | .carrier, i => (s.carrier i).map fun c => .carrier c.counters

/-- Hold a latched copy. -/
def State.latch (s : State) (x : Latch) : State := s.withMon { s.mon with latch := some x }

/-- Latch Counters (R92). -/
def latchCounters (kindByte id : Nat) (s : State) : Answer :=
  match objectOf kindByte with
  | none => Answer.refuse s .badParameter
  | some k =>
    if k.idFits id = false then Answer.refuse s .badParameter
    else match s.countersOf k id with
      | none => Answer.refuse s .notFound
      | some c => Answer.ok (s.latch ⟨k, id, s.time.now, s.time.valid, c⟩) (encTime s.time.now)

/-- LATCH_COUNTERS (R92). -/
def execLatchCounters (s : State) : Host.Outcome State Fault Refusal :=
  .next (takeRequest 0x48 (fun p => latchCounters (field 0 1 p) (field 1 2 p)) s)

def LatchedCounters.bytes : LatchedCounters → List Byte
  | .group t => t.bytes
  | .list c => c.bytes
  | .carrier c => c.bytes

def Latch.bytes (x : Latch) : List Byte :=
  enc 1 x.kind.value ++ enc 2 x.id ++ encTime x.time ++ encFlag x.valid ++ x.counters.bytes

/-- Read Latched (R93). -/
def readLatched (s : State) : Answer :=
  match s.mon.latch with
  | none => Answer.refuse s .notFound
  | some x => Answer.ok s x.bytes

/-- READ_LATCHED (R93). -/
def execReadLatched (s : State) : Host.Outcome State Fault Refusal := .next (takeRequest 0x49 (fun _ => readLatched) s)

end Sys2Proof.Machine
end

