-- ==== Sys2Proof/Machine/TimeBase.lean ====
section
/-! DEFINITION. The Time Base (chapter 9): the reference tick, and the reset line (R160, R161, R171). -/
namespace Sys2Proof.Machine

/-- The places of the timer array that can hold a due timer (R157). Guard expiries of a group go in guard-list order,
so they are named by the group (R32). -/
inductive TimerId where
  | supervision (context : Nat)
  | guard (group : Nat)
  | clearing (circuit : Nat)
  | probe (group : Nat)
  | gap (list : Nat)
  | accept
  | sample
  deriving DecidableEq, Repr

/-- The expiry of one place, where it is due. -/
def State.expire (s : State) : TimerId → State
  | .supervision i => (s.expireProceed i).expireClear i
  | .guard g => s.expireGuard g
  | .clearing k => s.expireClearing k
  | .probe g => s.expireProbe g
  | .gap l => s.expireGap l
  | .accept => s.expireAccept
  | .sample => s.expireSample

/-- The due timer of a circuit. -/
def Circuit.dueTimer (ticks k : Nat) (c : Circuit) : List TimerId :=
  match c.cond with
  | .guard d => if d ≤ ticks then [.guard c.group] else []
  | .releasing d => if d ≤ ticks then [.clearing k] else []
  | _ => []

/-- Every timer that is due and whose expiry has not been taken. -/
def State.dueTimers (s : State) : List TimerId :=
  let t := s.time.ticks
  (s.ctx.contexts.flatMap fun p => if timerDue t p.2.timer then [.supervision p.1] else [])
    ++ (s.circ.circuits.flatMap fun p => p.2.dueTimer t p.1)
    ++ (s.circ.groups.flatMap fun p => if timerDue t p.2.mon.probeTimer then [.probe p.1] else [])
    ++ (s.routes.lists.flatMap fun p => if timerDue t p.2.gapTimer then [.gap p.1] else [])
    ++ (if timerDue t s.settle.acceptTimer then [.accept] else [])
    ++ (if timerDue t s.mon.sampleTimer then [.sample] else [])

/-- Take the listed expiries one after the other. -/
def State.expireAll (s : State) (ids : List TimerId) : State := ids.foldl State.expire s

/-- Take every expiry of the last tick that no command has taken: a timer expires at the tick that makes its count, so
before the next one (R157); several in a free order (log entry 4). -/
def State.settleExpiries (s : State) : State :=
  match s.dueTimers with
  | [] => s
  | [t] => s.expire t
  | ts => ({ s with draws := s.draws + 1 } : State).expireAll (arrange s.draws ts)

/-- Exchange time after a tick (R152, R153). -/
def ExTime.tick (t : ExTime) : ExTime :=
  if t.cs + 1 < Config.dayLength then { t with cs := t.cs + 1 }
  else if t.day < Config.dayMax then ⟨t.day + 1, 0⟩
  else ⟨0, 0⟩

/-- Does this tick complete day 65,535 (R153)? -/
def ExTime.lastTick (t : ExTime) : Bool := decide (Config.dayLength ≤ t.cs + 1 ∧ Config.dayMax ≤ t.day)

/-- The Time Base after a tick (R152, R153): the flag is cleared at the end of day 65,535. -/
def TimeBase.tick (b : TimeBase) : TimeBase :=
  { now := b.now.tick, valid := b.valid && !b.now.lastTick, ticks := b.ticks + 1, tickTime := b.now.tick }

/-- Of the expiries of a tick, those that come before the whole-second event of that tick, in their order: R158 gives
expiries and event no order, so the event takes its place among them in a free order (log entry 21). -/
def beforeEvent (d : Nat) (ts : List TimerId) : List TimerId :=
  ((arrange d (none :: ts.map some)).takeWhile Option.isSome).filterMap id

/-- The whole-second event of a tick, and before it the expiries of the tick that its free place puts there. The others
are commands of their own (log entry 4). -/
def State.secondEvent (s : State) : State :=
  match s.dueTimers with
  | [] => s.wholeSecond s.time.now
  | ts => (({ s with draws := s.draws + 1 } : State).expireAll (beforeEvent s.draws ts)).wholeSecond s.time.now

/-- The tick itself: exchange time and the tick count advance, and a whole-second event is raised where the centisecond
of day is now a multiple of 100 (R152 to R154). -/
def State.advance (s : State) : State :=
  let s1 := s.withTime s.time.tick
  if s1.time.now.cs % 100 = 0 then s1.secondEvent else s1

/-- REFERENCE_TICK (R152). A tick that arrives while the reset line is held is not counted (R160). -/
def execReferenceTick (s : State) : Host.Outcome State Fault Refusal :=
  .next (if s.resetLine then s else s.settleExpiries.advance)

/-- HARD_RESET (R25, R52, R76, R95, R104, R108, R123, R137, R151, R161, R171, R181): every block at its hard-reset values and
the line held, so that the sample timer waits for the release (R158). What has left on the outputs has left (log entry
8), and the waiting commands are the sender's. -/
def execHardReset (s : State) : Host.Outcome State Fault Refusal :=
  .next { State.reset with
    pending := s.pending
    resetLine := true
    mon := { OccupancyMonitor.reset with sampleTimer := none }
    fwdOut := s.fwdOut
    bwdOut := s.bwdOut
    draws := s.draws }

/-- RESET_RELEASE (R158, R161): the line is released and the sample timer starts with the default period. Where the
line is not held there is nothing to release (log entry 2). -/
def execResetRelease (s : State) : Host.Outcome State Fault Refusal :=
  .next (if s.resetLine then
    ({ s with resetLine := false } : State).withMon { s.mon with sampleTimer := s.timerOf 100 }
  else s)

end Sys2Proof.Machine
end

