-- ==== Sys2Proof/Machine/Dispatch.lean ====
section
/-! DEFINITION. The dispatch: one arm per command, each one direct call of its meaning. -/
namespace Sys2Proof.Machine

/-- The effect of a command on everything but the queue of waiting commands. -/
def exec (i : Instr) (s : State) : Host.Outcome State Fault Refusal :=
  match i with
  | .hardReset => Sys2Proof.Machine.execHardReset s
  | .resetRelease => Sys2Proof.Machine.execResetRelease s
  | .referenceTick => Sys2Proof.Machine.execReferenceTick s
  | .messageArrival port bytes => Sys2Proof.Machine.execMessageArrival port bytes s
  | .passThrough port => Sys2Proof.Machine.execPassThrough port s
  | .setup => Sys2Proof.Machine.execSetup s
  | .originRelease => Sys2Proof.Machine.execOriginRelease s
  | .originReleaseConfirm => Sys2Proof.Machine.execOriginReleaseConfirm s
  | .progress => Sys2Proof.Machine.execProgress s
  | .answer => Sys2Proof.Machine.execAnswer s
  | .farRelease => Sys2Proof.Machine.execFarRelease s
  | .farReleaseConfirm => Sys2Proof.Machine.execFarReleaseConfirm s
  | .block => Sys2Proof.Machine.execBlock s
  | .unblock => Sys2Proof.Machine.execUnblock s
  | .farSeize => Sys2Proof.Machine.execFarSeize s
  | .farClear => Sys2Proof.Machine.execFarClear s
  | .tariffOffer => Sys2Proof.Machine.execTariffOffer s
  | .batchAccept => Sys2Proof.Machine.execBatchAccept s
  | .exportHalt => Sys2Proof.Machine.execExportHalt s
  | .exportResume => Sys2Proof.Machine.execExportResume s
  | .tProceedExpiry n => Sys2Proof.Machine.execTProceedExpiry n s
  | .tClearExpiry n => Sys2Proof.Machine.execTClearExpiry n s
  | .guardExpiry g => Sys2Proof.Machine.execGuardExpiry g s
  | .clearingExpiry k => Sys2Proof.Machine.execClearingExpiry k s
  | .probeTimerExpiry g => Sys2Proof.Machine.execProbeTimerExpiry g s
  | .gapTimerExpiry l => Sys2Proof.Machine.execGapTimerExpiry l s
  | .acceptTimerExpiry => Sys2Proof.Machine.execAcceptTimerExpiry s
  | .sampleExpiry => Sys2Proof.Machine.execSampleExpiry s
  | .unknownRequest => Sys2Proof.Machine.execUnknownRequest s
  | .enterService => Sys2Proof.Machine.execEnterService s
  | .quiesce => Sys2Proof.Machine.execQuiesce s
  | .restart => Sys2Proof.Machine.execRestart s
  | .readDeviceStatus => Sys2Proof.Machine.execReadDeviceStatus s
  | .clearErrorFlags => Sys2Proof.Machine.execClearErrorFlags s
  | .setExchangeTime => Sys2Proof.Machine.execSetExchangeTime s
  | .setGlobalParameters => Sys2Proof.Machine.execSetGlobalParameters s
  | .loadDestination => Sys2Proof.Machine.execLoadDestination s
  | .deleteDestination => Sys2Proof.Machine.execDeleteDestination s
  | .lookupDestination => Sys2Proof.Machine.execLookupDestination s
  | .loadRouteList => Sys2Proof.Machine.execLoadRouteList s
  | .restartGap => Sys2Proof.Machine.execRestartGap s
  | .loadThresholdSet => Sys2Proof.Machine.execLoadThresholdSet s
  | .loadTrunkGroup => Sys2Proof.Machine.execLoadTrunkGroup s
  | .removeTrunkGroup => Sys2Proof.Machine.execRemoveTrunkGroup s
  | .setGroupState => Sys2Proof.Machine.execSetGroupState s
  | .blockCircuit => Sys2Proof.Machine.execBlockCircuit s
  | .unblockCircuit => Sys2Proof.Machine.execUnblockCircuit s
  | .declareCarrier => Sys2Proof.Machine.execDeclareCarrier s
  | .removeCarrier => Sys2Proof.Machine.execRemoveCarrier s
  | .loadTariff => Sys2Proof.Machine.execLoadTariff s
  | .pinCarrier => Sys2Proof.Machine.execPinCarrier s
  | .unpinCarrier => Sys2Proof.Machine.execUnpinCarrier s
  | .readGroup => Sys2Proof.Machine.execReadGroup s
  | .readCircuit => Sys2Proof.Machine.execReadCircuit s
  | .readContext => Sys2Proof.Machine.execReadContext s
  | .readRouteList => Sys2Proof.Machine.execReadRouteList s
  | .readCarrier => Sys2Proof.Machine.execReadCarrier s
  | .latchCounters => Sys2Proof.Machine.execLatchCounters s
  | .readLatched => Sys2Proof.Machine.execReadLatched s

end Sys2Proof.Machine
end

