-- ==== Sys2Proof/Safety.lean ====
section
/-! DEFINITION. The terms in which claims about the device are stated: what a command leaves alone, what stands at the
head of an input queue, and the laws that the manual gives for every moment between two events. -/
namespace Sys2Proof.Machine

/-! ### Frames -/

/-- The parts of the state, each owned by one block or by the model. -/
inductive Part where
  | pending | resetLine | fwd | bwd | ctx | circ | routes | mon | tariffs | rating | settle | time | mgmt | fwdOut
  | bwdOut | draws
  deriving DecidableEq, Repr

/-- A part reads the same in two states. -/
def Part.same (s t : State) : Part → Prop
  | .pending => t.pending = s.pending
  | .resetLine => t.resetLine = s.resetLine
  | .fwd => t.fwd = s.fwd
  | .bwd => t.bwd = s.bwd
  | .ctx => t.ctx = s.ctx
  | .circ => t.circ = s.circ
  | .routes => t.routes = s.routes
  | .mon => t.mon = s.mon
  | .tariffs => t.tariffs = s.tariffs
  | .rating => t.rating = s.rating
  | .settle => t.settle = s.settle
  | .time => t.time = s.time
  | .mgmt => t.mgmt = s.mgmt
  | .fwdOut => t.fwdOut = s.fwdOut
  | .bwdOut => t.bwdOut = s.bwdOut
  | .draws => t.draws = s.draws

/-- From `s` to `t` nothing changes but the parts named. -/
def OnlyChanges (parts : List Part) (s t : State) : Prop := ∀ p, p ∉ parts → p.same s t

/-! ### What stands at the head of a queue -/

/-- A message of this kind is at the head of a port's queue, and `rest` is behind it (R162). -/
def State.headed (s : State) (port : Port) (kind : Nat) (f : Frame) (rest : List Frame) : Prop :=
  (s.port port).queue = f :: rest ∧ kindOf f = kind

/-- A Management Request with this code, of the length that R182 gives it, is at the head of the forward queue. -/
def State.requested (s : State) (code : Nat) (f : Frame) (rest : List Frame) : Prop :=
  s.headed .forward kRequest f rest ∧ requestCode f = code ∧ requestLength code = some f.length

/-- The head message has left the port's queue; nothing else of the port has changed (R162). -/
def TookHead (port : Port) (rest : List Frame) (s t : State) : Prop :=
  t.port port = { s.port port with queue := rest }

/-- The request has been taken and answered with one reply that echoes its tag and code (R174). -/
def Replied (f : Frame) (rest : List Frame) (rc : ReplyCode) (results : List Byte) (s t : State) : Prop :=
  TookHead .forward rest s t ∧ t.bwdOut = s.bwdOut ++ [.reply (kindByteOf f) (requestCode f) rc results]

/-! ### Laws of the blocks -/

/-- The numbering of R141: each number follows the one before it, and `next` follows the last. -/
def follows : List Nat → Nat → Bool
  | [], _ => true
  | [a], next => decide (nextSeqAfter a = next)
  | a :: b :: t, next => decide (nextSeqAfter a = b) && follows (b :: t) next

/-- Time Base: exchange time is a day number and a centisecond of day (section 9.1). -/
def TimeBase.law (b : TimeBase) : Prop :=
  b.now.day ≤ Config.dayMax ∧ b.now.cs < Config.dayLength ∧ b.tickTime.day ≤ Config.dayMax
    ∧ b.tickTime.cs < Config.dayLength

/-- A port: at most 128 messages, each one checked, and a peak that bounds the depth (R162, R163). -/
def PortState.law (port : Port) (p : PortState) : Prop :=
  p.queue.length ≤ p.peak ∧ p.peak ≤ Config.queueMax ∧ ∀ f ∈ p.queue, frameError port f = none

/-- Gap state of one list (R96). -/
def RouteList.gapLaw (r : RouteList) : Prop :=
  r.gapFloor ≤ r.gapMax ∧
    match r.gapState with
    | .off => r.gap = r.gapFloor ∧ r.gate = .opened ∧ r.gapTimer = none
    | .active => r.gapFloor ≤ r.gap ∧ r.gap ≤ r.gapMax ∧ (r.gapTimer.isSome ↔ r.gate = .closed)

/-- Choices and pointer of one list (R57, R58); an unloaded list has no choices and pointer 1 (R75). -/
def RouteList.choiceLaw (r : RouteList) : Prop :=
  r.choices.length ≤ 8 ∧ (r.loaded = true → r.choices ≠ []) ∧ (r.choices.map (·.group)).Nodup
    ∧ 1 ≤ r.pointer ∧ r.pointer ≤ max 1 (r.choices.length - 1)

/-- Route Selector and Admission Control: each prefix once and at most 8,192 of them (R53), the list table in canonical
form (log entry 23), and every list keeps R57, R58 and R96. -/
def RouteSelector.law (r : RouteSelector) : Prop :=
  (r.dests.map (·.pfx)).Nodup ∧ r.dests.length ≤ Config.destinationMax ∧ Table.wf r.lists = true
    ∧ ∀ p ∈ r.lists, p.2 ≠ RouteList.unloaded ∧ p.2.gapLaw ∧ p.2.choiceLaw

/-- One declared carrier holds valid bodies alone, and a pinned one no pending offer (R110, R117). -/
def Carrier.law (c : Carrier) : Prop :=
  c.current.valid = true
    ∧ (∀ p, c.pending = some p → p.body.valid = true ∧ p.minute ≤ 1439 ∧ (c.pinned = true → p.source = .localLoad))

/-- Tariff Table (R109, R110). -/
def TariffTable.law (x : TariffTable) : Prop :=
  Table.wf x.carriers = true ∧ ∀ p ∈ x.carriers, 1 ≤ p.1 ∧ p.1 ≤ Config.carrierMax ∧ p.2.law

/-- Context Table: the map, the counts and the offer state follow the contexts (R3, R4, R105, R107). -/
def ContextTable.law (x : ContextTable) (g : GlobalParams) : Prop :=
  Table.wf x.contexts = true ∧ Table.wf x.refMap = true
    ∧ (∀ p ∈ x.contexts, p.1 < Config.contextCount)
    ∧ (∀ ref i, Table.find ref x.refMap = some i ↔ ∃ c, Table.find i x.contexts = some c ∧ c.callRef = ref)
    ∧ x.inUse = x.contexts.length ∧ x.inUse ≤ x.peak
    ∧ (x.offer = .opened → x.inUse < g.highWater) ∧ (x.offer = .held → g.lowWater < x.inUse)

/-- Settlement Queue: consecutive numbers, and an export state that fits the batch and the timer (R138, R143, section
8.4). -/
def SettlementQueue.law (q : SettlementQueue) : Prop :=
  1 ≤ q.nextSeq ∧ q.nextSeq ≤ Config.max32 ∧ follows (q.queued.map (·.seq)) q.nextSeq = true
    ∧ match q.exportState with
      | .ready => q.outstanding = 0 ∧ q.acceptTimer = none ∧ (q.halt = false → q.queued = [])
      | .awaitingAccept => 1 ≤ q.outstanding ∧ q.outstanding ≤ q.queued.length ∧ q.acceptTimer.isSome = true
      | .stalled => 1 ≤ q.outstanding ∧ q.outstanding ≤ q.queued.length ∧ q.acceptTimer = none

/-- Occupancy Monitor's fields of one group (R77, R86, R87). -/
def GroupMonitor.law (m : GroupMonitor) : Prop :=
  m.s256 ≤ 256000 ∧ m.failCount ≤ 15 ∧ (m.health = .normal → m.gate = .opened ∧ m.probeTimer = none)

/-- One group against the circuits: its counts, its free queue and its guard list are those of its circuits, and its
circuits are those of its range (R26, R27, R29, R31). -/
structure Group.Law (circuits : Table Circuit) (g : Nat) (r : Group) : Prop where
  size : 1 ≤ r.cfg.size
  place : ∀ k, r.cfg.holds k = true ↔ ∃ c, Table.find k circuits = some c ∧ c.group = g
  counts : r.counts = countClasses ((membersOf g circuits).map (·.2))
  freeOnce : r.freeQueue.Nodup
  free : ∀ k, k ∈ r.freeQueue ↔ ∃ c, Table.find k circuits = some c ∧ c.group = g ∧ c.cls = .free
  guardOnce : r.guardList.Nodup
  guard : ∀ k, k ∈ r.guardList ↔ ∃ c, Table.find k circuits = some c ∧ c.group = g ∧ c.cls = .guard
  monitor : r.mon.law

/-- Circuit Map: both tables in canonical form, every circuit in an equipped group, every group by its circuits. -/
structure CircuitMap.Law (m : CircuitMap) : Prop where
  groupsForm : Table.wf m.groups = true
  circuitsForm : Table.wf m.circuits = true
  equipped : ∀ p ∈ m.circuits, (Table.find p.2.group m.groups).isSome = true
  groups : ∀ p ∈ m.groups, p.2.Law m.circuits p.1

/-- What a context holds in each state (R1, R2). -/
def Context.law (c : Context) : Prop :=
  c.slot = c.quote.isSome ∧ c.tried.length ≤ Config.triedMax ∧ c.tried.Nodup
    ∧ match c.phase with
      | .proceeding => c.circuit.isSome = true ∧ c.answerTime = none ∧ c.timer.isSome = true
      | .alerting => c.circuit.isSome = true ∧ c.answerTime = none ∧ c.timer = none ∧ c.probe = false
      | .connected => c.circuit.isSome = true ∧ c.answerTime.isSome = true ∧ c.timer = none ∧ c.probe = false
      | .clearing => c.circuit = none ∧ c.quote = none ∧ c.timer.isSome = true ∧ c.probe = false

/-- The contexts that hold a slot (R10, R138). -/
def State.slotHolders (s : State) : Nat := s.ctx.contexts.countP fun p => p.2.slot

/-- The whole device between two events: the laws of the blocks, and the laws that join them: circuits and owners (R2),
reservations and slots, at most 4,096 (R138), owners of groups declared (R47, R112). -/
structure State.Law (s : State) : Prop where
  time : s.time.law
  fwd : s.fwd.law .forward
  bwd : s.bwd.law .backward
  params : s.mgmt.params.valid = true
  ctx : s.ctx.law s.mgmt.params
  contexts : ∀ p ∈ s.ctx.contexts, p.2.law
  circ : s.circ.Law
  routes : s.routes.law
  tariffs : s.tariffs.law
  settle : s.settle.law
  owners : ∀ i g k, (∃ c, s.context i = some c ∧ c.circuit = some (g, k)) ↔
    ∃ r, s.circuit k = some r ∧ r.cond = .seized i ∧ r.group = g
  slots : s.settle.reservations = s.slotHolders ∧ s.settle.slotSum ≤ Config.slotMax
  carriers : ∀ p ∈ s.circ.groups, p.2.cfg.owner = 0 ∨ (s.carrier p.2.cfg.owner).isSome = true

/-! ### What an event does to one entry -/

/-- Circuit `k`, which was `c`, is `c'`, and its group is `x'`; no other circuit, group or counter has changed. -/
structure CircuitMoved (k : Nat) (c c' : Circuit) (x' : Group) (s t : State) : Prop where
  circuit : t.circuit k = some c'
  others : ∀ j, j ≠ k → t.circuit j = s.circuit j
  group : t.group c.group = some x'
  groups : ∀ g, g ≠ c.group → t.group g = s.group g
  counters : t.circ.counters = s.circ.counters

/-- Is the group Draining, unreported and empty of Seized, Far-Seized and Releasing circuits (R46)? -/
def Group.reportsDrained (x : Group) : Bool :=
  decide (x.admin = .draining ∧ x.drainedSent = false ∧ x.counts.seized + x.counts.farSeized + x.counts.releasing = 0)

/-- The group after the look of R46. -/
def Group.reported (x : Group) : Group := { x with drainedSent := x.drainedSent || x.reportsDrained }

/-- The Group Drained notice that the look of R46 gives. -/
def Group.drainReport (x : Group) (g : Nat) (now : ExTime) : List OutMsg :=
  if x.reportsDrained then [.notice now (.groupDrained g)] else []

/-- The condition in which a circuit rests after use (R31). -/
def Group.restCondition (x : Group) (ticks : Nat) : Condition :=
  if x.cfg.guardTime = 0 then .idle else .guard (ticks + x.cfg.guardTime)

/-- The group when circuit `k` comes to rest (R31); `counts` is without the circuit. -/
def Group.rested (x : Group) (k : Nat) (flagged : Bool) (counts : Counts) : Group :=
  if x.cfg.guardTime = 0 then
    if flagged then { x with counts := { counts with blocked := counts.blocked + 1 } }
    else { x with counts := { counts with free := counts.free + 1 }, freeQueue := x.freeQueue ++ [k] }
  else { x with counts := { counts with guard := counts.guard + 1 }, guardList := x.guardList ++ [k] }

/-- Context `i` is `c'`; nothing else of the Context Table has changed. -/
def ContextSet (i : Nat) (c' : Context) (s t : State) : Prop :=
  t.context i = some c' ∧ (∀ j, j ≠ i → t.context j = s.context j)
    ∧ t.ctx = { s.ctx with contexts := t.ctx.contexts }

/-- Context `i`, which was `c`, is Idle; the count has fallen and is compared with the low watermark (R3, R105). -/
structure ContextFreed (i : Nat) (c : Context) (s t : State) : Prop where
  context : t.context i = none
  others : ∀ j, j ≠ i → t.context j = s.context j
  ref : t.lookupRef c.callRef = none
  refs : ∀ r, r ≠ c.callRef → t.lookupRef r = s.lookupRef r
  inUse : t.ctx.inUse = s.ctx.inUse - 1
  peak : t.ctx.peak = s.ctx.peak
  offer : t.ctx.offer =
    if s.ctx.offer = .held ∧ s.ctx.inUse - 1 ≤ s.mgmt.params.lowWater then .opened else s.ctx.offer

/-- The Resume Offer that the freeing of one context gives (R105, R106). -/
def State.resumeReport (s : State) (now : ExTime) : List OutMsg :=
  if s.ctx.offer = .held ∧ s.ctx.inUse - 1 ≤ s.mgmt.params.lowWater then
    [.notice now (.resumeOffer (s.ctx.inUse - 1) s.mgmt.params.lowWater)]
  else []

/-- The Hold Offer that the allocation of one context gives (R105, R106). -/
def State.holdReport (s : State) (now : ExTime) : List OutMsg :=
  if s.ctx.offer = .opened ∧ s.mgmt.params.highWater ≤ s.ctx.inUse + 1 then
    [.notice now (.holdOffer (s.ctx.inUse + 1) s.mgmt.params.highWater)]
  else []

/-- What a Setup refused in routing emits: the notices of the raised and then the lowered count about the Refuse (R3, R7,
R105). -/
def State.refusalRun (s : State) (m : SetupMsg) (cause : Cause) : List OutMsg :=
  s.holdReport s.time.now ++ [.refuse m.callRef m.inCircuit cause]
    ++ (if (s.ctx.offer = .held ∨ s.holdReport s.time.now ≠ []) ∧ s.ctx.inUse ≤ s.mgmt.params.lowWater then
        [.notice s.time.now (.resumeOffer s.ctx.inUse s.mgmt.params.lowWater)]
      else [])

/-- A Setup refused in routing leaves the Context Table as it was but for the Setups taken, the peak and the offer state
(R3, R7, R24, R105). -/
structure RefusedInRouting (s t : State) : Prop where
  contexts : ∀ j, t.context j = s.context j
  refs : ∀ r, t.lookupRef r = s.lookupRef r
  rest : t.ctx = { s.ctx with
    contexts := t.ctx.contexts
    refMap := t.ctx.refMap
    peak := max s.ctx.peak (s.ctx.inUse + 1)
    offer :=
      if s.ctx.offer = .held ∨ s.mgmt.params.highWater ≤ s.ctx.inUse + 1 then
        (if s.ctx.inUse ≤ s.mgmt.params.lowWater then .opened else .held)
      else .opened
    counters := { s.ctx.counters with setupsTaken := min (s.ctx.counters.setupsTaken + 1) 4294967295 } }

/-- The length of a supervision interval in ticks: a held 0 stands for 65,536 (R159). -/
def interval (held : Nat) : Nat := if held = 0 then 65536 else held

/-! ### Who holds a circuit, and how a call meets its end -/

/-- Context `i`, which is `c`, holds circuit `k`, which is `r`, of group `g`, which is `x` (R2). -/
def Owns (s : State) (i : Nat) (c : Context) (g k : Nat) (r : Circuit) (x : Group) : Prop :=
  s.context i = some c ∧ c.circuit = some (g, k) ∧ s.circuit k = some r ∧ r.cond = .seized i ∧ r.group = g
    ∧ s.group g = some x

/-- The hypotheses under which a Setup meets list `l`: taken in service with a new reference, a number of 1 to 20 digits
and Idle context `i`, matched by an entry that admits its category (R6, R54, R55, R61). -/
def SetupReaches (s : State) (f : Frame) (rest : List Frame) (i l : Nat) : Prop :=
  s.headed .forward 0x01 f rest ∧ s.mgmt.device = .inService ∧ s.lookupRef (setupOf f).callRef = none ∧ i < 8192
    ∧ s.context i = none ∧ (∀ j < i, (s.context j).isSome) ∧ 1 ≤ (setupOf f).count ∧ (setupOf f).count ≤ 20
    ∧ ∃ p mask, destMatch s.routes.dests (setupOf f).number = some ⟨p, .route l mask⟩
      ∧ ∀ b, mask = some b → b.getLsbD (setupOf f).category = true

/-- A group's fields after a health success: the failure count is 0, and a Suspect group is Normal with its gate Open and
its probe timer stopped (R85). -/
def healthy (m : GroupMonitor) : GroupMonitor :=
  if m.health = .suspect then { m with failCount := 0, health := .normal, gate := .opened, probeTimer := none }
  else { m with failCount := 0 }

/-- The Health Change notice of a health success (R85). -/
def healthReport (x : Group) (g : Nat) (now : ExTime) : List OutMsg :=
  if x.mon.health = .suspect then [.notice now (.healthChange g .normal 0)] else []

/-- A group's fields after a health failure (R86, R89). -/
def failing (theta : Nat) (m : GroupMonitor) : GroupMonitor :=
  let n := min (m.failCount + 1) 15
  let counted := { m with
    failCount := n, traffic := { m.traffic with failures := min (m.traffic.failures + 1) 4294967295 } }
  if m.health = .normal ∧ theta ≤ n then { counted with health := .suspect, gate := .opened, probeTimer := none }
  else counted

/-- The Health Change notice of a health failure (R86). -/
def failReport (x : Group) (g : Nat) (now : ExTime) : List OutMsg :=
  let n := min (x.mon.failCount + 1) 15
  if x.mon.health = .normal ∧ x.cfg.theta ≤ n then [.notice now (.healthChange g .suspect n)] else []

/-- A group's fields after the end of a seizure in Proceeding: a probe of a group that is still Suspect closes the gate
and starts the probe timer (R9, R88). -/
def probeLost (probe : Bool) (due : Nat) (m : GroupMonitor) : GroupMonitor :=
  if probe = true ∧ m.health = .suspect then { m with gate := .closed, probeTimer := some due } else m

/-- A batch as it leaves (R144, R148). -/
def batchOf (rs : List SettlementRecord) (b : Nat) (again : Bool) : List OutMsg :=
  (rs.take b).map OutMsg.record ++ [.batchEnd b ((rs.head?.map (·.seq)).getD 0) again]

/-! ### The checks of a choice, and its seizure -/

/-- The quote of a carrier on a group: its current tariff at the minute of day, the group's band and S (R125). -/
def Carrier.quoteOn (car : Carrier) (x : Group) (now : ExTime) : Quote :=
  { carrier := x.cfg.owner, rate := car.current.rate (now.cs / 6000) x.mon.band (x.mon.s256 / 256)
    setupFee := car.current.setupFee, billingStep := car.current.billingStep, minSeconds := car.current.minSeconds
    band := x.mon.band, source := car.source }

/-- May a group be used at all: In Service, and not Suspect behind a Closed gate (R63)? -/
def Group.usable (x : Group) : Prop := x.admin = .inService ∧ ¬ (x.mon.health = .suspect ∧ x.mon.gate = .closed)

/-- Does the band keep a call off choice `n` (R64)? -/
def Group.tooBusy (x : Group) (n : Nat) (priority : Bool) : Prop :=
  n ≠ 0 ∧ priority = false ∧ x.mon.band = .critical

/-- Has the group a circuit for a call on choice `n` (R64)? -/
def Group.spares (x : Group) (n : Nat) (priority : Bool) : Prop :=
  if n = 0 ∨ priority = true then 1 ≤ x.counts.free else x.cfg.reservation < x.counts.free

/-- May a call pay this rate on a choice (R65)? -/
def Choice.affords (ch : Choice) (priority : Bool) (rate : Nat) : Prop :=
  priority = true ∨ ch.ceiling = 0 ∨ rate ≤ ch.ceiling

/-- The slot sum that a call finds a slot below (R66). -/
def slotLimit (priority : Bool) : Nat := if priority then 4096 else 4080

/-- Choice `n` of a list, which is `ch` on group `x`, passes its six checks for a call at a slot sum; `q` is the quote of a
handover (R63 to R66, R69). -/
structure Passes (s : State) (now : ExTime) (slots : Nat) (priority : Bool) (n : Nat) (ch : Choice) (x : Group)
    (q : Option Quote) : Prop where
  group : s.group ch.group = some x
  usable : x.usable
  band : ¬ x.tooBusy n priority
  free : x.spares n priority
  quote : (x.cfg.owner = 0 ∧ q = none)
    ∨ (x.cfg.owner ≠ 0 ∧ slots < slotLimit priority ∧ ∃ car, s.carrier x.cfg.owner = some car
      ∧ q = some (car.quoteOn x now) ∧ ch.affords priority (car.quoteOn x now).rate)

/-- Choice `n` of a list, which is `ch`, fails its checks at a slot sum with this reason: the first check that it does not
pass (R63 to R66, R69). -/
def FailsBy (s : State) (now : ExTime) (slots : Nat) (priority : Bool) (n : Nat) (ch : Choice) : Reason → Prop
  | .unavailable => ∀ x, s.group ch.group = some x → ¬ x.usable
  | .bandCritical => ∃ x, s.group ch.group = some x ∧ x.usable ∧ x.tooBusy n priority
  | .noCircuit => ∃ x, s.group ch.group = some x ∧ x.usable ∧ ¬ x.tooBusy n priority ∧ ¬ x.spares n priority
  | .pricedOut => ∃ x car, s.group ch.group = some x ∧ x.usable ∧ ¬ x.tooBusy n priority ∧ x.spares n priority
      ∧ x.cfg.owner ≠ 0 ∧ s.carrier x.cfg.owner = some car ∧ ¬ ch.affords priority (car.quoteOn x now).rate
  | .settlementFull => ∃ x car, s.group ch.group = some x ∧ x.usable ∧ ¬ x.tooBusy n priority ∧ x.spares n priority
      ∧ x.cfg.owner ≠ 0 ∧ s.carrier x.cfg.owner = some car ∧ ch.affords priority (car.quoteOn x now).rate
      ∧ slotLimit priority ≤ slots

/-- The cause that the reasons of a failed first pass come to, by precedence (R70). -/
def causeOf (reasons : List Reason) : Cause :=
  if .noCircuit ∈ reasons ∨ .bandCritical ∈ reasons then .congestion
  else if .pricedOut ∈ reasons then .pricedOut
  else if .settlementFull ∈ reasons then .settlementFull
  else .routeUnavailable

/-- The counters of a list whose Setup is offered and whose first pass reports a cause (R60). -/
def ListCounters.offeredAndRefused (n : ListCounters) (cause : Cause) : ListCounters :=
  { n with
    offered := min (n.offered + 1) 4294967295
    refusedCongestion := if cause = .congestion then min (n.refusedCongestion + 1) 4294967295 else n.refusedCongestion
    refusedPricedOut := if cause = .pricedOut then min (n.refusedPricedOut + 1) 4294967295 else n.refusedPricedOut
    refusedSettlementFull :=
      if cause = .settlementFull then min (n.refusedSettlementFull + 1) 4294967295 else n.refusedSettlementFull
    refusedRouteUnavailable :=
      if cause = .routeUnavailable then min (n.refusedRouteUnavailable + 1) 4294967295 else n.refusedRouteUnavailable }

/-- Does the gate of a list let a Setup through (R97)? -/
def RouteList.letsIn (r : RouteList) (priority : Bool) : Prop :=
  r.gapState = .off ∨ r.gate = .opened ∨ priority = true

/-- The list after its gate has let a Setup through: in Active an Open gate closes behind a non-priority call, and the gap
timer starts with G (R97, R98). -/
def RouteList.passed (r : RouteList) (priority : Bool) (ticks : Nat) : RouteList :=
  if r.gapState = .active ∧ r.gate = .opened ∧ priority = false then
    { r with gate := .closed, gapTimer := some (ticks + r.gap) }
  else r

/-- A group whose circuit `k` a call seizes: the counts, the free queue, one attempt and one seizure, and behind the probe of
a Suspect group a Closed gate (R30, R62, R68, R87). -/
def Group.seizedAt (x : Group) (k : Nat) : Group :=
  { x with
    counts := { x.counts with free := x.counts.free - 1, seized := x.counts.seized + 1 }
    freeQueue := x.freeQueue.filter fun j => decide (j ≠ k)
    mon := { x.mon with
      gate := if x.mon.health = .suspect then .closed else x.mon.gate
      traffic := { x.mon.traffic with
        attempts := min (x.mon.traffic.attempts + 1) 4294967295
        seizures := min (x.mon.traffic.seizures + 1) 4294967295 } } }

/-- The Rating Unit's counters after a choice on group `g` has been priced: nothing for an own-network group; for a handover
a quote, raised to the floor or lowered to the ceiling by its raw rate (R125, R129). -/
def State.priced (s : State) (now : ExTime) (g : Nat) (n : RatingCounters) : RatingCounters :=
  match s.group g with
  | none => n
  | some x =>
    if x.cfg.owner = 0 then n
    else match s.carrier x.cfg.owner with
      | none => n
      | some car =>
        let raw := car.current.rawRate (now.cs / 6000) x.mon.band (x.mon.s256 / 256)
        { n with
          quotes := min (n.quotes + 1) 4294967295
          raised := if raw < car.current.floor then min (n.raised + 1) 4294967295 else n.raised
          lowered := if (car.current.floor : Int) ≤ raw ∧ car.current.ceiling < raw then
            min (n.lowered + 1) 4294967295 else n.lowered }

/-! ### What a pass leaves -/

/-- The choices of a list with their indexes in the order of a pass: the primary, the alternate at the pointer, the
following ones round the list (R62). -/
def RouteList.inTurn (r : RouteList) : List (Choice × Nat) :=
  let alternates := r.choices.zipIdx.drop 1
  r.choices.zipIdx.take 1 ++ alternates.drop (r.pointer - 1) ++ alternates.take (r.pointer - 1)

/-- Group `g` after a pass has examined these choices in vain: an attempt, and an overflow for a primary without a circuit
(R62, R64, R89). -/
def State.afterFailures (s : State) (examined : List (Choice × Nat)) (reason : Nat → Reason) (g : Nat) : Option Group :=
  (s.group g).map fun x =>
    if g ∈ examined.map (·.1.group) then
      { x with mon := { x.mon with traffic := { x.mon.traffic with
        attempts := min (x.mon.traffic.attempts + 1) 4294967295
        overflows := if (g, 0) ∈ examined.map (fun p => (p.1.group, p.2)) ∧ reason 0 = .noCircuit then
          min (x.mon.traffic.overflows + 1) 4294967295 else x.mon.traffic.overflows } } }
    else x

/-- Did a choice that failed for this reason come to its fifth check, and so to a quote (R65, R67)? -/
def Reason.quoted (r : Reason) : Bool := decide (r = .pricedOut ∨ r = .settlementFull)

/-- The Rating Unit's counters after the choices of a pass that came to a quote, in their order. -/
def State.afterQuotes (s : State) (now : ExTime) (priced : List (Choice × Nat)) : RatingCounters :=
  priced.foldl (fun n p => s.priced now p.1.group n) s.rating

/-! ### Loss of a circuit and reselection -/

/-- The list after a call has lost group `g`: where that is an alternate, the pointer is at the alternate after it (R58,
R72). -/
def RouteList.pastGroup (r : RouteList) (g : Nat) : RouteList :=
  let j := (r.choices.map (·.group)).idxOf g
  if 1 ≤ j ∧ j < r.choices.length then { r with pointer := if j + 1 < r.choices.length then j + 1 else 1 } else r

/-- The choices that a reselection may examine after call `c` has lost group `g`, in the order of the pass: those on untried
groups, the alternates among them within what is left of the budget; none where the mark of R1 stands (R14, R62, R71). -/
def RouteList.leftFor (r : RouteList) (c : Context) (g : Nat) : List (Choice × Nat) :=
  let untried := (r.pastGroup g).inTurn.filter fun p => decide (p.1.group ≠ g ∧ p.1.group ∉ c.tried)
  if c.noFurther = true ∨ (g ∉ c.tried ∧ 8 ≤ c.tried.length) then []
  else untried.filter (fun p => decide (p.2 = 0))
    ++ (untried.filter fun p => decide (p.2 ≠ 0)).take (r.budget - c.examined)

/-- The call after these groups are due in its tried set, one after the other: at most 8 ids, and then the mark (R1). -/
def Context.afterTrying (c : Context) (groups : List Nat) : Context :=
  groups.foldl (fun c g =>
    if g ∈ c.tried then c
    else if c.tried.length < 8 then { c with tried := c.tried ++ [g] }
    else { c with noFurther := true }) c

/-- How many of these choices are alternates, which count against the budget (R62). -/
def alternatesOf (examined : List (Choice × Nat)) : Nat := examined.countP fun p => decide (p.2 ≠ 0)

/-- The pointer of the list after a pass in which these choices failed: at the alternate after the last alternate among them
(R58, R67). -/
def RouteList.pointerPast (r : RouteList) (failed : List (Choice × Nat)) : Nat :=
  match (failed.filter fun p => decide (p.2 ≠ 0)).getLast? with
  | some p => if p.2 + 1 < r.choices.length then p.2 + 1 else 1
  | none => r.pointer

/-- The slot sum once call `c` has given back its slot (R10, R140). -/
def State.slotsWithout (s : State) (c : Context) : Nat :=
  s.settle.reservations - (if c.slot then 1 else 0) + s.settle.queued.length

/-- Context `i`, which was `c` in Proceeding on circuit `k` of group `g`, has lost it for a cause and a pass at `now` has
examined these choices in vain, each failing by its reason: the group and theirs are tried, the pointer is past them, the
slot is returned, the reselection is counted and failed, the context is Clearing (R1, R14, R15, R17, R18, R58, R60, R67,
R71, R72). -/
structure LeftWithoutChoice (i : Nat) (c : Context) (g k : Nat) (cause : Cause) (examined : List (Choice × Nat))
    (reason : Nat → Reason) (now : ExTime) (s t : State) : Prop where
  context : ContextSet i { c.afterTrying (g :: examined.map (·.1.group)) with
    phase := .clearing, circuit := none, probe := false, quote := none, slot := false, lastCause := some cause
    examined := c.examined + alternatesOf examined
    timer := some (s.time.ticks + interval s.mgmt.params.tClear) } s t
  circuits : ∀ j, j ≠ k → t.circuit j = s.circuit j
  groups : ∀ j, j ≠ g → t.group j = s.afterFailures examined reason j
  counters : t.circ.counters = s.circ.counters
  list : t.routeList c.list = { s.routeList c.list with
    pointer := ((s.routeList c.list).pastGroup g).pointerPast examined
    counters := { (s.routeList c.list).counters with
      reselections := min ((s.routeList c.list).counters.reselections + 1) 4294967295
      reselectionFailures := min ((s.routeList c.list).counters.reselectionFailures + 1) 4294967295 } }
  lists : ∀ l, l ≠ c.list → t.routeList l = s.routeList l
  routing : t.routes = { s.routes with lists := t.routes.lists }
  slot : t.settle = { s.settle with reservations := s.settle.reservations - (if c.slot then 1 else 0) }
  rating : t.rating = s.afterQuotes now (examined.filter fun p => (reason p.2).quoted)

/-- Context `i`, which was `c` in Proceeding on circuit `k` of group `g`, has lost it for a cause, and a pass at `now` has
examined the choices `before` in vain, each failing by its reason, and has seized circuit `k'`, which was `r'`, on choice
`n` of its list, on group `h`, which was `y` (R1, R14, R58, R60, R67, R68, R71, R72). -/
structure Reseized (i : Nat) (c : Context) (g k : Nat) (cause : Cause) (before : List (Choice × Nat))
    (reason : Nat → Reason) (n : Nat) (ch : Choice) (k' : Nat) (r' : Circuit) (y : Group) (q : Option Quote) (now : ExTime)
    (s t : State) : Prop where
  context : ContextSet i { c.afterTrying (g :: before.map (·.1.group)) with
    examined := c.examined + alternatesOf (before ++ [(ch, n)])
    circuit := some (ch.group, k'), probe := decide (y.mon.health = .suspect), quote := q, slot := q.isSome
    seizeTime := now, lastCause := some cause, timer := some (s.time.ticks + interval s.mgmt.params.tProceed) } s t
  circuit : t.circuit k' = some { r' with cond := .seized i }
  circuits : ∀ j, j ≠ k → j ≠ k' → t.circuit j = s.circuit j
  group : t.group ch.group = some (y.seizedAt k')
  groups : ∀ j, j ≠ g → j ≠ ch.group → t.group j = s.afterFailures before reason j
  counters : t.circ.counters = s.circ.counters
  list : t.routeList c.list = { s.routeList c.list with
    pointer := if n = 0 then ((s.routeList c.list).pastGroup g).pointer else n
    counters := { (s.routeList c.list).counters with
      reselections := min ((s.routeList c.list).counters.reselections + 1) 4294967295 } }
  lists : ∀ l, l ≠ c.list → t.routeList l = s.routeList l
  routing : t.routes = { s.routes with lists := t.routes.lists }
  slot : t.settle = { s.settle with
    reservations := s.settle.reservations - (if c.slot then 1 else 0) + (if q.isSome then 1 else 0) }
  rating : t.rating = s.afterQuotes now (before.filter (fun p => (reason p.2).quoted) ++ [(ch, n)])

/-! ### Rating at a release -/

/-- The record of a call with quote `q` on circuit `k` of group `g`, answered at `a` and released at `now` (R132 to R135,
R141). -/
def recordAt (s : State) (c : Context) (g k : Nat) (q : Quote) (a now : ExTime) : SettlementRecord :=
  let cs : Int := ((now.day : Int) * 8640000 + now.cs) - ((a.day : Int) * 8640000 + a.cs)
  let d := (max cs 0).toNat / 100
  let exact := max ((d + (q.billingStep - 1)) / q.billingStep * q.billingStep) q.minSeconds
  let charged := min exact 4294967295
  { seq := s.settle.nextSeq, carrier := q.carrier, group := g, circuit := k, callRef := c.callRef, answerTime := a
    releaseTime := now, chargeable := charged, rate := q.rate, band := q.band, setupFee := q.setupFee
    charge := min (q.setupFee + (charged * q.rate + 30) / 60) 4294967295, source := q.source
    clamped := decide (cs < 0 ∨ 4294967295 < exact), resent := false }

/-- Does the rating of a call send a batch (R143)? -/
def SettlementQueue.idle (x : SettlementQueue) : Prop := x.exportState = .ready ∧ x.halt = false

/-- The call was rated once into this record: the record takes a reservation and the next number, the carrier's totals and
the Rating Unit's counters grow, and an idle export sends (R121, R132 to R136, R141, R143, R144). -/
structure RatedInto (record : SettlementRecord) (car : Carrier) (s t : State) : Prop where
  queued : t.settle.queued = s.settle.queued ++ [record]
  reservations : t.settle.reservations = s.settle.reservations - 1
  nextSeq : t.settle.nextSeq = if s.settle.nextSeq = 4294967295 then 1 else s.settle.nextSeq + 1
  halt : t.settle.halt = s.settle.halt
  sends : s.settle.idle →
    let b := min s.mgmt.params.batchSize (s.settle.queued.length + 1)
    t.settle.exportState = .awaitingAccept ∧ t.settle.outstanding = b
      ∧ t.settle.acceptTimer = some (s.time.ticks + interval s.mgmt.params.tAccept)
      ∧ t.settle.counters = { s.settle.counters with
          batchesSent := min (s.settle.counters.batchesSent + 1) 4294967295
          recordsSent := min (s.settle.counters.recordsSent + b) 4294967295 }
  waits : ¬ s.settle.idle →
    t.settle.exportState = s.settle.exportState ∧ t.settle.outstanding = s.settle.outstanding
      ∧ t.settle.acceptTimer = s.settle.acceptTimer ∧ t.settle.counters = s.settle.counters
  carrier : t.carrier record.carrier = some { car with counters := { car.counters with
    answers := min (car.counters.answers + 1) 4294967295
    chargeTotal := min (car.counters.chargeTotal + record.charge) 18446744073709551615 } }
  carriers : ∀ n, n ≠ record.carrier → t.carrier n = s.carrier n
  unknown : t.tariffs.unknownRejected = s.tariffs.unknownRejected
  rating : t.rating = { s.rating with
    rated := min (s.rating.rated + 1) 4294967295
    durationsClamped := if record.clamped then min (s.rating.durationsClamped + 1) 4294967295
      else s.rating.durationsClamped
    chargesSaturated := if 4294967295 < record.setupFee + (record.chargeable * record.rate + 30) / 60 then
      min (s.rating.chargesSaturated + 1) 4294967295 else s.rating.chargesSaturated }

/-- The batch that the rating sends, if any (R143, R144). -/
def State.ratingRun (s : State) (record : SettlementRecord) : List OutMsg :=
  if s.settle.exportState = .ready ∧ s.settle.halt = false then
    batchOf (s.settle.queued ++ [record]) (min s.mgmt.params.batchSize (s.settle.queued.length + 1)) false
  else []

/-! ### Expiries that a tick takes -/

/-- The commands that take the expiry of one place of the timer array. -/
def TimerId.commands : TimerId → List Instr
  | .supervision i => [.tProceedExpiry i, .tClearExpiry i]
  | .guard g => [.guardExpiry g]
  | .clearing k => [.clearingExpiry k]
  | .probe g => [.probeTimerExpiry g]
  | .gap l => [.gapTimerExpiry l]
  | .accept => [.acceptTimerExpiry]
  | .sample => [.sampleExpiry]

/-- The state after several commands, one after the other. -/
def State.ran (s : State) : List Instr → State
  | [] => s
  | c :: cs =>
    match exec c s with
    | .next t => t.ran cs
    | _ => s.ran cs

/-- `u` is `s` after these expiries, each taken as its command takes it, in this order. The order may have been drawn, so
the counter of draws is free (log entry 6). -/
def ExpiriesTaken (ids : List TimerId) (s u : State) : Prop :=
  ∃ d, u = ({ s with draws := d } : State).ran (ids.flatMap TimerId.commands)

/-! ### Results of the reads as numbers in their bytes -/

/-- The items of a layout in order, each a width in bytes and the number held. -/
abbrev Items := List (Nat × Nat)

/-- Reading the bytes from the front, each item of its width, high byte first, gives the numbers, and nothing is left
(R182). -/
def Carries : Items → List Byte → Prop
  | [], bs => bs = []
  | (w, v) :: items, bs => w ≤ bs.length ∧ field 0 w bs = v ∧ Carries items (bs.drop w)

/-- Every number fits its width. -/
def Items.Fit (items : Items) : Prop := ∀ p ∈ items, p.2 < 256 ^ p.1

/-- An item that may be absent: its presence flag, then it or `w` bytes of 0 (R182). -/
def itemsOpt (w : Nat) : Option Items → Items
  | some items => (1, 1) :: items
  | none => [(1, 0), (w, 0)]

def items32 (ns : List Nat) : Items := ns.map fun n => (4, n)

/-- A digit string in `n` bytes: the count, then two digits to a byte, the first in the high half (R182). -/
def itemsDigits (n : Nat) (ds : List Digit) : Items :=
  let digit := fun i => (ds[i]?.getD 0).toNat
  (1, ds.length) :: (List.range n).map fun j => (1, 16 * digit (2 * j) + digit (2 * j + 1))

def ExTime.items (t : ExTime) : Items := [(2, t.day), (4, t.cs)]

/-! ### What leaves on the lanes (section 10.6) -/

/-- A message by its kind code, key, kind byte and the fields of its own layout from offset 6. -/
structure Layout where
  kind : Nat
  key : Nat
  kindByte : Nat
  fields : Items
  deriving DecidableEq, Repr

/-- Every field fits its width, and the message its greatest length. -/
def Layout.Fit (y : Layout) : Prop :=
  y.key < 256 ^ 3 ∧ y.kindByte < 256 ∧ y.fields.Fit ∧ (y.fields.map (·.1)).sum + 8 ≤ 120

/-- The frame is the message of this layout: common header, fields, check (R163, R168, R172). -/
structure Layout.Framed (y : Layout) (f : Frame) : Prop where
  length : f.length = (y.fields.map (·.1)).sum + 8
  bytes : Carries ([(1, y.kind), (1, f.length), (3, y.key), (1, y.kindByte)] ++ y.fields) (f.take (f.length - 2))
  check : field (f.length - 2) 2 f = (crc (f.take (f.length - 2))).toNat

/-- A flag within a byte: the value of its bit, where it is set. -/
def flagBit (bit : Nat) (b : Bool) : Nat := if b then bit else 0

/-- The fields of a Settlement Record. -/
def SettlementRecord.items (r : SettlementRecord) : Items :=
  [(4, r.seq), (1, r.carrier), (1, r.group), (2, r.circuit)] ++ r.answerTime.items ++ r.releaseTime.items
    ++ [(4, r.chargeable), (4, r.rate), (1, r.band.value), (4, r.setupFee), (4, r.charge),
      (1, flagBit 1 (decide (r.source = .offered)) + flagBit 2 r.clamped + flagBit 4 r.resent)]

/-- The notice kind, and the fields of that kind. -/
def Notice.items : Notice → Nat × Items
  | .holdOffer inUse high => (1, [(2, inUse), (2, high)])
  | .resumeOffer inUse low => (2, [(2, inUse), (2, low)])
  | .bandChange g before after s => (3, [(1, g), (1, before.value), (1, after.value), (2, s)])
  | .healthChange g health failCount => (4, [(1, g), (1, health.value), (1, failCount)])
  | .groupDrained g => (5, [(1, g)])
  | .maintenanceBlock g circuit => (6, [(1, g), (2, circuit)])
  | .clearingTimeout callRef => (7, [(3, callRef)])
  | .tariffActivated carrier source day minute => (8, [(1, carrier), (1, source.value), (2, day), (2, minute)])
  | .offerRejected claimed circuit owner reason => (9, [(1, claimed), (2, circuit), (1, owner), (1, reason.value)])
  | .exportStalled first count queued => (10, [(4, first), (1, count), (2, queued)])
  | .portError port err value => (11, [(1, if port = .forward then 0 else 1), (1, err.value), (2, value)])

/-- The layout of an emitted message of one frame. A reply has parts of its own, and a passed message is as it came. -/
def OutMsg.layout : OutMsg → Option Layout
  | .setup circuit group inCircuit category priority number =>
    if category < 8 then
      some ⟨0x01, circuit, 0, [(2, inCircuit), (1, category + flagBit 128 priority), (1, number.length), (1, group)]
        ++ (itemsDigits ((number.length + 1) / 2) number).drop 1⟩
    else none
  | .progress key => some ⟨0x02, key, 0, []⟩
  | .answer key => some ⟨0x03, key, 0, []⟩
  | .release key cause => some ⟨0x04, key, cause, []⟩
  | .releaseConfirm key => some ⟨0x05, key, 0, []⟩
  | .refuse callRef inCircuit cause => some ⟨0x06, callRef, cause.value, [(2, inCircuit)]⟩
  | .blockConfirm circuit => some ⟨0x0A, circuit, 0, []⟩
  | .unblockConfirm circuit => some ⟨0x0B, circuit, 0, []⟩
  | .record r => some ⟨0x20, r.callRef, 0, r.items⟩
  | .batchEnd count first again => some ⟨0x21, 0, 0, [(1, count), (4, first), (1, flagBit 1 again)]⟩
  | .notice time n => some ⟨0x30, 0, n.items.1, time.items ++ n.items.2⟩
  | .reply .. => none
  | .passed _ => none

/-- Part `j` of the `parts` parts of a Management Reply (R168, R182): 109 bytes of the results, the part number, the final
mark on the last. -/
def replyPart (tag code : Nat) (rc : ReplyCode) (results : List Byte) (parts j : Nat) : Layout :=
  ⟨0x41, 0, tag, [(1, code), (1, rc.value), (1, j + flagBit 128 (decide (j + 1 = parts)))]
    ++ ((results.drop (109 * j)).take 109).map fun b => (1, b.toNat)⟩

/-! ### Results of the reads -/

/-- A tariff body in the 57 bytes of its layout (section 10.6); signed numbers in two's complement. -/
def Tariff.items (x : Tariff) : Items :=
  (1, x.periods.length) :: x.periods.flatMap (fun p => [(2, p.start), (3, p.base)])
    ++ (List.replicate (4 - x.periods.length) [(2, 0), (3, 0)]).flatten
    ++ (3, x.setupFee) :: x.mults.map (fun m => (2, m)) ++ x.slopes.map (fun v => (2, (v % 65536).toNat))
    ++ [(3, x.floor), (3, x.ceiling), (1, x.billingStep), (2, x.minSeconds)]

/-- Read Device Status, group by group (R24, R51, R55, R113, R137, R150, R169, R177; order by log entry 13, the presence flags
of the two sequence numbers by log entry 15). -/
def State.statusItems (s : State) : Items :=
  let g := s.mgmt.params
  let c := s.ctx.counters
  let m := s.circ.counters
  let q := s.settle
  let flags := fun f : ErrFlags => [f.check, f.length, f.kind, f.overrun].map fun b => (1, b.toNat)
  let errors := fun e : ErrCounters => [e.check, e.length, e.kind, e.overrun].map fun n => (2, n)
  (1, s.mgmt.device.value) :: s.time.now.items ++ [(1, s.time.valid.toNat)]
    ++ [(2, g.tProceed), (2, g.tClear), (2, g.tAccept), (1, g.samplePeriod), (2, g.highWater), (2, g.lowWater),
      (1, g.batchSize)]
    ++ [(2, s.ctx.inUse), (2, s.ctx.peak), (1, s.ctx.offer.value)]
    ++ items32 [c.setupsTaken, c.refusedEarly, c.protoProgress, c.protoAnswer, c.protoReleaseConfirm, c.unknownRelease,
      c.unknownOther, c.clearingTimeouts]
    ++ items32 [m.unexpectedRelease, m.strayProgress, m.strayAnswer, m.strayReleaseConfirm, m.unequipped,
      m.seizeOnBlocked, m.seizeProtocol, m.glareHeld, m.clearDiscarded, m.clearingExpiry]
    ++ items32 [s.routes.unmatched, s.routes.barred, s.routes.classExcluded, s.tariffs.unknownRejected]
    ++ items32 [s.rating.quotes, s.rating.raised, s.rating.lowered, s.rating.rated, s.rating.durationsClamped,
      s.rating.chargesSaturated]
    ++ [(2, q.reservations), (2, q.queued.length)]
    ++ itemsOpt 4 (q.queued.head?.map fun r => [(4, r.seq)]) ++ itemsOpt 4 (q.queued.getLast?.map fun r => [(4, r.seq)])
    ++ [(4, q.nextSeq), (1, q.exportState.value), (1, q.halt.toNat), (1, q.outstanding)]
    ++ itemsOpt 3 (q.acceptTimer.map fun d => [(3, d - s.time.ticks)])
    ++ items32 [q.counters.batchesSent, q.counters.batchesResent, q.counters.recordsSent, q.counters.batchesAccepted,
      q.counters.recordsAccepted, q.counters.unexpectedAccepts, q.counters.stalls]
    ++ flags s.fwd.flags ++ flags s.bwd.flags ++ errors s.fwd.errors ++ errors s.bwd.errors
    ++ [(4, s.fwd.passed), (4, s.bwd.passed), (1, s.fwd.queue.length), (1, s.fwd.peak), (1, s.bwd.queue.length),
      (1, s.bwd.peak)]

/-- Lookup Destination: prefix, kind, list id, mask (R56). -/
def DestEntry.items (e : DestEntry) : Items :=
  itemsDigits 8 e.pfx ++
    match e.kind with
    | .route l m => [(1, 0), (2, l)] ++ itemsOpt 1 (m.map fun b => [(1, b.toNat)])
    | .bar => [(1, 1), (2, 65535), (1, 0), (1, 0)]

/-- The seven traffic counters (R89). -/
def Traffic.items (x : Traffic) : Items :=
  items32 [x.attempts, x.seizures, x.overflows, x.answers, x.failures, x.glareLosses] ++ [(6, x.usage)]

/-- Read Group: configuration, admin state, drained-notice-sent flag, counts, the monitor's fields (R26, R50, R90). -/
def Group.items (x : Group) (ticks : Nat) : Items :=
  let n := x.counts
  [(2, x.cfg.first), (2, x.cfg.size), (1, x.cfg.owner), (1, x.cfg.direction.value), (1, x.cfg.glare.value),
    (1, x.cfg.hunt.value), (1, x.cfg.guardTime), (2, x.cfg.reservation), (1, x.cfg.thrSet), (1, x.cfg.theta),
    (1, x.cfg.probeInterval), (1, x.cfg.bandReport.toNat), (1, x.admin.value), (1, x.drainedSent.toNat)]
    ++ [n.free, n.blocked, n.seized, n.farSeized, n.releasing, n.guard].map (fun v => (2, v))
    ++ [(3, x.mon.s256), (2, x.mon.s256 / 256), (1, x.mon.band.value), (1, x.mon.health.value), (1, x.mon.failCount),
      (1, x.mon.gate.value)]
    ++ itemsOpt 2 (x.mon.probeTimer.map fun d => [(2, d - ticks)]) ++ x.mon.traffic.items

/-- Read Circuit of an equipped circuit (R50). -/
def State.circuitItems (s : State) (c : Circuit) : Items :=
  [(1, c.group), (1, c.cond.value), (1, c.remote.toNat), (1, c.localBlock.toNat)]
    ++ itemsOpt 3 (match c.cond with
      | .seized i => (s.context i).map fun x => [(3, x.callRef)]
      | _ => none)
    ++ itemsOpt 3 (match c.cond with
      | .guard d => some [(3, d - s.time.ticks)]
      | .releasing d => some [(3, d - s.time.ticks)]
      | _ => none)

/-- Read Context: the index, the fields of the table of section 1.1 in its order but for the state, which stands first, and
the timer (R1, R177). -/
def Context.items (c : Context) (i ticks : Nat) : Items :=
  [(2, i), (1, c.phase.value), (3, c.callRef)] ++ itemsDigits 10 c.number
    ++ [(2, c.inCircuit), (2, c.list), (1, c.category), (1, c.priority.toNat), (1, c.tried.length)]
    ++ c.tried.map (fun g => (1, g)) ++ [(1, c.examined)]
    ++ itemsOpt 3 (c.circuit.map fun p => [(1, p.1), (2, p.2)]) ++ [(1, c.probe.toNat)]
    ++ itemsOpt 14 (c.quote.map fun q => [(1, q.carrier), (4, q.rate), (4, q.setupFee), (1, q.billingStep),
      (2, q.minSeconds), (1, q.band.value), (1, q.source.value)])
    ++ (1, c.slot.toNat) :: c.seizeTime.items ++ itemsOpt 6 (c.answerTime.map ExTime.items)
    ++ itemsOpt 1 (c.lastCause.map fun x => [(1, x.value)]) ++ [(1, c.noFurther.toNat)]
    ++ itemsOpt 3 (c.timer.map fun d => [(3, d - ticks)])

/-- The counters of a list (R60). -/
def ListCounters.items (n : ListCounters) : Items :=
  items32 [n.offered, n.gapped, n.refusedCongestion, n.refusedPricedOut, n.refusedSettlementFull,
    n.refusedRouteUnavailable, n.reselections, n.reselectionFailures]

/-- Read Route List (R75; presence flags by log entry 15). -/
def RouteList.items (r : RouteList) : Items :=
  (1, r.choices.length) :: r.choices.flatMap (fun ch => [(1, ch.group), (3, ch.ceiling)])
    ++ itemsOpt 1 (if r.loaded then some [(1, r.budget)] else none) ++ [(1, r.pointer)]
    ++ itemsOpt 7 (if r.loaded then some [(1, r.gapEnable.toNat), (2, r.gapFloor), (2, r.gapMax), (2, r.gapStep)]
      else none)
    ++ [(1, r.gapState.value), (2, r.gap), (1, r.gate.value)] ++ r.counters.items

/-- The counters of a carrier (R91, R122). -/
def CarrierCounters.items (n : CarrierCounters) : Items :=
  items32 [n.accepted, n.ignored, n.rejected, n.answers] ++ [(8, n.chargeTotal)]

/-- Read Carrier (R122). -/
def Carrier.items (c : Carrier) : Items :=
  c.current.items ++ [(1, c.source.value)]
    ++ itemsOpt 62 (c.pending.map fun p => p.body.items ++ [(2, p.day), (2, p.minute), (1, p.source.value)])
    ++ (1, c.pinned.toNat) :: c.counters.items

/-- Read Latched: object kind, id, time, time-valid flag, the counters (R91, R93). -/
def Latch.items (x : Latch) : Items :=
  [(1, x.kind.value), (2, x.id)] ++ x.time.items ++ [(1, x.valid.toNat)] ++
    match x.counters with
    | .group n => n.items
    | .list n => n.items
    | .carrier n => n.items

/-! ### Circuits and groups by request -/

/-- A group when the flags of its circuit `k` change, which turn it from `r` into `r'` (R38, R40): only an Idle circuit
passes between Free and Blocked. -/
def Group.reflagged (x : Group) (k : Nat) (r r' : Circuit) : Group :=
  if r.cond ≠ .idle then x
  else if (r.remote || r.localBlock) = false ∧ (r'.remote || r'.localBlock) = true then
    { x with
      counts := { x.counts with free := x.counts.free - 1, blocked := x.counts.blocked + 1 }
      freeQueue := x.freeQueue.filter fun j => decide (j ≠ k) }
  else if (r.remote || r.localBlock) = true ∧ (r'.remote || r'.localBlock) = false then
    { x with
      counts := { x.counts with blocked := x.counts.blocked - 1, free := x.counts.free + 1 }
      freeQueue := x.freeQueue ++ [k] }
  else x

/-- The field ranges of Load Trunk Group (R26, R47). -/
def LoadGroupReq.Fits (q : LoadGroupReq) : Prop :=
  (1 ≤ q.id ∧ q.id ≤ 255) ∧ q.first ≤ 16383 ∧ (1 ≤ q.size ∧ q.size ≤ 1024) ∧ q.first + q.size ≤ 16384 ∧ q.owner ≤ 63
    ∧ q.direction ≤ 1 ∧ q.glare ≤ 1 ∧ q.hunt ≤ 1 ∧ q.guardTime ≤ 255 ∧ q.reservation ≤ 1023 ∧ q.thrSet ≤ 15
    ∧ q.theta ≤ 15 ∧ (1 ≤ q.probeInterval ∧ q.probeInterval ≤ 255)

/-- The configuration that a Load Trunk Group gives (R26, R47). -/
def LoadGroupReq.Gives (q : LoadGroupReq) (c : GroupConfig) : Prop :=
  c.first = q.first ∧ c.size = q.size ∧ c.owner = q.owner ∧ (c.direction = .bothWay ↔ q.direction = 1)
    ∧ (c.glare = .yielding ↔ q.glare = 1) ∧ (c.hunt = .lowestNumber ↔ q.hunt = 1) ∧ c.guardTime = q.guardTime
    ∧ c.reservation = q.reservation ∧ c.thrSet = q.thrSet ∧ c.theta = q.theta ∧ c.probeInterval = q.probeInterval
    ∧ c.bandReport = q.bandReport

/-- Every circuit of a group is Idle (R47, R49). -/
def State.restsWholly (s : State) (g : Nat) : Prop := ∀ k r, s.circuit k = some r → r.group = g → r.cond = .idle

/-! ### Tariffs -/

/-- A valid tariff body, by the ranges of R110. -/
structure Tariff.InRange (t : Tariff) : Prop where
  periods : 1 ≤ t.periods.length ∧ t.periods.length ≤ 4
  first : t.periods.head?.map (·.start) = some 0
  rising : (t.periods.map (·.start)).Pairwise (· < ·)
  each : ∀ p ∈ t.periods, p.start ≤ 1439 ∧ p.base ≤ 1000000
  fee : t.setupFee ≤ 1000000
  mults : t.mults.length = 4 ∧ ∀ m ∈ t.mults, m ≤ 1023
  slopes : t.slopes.length = 8 ∧ ∀ v ∈ t.slopes, -20000 ≤ v ∧ v ≤ 20000
  bounds : t.floor ≤ t.ceiling ∧ t.ceiling ≤ 2000000
  step : 1 ≤ t.billingStep ∧ t.billingStep ≤ 60
  minimum : t.minSeconds ≤ 600

/-- Carrier `id` is `c`; no other carrier has changed, nor has the counter of unknown claims. -/
def CarrierSet (id : Nat) (c : Carrier) (s t : State) : Prop :=
  t.carrier id = some c ∧ (∀ n, n ≠ id → t.carrier n = s.carrier n)
    ∧ t.tariffs.unknownRejected = s.tariffs.unknownRejected

end Sys2Proof.Machine
end

