-- ==== Sys2Proof/Certificates/Slice0/Obligations.lean ====
section
/-! DEFINITION. The statements for the provers. Numbers are those of spec/: 8,640,000 centiseconds a day, 4,294,967,295 for
a 32-bit counter. Choices of the model run through many of them: a running timer is the tick count at which it is due (log
entry 3), an expiry carries the time of its tick (log entry 5), the messages of one event leave in the order of the
rule's text, a batch last (log entries 11 and 12). -/
open Sys2Proof Sys2Proof.Machine

/-! ### The step, every command, reset, time -/

/-- A step runs the command at the front of the queue on the queue's rest; with none waiting the device idles (log
entry 1). -/
def Obligations.StepRunsFrontCommand : Prop :=
  (∀ (c : Instr) (rest : List Instr) (s : State), s.pending = c :: rest → step s = exec c { s with pending := rest })
    ∧ ∀ s : State, s.pending = [] → step s = .next s

/-- Every command of the table, with every operand and in every state, ends in a next state and leaves the commands that
wait alone. -/
def Obligations.EveryCommandAnswersNext : Prop :=
  ∀ (c : Instr) (s : State), ∃ t, exec c s = .next t ∧ t.pending = s.pending

/-- HARD_RESET: every block at its hard-reset values and the line held (R25, R52, R76, R78, R95, R104, R108, R123, R137,
R151, R161, R171, R181). While the line is held the sample timer is stopped: it starts at the release (R158, R161), and that
the two are commands of their own is log entry 9. What has left on the outputs stays sent (log entry 8). -/
def Obligations.HardResetClearsEveryBlock : Prop :=
  ∀ s : State, ∃ t, exec .hardReset s = .next t ∧ t.resetLine = true
    ∧ t.ctx = ⟨[], [], 0, 0, .opened, ⟨0, 0, 0, 0, 0, 0, 0, 0⟩⟩
    ∧ t.circ = ⟨[], [], ⟨0, 0, 0, 0, 0, 0, 0, 0, 0, 0⟩⟩
    ∧ t.routes = ⟨[], [], 0, 0, 0⟩
    ∧ (∀ l, (t.routeList l).loaded = false ∧ (t.routeList l).choices = [] ∧ (t.routeList l).pointer = 1
        ∧ (t.routeList l).gapState = .off ∧ (t.routeList l).gap = 0 ∧ (t.routeList l).gate = .opened
        ∧ (t.routeList l).gapTimer = none ∧ (t.routeList l).counters = ⟨0, 0, 0, 0, 0, 0, 0, 0⟩)
    ∧ (∀ n, t.thresholds n = ⟨600, 750, 900, 20, 2⟩) ∧ t.mon.latch = none ∧ t.mon.sampleTimer = none
    ∧ t.tariffs = ⟨[], 0⟩ ∧ t.rating = ⟨0, 0, 0, 0, 0, 0⟩
    ∧ t.settle = ⟨0, [], 1, .ready, false, 0, none, ⟨0, 0, 0, 0, 0, 0, 0⟩⟩
    ∧ t.time.now = ⟨0, 0⟩ ∧ t.time.valid = false
    ∧ t.fwd = ⟨[], 0, ⟨false, false, false, false⟩, ⟨0, 0, 0, 0⟩, 0⟩
    ∧ t.bwd = ⟨[], 0, ⟨false, false, false, false⟩, ⟨0, 0, 0, 0⟩, 0⟩
    ∧ t.mgmt = ⟨.unconfigured, ⟨2000, 6000, 500, 10, 7680, 6144, 16⟩⟩
    ∧ t.pending = s.pending ∧ t.fwdOut = s.fwdOut ∧ t.bwdOut = s.bwdOut

/-- RESET_RELEASE: the sample timer starts with 100 ticks (R158, R161); where the line is not held nothing changes (log
entry 2). While it is held, ticks are not counted (R160) and arriving messages are not taken (R171). -/
def Obligations.ResetLineHoldsAndReleases : Prop :=
  (∀ s : State,
    (s.resetLine = true → ∃ t, exec .resetRelease s = .next t ∧ t.resetLine = false
      ∧ t.mon = { s.mon with sampleTimer := some (s.time.ticks + 100) } ∧ OnlyChanges [.resetLine, .mon] s t)
    ∧ (s.resetLine = false → exec .resetRelease s = .next s))
  ∧ (∀ s : State, s.resetLine = true →
    exec .referenceTick s = .next s ∧ ∀ (p : Port) (f : Frame), exec (.messageArrival p f) s = .next s)

/-- REFERENCE_TICK: every expiry that is due and that no command has taken is taken first, in some order, as its command
takes it (log entry 4); then the centisecond advances, the day completes, day 65,535 clears the time-valid flag (R152,
R153), and absolute time rises by one but at that tick. -/
def Obligations.TickAdvancesTime : Prop :=
  ∀ s : State, s.resetLine = false → s.time.law →
    ∃ (ids : List TimerId) (u t : State), ids.Perm s.dueTimers ∧ ExpiriesTaken ids s u ∧ (s.dueTimers = [] → u = s)
      ∧ u.time = s.time ∧ exec .referenceTick s = .next t
      ∧ t.time.now = (if s.time.now.cs < 8639999 then ⟨s.time.now.day, s.time.now.cs + 1⟩
          else if s.time.now.day < 65535 then ⟨s.time.now.day + 1, 0⟩ else ⟨0, 0⟩)
      ∧ t.time.valid = (if s.time.now.cs = 8639999 ∧ s.time.now.day = 65535 then false else s.time.valid)
      ∧ (s.time.now.cs < 8639999 ∨ s.time.now.day < 65535 →
          t.time.now.day * 8640000 + t.time.now.cs = s.time.now.day * 8640000 + s.time.now.cs + 1)
      ∧ t.time.ticks = s.time.ticks + 1 ∧ t.time.tickTime = t.time.now
      ∧ (t.time.now.cs % 100 ≠ 0 → OnlyChanges [.time] u t)

/-- A tick that leaves the centisecond a multiple of 100 activates, while the time-valid flag is set, every pending tariff
that is due, each with its notice, in no order among themselves (R118, R119, R154). Of the expiries of this tick any
may come before the event (`first`), and any after it (`later`): R158 gives no order (log entry 21). -/
def Obligations.WholeSecondActivatesDueTariffs : Prop :=
  ∀ s : State, s.resetLine = false → s.time.now.tick.cs % 100 = 0 →
    ∃ (before first later : List TimerId) (u v t : State),
      let ticked : State := { u with time := u.time.tick }
      before.Perm s.dueTimers ∧ ExpiriesTaken before s u ∧ (s.dueTimers = [] → u = s)
      ∧ (first ++ later).Perm ticked.dueTimers ∧ ExpiriesTaken first ticked v ∧ (ticked.dueTimers = [] → v = ticked)
      ∧ v.tariffs = s.tariffs ∧ exec .referenceTick s = .next t ∧
      let minutes := t.time.now.day * 1440 + t.time.now.cs / 6000
      let due := fun p : Pending => t.time.valid && decide (p.day * 1440 + p.minute ≤ minutes)
      t.tariffs.unknownRejected = s.tariffs.unknownRejected
      ∧ (∀ id, t.carrier id = (s.carrier id).map fun c =>
          match c.pending with
          | some p => if due p then { c with current := p.body, source := p.source, pending := none } else c
          | none => c)
      ∧ (∃ ns : List Notice, t.bwdOut = v.bwdOut ++ ns.map (OutMsg.notice t.time.now)
        ∧ ns.Perm (s.tariffs.carriers.flatMap fun e =>
            match e.2.pending with
            | some p => if due p then [.tariffActivated e.1 p.source p.day p.minute] else []
            | none => []))
      ∧ OnlyChanges [.tariffs, .bwdOut, .draws] v t

/-! ### Ports -/

/-- MESSAGE_ARRIVAL: a checked message joins the tail of its port's queue (R162); a full queue or a failed check discards it
with its counter, its flag and, where the flag was clear, a Port Error notice (R162, R163, R169). The second part says
which frame fails which check, in the order of R163 and with the kinds of R164; the third says what the check over the
bytes is, bit by bit. -/
def Obligations.ArrivalQueuesOrDiscards : Prop :=
  (∀ (s : State) (p : Port) (f : Frame), s.resetLine = false →
    let part := match p with | .forward => Part.fwd | .backward => Part.bwd
    let error := if 128 ≤ (s.port p).queue.length then some PortErr.overrun else frameError p f
    ∃ t, exec (.messageArrival p f) s = .next t
      ∧ (error = none →
          t.port p = { s.port p with
            queue := (s.port p).queue ++ [f], peak := max (s.port p).peak ((s.port p).queue.length + 1) }
          ∧ OnlyChanges [part] s t)
      ∧ (∀ e, error = some e →
          (t.port p).queue = (s.port p).queue ∧ (t.port p).peak = (s.port p).peak
          ∧ (t.port p).passed = (s.port p).passed
          ∧ (∀ e', (t.port p).errors.get e' =
              if e' = e then min ((s.port p).errors.get e + 1) 65535 else (s.port p).errors.get e')
          ∧ (∀ e', (t.port p).flags.get e' = if e' = e then true else (s.port p).flags.get e')
          ∧ t.bwdOut = (if (s.port p).flags.get e then s.bwdOut
              else s.bwdOut ++ [.notice s.time.now (.portError p e (min ((s.port p).errors.get e + 1) 65535))])
          ∧ OnlyChanges [part, .bwdOut] s t))
  ∧ (∀ (p : Port) (f : Frame),
    let byte := fun i : Nat => (f[i]?.getD 0).toNat
    let kind := byte 0
    let misfit := byte 1 ≠ f.length ∨ f.length < 8 ∨ 120 < f.length
    let broken := 256 * byte (f.length - 2) + byte (f.length - 1) ≠ (crc (f.take (f.length - 2))).toNat
    let accepted := kind ∈ (match p with
      | .forward => [0x01, 0x04, 0x05, 0x22, 0x23, 0x24, 0x40]
      | .backward => [0x02, 0x03, 0x04, 0x05, 0x08, 0x09, 0x0C, 0x0D, 0x10])
    let fits := if kind = 0x01 then f.length = 13 + (byte 9 + 1) / 2 else if kind = 0x10 then f.length = 70
      else if kind = 0x40 then 9 ≤ f.length ∧ f.length ≤ 120 else f.length = 8
    (misfit → frameError p f = some .length)
    ∧ (¬ misfit → broken → frameError p f = some .check)
    ∧ (¬ misfit → ¬ broken → 128 ≤ kind → frameError p f = none)
    ∧ (¬ misfit → ¬ broken → kind < 128 → ¬ accepted → frameError p f = some .kind)
    ∧ (¬ misfit → ¬ broken → accepted → ¬ fits → frameError p f = some .length)
    ∧ (¬ misfit → ¬ broken → accepted → fits → frameError p f = none))
  ∧ ∀ (bytes : List Byte) (b : Byte), crc [] = 0xFFFF#16
      ∧ crc (bytes ++ [b]) = (List.range 8).foldl (fun (r : BitVec 16) (i : Nat) =>
          if (r.getLsbD 15 != b.getLsbD (7 - i)) = true then (r <<< 1) ^^^ 0x1021#16 else r <<< 1) (crc bytes)

/-- A frame that the device builds has its length and its check right, so that the checks of R163 judge it by its kind
alone, and its header fields read as they were written (R163, R164, R168, R172). Every emitted message but a reply and a
passed one leaves as one frame of the layout that section 10.6 gives its kind, where its fields fit (R168, R170, R172; the
repeat indication is 1 where set, log entry 29). A reply leaves in parts of at most 109 bytes of results, with the part
number from 0 and the final mark on the last (R168, R182). The fourth part gives the byte of every named value. -/
def Obligations.EmittedMessagesHaveTheirLayout : Prop :=
  (∀ (p : Port) (kind key kindByte : Nat) (body : List Byte),
      kind < 256 → key < 16777216 → kindByte < 256 → body.length ≤ 112 →
        let f := build kind key kindByte body
        f.length = body.length + 8 ∧ kindOf f = kind ∧ lengthOf f = f.length ∧ keyOf f = key ∧ kindByteOf f = kindByte
          ∧ (f.drop 6).take body.length = body
          ∧ frameError p f = (if 128 ≤ kind then none else if accepts p kind = false then some .kind
              else if lengthFits f then none else some .length))
  ∧ (∀ (m : OutMsg) (y : Layout), m.layout = some y → y.Fit → ∃ f, m.wire = [f] ∧ y.Framed f)
  ∧ (∀ (tag code : Nat) (rc : ReplyCode) (results : List Byte),
    tag < 256 → code < 256 → results.length ≤ 13952 →
      let parts := max 1 ((results.length + 108) / 109)
      (OutMsg.reply tag code rc results).wire.length = parts
        ∧ ∀ j f, (OutMsg.reply tag code rc results).wire[j]? = some f →
            (replyPart tag code rc results parts j).Framed f)
  ∧ ([.noRoute, .invalidNumber, .gapped, .congestion, .pricedOut, .settlementFull, .routeUnavailable, .resourceExhausted,
      .notInService, .duplicateReference, .noResponse, .normal, .circuitUnavailable, .numberUnobtainable,
      .circuitFailure].map Cause.value = [1, 2, 3, 4, 5, 6, 7, 8, 9, 10, 11, 16, 17, 18, 19]
    ∧ [.done, .badParameter, .notAvailable, .busy, .notFound, .tableFull].map ReplyCode.value = [0, 1, 2, 3, 4, 5]
    ∧ [.clear, .busy, .congested, .critical].map Band.value = [0, 1, 2, 3]
    ∧ [.normal, .suspect].map Health.value = [0, 1] ∧ [.localLoad, .offered].map Source.value = [0, 1]
    ∧ [.unauthorised, .invalid].map OfferReason.value = [1, 2]
    ∧ [.check, .length, .kind, .overrun].map PortErr.value = [1, 2, 3, 4]
    ∧ [.opened, .closed].map Gate.value = [0, 1] ∧ [.off, .active].map GapState.value = [0, 1]
    ∧ [.outgoing, .bothWay].map Direction.value = [0, 1] ∧ [.controlling, .yielding].map GlareRole.value = [0, 1]
    ∧ [.oldestFree, .lowestNumber].map HuntMode.value = [0, 1]
    ∧ [.inService, .draining, .outOfService].map AdminState.value = [0, 1, 2]
    ∧ [.opened, .held].map OfferState.value = [0, 1]
    ∧ [.ready, .awaitingAccept, .stalled].map ExportState.value = [0, 1, 2]
    ∧ [.unconfigured, .inService, .quiesced].map DeviceState.value = [0, 1, 2]
    ∧ [.proceeding, .alerting, .connected, .clearing].map Phase.value = [1, 2, 3, 4]
    ∧ [.trunkGroup, .routeList, .carrier].map ObjectKind.value = [0, 1, 2]
    ∧ ∀ i d, [.idle, .seized i, .farSeized, .releasing d, .guard d].map Condition.value = [0, 1, 2, 3, 4])

/-- PASS_THROUGH: emitted on the output of its direction byte for byte, and counted (R165). -/
def Obligations.PassThroughLeavesUnchanged : Prop :=
  ∀ (s : State) (p : Port) (f : Frame) (rest : List Frame),
    (s.port p).queue = f :: rest → 128 ≤ kindOf f →
      ∃ t, exec (.passThrough p) s = .next t
        ∧ t.port p = { s.port p with queue := rest, passed := min ((s.port p).passed + 1) 4294967295 }
        ∧ (p = .forward → t.fwdOut = s.fwdOut ++ [.passed f] ∧ OnlyChanges [.fwd, .fwdOut] s t)
        ∧ (p = .backward → t.bwdOut = s.bwdOut ++ [.passed f] ∧ OnlyChanges [.bwd, .bwdOut] s t)
        ∧ (OutMsg.passed f).wire = [f]

/-- A message of another kind at the head, another request, or an empty queue leaves each of these commands without effect
(log entry 2; R162 hands on the head message alone). -/
def Obligations.CommandsWaitForTheirMessage : Prop :=
  ∀ s : State,
    (∀ (c : Instr) (k : Nat),
      (c, k) ∈ [(.setup, 0x01), (.originRelease, 0x04), (.originReleaseConfirm, 0x05), (.batchAccept, 0x22),
        (.exportHalt, 0x23), (.exportResume, 0x24)] →
      (∀ f, s.fwd.queue.head? = some f → kindOf f ≠ k) → exec c s = .next s)
    ∧ (∀ (c : Instr) (k : Nat),
      (c, k) ∈ [(.progress, 0x02), (.answer, 0x03), (.farRelease, 0x04), (.farReleaseConfirm, 0x05), (.block, 0x08),
        (.unblock, 0x09), (.farSeize, 0x0C), (.farClear, 0x0D), (.tariffOffer, 0x10)] →
      (∀ f, s.bwd.queue.head? = some f → kindOf f ≠ k) → exec c s = .next s)
    ∧ (∀ (c : Instr) (code : Nat),
      (c, code) ∈ [(.enterService, 0x01), (.quiesce, 0x02), (.restart, 0x03), (.readDeviceStatus, 0x04),
        (.clearErrorFlags, 0x05), (.setExchangeTime, 0x06), (.setGlobalParameters, 0x07), (.loadDestination, 0x10),
        (.deleteDestination, 0x11), (.lookupDestination, 0x12), (.loadRouteList, 0x18), (.restartGap, 0x19),
        (.loadThresholdSet, 0x20), (.loadTrunkGroup, 0x21), (.removeTrunkGroup, 0x22), (.setGroupState, 0x23),
        (.blockCircuit, 0x24), (.unblockCircuit, 0x25), (.declareCarrier, 0x30), (.removeCarrier, 0x31),
        (.loadTariff, 0x32), (.pinCarrier, 0x33), (.unpinCarrier, 0x34), (.readGroup, 0x40), (.readCircuit, 0x41),
        (.readContext, 0x42), (.readRouteList, 0x43), (.readCarrier, 0x44), (.latchCounters, 0x48),
        (.readLatched, 0x49)] →
      (∀ f, s.fwd.queue.head? = some f →
        ¬ (kindOf f = 0x40 ∧ requestCode f = code ∧ requestLength code = some f.length)) → exec c s = .next s)
    ∧ ∀ p : Port, (∀ f, (s.port p).queue.head? = some f → kindOf f < 128) → exec (.passThrough p) s = .next s

/-! ### Origin side -/

/-- SETUP refused by the checks of R6, in their order: a Refuse with the Setup's reference and incoming circuit, no context,
and the two counters of R24. -/
def Obligations.SetupRefusedBeforeRouting : Prop :=
  ∀ (s : State) (f : Frame) (rest : List Frame), s.headed .forward 0x01 f rest →
    let m := setupOf f
    let served := s.mgmt.device = .inService
    let fresh := s.lookupRef m.callRef = none
    let room := ∃ i < 8192, s.context i = none
    ∀ c : Cause,
      ((¬ served ∧ c = .notInService) ∨ (served ∧ ¬ fresh ∧ c = .duplicateReference)
        ∨ (served ∧ fresh ∧ ¬ room ∧ c = .resourceExhausted)
        ∨ (served ∧ fresh ∧ room ∧ (m.count = 0 ∨ 20 < m.count) ∧ c = .invalidNumber)) →
      ∃ t, exec .setup s = .next t ∧ TookHead .forward rest s t
        ∧ t.bwdOut = s.bwdOut ++ [.refuse m.callRef m.inCircuit c]
        ∧ t.ctx = { s.ctx with counters := { s.ctx.counters with
            setupsTaken := min (s.ctx.counters.setupsTaken + 1) 4294967295
            refusedEarly := min (s.ctx.counters.refusedEarly + 1) 4294967295 } }
        ∧ OnlyChanges [.fwd, .ctx, .bwdOut] s t

/-- SETUP that finds no route (R55, R61): the Refuse carries No Route, one of three counters tells why, the contexts are as
before, and the raised and lowered count gives its offer notices about the Refuse (R3, R7, R105; order by log entry 12). -/
def Obligations.SetupWithoutRouteIsRefused : Prop :=
  ∀ (s : State) (f : Frame) (rest : List Frame) (i : Nat), s.headed .forward 0x01 f rest →
    let m := setupOf f
    s.mgmt.device = .inService → s.lookupRef m.callRef = none → i < 8192 → s.context i = none →
    (∀ j < i, (s.context j).isSome) → 1 ≤ m.count → m.count ≤ 20 →
    ∀ (cause : Cause) (routes : RouteSelector),
      ((destMatch s.routes.dests m.number = none ∧ cause = .noRoute
          ∧ routes = { s.routes with unmatched := min (s.routes.unmatched + 1) 4294967295 })
        ∨ (∃ p, destMatch s.routes.dests m.number = some ⟨p, .bar⟩ ∧ cause = .noRoute
          ∧ routes = { s.routes with barred := min (s.routes.barred + 1) 4294967295 })
        ∨ (∃ p l mask, destMatch s.routes.dests m.number = some ⟨p, .route l (some mask)⟩
          ∧ mask.getLsbD m.category = false ∧ cause = .noRoute
          ∧ routes = { s.routes with classExcluded := min (s.routes.classExcluded + 1) 4294967295 })) →
      ∃ t, exec .setup s = .next t ∧ TookHead .forward rest s t ∧ t.routes = routes
        ∧ RefusedInRouting s t ∧ t.bwdOut = s.bwdOut ++ s.refusalRun m cause
        ∧ OnlyChanges [.fwd, .ctx, .routes, .bwdOut] s t

/-- SETUP at a Closed gate of an Active list, without priority: Gapped, and the list counts it as offered and gapped
(R60, R61, R97). -/
def Obligations.SetupAtClosedGateIsGapped : Prop :=
  ∀ (s : State) (f : Frame) (rest : List Frame) (i l : Nat), SetupReaches s f rest i l →
    let m := setupOf f
    m.priority = false → (s.routeList l).gapState = .active → (s.routeList l).gate = .closed →
      ∃ t, exec .setup s = .next t ∧ TookHead .forward rest s t
        ∧ t.routeList l = { s.routeList l with counters := { (s.routeList l).counters with
            offered := min ((s.routeList l).counters.offered + 1) 4294967295
            gapped := min ((s.routeList l).counters.gapped + 1) 4294967295 } }
        ∧ (∀ n, n ≠ l → t.routeList n = s.routeList n) ∧ t.routes = { s.routes with lists := t.routes.lists }
        ∧ RefusedInRouting s t ∧ t.bwdOut = s.bwdOut ++ s.refusalRun m .gapped ∧ OnlyChanges [.fwd, .ctx, .routes, .bwdOut] s t

/-- SETUP that the gate lets in and choice `n` carries, the first in the order of the pass that passes its checks: those
`before` it fail, each by its own reason, and what they leave is in the context's tried set, its alternates examined, the
attempts, the overflow of the primary and the quotes counted (R62 to R67, R69, R129). The context is allocated and
Proceeding on the hunted circuit, with the quote and the slot of a handover group, as a probe on a Suspect group (R7, R8,
R68, R87, R125); an alternate sets the pointer to its index (R68); in Active a non-priority call closes the gate and starts
the gap timer with G (R97, R98); the Setup goes forward. Without failures before it the choice is the primary; with them
the list is taken to keep its law, which StepKeepsRouteLaw keeps. -/
def Obligations.SetupSeizesOnFirstUsableChoice : Prop :=
  ∀ (s : State) (f : Frame) (rest : List Frame) (i l : Nat) (before later : List (Choice × Nat)) (ch : Choice) (n : Nat)
    (reason : Nat → Reason) (x : Group) (k : Nat) (r : Circuit) (q : Option Quote), SetupReaches s f rest i l →
    let m := setupOf f
    let now := s.time.now
    let list := s.routeList l
    list.letsIn m.priority → (before ≠ [] → list.choiceLaw) → list.inTurn = before ++ (ch, n) :: later →
    before.length ≤ list.budget →
    (∀ p ∈ before, FailsBy s now s.settle.slotSum m.priority p.2 p.1 (reason p.2)) →
    Passes s now s.settle.slotSum m.priority n ch x q →
    x.hunt = some k → s.circuit k = some r → r.group = ch.group → r.cls = .free →
      ∃ t, exec .setup s = .next t ∧ TookHead .forward rest s t
        ∧ t.context i = some
            { callRef := m.callRef, phase := .proceeding, number := m.number, inCircuit := m.inCircuit, list := l
              category := m.category, priority := m.priority, tried := before.map (·.1.group)
              examined := before.length, circuit := some (ch.group, k), probe := decide (x.mon.health = .suspect)
              quote := q, slot := q.isSome, seizeTime := now, answerTime := none, lastCause := none, noFurther := false
              timer := some (s.time.ticks + interval s.mgmt.params.tProceed) }
        ∧ (∀ j, j ≠ i → t.context j = s.context j) ∧ t.lookupRef m.callRef = some i
        ∧ (∀ j, j ≠ m.callRef → t.lookupRef j = s.lookupRef j)
        ∧ t.ctx.inUse = s.ctx.inUse + 1 ∧ t.ctx.peak = max s.ctx.peak (s.ctx.inUse + 1)
        ∧ t.circuit k = some { r with cond := .seized i } ∧ (∀ j, j ≠ k → t.circuit j = s.circuit j)
        ∧ t.group ch.group = some (x.seizedAt k)
        ∧ (∀ g, g ≠ ch.group → t.group g = s.afterFailures before reason g) ∧ t.circ.counters = s.circ.counters
        ∧ t.settle = { s.settle with reservations := s.settle.reservations + (if q.isSome then 1 else 0) }
        ∧ t.routeList l = { list.passed m.priority s.time.ticks with
            pointer := if n = 0 then list.pointer else n
            counters := { list.counters with offered := min (list.counters.offered + 1) 4294967295 } }
        ∧ (∀ j, j ≠ l → t.routeList j = s.routeList j) ∧ t.routes = { s.routes with lists := t.routes.lists }
        ∧ t.rating = s.afterQuotes now (before.filter (fun p => (reason p.2).quoted) ++ [(ch, n)])
        ∧ t.fwdOut = s.fwdOut ++ [.setup k ch.group m.inCircuit m.category m.priority m.number]
        ∧ t.ctx.counters = { s.ctx.counters with setupsTaken := min (s.ctx.counters.setupsTaken + 1) 4294967295 }
        ∧ t.ctx.offer = (if s.ctx.offer = .held ∨ s.mgmt.params.highWater ≤ s.ctx.inUse + 1 then .held else .opened)
        ∧ t.bwdOut = s.bwdOut ++ s.holdReport now
        ∧ OnlyChanges [.fwd, .ctx, .circ, .routes, .rating, .settle, .fwdOut, .bwdOut] s t

/-- SETUP that the gate lets in and no choice carries: every choice that the budget lets the pass examine fails its checks,
each by its own reason, and the alternates beyond the budget are not examined. The Refuse carries the cause by precedence,
one refused counter tells it, every examined group counts an attempt, a primary without a circuit its overflow, and the
pointer is at the alternate after the last examined one: where all have been examined, where it was (R58, R60, R62 to R67,
R69, R70, R89, R97, R129). -/
def Obligations.SetupWithoutUsableChoiceIsRefused : Prop :=
  ∀ (s : State) (f : Frame) (rest : List Frame) (i l : Nat) (reason : Nat → Reason), SetupReaches s f rest i l →
    let m := setupOf f
    let list := s.routeList l
    let examined := list.inTurn.take (list.budget + 1)
    let beyond := list.inTurn.drop (list.budget + 1)
    let cause := causeOf (examined.map fun p => reason p.2)
    list.letsIn m.priority → (list.choices.map (·.group)).Nodup → 1 ≤ list.pointer →
    list.pointer ≤ max 1 (list.choices.length - 1) →
    (∀ p ∈ examined, FailsBy s s.time.now s.settle.slotSum m.priority p.2 p.1 (reason p.2)) →
      ∃ t, exec .setup s = .next t ∧ TookHead .forward rest s t ∧ RefusedInRouting s t
        ∧ t.bwdOut = s.bwdOut ++ s.refusalRun m cause
        ∧ t.routeList l = { list.passed m.priority s.time.ticks with
            pointer := (beyond.head?.map (·.2)).getD list.pointer
            counters := list.counters.offeredAndRefused cause }
        ∧ (∀ n, n ≠ l → t.routeList n = s.routeList n) ∧ t.routes = { s.routes with lists := t.routes.lists }
        ∧ (∀ g, t.group g = s.afterFailures examined reason g)
        ∧ t.circ = { s.circ with groups := t.circ.groups }
        ∧ t.rating = s.afterQuotes s.time.now (examined.filter fun p => (reason p.2).quoted)
        ∧ OnlyChanges [.fwd, .ctx, .circ, .routes, .rating, .bwdOut] s t

/-- ORIGIN_RELEASE of a call that is not rated (R10, R20, R33, R140): confirmed to origin, released forward with the
origin's cause, the circuit Releasing, a probe in Proceeding unsuccessful (R88), the slot returned, the context Idle. -/
def Obligations.OriginReleaseEndsUnratedCall : Prop :=
  ∀ (s : State) (f : Frame) (rest : List Frame) (i : Nat) (c : Context) (g k : Nat) (r : Circuit) (x : Group),
    s.headed .forward 0x04 f rest → s.lookupRef (keyOf f) = some i → s.context i = some c →
    c.callRef = keyOf f → c.phase ≠ .clearing → c.circuit = some (g, k) →
    (c.quote = none ∨ c.phase ≠ .connected) →
    s.circuit k = some r → r.group = g → r.cond = .seized i → s.group g = some x →
      let mon := if c.phase = .proceeding ∧ c.probe = true ∧ x.mon.health = .suspect then
          { x.mon with gate := .closed, probeTimer := some (s.time.ticks + x.cfg.probeInterval * 100) }
        else x.mon
      ∃ t, exec .originRelease s = .next t ∧ TookHead .forward rest s t
        ∧ t.fwdOut = s.fwdOut ++ [.release k (kindByteOf f)]
        ∧ t.bwdOut = s.bwdOut ++ [.releaseConfirm (keyOf f)] ++ s.resumeReport s.time.now
        ∧ CircuitMoved k r { r with cond := .releasing (s.time.ticks + interval s.mgmt.params.tClear) }
            { x with
              counts := { x.counts with seized := x.counts.seized - 1, releasing := x.counts.releasing + 1 }
              mon := mon } s t
        ∧ t.settle = { s.settle with reservations := s.settle.reservations - (if c.slot then 1 else 0) }
        ∧ ContextFreed i c s t ∧ t.ctx.counters = s.ctx.counters
        ∧ OnlyChanges [.fwd, .ctx, .circ, .settle, .fwdOut, .bwdOut] s t

/-- ORIGIN_RELEASE and FAR_RELEASE of an answered handover call: rated once at the release time, with D, C and the charge of
R132 to R134; the record takes the reservation and the next number, the carrier's totals grow, and an idle export
sends last (R16, R20, R121, R135, R136, R141, R143, R144; log entry 11). The origin's release frees the context and
leaves the circuit Releasing; the far side's is relayed, leaves the context Clearing and the circuit at rest. -/
def Obligations.ReleaseRatesAnsweredCall : Prop :=
  ∀ (s : State) (f : Frame) (rest : List Frame) (i : Nat) (c : Context) (g k : Nat) (r : Circuit) (x : Group)
    (q : Quote) (a : ExTime) (car : Carrier),
    Owns s i c g k r x → c.phase = .connected → c.quote = some q → c.answerTime = some a →
    s.carrier q.carrier = some car → s.settle.nextSeq ≤ 4294967295 →
      let now := s.time.now
      let record := recordAt s c g k q a now
      (s.headed .forward 0x04 f rest → s.lookupRef (keyOf f) = some i → c.callRef = keyOf f →
        ∃ t, exec .originRelease s = .next t ∧ TookHead .forward rest s t ∧ RatedInto record car s t
          ∧ t.fwdOut = s.fwdOut ++ [.release k (kindByteOf f)]
          ∧ t.bwdOut = s.bwdOut ++ [.releaseConfirm (keyOf f)] ++ s.resumeReport now ++ s.ratingRun record
          ∧ CircuitMoved k r { r with cond := .releasing (s.time.ticks + interval s.mgmt.params.tClear) }
              { x with
                counts := { x.counts with seized := x.counts.seized - 1, releasing := x.counts.releasing + 1 } } s t
          ∧ ContextFreed i c s t ∧ t.ctx.counters = s.ctx.counters
          ∧ OnlyChanges [.fwd, .ctx, .circ, .tariffs, .rating, .settle, .fwdOut, .bwdOut] s t)
      ∧ (s.headed .backward 0x04 f rest → keyOf f % 16384 = k →
        let x' := x.rested k (r.remote || r.localBlock) { x.counts with seized := x.counts.seized - 1 }
        ∃ t, exec .farRelease s = .next t ∧ TookHead .backward rest s t ∧ RatedInto record car s t
          ∧ t.fwdOut = s.fwdOut ++ [.releaseConfirm k]
          ∧ t.bwdOut = s.bwdOut ++ x'.drainReport g now ++ [.release c.callRef (kindByteOf f)] ++ s.ratingRun record
          ∧ CircuitMoved k r { r with cond := x.restCondition s.time.ticks } x'.reported s t
          ∧ ContextSet i { c with
              phase := .clearing, circuit := none, probe := false, quote := none, slot := false
              timer := some (s.time.ticks + interval s.mgmt.params.tClear) } s t
          ∧ OnlyChanges [.bwd, .ctx, .circ, .tariffs, .rating, .settle, .fwdOut, .bwdOut] s t)

/-- A context in Clearing is freed by the origin's Release Confirm, and by a crossing Release that is confirmed; in the
other states a Release Confirm is a protocol error (R21). With an unknown reference the Release is answered and counted,
the Release Confirm is counted, and no context is allocated (R23). -/
def Obligations.OriginMessagesOutsideACall : Prop :=
  (∀ (s : State) (f : Frame) (rest : List Frame) (i : Nat) (c : Context),
    s.lookupRef (keyOf f) = some i → s.context i = some c → c.callRef = keyOf f →
    (s.headed .forward 0x05 f rest → c.phase = .clearing →
      ∃ t, exec .originReleaseConfirm s = .next t ∧ TookHead .forward rest s t ∧ ContextFreed i c s t
        ∧ t.ctx.counters = s.ctx.counters
        ∧ t.bwdOut = s.bwdOut ++ s.resumeReport s.time.now ∧ OnlyChanges [.fwd, .ctx, .bwdOut] s t)
    ∧ (s.headed .forward 0x04 f rest → c.phase = .clearing →
      ∃ t, exec .originRelease s = .next t ∧ TookHead .forward rest s t ∧ ContextFreed i c s t
        ∧ t.ctx.counters = s.ctx.counters
        ∧ t.bwdOut = s.bwdOut ++ [.releaseConfirm (keyOf f)] ++ s.resumeReport s.time.now
        ∧ OnlyChanges [.fwd, .ctx, .bwdOut] s t)
    ∧ (s.headed .forward 0x05 f rest → c.phase ≠ .clearing →
      ∃ t, exec .originReleaseConfirm s = .next t ∧ TookHead .forward rest s t
        ∧ t.ctx = { s.ctx with counters := { s.ctx.counters with
            protoReleaseConfirm := min (s.ctx.counters.protoReleaseConfirm + 1) 4294967295 } }
        ∧ OnlyChanges [.fwd, .ctx] s t))
  ∧ (∀ (s : State) (f : Frame) (rest : List Frame), s.lookupRef (keyOf f) = none →
    (s.headed .forward 0x04 f rest →
      ∃ t, exec .originRelease s = .next t ∧ TookHead .forward rest s t
        ∧ t.bwdOut = s.bwdOut ++ [.releaseConfirm (keyOf f)]
        ∧ t.ctx = { s.ctx with counters := { s.ctx.counters with
            unknownRelease := min (s.ctx.counters.unknownRelease + 1) 4294967295 } }
        ∧ OnlyChanges [.fwd, .ctx, .bwdOut] s t)
    ∧ (s.headed .forward 0x05 f rest →
      ∃ t, exec .originReleaseConfirm s = .next t ∧ TookHead .forward rest s t
        ∧ t.ctx = { s.ctx with counters := { s.ctx.counters with
            unknownOther := min (s.ctx.counters.unknownOther + 1) 4294967295 } }
        ∧ OnlyChanges [.fwd, .ctx] s t))

/-! ### Far side -/

/-- PROGRESS on the circuit of a context (R12, with R5, R9, R11 and R85 for what its words name): Proceeding becomes
Alerting, T-proceed stops, a health success is reported and the Progress relayed; in Alerting it is relayed alone; in
Connected it is a protocol error. -/
def Obligations.ProgressInEachState : Prop :=
  ∀ (s : State) (f : Frame) (rest : List Frame) (i : Nat) (c : Context) (g k : Nat) (r : Circuit) (x : Group),
    s.headed .backward 0x02 f rest → keyOf f % 16384 = k → Owns s i c g k r x →
    (c.phase = .proceeding →
      ∃ t, exec .progress s = .next t ∧ TookHead .backward rest s t
        ∧ ContextSet i { c with phase := .alerting, timer := none, probe := false } s t
        ∧ CircuitMoved k r r { x with mon := healthy x.mon } s t
        ∧ t.bwdOut = s.bwdOut ++ healthReport x g s.time.now ++ [.progress c.callRef]
        ∧ OnlyChanges [.bwd, .ctx, .circ, .bwdOut] s t)
    ∧ (c.phase = .alerting →
      ∃ t, exec .progress s = .next t ∧ TookHead .backward rest s t
        ∧ t.bwdOut = s.bwdOut ++ [.progress c.callRef] ∧ OnlyChanges [.bwd, .bwdOut] s t)
    ∧ (c.phase = .connected →
      ∃ t, exec .progress s = .next t ∧ TookHead .backward rest s t
        ∧ t.ctx = { s.ctx with counters := { s.ctx.counters with
            protoProgress := min (s.ctx.counters.protoProgress + 1) 4294967295 } }
        ∧ OnlyChanges [.bwd, .ctx] s t)

/-- ANSWER on the circuit of a context (R13, with R5, R9, R11, R85 and R89 for what its words name). -/
def Obligations.AnswerInEachState : Prop :=
  ∀ (s : State) (f : Frame) (rest : List Frame) (i : Nat) (c : Context) (g k : Nat) (r : Circuit) (x : Group),
    s.headed .backward 0x03 f rest → keyOf f % 16384 = k → Owns s i c g k r x →
    let answered := { x.mon.traffic with answers := min (x.mon.traffic.answers + 1) 4294967295 }
    (c.phase = .proceeding →
      ∃ t, exec .answer s = .next t ∧ TookHead .backward rest s t
        ∧ ContextSet i
            { c with phase := .connected, answerTime := some s.time.now, timer := none, probe := false } s t
        ∧ CircuitMoved k r r { x with mon := { healthy x.mon with traffic := answered } } s t
        ∧ t.bwdOut = s.bwdOut ++ healthReport x g s.time.now ++ [.answer c.callRef]
        ∧ OnlyChanges [.bwd, .ctx, .circ, .bwdOut] s t)
    ∧ (c.phase = .alerting →
      ∃ t, exec .answer s = .next t ∧ TookHead .backward rest s t
        ∧ ContextSet i
            { c with phase := .connected, answerTime := some s.time.now, timer := none, probe := false } s t
        ∧ CircuitMoved k r r { x with mon := { x.mon with traffic := answered } } s t
        ∧ t.bwdOut = s.bwdOut ++ [.answer c.callRef]
        ∧ OnlyChanges [.bwd, .ctx, .circ, .bwdOut] s t)
    ∧ (c.phase = .connected →
      ∃ t, exec .answer s = .next t ∧ TookHead .backward rest s t
        ∧ t.ctx = { s.ctx with counters := { s.ctx.counters with
            protoAnswer := min (s.ctx.counters.protoAnswer + 1) 4294967295 } }
        ∧ OnlyChanges [.bwd, .ctx] s t)

/-- FAR_RELEASE that ends a call that is not rated (R16): in Proceeding with any cause but the two of a crankback, in
Alerting, and in Connected without a quote. Confirmed forward, the circuit at rest, in Proceeding a health failure for
Circuit Failure and then the end of a probe (R9, R86, R88), the slot returned, the cause relayed to origin, the context
Clearing with T-clear. -/
def Obligations.FarReleaseEndsUnratedCall : Prop :=
  ∀ (s : State) (f : Frame) (rest : List Frame) (i : Nat) (c : Context) (g k : Nat) (r : Circuit) (x : Group),
    s.headed .backward 0x04 f rest → keyOf f % 16384 = k → Owns s i c g k r x →
    ((c.phase = .proceeding ∧ kindByteOf f ∉ [4, 17]) ∨ c.phase = .alerting
      ∨ (c.phase = .connected ∧ c.quote = none)) →
      let x' := x.rested k (r.remote || r.localBlock) { x.counts with seized := x.counts.seized - 1 }
      let failed := c.phase = .proceeding ∧ kindByteOf f = 19
      let mon := if failed then failing x.cfg.theta x.mon else x.mon
      ∃ t, exec .farRelease s = .next t ∧ TookHead .backward rest s t
        ∧ CircuitMoved k r { r with cond := x.restCondition s.time.ticks }
            { x'.reported with
              mon := if c.phase = .proceeding then probeLost c.probe (s.time.ticks + x.cfg.probeInterval * 100) mon
                else mon } s t
        ∧ ContextSet i { c with
            phase := .clearing, circuit := none, probe := false, quote := none, slot := false
            timer := some (s.time.ticks + interval s.mgmt.params.tClear) } s t
        ∧ t.settle = { s.settle with reservations := s.settle.reservations - (if c.slot then 1 else 0) }
        ∧ t.fwdOut = s.fwdOut ++ [.releaseConfirm k]
        ∧ t.bwdOut = s.bwdOut ++ x'.drainReport g s.time.now ++ (if failed then failReport x g s.time.now else [])
            ++ [.release c.callRef (kindByteOf f)]
        ∧ OnlyChanges [.bwd, .ctx, .circ, .settle, .fwdOut, .bwdOut] s t

/-- A crankback, a glare loss on a Yielding group, or a T-proceed expiry that leaves the call no usable choice: those that the
reselection may examine fail their checks at the slot sum after the slot is given back, each by its own reason, or there is
none, because every group is tried, the budget is spent or the call is marked (R1, R14, R62, R71). The report, health and
probe rules of R9 apply. The Release to origin carries the cause that the pass reports after a crankback, which is the
cause of the loss where nothing was examined, Congestion after a glare loss, No Response after T-proceed (R14, R70). Where
choices are examined the list is taken to keep its law, which StepKeepsRouteLaw keeps. -/
def Obligations.LossWithoutUsableChoiceReleasesCall : Prop :=
  ∀ (s : State) (i : Nat) (c : Context) (g k : Nat) (r : Circuit) (x : Group) (reason : Nat → Reason),
    Owns s i c g k r x → c.phase = .proceeding →
    let examined := (s.routeList c.list).leftFor c g
    (examined ≠ [] → (s.routeList c.list).choiceLaw) →
    let allFail := fun now : ExTime =>
      ∀ p ∈ examined, FailsBy s now (s.slotsWithout c) c.priority p.2 p.1 (reason p.2)
    let due := s.time.ticks + x.cfg.probeInterval * 100
    (∀ (f : Frame) (rest : List Frame) (cause : Cause), s.headed .backward 0x04 f rest → keyOf f % 16384 = k →
      ((kindByteOf f = 4 ∧ cause = .congestion) ∨ (kindByteOf f = 17 ∧ cause = .circuitUnavailable)) →
      allFail s.time.now →
      let x' := x.rested k (r.remote || r.localBlock) { x.counts with seized := x.counts.seized - 1 }
      let lost := { x.mon with traffic := { x.mon.traffic with
        overflows := min (x.mon.traffic.overflows + 1) 4294967295 } }
      ∃ t, exec .farRelease s = .next t ∧ TookHead .backward rest s t
        ∧ LeftWithoutChoice i c g k cause examined reason s.time.now s t
        ∧ t.circuit k = some { r with cond := x.restCondition s.time.ticks }
        ∧ t.group g = some { x'.reported with
            mon := probeLost c.probe due (if kindByteOf f = 17 then failing x.cfg.theta lost else lost) }
        ∧ t.fwdOut = s.fwdOut ++ [.releaseConfirm k]
        ∧ t.bwdOut = s.bwdOut ++ x'.drainReport g s.time.now
            ++ (if kindByteOf f = 17 then failReport x g s.time.now else [])
            ++ [.release c.callRef (if examined = [] then cause else causeOf (examined.map fun p => reason p.2)).value]
        ∧ OnlyChanges [.bwd, .ctx, .circ, .routes, .rating, .settle, .fwdOut, .bwdOut] s t)
    ∧ (∀ (f : Frame) (rest : List Frame), s.headed .backward 0x0C f rest → keyOf f % 16384 = k →
      x.cfg.direction = .bothWay → x.cfg.glare = .yielding → allFail s.time.now →
      ∃ t, exec .farSeize s = .next t ∧ TookHead .backward rest s t
        ∧ LeftWithoutChoice i c g k .congestion examined reason s.time.now s t
        ∧ t.circuit k = some { r with cond := .farSeized }
        ∧ t.group g = some { x with
            counts := { x.counts with seized := x.counts.seized - 1, farSeized := x.counts.farSeized + 1 }
            mon := probeLost c.probe due { x.mon with traffic := { x.mon.traffic with
              glareLosses := min (x.mon.traffic.glareLosses + 1) 4294967295 } } }
        ∧ t.bwdOut = s.bwdOut ++ [.release c.callRef 4]
        ∧ OnlyChanges [.bwd, .ctx, .circ, .routes, .rating, .settle, .bwdOut] s t)
    ∧ (∀ d, c.timer = some d → d ≤ s.time.ticks → allFail s.time.tickTime →
      ∃ t, exec (.tProceedExpiry i) s = .next t
        ∧ LeftWithoutChoice i c g k .noResponse examined reason s.time.tickTime s t
        ∧ t.circuit k = some { r with cond := .releasing (s.time.ticks + interval s.mgmt.params.tClear) }
        ∧ t.group g = some { x with
            counts := { x.counts with seized := x.counts.seized - 1, releasing := x.counts.releasing + 1 }
            mon := probeLost c.probe due (failing x.cfg.theta x.mon) }
        ∧ t.fwdOut = s.fwdOut ++ [.release k 11]
        ∧ t.bwdOut = s.bwdOut ++ failReport x g s.time.tickTime ++ [.release c.callRef 11]
        ∧ OnlyChanges [.ctx, .circ, .routes, .rating, .settle, .fwdOut, .bwdOut] s t)

/-- A crankback, a glare loss on a Yielding group, or a T-proceed expiry after which the reselection finds a usable choice:
of those that it may examine, the ones `before` fail their checks at the slot sum after the slot is given back, each by its
own reason, and choice `n` passes. The call seizes it: a new Setup goes forward, T-proceed starts afresh, nothing goes to
origin; the tried set, the alternates examined, the attempts, the overflow of the primary and the quotes are those of the
pass, and on an alternate the pointer is set to it (R1, R14, R15, R17, R18, R58, R62 to R68, R71, R72). With failures before
it the list is taken to keep its law, which StepKeepsRouteLaw keeps. -/
def Obligations.LossReseizesOnFirstUsableChoice : Prop :=
  ∀ (s : State) (i : Nat) (c : Context) (g k : Nat) (r : Circuit) (x : Group) (before later : List (Choice × Nat))
    (ch : Choice) (n : Nat) (reason : Nat → Reason) (y : Group) (k' : Nat) (r' : Circuit) (q : Option Quote),
    Owns s i c g k r x → c.phase = .proceeding → (before ≠ [] → (s.routeList c.list).choiceLaw) →
    (s.routeList c.list).leftFor c g = before ++ (ch, n) :: later →
    y.hunt = some k' → s.circuit k' = some r' → r'.group = ch.group → r'.cls = .free →
    let slots := s.slotsWithout c
    let passes := fun now : ExTime =>
      (∀ p ∈ before, FailsBy s now slots c.priority p.2 p.1 (reason p.2)) ∧ Passes s now slots c.priority n ch y q
    let onward := OutMsg.setup k' ch.group c.inCircuit c.category c.priority c.number
    let due := s.time.ticks + x.cfg.probeInterval * 100
    (∀ (f : Frame) (rest : List Frame) (cause : Cause), s.headed .backward 0x04 f rest → keyOf f % 16384 = k →
      ((kindByteOf f = 4 ∧ cause = .congestion) ∨ (kindByteOf f = 17 ∧ cause = .circuitUnavailable)) →
      passes s.time.now →
      let x' := x.rested k (r.remote || r.localBlock) { x.counts with seized := x.counts.seized - 1 }
      let lost := { x.mon with traffic := { x.mon.traffic with
        overflows := min (x.mon.traffic.overflows + 1) 4294967295 } }
      ∃ t, exec .farRelease s = .next t ∧ TookHead .backward rest s t
        ∧ Reseized i c g k cause before reason n ch k' r' y q s.time.now s t
        ∧ t.circuit k = some { r with cond := x.restCondition s.time.ticks }
        ∧ t.group g = some { x'.reported with
            mon := probeLost c.probe due (if kindByteOf f = 17 then failing x.cfg.theta lost else lost) }
        ∧ t.fwdOut = s.fwdOut ++ [.releaseConfirm k, onward]
        ∧ t.bwdOut = s.bwdOut ++ x'.drainReport g s.time.now
            ++ (if kindByteOf f = 17 then failReport x g s.time.now else [])
        ∧ OnlyChanges [.bwd, .ctx, .circ, .routes, .rating, .settle, .fwdOut, .bwdOut] s t)
    ∧ (∀ (f : Frame) (rest : List Frame), s.headed .backward 0x0C f rest → keyOf f % 16384 = k →
      x.cfg.direction = .bothWay → x.cfg.glare = .yielding → passes s.time.now →
      ∃ t, exec .farSeize s = .next t ∧ TookHead .backward rest s t
        ∧ Reseized i c g k .congestion before reason n ch k' r' y q s.time.now s t
        ∧ t.circuit k = some { r with cond := .farSeized }
        ∧ t.group g = some { x with
            counts := { x.counts with seized := x.counts.seized - 1, farSeized := x.counts.farSeized + 1 }
            mon := probeLost c.probe due { x.mon with traffic := { x.mon.traffic with
              glareLosses := min (x.mon.traffic.glareLosses + 1) 4294967295 } } }
        ∧ t.fwdOut = s.fwdOut ++ [onward]
        ∧ OnlyChanges [.bwd, .ctx, .circ, .routes, .rating, .settle, .fwdOut] s t)
    ∧ (∀ d, c.timer = some d → d ≤ s.time.ticks → passes s.time.tickTime →
      ∃ t, exec (.tProceedExpiry i) s = .next t
        ∧ Reseized i c g k .noResponse before reason n ch k' r' y q s.time.tickTime s t
        ∧ t.circuit k = some { r with cond := .releasing (s.time.ticks + interval s.mgmt.params.tClear) }
        ∧ t.group g = some { x with
            counts := { x.counts with seized := x.counts.seized - 1, releasing := x.counts.releasing + 1 }
            mon := probeLost c.probe due (failing x.cfg.theta x.mon) }
        ∧ t.fwdOut = s.fwdOut ++ [.release k 11, onward]
        ∧ t.bwdOut = s.bwdOut ++ failReport x g s.time.tickTime
        ∧ OnlyChanges [.ctx, .circ, .routes, .rating, .settle, .fwdOut, .bwdOut] s t)

/-- PROGRESS, ANSWER, FAR_RELEASE and FAR_RELEASE_CONFIRM on an equipped circuit (R19, R34, R36): without an owner they are
stray and counted, a Releasing circuit comes to rest, and a Release is confirmed; a Release Confirm on a Seized circuit
is a protocol error. Any circuit-keyed message on an Unequipped circuit is discarded and counted, and nothing is sent
(R37). -/
def Obligations.FarMessagesWithoutOwner : Prop :=
  (∀ (s : State) (f : Frame) (rest : List Frame) (k : Nat) (r : Circuit) (x : Group),
    keyOf f % 16384 = k → s.circuit k = some r → s.group r.group = some x →
    let x' := x.rested k (r.remote || r.localBlock) { x.counts with releasing := x.counts.releasing - 1 }
    let counted := fun (n : CircuitCounters) (t : State) => t.circ = { s.circ with counters := n }
    ((∀ i, r.cond ≠ .seized i) →
      (s.headed .backward 0x02 f rest →
        ∃ t, exec .progress s = .next t ∧ TookHead .backward rest s t
          ∧ counted { s.circ.counters with strayProgress := min (s.circ.counters.strayProgress + 1) 4294967295 } t
          ∧ OnlyChanges [.bwd, .circ] s t)
      ∧ (s.headed .backward 0x03 f rest →
        ∃ t, exec .answer s = .next t ∧ TookHead .backward rest s t
          ∧ counted { s.circ.counters with strayAnswer := min (s.circ.counters.strayAnswer + 1) 4294967295 } t
          ∧ OnlyChanges [.bwd, .circ] s t))
    ∧ ((∀ i, r.cond ≠ .seized i) → (∀ d, r.cond ≠ .releasing d) →
      (s.headed .backward 0x04 f rest →
        ∃ t, exec .farRelease s = .next t ∧ TookHead .backward rest s t
          ∧ counted { s.circ.counters with
              unexpectedRelease := min (s.circ.counters.unexpectedRelease + 1) 4294967295 } t
          ∧ t.fwdOut = s.fwdOut ++ [.releaseConfirm k] ∧ OnlyChanges [.bwd, .circ, .fwdOut] s t)
      ∧ (s.headed .backward 0x05 f rest →
        ∃ t, exec .farReleaseConfirm s = .next t ∧ TookHead .backward rest s t
          ∧ counted { s.circ.counters with
              strayReleaseConfirm := min (s.circ.counters.strayReleaseConfirm + 1) 4294967295 } t
          ∧ OnlyChanges [.bwd, .circ] s t))
    ∧ (∀ d, r.cond = .releasing d →
      (s.headed .backward 0x04 f rest →
        ∃ t, exec .farRelease s = .next t ∧ TookHead .backward rest s t
          ∧ CircuitMoved k r { r with cond := x.restCondition s.time.ticks } x'.reported s t
          ∧ t.fwdOut = s.fwdOut ++ [.releaseConfirm k]
          ∧ t.bwdOut = s.bwdOut ++ x'.drainReport r.group s.time.now
          ∧ OnlyChanges [.bwd, .circ, .fwdOut, .bwdOut] s t)
      ∧ (s.headed .backward 0x05 f rest →
        ∃ t, exec .farReleaseConfirm s = .next t ∧ TookHead .backward rest s t
          ∧ CircuitMoved k r { r with cond := x.restCondition s.time.ticks } x'.reported s t
          ∧ t.bwdOut = s.bwdOut ++ x'.drainReport r.group s.time.now
          ∧ OnlyChanges [.bwd, .circ, .bwdOut] s t))
    ∧ (∀ i, r.cond = .seized i → s.headed .backward 0x05 f rest →
      ∃ t, exec .farReleaseConfirm s = .next t ∧ TookHead .backward rest s t
        ∧ t.ctx = { s.ctx with counters := { s.ctx.counters with
            protoReleaseConfirm := min (s.ctx.counters.protoReleaseConfirm + 1) 4294967295 } }
        ∧ OnlyChanges [.bwd, .ctx] s t))
  ∧ (∀ (s : State) (f : Frame) (rest : List Frame) (c : Instr) (kind : Nat),
    (c, kind) ∈ [(Instr.progress, 0x02), (.answer, 0x03), (.farRelease, 0x04), (.farReleaseConfirm, 0x05),
      (.block, 0x08), (.unblock, 0x09), (.farSeize, 0x0C), (.farClear, 0x0D)] →
    s.headed .backward kind f rest → s.circuit (keyOf f % 16384) = none →
      ∃ t, exec c s = .next t ∧ TookHead .backward rest s t
        ∧ t.circ = { s.circ with counters := { s.circ.counters with
            unequipped := min (s.circ.counters.unequipped + 1) 4294967295 } }
        ∧ OnlyChanges [.bwd, .circ] s t)

/-- BLOCK and UNBLOCK set and clear the remote flag in every condition and are confirmed (R38, R40); BLOCK_CIRCUIT and
UNBLOCK_CIRCUIT do so with the local flag, are answered Done and send nothing forward; above 16,383 the reply is Bad
Parameter, on an Unequipped circuit Not Found, and nothing changes (R41). -/
def Obligations.BlocksMoveOneFlag : Prop :=
  (∀ (s : State) (f : Frame) (rest : List Frame) (k : Nat) (r : Circuit) (x : Group),
    s.circuit k = some r → s.group r.group = some x →
    let moved := fun (r' : Circuit) (t : State) => CircuitMoved k r r' (x.reflagged k r r') s t
    (s.headed .backward 0x08 f rest → keyOf f % 16384 = k →
      ∃ t, exec .block s = .next t ∧ TookHead .backward rest s t ∧ moved { r with remote := true } t
        ∧ t.fwdOut = s.fwdOut ++ [.blockConfirm k] ∧ OnlyChanges [.bwd, .circ, .fwdOut] s t)
    ∧ (s.headed .backward 0x09 f rest → keyOf f % 16384 = k →
      ∃ t, exec .unblock s = .next t ∧ TookHead .backward rest s t ∧ moved { r with remote := false } t
        ∧ t.fwdOut = s.fwdOut ++ [.unblockConfirm k] ∧ OnlyChanges [.bwd, .circ, .fwdOut] s t)
    ∧ (s.requested 0x24 f rest → field 0 2 (paramsOf f) = k → k < 16384 →
      ∃ t, exec .blockCircuit s = .next t ∧ moved { r with localBlock := true } t ∧ Replied f rest .done [] s t
        ∧ OnlyChanges [.fwd, .circ, .bwdOut] s t)
    ∧ (s.requested 0x25 f rest → field 0 2 (paramsOf f) = k → k < 16384 →
      ∃ t, exec .unblockCircuit s = .next t ∧ moved { r with localBlock := false } t ∧ Replied f rest .done [] s t
        ∧ OnlyChanges [.fwd, .circ, .bwdOut] s t))
  ∧ (∀ (s : State) (f : Frame) (rest : List Frame) (c : Instr) (code : Nat),
    (c = .blockCircuit ∧ code = 0x24) ∨ (c = .unblockCircuit ∧ code = 0x25) → s.requested code f rest →
    let k := field 0 2 (paramsOf f)
    (16383 < k → ∃ t, exec c s = .next t ∧ Replied f rest .badParameter [] s t ∧ OnlyChanges [.fwd, .bwdOut] s t)
    ∧ (k ≤ 16383 → s.circuit k = none →
      ∃ t, exec c s = .next t ∧ Replied f rest .notFound [] s t ∧ OnlyChanges [.fwd, .bwdOut] s t))

/-- FAR_SEIZE by the group's direction and the circuit's condition, but for a glare that a Yielding group loses (R42, R43). -/
def Obligations.FarSeizeByCondition : Prop :=
  ∀ (s : State) (f : Frame) (rest : List Frame) (k : Nat) (r : Circuit) (x : Group),
    s.headed .backward 0x0C f rest → keyOf f % 16384 = k → s.circuit k = some r → s.group r.group = some x →
    let flagged := r.remote || r.localBlock
    let takes := fun (x' : Group) => ∃ t, exec .farSeize s = .next t ∧ TookHead .backward rest s t
      ∧ CircuitMoved k r { r with cond := .farSeized } x' s t ∧ OnlyChanges [.bwd, .circ] s t
    let discards := fun (n : CircuitCounters) => ∃ t, exec .farSeize s = .next t ∧ TookHead .backward rest s t
      ∧ t.circ = { s.circ with counters := n } ∧ OnlyChanges [.bwd, .circ] s t
    let error := discards { s.circ.counters with seizeProtocol := min (s.circ.counters.seizeProtocol + 1) 4294967295 }
    (x.cfg.direction = .outgoing → error)
    ∧ (x.cfg.direction = .bothWay → r.cond = .idle → flagged = false →
        takes { x with
          counts := { x.counts with free := x.counts.free - 1, farSeized := x.counts.farSeized + 1 }
          freeQueue := x.freeQueue.filter fun j => decide (j ≠ k) })
    ∧ (x.cfg.direction = .bothWay → r.cond = .idle → flagged = true →
        discards { s.circ.counters with seizeOnBlocked := min (s.circ.counters.seizeOnBlocked + 1) 4294967295 })
    ∧ (∀ d, x.cfg.direction = .bothWay → r.cond = .guard d →
        takes { x with
          counts := { x.counts with guard := x.counts.guard - 1, farSeized := x.counts.farSeized + 1 }
          guardList := x.guardList.filter fun j => decide (j ≠ k) })
    ∧ (∀ i c, x.cfg.direction = .bothWay → r.cond = .seized i → s.context i = some c →
        (c.phase = .proceeding → x.cfg.glare = .controlling →
          discards { s.circ.counters with glareHeld := min (s.circ.counters.glareHeld + 1) 4294967295 })
        ∧ (c.phase ≠ .proceeding → error))
    ∧ (x.cfg.direction = .bothWay → (r.cond = .farSeized ∨ ∃ d, r.cond = .releasing d) → error)

/-- FAR_CLEAR (R44, with R31 for Guard and R46 for the look at a Draining group): a Far-Seized circuit comes to rest; in
any other condition the message is discarded and counted; an Unequipped circuit is counted as R37 says. -/
def Obligations.FarClearEndsFarSeizure : Prop :=
  ∀ (s : State) (f : Frame) (rest : List Frame) (k : Nat), s.headed .backward 0x0D f rest → keyOf f % 16384 = k →
    (∀ r x, s.circuit k = some r → s.group r.group = some x → r.cond = .farSeized →
      let x' := x.rested k (r.remote || r.localBlock) { x.counts with farSeized := x.counts.farSeized - 1 }
      ∃ t, exec .farClear s = .next t ∧ TookHead .backward rest s t
        ∧ CircuitMoved k r { r with cond := x.restCondition s.time.ticks } x'.reported s t
        ∧ t.bwdOut = s.bwdOut ++ x'.drainReport r.group s.time.now ∧ OnlyChanges [.bwd, .circ, .bwdOut] s t)
    ∧ (∀ r, s.circuit k = some r → r.cond ≠ .farSeized →
      ∃ t, exec .farClear s = .next t ∧ TookHead .backward rest s t
        ∧ t.circ = { s.circ with counters := { s.circ.counters with
            clearDiscarded := min (s.circ.counters.clearDiscarded + 1) 4294967295 } }
        ∧ OnlyChanges [.bwd, .circ] s t)
    ∧ (s.circuit k = none →
      ∃ t, exec .farClear s = .next t ∧ TookHead .backward rest s t
        ∧ t.circ = { s.circ with counters := { s.circ.counters with
            unequipped := min (s.circ.counters.unequipped + 1) 4294967295 } }
        ∧ OnlyChanges [.bwd, .circ] s t)

/-- TARIFF_OFFER: judged by authorisation, then by the pin, then by validity (R113 to R115). `owner` is the carrier that
owns the group of the circuit it came on, 0 without one; the counting of an Unequipped circuit is log entry 26. -/
def Obligations.TariffOfferIsJudged : Prop :=
  ∀ (s : State) (f : Frame) (rest : List Frame) (owner : Nat), s.headed .backward 0x10 f rest →
    let m := offerOf f
    ((s.circuit m.circuit = none ∧ owner = 0)
      ∨ ∃ r x, s.circuit m.circuit = some r ∧ s.group r.group = some x ∧ owner = x.cfg.owner) →
    let authorised := 1 ≤ m.claimed ∧ m.claimed ≤ 63 ∧ m.claimed = owner ∧ (s.carrier m.claimed).isSome = true
    let good := (∃ b, m.body = some b ∧ b.InRange) ∧ m.minute ≤ 1439
    ∃ t, exec .tariffOffer s = .next t ∧ TookHead .backward rest s t
      ∧ OnlyChanges [.bwd, .circ, .tariffs, .bwdOut] s t
      ∧ t.circ = (if s.circuit m.circuit = none then { s.circ with counters := { s.circ.counters with
          unequipped := min (s.circ.counters.unequipped + 1) 4294967295 } } else s.circ)
      ∧ (¬ authorised →
          t.bwdOut = s.bwdOut ++ [.notice s.time.now (.offerRejected m.claimed m.circuit owner .unauthorised)]
          ∧ (∀ c, s.carrier m.claimed = some c → CarrierSet m.claimed { c with counters := { c.counters with
              rejected := min (c.counters.rejected + 1) 4294967295 } } s t)
          ∧ (s.carrier m.claimed = none →
              t.tariffs = { s.tariffs with unknownRejected := min (s.tariffs.unknownRejected + 1) 4294967295 }))
      ∧ (∀ c, authorised → s.carrier m.claimed = some c → c.pinned = true →
          t.bwdOut = s.bwdOut ∧ CarrierSet m.claimed { c with counters := { c.counters with
            ignored := min (c.counters.ignored + 1) 4294967295 } } s t)
      ∧ (∀ c, authorised → s.carrier m.claimed = some c → c.pinned = false → ¬ good →
          t.bwdOut = s.bwdOut ++ [.notice s.time.now (.offerRejected m.claimed m.circuit owner .invalid)]
          ∧ CarrierSet m.claimed { c with counters := { c.counters with
              rejected := min (c.counters.rejected + 1) 4294967295 } } s t)
      ∧ (∀ c b, authorised → s.carrier m.claimed = some c → c.pinned = false → m.body = some b → b.InRange →
          m.minute ≤ 1439 →
          t.bwdOut = s.bwdOut ∧ CarrierSet m.claimed { c with
            pending := some ⟨b, m.day, m.minute, .offered⟩
            counters := { c.counters with accepted := min (c.counters.accepted + 1) 4294967295 } } s t)

/-! ### Settlement -/

/-- BATCH_ACCEPT in Awaiting Accept removes the batch and sends the next one where the halt flag is clear and records remain;
in another state it is counted alone (R143, R144, R145). EXPORT_HALT sets the halt flag and no more (R147); EXPORT_RESUME
clears it and goes on by the export state: Ready sends where records wait, Stalled sends the same batch again with the
repeat flag set (R148). -/
def Obligations.CollectorDrivesExport : Prop :=
  (∀ (s : State) (f : Frame) (rest : List Frame), s.headed .forward 0x22 f rest →
    let q := s.settle
    let left := q.queued.drop q.outstanding
    let sends := q.halt = false ∧ left ≠ []
    let b := min s.mgmt.params.batchSize left.length
    (q.exportState = .awaitingAccept →
      ∃ t, exec .batchAccept s = .next t ∧ TookHead .forward rest s t
        ∧ t.settle = { q with
            queued := left
            outstanding := if sends then b else 0
            exportState := if sends then .awaitingAccept else .ready
            acceptTimer := if sends then some (s.time.ticks + interval s.mgmt.params.tAccept) else none
            counters := { q.counters with
              batchesAccepted := min (q.counters.batchesAccepted + 1) 4294967295
              recordsAccepted := min (q.counters.recordsAccepted + q.outstanding) 4294967295
              batchesSent := if sends then min (q.counters.batchesSent + 1) 4294967295 else q.counters.batchesSent
              recordsSent := if sends then min (q.counters.recordsSent + b) 4294967295 else q.counters.recordsSent } }
        ∧ t.bwdOut = s.bwdOut ++ (if sends then batchOf left b false else [])
        ∧ OnlyChanges [.fwd, .settle, .bwdOut] s t)
    ∧ (q.exportState ≠ .awaitingAccept →
      ∃ t, exec .batchAccept s = .next t ∧ TookHead .forward rest s t
        ∧ t.settle = { q with counters := { q.counters with
            unexpectedAccepts := min (q.counters.unexpectedAccepts + 1) 4294967295 } }
        ∧ OnlyChanges [.fwd, .settle] s t))
  ∧ (∀ (s : State) (f : Frame) (rest : List Frame),
    let q := s.settle
    let b := min s.mgmt.params.batchSize q.queued.length
    let again := (q.queued.take q.outstanding).map (fun r => { r with resent := true }) ++ q.queued.drop q.outstanding
    let timer := some (s.time.ticks + interval s.mgmt.params.tAccept)
    (s.headed .forward 0x23 f rest →
      ∃ t, exec .exportHalt s = .next t ∧ TookHead .forward rest s t ∧ t.settle = { q with halt := true }
        ∧ OnlyChanges [.fwd, .settle] s t)
    ∧ (s.headed .forward 0x24 f rest → q.exportState = .awaitingAccept ∨ (q.exportState = .ready ∧ q.queued = []) →
      ∃ t, exec .exportResume s = .next t ∧ TookHead .forward rest s t ∧ t.settle = { q with halt := false }
        ∧ OnlyChanges [.fwd, .settle] s t)
    ∧ (s.headed .forward 0x24 f rest → q.exportState = .ready → q.queued ≠ [] →
      ∃ t, exec .exportResume s = .next t ∧ TookHead .forward rest s t
        ∧ t.settle = { q with
            halt := false, outstanding := b, exportState := .awaitingAccept, acceptTimer := timer
            counters := { q.counters with
              batchesSent := min (q.counters.batchesSent + 1) 4294967295
              recordsSent := min (q.counters.recordsSent + b) 4294967295 } }
        ∧ t.bwdOut = s.bwdOut ++ batchOf q.queued b false ∧ OnlyChanges [.fwd, .settle, .bwdOut] s t)
    ∧ (s.headed .forward 0x24 f rest → q.exportState = .stalled →
      ∃ t, exec .exportResume s = .next t ∧ TookHead .forward rest s t
        ∧ t.settle = { q with
            halt := false, queued := again, exportState := .awaitingAccept, acceptTimer := timer
            counters := { q.counters with
              batchesResent := min (q.counters.batchesResent + 1) 4294967295
              recordsSent := min (q.counters.recordsSent + q.outstanding) 4294967295 } }
        ∧ t.bwdOut = s.bwdOut ++ batchOf again q.outstanding true ∧ OnlyChanges [.fwd, .settle, .bwdOut] s t))

/-! ### Expiries -/

/-- T_CLEAR_EXPIRY in Clearing frees the context, with the Clearing Timeout notice and its counter (R22). ACCEPT_TIMER_EXPIRY
in Awaiting Accept: Stalled, the batch in its place, the Export Stalled notice and the counter (R146). The notices carry
the exchange time of the tick (R152, log entry 5). PROBE_TIMER_EXPIRY opens the gate of a group that is still Suspect
(R88); GAP_TIMER_EXPIRY opens the gate of a list (R98). Each timer is stopped. -/
def Obligations.TimersOfOneOwnerExpire : Prop :=
  (∀ (s : State) (i d : Nat) (c : Context), s.context i = some c → c.phase = .clearing → c.timer = some d →
    d ≤ s.time.ticks →
      ∃ t, exec (.tClearExpiry i) s = .next t ∧ ContextFreed i c s t
        ∧ t.ctx.counters = { s.ctx.counters with
            clearingTimeouts := min (s.ctx.counters.clearingTimeouts + 1) 4294967295 }
        ∧ t.bwdOut = s.bwdOut ++ s.resumeReport s.time.tickTime
            ++ [.notice s.time.tickTime (.clearingTimeout c.callRef)]
        ∧ OnlyChanges [.ctx, .bwdOut] s t)
  ∧ (∀ (s : State) (d : Nat) (first : SettlementRecord) (others : List SettlementRecord),
    s.settle.exportState = .awaitingAccept → s.settle.acceptTimer = some d → d ≤ s.time.ticks →
    s.settle.queued = first :: others →
      ∃ t, exec .acceptTimerExpiry s = .next t
        ∧ t.settle = { s.settle with
            exportState := .stalled, acceptTimer := none
            counters := { s.settle.counters with stalls := min (s.settle.counters.stalls + 1) 4294967295 } }
        ∧ t.bwdOut = s.bwdOut ++ [.notice s.time.tickTime
            (.exportStalled first.seq s.settle.outstanding (others.length + 1))]
        ∧ OnlyChanges [.settle, .bwdOut] s t)
  ∧ ∀ (s : State) (d : Nat), d ≤ s.time.ticks →
    (∀ g x, s.group g = some x → x.mon.probeTimer = some d →
      ∃ t, exec (.probeTimerExpiry g) s = .next t
        ∧ t.group g = some { x with mon := { x.mon with
            gate := if x.mon.health = .suspect then .opened else x.mon.gate, probeTimer := none } }
        ∧ (∀ n, n ≠ g → t.group n = s.group n) ∧ t.circ = { s.circ with groups := t.circ.groups }
        ∧ OnlyChanges [.circ] s t)
    ∧ (∀ l, (s.routeList l).gapTimer = some d →
      ∃ t, exec (.gapTimerExpiry l) s = .next t
        ∧ t.routeList l = { s.routeList l with gate := .opened, gapTimer := none }
        ∧ (∀ n, n ≠ l → t.routeList n = s.routeList n) ∧ t.routes = { s.routes with lists := t.routes.lists }
        ∧ OnlyChanges [.routes] s t)

/-- GUARD_EXPIRY takes the circuit at the head of the guard list: Idle, Free at the tail of the free queue or Blocked by its
flags (R32). CLEARING_EXPIRY leaves a Releasing circuit Idle with its local flag set, with the notice and the counter
(R35), and the look of R46 at its group; no rule orders the two notices (log entry 6). -/
def Obligations.CircuitTimersExpire : Prop :=
  ∀ (s : State) (k d : Nat) (r : Circuit) (x : Group), s.circuit k = some r → s.group r.group = some x →
    d ≤ s.time.ticks →
    (r.cond = .guard d → x.guardList.head? = some k →
      let left := { x with guardList := x.guardList.filter fun j => decide (j ≠ k) }
      ∃ t, exec (.guardExpiry r.group) s = .next t
        ∧ CircuitMoved k r { r with cond := .idle }
            (if (r.remote || r.localBlock) = true then
              { left with counts := { x.counts with guard := x.counts.guard - 1, blocked := x.counts.blocked + 1 } }
            else
              { left with
                counts := { x.counts with guard := x.counts.guard - 1, free := x.counts.free + 1 }
                freeQueue := x.freeQueue ++ [k] }) s t
        ∧ OnlyChanges [.circ] s t)
    ∧ (r.cond = .releasing d →
      let x' := { x with counts := { x.counts with
        releasing := x.counts.releasing - 1, blocked := x.counts.blocked + 1 } }
      ∃ t, exec (.clearingExpiry k) s = .next t
        ∧ CircuitMoved k r { r with cond := .idle, localBlock := true } x'.reported s
            { t with circ := { t.circ with counters := s.circ.counters } }
        ∧ t.circ.counters = { s.circ.counters with
            clearingExpiry := min (s.circ.counters.clearingExpiry + 1) 4294967295 }
        ∧ (∃ ns : List OutMsg, t.bwdOut = s.bwdOut ++ ns
          ∧ ns.Perm (.notice s.time.tickTime (.maintenanceBlock r.group k) :: x'.drainReport r.group s.time.tickTime))
        ∧ OnlyChanges [.circ, .bwdOut, .draws] s t)

/-- SAMPLE_EXPIRY evaluates every In Service and Draining group (R79): occupancy, smoothing, band, usage (R80 to R82, R89),
the Band Change notice where the flag is set (R83), and the band to the lists that the group drives (R99 to R101). Groups
Out of Service hold their values (R84). The timer restarts with the period held. -/
def Obligations.SampleEvaluatesGroups : Prop :=
  ∀ (s : State) (d : Nat), s.mon.sampleTimer = some d → d ≤ s.time.ticks → Table.wf s.circ.groups = true →
    let s256 := fun x : Group => smooth (s.thresholds x.cfg.thrSet).shift (occupancy x.cfg.size x.counts) x.mon.s256
    let band := fun x : Group => evalBand (s.thresholds x.cfg.thrSet) (s256 x / 256) x.mon.band
    let runs := fun x : Group => x.admin ≠ .outOfService
    ∃ t, exec .sampleExpiry s = .next t
      ∧ (∀ g, t.group g = (s.group g).map fun x =>
          if runs x then
            { x with mon := { x.mon with
              s256 := s256 x, band := band x
              traffic := { x.mon.traffic with
                usage := min (x.mon.traffic.usage + (x.counts.seized + x.counts.farSeized)) 281474976710655 } } }
          else x)
      ∧ t.circ = { s.circ with groups := t.circ.groups }
      ∧ (∀ l, ∀ r, s.routeList l = r →
          (∀ ch x, r.loaded = true → r.gapEnable = true → r.choices.head? = some ch → s.group ch.group = some x →
            runs x → t.routeList l = r.adapt (band x))
          ∧ ((r.loaded = false ∨ r.gapEnable = false ∨ r.choices = []
              ∨ ∃ ch, r.choices.head? = some ch ∧ ∀ x, s.group ch.group = some x → ¬ runs x) → t.routeList l = r))
      ∧ t.routes = { s.routes with lists := t.routes.lists }
      ∧ t.mon = { s.mon with sampleTimer := some (s.time.ticks + 10 * s.mgmt.params.samplePeriod) }
      ∧ (∃ ns : List Notice, t.bwdOut = s.bwdOut ++ ns.map (OutMsg.notice s.time.tickTime)
        ∧ ns.Perm (s.circ.groups.flatMap fun e =>
            if runs e.2 ∧ band e.2 ≠ e.2.mon.band ∧ e.2.cfg.bandReport = true then
              [.bandChange e.1 e.2.mon.band (band e.2) (s256 e.2 / 256)]
            else []))
      ∧ OnlyChanges [.circ, .routes, .mon, .bwdOut, .draws] s t

/-- A timer that is stopped or not yet due does not expire: its command changes nothing (R157, log entries 2 and 3). -/
def Obligations.TimersNotDueDoNothing : Prop :=
  ∀ s : State,
    let idle := fun (timer : Option Nat) => ∀ d, timer = some d → s.time.ticks < d
    (∀ i, (∀ c, s.context i = some c → idle c.timer) →
      exec (.tProceedExpiry i) s = .next s ∧ exec (.tClearExpiry i) s = .next s)
    ∧ (∀ g, (∀ x k r d, s.group g = some x → x.guardList.head? = some k → s.circuit k = some r → r.cond = .guard d →
        s.time.ticks < d) → exec (.guardExpiry g) s = .next s)
    ∧ (∀ k, (∀ r d, s.circuit k = some r → r.cond = .releasing d → s.time.ticks < d) →
      exec (.clearingExpiry k) s = .next s)
    ∧ (∀ g, (∀ x, s.group g = some x → idle x.mon.probeTimer) → exec (.probeTimerExpiry g) s = .next s)
    ∧ (∀ l, idle (s.routeList l).gapTimer → exec (.gapTimerExpiry l) s = .next s)
    ∧ (idle s.settle.acceptTimer → exec .acceptTimerExpiry s = .next s)
    ∧ (idle s.mon.sampleTimer → exec .sampleExpiry s = .next s)

/-! ### Management Requests -/

/-- The first two checks of R174: an unknown code or a wrong length is answered with Bad Parameter, and a request that the
device state does not allow with Not Available In State; nothing else changes. ENTER_SERVICE from Unconfigured needs the
time-valid flag, from Quiesced it does not (R175); QUIESCE in In Service and in Quiesced leaves the device Quiesced
(R176); no other part of the device changes. -/
def Obligations.DeviceStateJudgesRequests : Prop :=
  ∀ (s : State) (f : Frame) (rest : List Frame),
    (s.headed .forward 0x40 f rest → requestLength (requestCode f) ≠ some f.length →
      ∃ t, exec .unknownRequest s = .next t ∧ Replied f rest .badParameter [] s t ∧ OnlyChanges [.fwd, .bwdOut] s t)
    ∧ (∀ (c : Instr) (code : Nat) (d : DeviceState),
      (c, code, d) ∈ [(Instr.quiesce, 0x02, DeviceState.unconfigured), (.restart, 0x03, .unconfigured),
        (.enterService, 0x01, .inService)] → s.requested code f rest → s.mgmt.device = d →
      ∃ t, exec c s = .next t ∧ Replied f rest .notAvailable [] s t ∧ OnlyChanges [.fwd, .bwdOut] s t)
    ∧ (s.requested 0x01 f rest → (s.mgmt.device = .unconfigured ∧ s.time.valid = true) ∨ s.mgmt.device = .quiesced →
      ∃ t, exec .enterService s = .next t ∧ t.mgmt = { s.mgmt with device := .inService }
        ∧ Replied f rest .done [] s t ∧ OnlyChanges [.fwd, .mgmt, .bwdOut] s t)
    ∧ (s.requested 0x01 f rest → s.mgmt.device = .unconfigured → s.time.valid = false →
      ∃ t, exec .enterService s = .next t ∧ Replied f rest .notAvailable [] s t ∧ OnlyChanges [.fwd, .bwdOut] s t)
    ∧ (s.requested 0x02 f rest → s.mgmt.device ≠ .unconfigured →
      ∃ t, exec .quiesce s = .next t ∧ t.mgmt = { s.mgmt with device := .quiesced }
        ∧ Replied f rest .done [] s t ∧ OnlyChanges [.fwd, .mgmt, .bwdOut] s t)

/-- RESTART without force while a call, a reservation or a record stands is answered with Busy (R179). Otherwise every block
is as its reset rule says (R25, R52, R76, R95, R104, R151, R180), the Group Drained notices leave before the reply, and
the reply carries the three numbers. -/
def Obligations.RestartClearsCalls : Prop :=
  ∀ (s : State) (f : Frame) (rest : List Frame), s.requested 0x03 f rest → s.mgmt.device ≠ .unconfigured →
    Table.wf s.routes.lists = true →
    let force := field 0 1 (paramsOf f) ≠ 0
    let standing := 0 < s.ctx.inUse ∨ 0 < s.settle.reservations ∨ s.settle.queued ≠ []
    (¬ force → standing →
      ∃ t, exec .restart s = .next t ∧ Replied f rest .busy [] s t ∧ OnlyChanges [.fwd, .bwdOut] s t)
    ∧ (force ∨ ¬ standing →
      ∃ t, exec .restart s = .next t ∧ TookHead .forward rest s t
        ∧ t.ctx = { s.ctx with contexts := [], refMap := [], inUse := 0, peak := 0, offer := .opened }
        ∧ (∀ k, t.circuit k = (s.circuit k).map fun c => { c with cond := .idle })
        ∧ t.circ.counters = s.circ.counters
        ∧ (∀ g, t.group g = (s.group g).map fun x =>
            let mine := s.circ.circuits.filter fun e => decide (e.2.group = g)
            let free := (mine.filter fun e => !(e.2.remote || e.2.localBlock)).map (·.1)
            { x with
              drainedSent := x.drainedSent || decide (x.admin = .draining)
              counts := ⟨free.length, mine.length - free.length, 0, 0, 0, 0⟩, freeQueue := free, guardList := []
              mon := ⟨0, .clear, .normal, 0, .opened, none, ⟨0, 0, 0, 0, 0, 0, 0⟩⟩ })
        ∧ t.routes.dests = s.routes.dests
        ∧ t.routes.unmatched = 0 ∧ t.routes.barred = 0 ∧ t.routes.classExcluded = 0
        ∧ (∀ l, t.routeList l = { s.routeList l with
            pointer := 1, gapState := .off, gap := (s.routeList l).gapFloor, gate := .opened, gapTimer := none
            counters := ⟨0, 0, 0, 0, 0, 0, 0, 0⟩ })
        ∧ t.settle = { s.settle with
            reservations := 0, queued := [], exportState := .ready, halt := false, outstanding := 0, acceptTimer := none }
        ∧ t.mgmt = { s.mgmt with device := .quiesced }
        ∧ (∃ ns : List Notice, t.bwdOut = s.bwdOut ++ ns.map (OutMsg.notice s.time.now)
            ++ [.reply (kindByteOf f) 0x03 .done
              (enc 2 s.ctx.inUse ++ enc 2 s.settle.reservations ++ enc 2 s.settle.queued.length)]
          ∧ ns.Perm (s.circ.groups.flatMap fun e =>
              if e.2.admin = .draining ∧ e.2.drainedSent = false then [.groupDrained e.1] else []))
        ∧ OnlyChanges [.fwd, .ctx, .circ, .routes, .settle, .mgmt, .bwdOut, .draws] s t)

/-- The requests that read are answered from the state and change nothing (R50, R56, R75, R90, R122, R174, R177); where the
named object is not there, or the id is out of range, the reply says so. Layouts of the results are those of log
entries 13 to 18, a timer that is due reads as 0 remaining (log entry 28), and a set flag is 1 (log entry 29). The second
part says what the bytes of each result carry: read from the front, the fields of the object in the order and at the widths
of its layout (R182), where each fits its width. -/
def Obligations.ReadsAnswerAndChangeNothing : Prop :=
  (∀ (s : State) (f : Frame) (rest : List Frame),
    let p := paramsOf f
    let answers := fun (c : Instr) (rc : ReplyCode) (results : List Byte) =>
      ∃ t, exec c s = .next t ∧ Replied f rest rc results s t ∧ OnlyChanges [.fwd, .bwdOut] s t
    (s.requested 0x04 f rest → answers .readDeviceStatus .done s.statusBytes)
    ∧ (s.requested 0x12 f rest →
      let d := digitStringOf 0 10 p
      (d.count = 0 ∨ 20 < d.count → answers .lookupDestination .badParameter [])
      ∧ (1 ≤ d.count → d.count ≤ 20 → destMatch s.routes.dests d.digits = none →
          answers .lookupDestination .notFound [])
      ∧ (∀ e, 1 ≤ d.count → d.count ≤ 20 → destMatch s.routes.dests d.digits = some e →
          answers .lookupDestination .done e.bytes))
    ∧ (s.requested 0x40 f rest →
      (s.group (field 0 1 p) = none → answers .readGroup .notFound [])
      ∧ (∀ x, s.group (field 0 1 p) = some x → answers .readGroup .done (x.bytes s.time.ticks)))
    ∧ (s.requested 0x41 f rest →
      (16383 < field 0 2 p → answers .readCircuit .badParameter [])
      ∧ (field 0 2 p ≤ 16383 → s.circuit (field 0 2 p) = none → answers .readCircuit .done (enc 1 0))
      ∧ (∀ r, field 0 2 p ≤ 16383 → s.circuit (field 0 2 p) = some r →
          answers .readCircuit .done (s.circuitBytes r)))
    ∧ (s.requested 0x42 f rest →
      (s.lookupRef (field 0 3 p) = none → answers .readContext .notFound [])
      ∧ (∀ i c, s.lookupRef (field 0 3 p) = some i → s.context i = some c →
          answers .readContext .done (c.bytes i s.time.ticks)))
    ∧ (s.requested 0x43 f rest →
      (511 < field 0 2 p → answers .readRouteList .badParameter [])
      ∧ (field 0 2 p ≤ 511 → answers .readRouteList .done (s.routeList (field 0 2 p)).bytes))
    ∧ (s.requested 0x44 f rest →
      (field 0 1 p = 0 ∨ 63 < field 0 1 p → answers .readCarrier .badParameter [])
      ∧ (1 ≤ field 0 1 p → field 0 1 p ≤ 63 → s.carrier (field 0 1 p) = none → answers .readCarrier .notFound [])
      ∧ (∀ c, 1 ≤ field 0 1 p → field 0 1 p ≤ 63 → s.carrier (field 0 1 p) = some c →
          answers .readCarrier .done c.bytes)))
  ∧ (∀ s : State, s.statusItems.Fit → Carries s.statusItems s.statusBytes)
  ∧ (∀ e : DestEntry, e.pfx.length ≤ 15 → e.items.Fit → Carries e.items e.bytes)
  ∧ (∀ (x : Group) (ticks : Nat), (x.items ticks).Fit → Carries (x.items ticks) (x.bytes ticks))
  ∧ (∀ (s : State) (r : Circuit), (s.circuitItems r).Fit → Carries (s.circuitItems r) (s.circuitBytes r))
  ∧ (∀ (c : Context) (i ticks : Nat), c.number.length ≤ 20 → (c.items i ticks).Fit →
      Carries (c.items i ticks) (c.bytes i ticks))
  ∧ (∀ r : RouteList, r.items.Fit → Carries r.items r.bytes)
  ∧ ∀ c : Carrier, c.items.Fit → Carries c.items c.bytes

/-- CLEAR_ERROR_FLAGS clears the four flags of both ports and keeps the counters (R169, R177). SET_EXCHANGE_TIME sets the time
and the time-valid flag and answers with both as they stood, the flag as 1 where it was set (log entry 29); a centisecond
above 8,639,999 changes nothing (R155, R156). -/
def Obligations.FlagsClearedAndTimeSet : Prop :=
  ∀ (s : State) (f : Frame) (rest : List Frame),
    (s.requested 0x05 f rest →
      ∃ t, exec .clearErrorFlags s = .next t
        ∧ t.fwd = { s.fwd with queue := rest, flags := ⟨false, false, false, false⟩ }
        ∧ t.bwd = { s.bwd with flags := ⟨false, false, false, false⟩ }
        ∧ t.bwdOut = s.bwdOut ++ [.reply (kindByteOf f) 0x05 .done []] ∧ OnlyChanges [.fwd, .bwd, .bwdOut] s t)
    ∧ (s.requested 0x06 f rest →
      let day := field 0 2 (paramsOf f)
      let cs := field 2 4 (paramsOf f)
      (cs ≤ 8639999 →
        ∃ t, exec .setExchangeTime s = .next t ∧ t.time = { s.time with now := ⟨day, cs⟩, valid := true }
          ∧ Replied f rest .done
              (enc 2 s.time.now.day ++ enc 4 s.time.now.cs ++ [if s.time.valid then 1 else 0]) s t
          ∧ OnlyChanges [.fwd, .time, .bwdOut] s t)
      ∧ (8639999 < cs → ∃ t, exec .setExchangeTime s = .next t ∧ Replied f rest .badParameter [] s t
          ∧ OnlyChanges [.fwd, .bwdOut] s t))

/-- SET_GLOBAL_PARAMETERS replaces all seven and answers with the old ones (R178); new watermarks are compared at once with
the contexts in use (R107). -/
def Obligations.GlobalParametersReplaced : Prop :=
  ∀ (s : State) (f : Frame) (rest : List Frame), s.requested 0x07 f rest →
    let g := globalParamsOf (paramsOf f)
    let old := s.mgmt.params
    let good := 1 ≤ g.samplePeriod ∧ (1 ≤ g.highWater ∧ g.highWater ≤ 8192) ∧ g.lowWater < g.highWater
      ∧ (1 ≤ g.batchSize ∧ g.batchSize ≤ 64)
    let moved := g.highWater ≠ old.highWater ∨ g.lowWater ≠ old.lowWater
    let holds := moved ∧ s.ctx.offer = .opened ∧ g.highWater ≤ s.ctx.inUse
    let resumes := moved ∧ s.ctx.offer = .held ∧ s.ctx.inUse ≤ g.lowWater
    (good →
      ∃ t, exec .setGlobalParameters s = .next t ∧ TookHead .forward rest s t ∧ t.mgmt = { s.mgmt with params := g }
        ∧ t.ctx = { s.ctx with offer := if holds then .held else if resumes then .opened else s.ctx.offer }
        ∧ t.bwdOut = s.bwdOut
            ++ (if holds then [.notice s.time.now (.holdOffer s.ctx.inUse g.highWater)]
                else if resumes then [.notice s.time.now (.resumeOffer s.ctx.inUse g.lowWater)] else [])
            ++ [.reply (kindByteOf f) 0x07 .done (enc 2 old.tProceed ++ enc 2 old.tClear ++ enc 2 old.tAccept
                ++ enc 1 old.samplePeriod ++ enc 2 old.highWater ++ enc 2 old.lowWater ++ enc 1 old.batchSize)]
        ∧ OnlyChanges [.fwd, .ctx, .mgmt, .bwdOut] s t)
    ∧ (¬ good → ∃ t, exec .setGlobalParameters s = .next t ∧ Replied f rest .badParameter [] s t
        ∧ OnlyChanges [.fwd, .bwdOut] s t)

/-- LOAD_DESTINATION (R53, R56): one entry replaces the one with its prefix or joins a table that is not full.
DELETE_DESTINATION takes the entry away. Nothing else of the Route Selector changes. -/
def Obligations.DestinationsLoadedAndDeleted : Prop :=
  ∀ (s : State) (f : Frame) (rest : List Frame), (s.routes.dests.map (·.pfx)).Nodup →
    let r := loadDestOf (paramsOf f)
    let mask := if r.maskPresent then some r.mask else none
    let asks := fun (e : DestEntry) => 1 ≤ r.pfx.count ∧ r.pfx.count ≤ 15
      ∧ ((r.kind = 0 ∧ r.list ≤ 511 ∧ mask ≠ some 0 ∧ e = ⟨r.pfx.digits, .route r.list mask⟩)
        ∨ (r.kind = 1 ∧ r.list = 0xFFFF ∧ mask = none ∧ e = ⟨r.pfx.digits, .bar⟩))
    let d := digitStringOf 0 8 (paramsOf f)
    let full := (∀ e ∈ s.routes.dests, e.pfx ≠ r.pfx.digits) ∧ 8192 ≤ s.routes.dests.length
    (s.requested 0x10 f rest →
      (∀ e, asks e → ¬ full →
        ∃ t, exec .loadDestination s = .next t ∧ Replied f rest .done [] s t
          ∧ (∀ e', e' ∈ t.routes.dests ↔ e' = e ∨ (e' ∈ s.routes.dests ∧ e'.pfx ≠ e.pfx))
          ∧ (t.routes.dests.map (·.pfx)).Nodup ∧ t.routes = { s.routes with dests := t.routes.dests }
          ∧ OnlyChanges [.fwd, .routes, .bwdOut] s t)
      ∧ (∀ e, asks e → full → ∃ t, exec .loadDestination s = .next t ∧ Replied f rest .tableFull [] s t
          ∧ OnlyChanges [.fwd, .bwdOut] s t)
      ∧ ((∀ e, ¬ asks e) → ∃ t, exec .loadDestination s = .next t ∧ Replied f rest .badParameter [] s t
          ∧ OnlyChanges [.fwd, .bwdOut] s t))
    ∧ (s.requested 0x11 f rest → d.digits.length = d.count →
      ((∃ e ∈ s.routes.dests, e.pfx = d.digits) →
        ∃ t, exec .deleteDestination s = .next t ∧ Replied f rest .done [] s t
          ∧ (∀ e', e' ∈ t.routes.dests ↔ e' ∈ s.routes.dests ∧ e'.pfx ≠ d.digits)
          ∧ t.routes = { s.routes with dests := t.routes.dests } ∧ OnlyChanges [.fwd, .routes, .bwdOut] s t)
      ∧ ((∀ e ∈ s.routes.dests, e.pfx ≠ d.digits) →
        ∃ t, exec .deleteDestination s = .next t ∧ Replied f rest .notFound [] s t
          ∧ OnlyChanges [.fwd, .bwdOut] s t))

/-- LOAD_ROUTE_LIST (R57, R59, R103): the list is replaced whole, pointer 1, gap state Off at the new floor, counters kept.
RESTART_GAP of a loaded list in Active takes G to the floor with the gate Open and the timer stopped (R102). -/
def Obligations.RouteListsLoadedAndGapRestarted : Prop :=
  ∀ (s : State) (f : Frame) (rest : List Frame),
    let r := loadListOf (paramsOf f)
    let good := r.list ≤ 511 ∧ (1 ≤ r.count ∧ r.count ≤ 8)
      ∧ (∀ ch ∈ r.choices, (1 ≤ ch.group ∧ ch.group ≤ 255) ∧ ch.ceiling ≤ 2000000)
      ∧ (r.choices.map (·.group)).Nodup ∧ r.budget ≤ 7 ∧ 1 ≤ r.gapFloor ∧ r.gapFloor ≤ r.gapMax
    let l := field 0 2 (paramsOf f)
    let refused := fun (c : Instr) (rc : ReplyCode) =>
      ∃ t, exec c s = .next t ∧ Replied f rest rc [] s t ∧ OnlyChanges [.fwd, .bwdOut] s t
    (s.requested 0x18 f rest →
      (good →
        ∃ t, exec .loadRouteList s = .next t ∧ Replied f rest .done [] s t
          ∧ t.routeList r.list =
              { loaded := true, choices := r.choices, budget := r.budget, pointer := 1, gapEnable := r.gapEnable
                gapFloor := r.gapFloor, gapMax := r.gapMax, gapStep := r.gapStep, gapState := .off, gap := r.gapFloor
                gate := .opened, gapTimer := none, counters := (s.routeList r.list).counters }
          ∧ (∀ n, n ≠ r.list → t.routeList n = s.routeList n) ∧ t.routes = { s.routes with lists := t.routes.lists }
          ∧ OnlyChanges [.fwd, .routes, .bwdOut] s t)
      ∧ (¬ good → refused .loadRouteList .badParameter))
    ∧ (s.requested 0x19 f rest →
      (511 < l → refused .restartGap .badParameter)
      ∧ (l ≤ 511 → (s.routeList l).loaded = false → refused .restartGap .notFound)
      ∧ (l ≤ 511 → (s.routeList l).loaded = true →
        ∃ t, exec .restartGap s = .next t ∧ Replied f rest .done [] s t
          ∧ t.routeList l = (if (s.routeList l).gapState = .active then
              { s.routeList l with gap := (s.routeList l).gapFloor, gate := .opened, gapTimer := none }
            else s.routeList l)
          ∧ (∀ n, n ≠ l → t.routeList n = s.routeList n) ∧ t.routes = { s.routes with lists := t.routes.lists }
          ∧ OnlyChanges [.fwd, .routes, .bwdOut] s t))

/-- LOAD_THRESHOLD_SET replaces one set where every field is in range, and is refused otherwise (R78). -/
def Obligations.ThresholdSetsLoaded : Prop :=
  ∀ (s : State) (f : Frame) (rest : List Frame), s.requested 0x20 f rest →
    let p := paramsOf f
    let n := field 0 1 p
    let x : ThresholdSet := ⟨field 1 2 p, field 3 2 p, field 5 2 p, field 7 2 p, field 9 1 p⟩
    let good := n ≤ 15 ∧ (1 ≤ x.t1 ∧ x.t1 < x.t2 ∧ x.t2 < x.t3 ∧ x.t3 ≤ 999) ∧ x.hysteresis ≤ 200 ∧ x.shift ≤ 6
    (good → ∃ t, exec .loadThresholdSet s = .next t ∧ Replied f rest .done [] s t
      ∧ t.thresholds n = x ∧ (∀ j, j ≠ n → t.thresholds j = s.thresholds j)
      ∧ t.mon = { s.mon with thresholds := t.mon.thresholds } ∧ OnlyChanges [.fwd, .mon, .bwdOut] s t)
    ∧ (¬ good → ∃ t, exec .loadThresholdSet s = .next t ∧ Replied f rest .badParameter [] s t
      ∧ OnlyChanges [.fwd, .bwdOut] s t)

/-- LOAD_TRUNK_GROUP, new or reloaded (R47, R48, R94): the checks in their order, then the range redrawn. Circuits of the
range keep their flags where the group held them and are new where it did not; the group is Out of Service. -/
def Obligations.TrunkGroupLoaded : Prop :=
  ∀ (s : State) (f : Frame) (rest : List Frame), s.circ.Law → s.requested 0x21 f rest →
    let q := loadGroupOf (paramsOf f)
    let inside := fun k : Nat => q.first ≤ k ∧ k < q.first + q.size
    let overlaps := ∃ k r, inside k ∧ s.circuit k = some r ∧ r.group ≠ q.id
    let undeclared := q.owner ≠ 0 ∧ s.carrier q.owner = none
    let refused := fun (rc : ReplyCode) =>
      ∃ t, exec .loadTrunkGroup s = .next t ∧ Replied f rest rc [] s t ∧ OnlyChanges [.fwd, .bwdOut] s t
    (¬ q.Fits ∨ overlaps → refused .badParameter)
    ∧ (q.Fits → ¬ overlaps → undeclared → refused .notFound)
    ∧ (∀ x, q.Fits → ¬ overlaps → ¬ undeclared → s.group q.id = some x →
        ¬ (x.admin = .outOfService ∧ s.restsWholly q.id) → refused .busy)
    ∧ (q.Fits → ¬ overlaps → ¬ undeclared →
        (∀ x, s.group q.id = some x → x.admin = .outOfService ∧ s.restsWholly q.id) →
        ∃ t, exec .loadTrunkGroup s = .next t ∧ Replied f rest .done [] s t ∧ ∃ y, t.group q.id = some y
          ∧ q.Gives y.cfg ∧ y.admin = .outOfService ∧ y.drainedSent = false ∧ y.guardList = []
          ∧ (s.group q.id = none → y.mon = ⟨0, .clear, .normal, 0, .opened, none, ⟨0, 0, 0, 0, 0, 0, 0⟩⟩
              ∧ y.freeQueue = (List.range q.size).map (q.first + ·) ∧ y.counts = ⟨q.size, 0, 0, 0, 0, 0⟩)
          ∧ (∀ x, s.group q.id = some x → y.mon = x.mon
              ∧ y.freeQueue = x.freeQueue.filter (fun k => decide (inside k))
                  ++ ((List.range q.size).map (q.first + ·)).filter fun k => (s.circuit k).isNone)
          ∧ (∀ g, g ≠ q.id → t.group g = s.group g)
          ∧ (∀ k, t.circuit k =
              if inside k then
                (match s.circuit k with
                | some r => some r
                | none => some ⟨q.id, .idle, false, false⟩)
              else match s.circuit k with
                | some r => if r.group = q.id then none else some r
                | none => none)
          ∧ t.circ.counters = s.circ.counters ∧ t.circ.Law ∧ OnlyChanges [.fwd, .circ, .bwdOut] s t)

/-- REMOVE_TRUNK_GROUP (R49) of an idle group Out of Service; SET_GROUP_STATE (R45, R46). Where both the group and the state
are wrong either reply may go out (log entry 7). -/
def Obligations.TrunkGroupRemovedOrSet : Prop :=
  ∀ (s : State) (f : Frame) (rest : List Frame), s.circ.Law →
    let g := field 0 1 (paramsOf f)
    let a := field 1 1 (paramsOf f)
    let refused := fun (c : Instr) (rc : ReplyCode) =>
      ∃ t, exec c s = .next t ∧ Replied f rest rc [] s t ∧ OnlyChanges [.fwd, .bwdOut] s t
    (s.requested 0x22 f rest →
      (s.group g = none → refused .removeTrunkGroup .notFound)
      ∧ (∀ x, s.group g = some x → ¬ (x.admin = .outOfService ∧ s.restsWholly g) → refused .removeTrunkGroup .busy)
      ∧ (∀ x, s.group g = some x → x.admin = .outOfService → s.restsWholly g →
        ∃ t, exec .removeTrunkGroup s = .next t ∧ Replied f rest .done [] s t ∧ t.group g = none
          ∧ (∀ n, n ≠ g → t.group n = s.group n)
          ∧ (∀ k, t.circuit k = (s.circuit k).filter fun r => decide (r.group ≠ g))
          ∧ t.circ.counters = s.circ.counters ∧ OnlyChanges [.fwd, .circ, .bwdOut] s t))
    ∧ (s.requested 0x23 f rest →
      (s.group g = none → a ≤ 2 → refused .setGroupState .notFound)
      ∧ (∀ x, s.group g = some x → 2 < a → refused .setGroupState .badParameter)
      ∧ (s.group g = none → 2 < a → refused .setGroupState .notFound ∨ refused .setGroupState .badParameter)
      ∧ (∀ x y, s.group g = some x → (a, y) ∈ [(0, AdminState.inService), (1, .draining), (2, .outOfService)] →
        let x' := if x.admin = y then x
          else if y = .draining then ({ x with admin := y, drainedSent := false } : Group).reported
          else { x with admin := y }
        ∃ t, exec .setGroupState s = .next t ∧ TookHead .forward rest s t ∧ t.group g = some x'
          ∧ (∀ n, n ≠ g → t.group n = s.group n) ∧ t.circ = { s.circ with groups := t.circ.groups }
          ∧ t.bwdOut = s.bwdOut
              ++ (if x.admin ≠ .draining ∧ y = .draining then
                  ({ x with admin := y, drainedSent := false } : Group).drainReport g s.time.now else [])
              ++ [.reply (kindByteOf f) 0x23 .done []]
          ∧ OnlyChanges [.fwd, .circ, .bwdOut] s t))

/-- DECLARE_CARRIER and REMOVE_CARRIER, with their checks in order (R111, R112). -/
def Obligations.CarriersDeclaredAndRemoved : Prop :=
  ∀ (s : State) (f : Frame) (rest : List Frame),
    let id := field 0 1 (paramsOf f)
    let real := 1 ≤ id ∧ id ≤ 63
    let good := ∃ b, tariffOf ((paramsOf f).drop 1) = some b ∧ b.InRange
    let owns := ∃ g x, s.group g = some x ∧ x.cfg.owner = id
    let refused := fun (c : Instr) (rc : ReplyCode) =>
      ∃ t, exec c s = .next t ∧ Replied f rest rc [] s t ∧ OnlyChanges [.fwd, .bwdOut] s t
    Table.wf s.circ.groups = true →
    (s.requested 0x30 f rest →
      (¬ (real ∧ good) → refused .declareCarrier .badParameter)
      ∧ (real → good → (s.carrier id).isSome = true → refused .declareCarrier .busy)
      ∧ (∀ b, real → tariffOf ((paramsOf f).drop 1) = some b → b.InRange → s.carrier id = none →
        ∃ t, exec .declareCarrier s = .next t ∧ Replied f rest .done [] s t
          ∧ CarrierSet id ⟨b, .localLoad, none, false, ⟨0, 0, 0, 0, 0⟩⟩ s t ∧ OnlyChanges [.fwd, .tariffs, .bwdOut] s t))
    ∧ (s.requested 0x31 f rest →
      (¬ real → refused .removeCarrier .badParameter)
      ∧ (real → s.carrier id = none → refused .removeCarrier .notFound)
      ∧ (real → (s.carrier id).isSome = true → owns → refused .removeCarrier .busy)
      ∧ (real → (s.carrier id).isSome = true → ¬ owns →
        ∃ t, exec .removeCarrier s = .next t ∧ Replied f rest .done [] s t ∧ t.carrier id = none
          ∧ (∀ n, n ≠ id → t.carrier n = s.carrier n) ∧ t.tariffs.unknownRejected = s.tariffs.unknownRejected
          ∧ OnlyChanges [.fwd, .tariffs, .bwdOut] s t))

/-- LOAD_TARIFF replaces the current tariff at once, or the pending one for its effective time (R116); PIN_CARRIER withdraws
an Offered pending tariff and says so, UNPIN_CARRIER clears the pin (R117). That the indication of Pin Carrier is one flag byte
in every Done reply is log entry 17, and that the byte is 1 where it is set log entry 29. -/
def Obligations.TariffsLoadedAndPinned : Prop :=
  ∀ (s : State) (f : Frame) (rest : List Frame),
    let q := loadTariffOf (paramsOf f)
    let id := field 0 1 (paramsOf f)
    let real := 1 ≤ id ∧ id ≤ 63
    let good := (∃ b, q.body = some b ∧ b.InRange) ∧ (q.mode = 0 ∨ (q.mode = 1 ∧ q.minute ≤ 1439))
    let refused := fun (c : Instr) (rc : ReplyCode) =>
      ∃ t, exec c s = .next t ∧ Replied f rest rc [] s t ∧ OnlyChanges [.fwd, .bwdOut] s t
    let becomes := fun (c : Instr) (results : List Byte) (y : Carrier) =>
      ∃ t, exec c s = .next t ∧ Replied f rest .done results s t ∧ CarrierSet id y s t
        ∧ OnlyChanges [.fwd, .tariffs, .bwdOut] s t
    (s.requested 0x32 f rest →
      (¬ (real ∧ good) → refused .loadTariff .badParameter)
      ∧ (real → good → s.carrier id = none → refused .loadTariff .notFound)
      ∧ (∀ b y, real → good → q.body = some b → s.carrier id = some y →
          (q.mode = 0 → becomes .loadTariff []
            { y with current := b, source := .localLoad, pending := if q.discard then none else y.pending })
          ∧ (q.mode = 1 → becomes .loadTariff [] { y with pending := some ⟨b, q.day, q.minute, .localLoad⟩ })))
    ∧ (∀ (c : Instr) (code : Nat), (c, code) ∈ [(Instr.pinCarrier, 0x33), (.unpinCarrier, 0x34)] →
      s.requested code f rest →
        (¬ real → refused c .badParameter) ∧ (real → s.carrier id = none → refused c .notFound))
    ∧ (∀ y, s.requested 0x33 f rest → real → s.carrier id = some y →
      let withdrawn := ∃ p, y.pending = some p ∧ p.source = .offered
      (withdrawn → becomes .pinCarrier [1] { y with pinned := true, pending := none })
      ∧ (¬ withdrawn → becomes .pinCarrier [0] { y with pinned := true }))
    ∧ (∀ y, s.requested 0x34 f rest → real → s.carrier id = some y →
      becomes .unpinCarrier [] { y with pinned := false })

/-- LATCH_COUNTERS copies the counters of one object with the time and the time-valid flag (R91, R92); READ_LATCHED returns
the copy and leaves it (R93); its bytes carry the fields of the latch in order (R182), the time-valid flag as 1 where it is
set (log entry 29). -/
def Obligations.LatchCopiesCounters : Prop :=
  (∀ (s : State) (f : Frame) (rest : List Frame),
    let kind := field 0 1 (paramsOf f)
    let id := field 1 2 (paramsOf f)
    let refused := fun (c : Instr) (rc : ReplyCode) =>
      ∃ t, exec c s = .next t ∧ Replied f rest rc [] s t ∧ OnlyChanges [.fwd, .bwdOut] s t
    let copies := fun (k : ObjectKind) (n : LatchedCounters) =>
      ∃ t, exec .latchCounters s = .next t
        ∧ t.mon = { s.mon with latch := some ⟨k, id, s.time.now, s.time.valid, n⟩ }
        ∧ Replied f rest .done (enc 2 s.time.now.day ++ enc 4 s.time.now.cs) s t ∧ OnlyChanges [.fwd, .mon, .bwdOut] s t
    (s.requested 0x48 f rest →
      (2 < kind ∨ (kind = 0 ∧ (id = 0 ∨ 255 < id)) ∨ (kind = 1 ∧ 511 < id) ∨ (kind = 2 ∧ (id = 0 ∨ 63 < id)) →
        refused .latchCounters .badParameter)
      ∧ (kind = 0 → 1 ≤ id → id ≤ 255 →
          (s.group id = none → refused .latchCounters .notFound)
          ∧ ∀ x, s.group id = some x → copies .trunkGroup (.group x.mon.traffic))
      ∧ (kind = 1 → id ≤ 511 → copies .routeList (.list (s.routeList id).counters))
      ∧ (kind = 2 → 1 ≤ id → id ≤ 63 →
          (s.carrier id = none → refused .latchCounters .notFound)
          ∧ ∀ x, s.carrier id = some x → copies .carrier (.carrier x.counters)))
    ∧ (s.requested 0x49 f rest →
      (s.mon.latch = none → refused .readLatched .notFound)
      ∧ ∀ x, s.mon.latch = some x →
          ∃ t, exec .readLatched s = .next t ∧ Replied f rest .done x.bytes s t ∧ OnlyChanges [.fwd, .bwdOut] s t))
  ∧ ∀ x : Latch, x.items.Fit → Carries x.items x.bytes

/-! ### The rules of routing, sampling, gapping and rating -/

/-- The destination match is the entry with the longest prefix of the number, where the prefixes are unique (R53, R54). -/
def Obligations.LongestPrefixMatches : Prop :=
  ∀ (dests : List DestEntry) (number : List Digit), (dests.map (·.pfx)).Nodup →
    (∀ e, destMatch dests number = some e ↔
      e ∈ dests ∧ e.pfx <+: number ∧ ∀ e' ∈ dests, e'.pfx <+: number → e'.pfx.length ≤ e.pfx.length)
    ∧ (destMatch dests number = none ↔ ∀ e ∈ dests, ¬ e.pfx <+: number)

/-- A selection pass that seizes has found a choice that passes all checks (R62 to R66, R68): untried, In Service, not
closed for probing, with a Free circuit, and, for an alternate without priority, more than the reservation, a band below
Critical and budget left; a handover group has a slot, and a rate at or below a ceiling that binds the call. -/
def Obligations.SeizedChoicePassesChecks : Prop :=
  ∀ (s s' : State) (now : ExTime) (i l g k : Nat) (c : Context), s.context i = some c →
    s.selectionPass now i l = (s', .seized g k) →
      ∃ (n : Nat) (ch : Choice) (x : Group), (s.routeList l).choices[n]? = some ch ∧ ch.group = g ∧ s.group g = some x
        ∧ c.noFurther = false ∧ g ∉ c.tried ∧ x.admin = .inService
        ∧ ¬ (x.mon.health = .suspect ∧ x.mon.gate = .closed)
        ∧ 1 ≤ x.counts.free ∧ x.hunt = some k
        ∧ (n ≠ 0 → c.examined < (s.routeList l).budget)
        ∧ (n ≠ 0 → c.priority = false → x.cfg.reservation < x.counts.free ∧ x.mon.band ≠ .critical)
        ∧ (∀ car, x.cfg.owner ≠ 0 → s.carrier x.cfg.owner = some car → ch.affords c.priority (car.quoteOn x now).rate)
        ∧ (x.cfg.owner ≠ 0 → (s.carrier x.cfg.owner).isSome = true
            ∧ s.settle.reservations + s.settle.queued.length < (if c.priority then 4096 else 4080))
        ∧ s'.settle.reservations = s.settle.reservations + (if x.cfg.owner = 0 then 0 else 1)

/-- Occupancy (R80): 1000 times the busy share of the circuits that are not Blocked, at most 1000, and 1000 exactly with no
Free circuit. -/
def Obligations.OccupancyIsBusyShare : Prop :=
  ∀ (size : Nat) (n : Counts),
    n.free + n.blocked + n.seized + n.farSeized + n.releasing + n.guard = size →
      let busy := n.seized + n.farSeized + n.releasing + n.guard
      let o := occupancy size n
      (size - n.blocked = 0 → o = 1000)
      ∧ (size - n.blocked ≠ 0 → (size - n.blocked) * o ≤ 1000 * busy ∧ 1000 * busy < (size - n.blocked) * (o + 1))
      ∧ o ≤ 1000 ∧ (o = 1000 ↔ n.free = 0)

/-- The smoothing step (R81): the difference divided by 2 to the power k, rounded toward minus infinity; the new S256 lies
between the old one and 256 times O, and reaches it from above. -/
def Obligations.SmoothingStepStaysBetween : Prop :=
  ∀ (k o s256 : Nat), k ≤ 6 → o ≤ 1000 → s256 ≤ 256000 →
    let new := smooth k o s256
    ((2 : Int) ^ k * ((new : Int) - s256) ≤ 256 * (o : Int) - s256
      ∧ 256 * (o : Int) - s256 < (2 : Int) ^ k * ((new : Int) - s256 + 1))
    ∧ (s256 ≤ 256 * o → s256 ≤ new ∧ new ≤ 256 * o) ∧ (256 * o < s256 → 256 * o ≤ new ∧ new < s256)
    ∧ (k = 0 → new = 256 * o) ∧ new ≤ 256000

/-- The band test (R82): after it no rise and no fall is due, a band that keeps is kept, a rise stops at the highest bound
plus H that S reaches, and a fall at the highest bound that S reaches. -/
def Obligations.BandTestSettles : Prop :=
  ∀ (x : ThresholdSet) (s : Nat) (b : Band), 1 ≤ x.t1 → x.t1 < x.t2 → x.t2 < x.t3 →
    let new := evalBand x s b
    let rises := fun c : Band => c.value < 3 ∧ x.bound (c.value + 1) + x.hysteresis ≤ s
    let falls := fun c : Band => 0 < c.value ∧ s < x.bound c.value
    ¬ rises new ∧ ¬ falls new ∧ (¬ rises b → ¬ falls b → new = b)
      ∧ (rises b → b.value < new.value ∧ x.bound new.value + x.hysteresis ≤ s)
      ∧ (falls b → new.value < b.value ∧ s < x.bound (new.value + 1))

/-- The adaptation of a gap-enabled list to a band (R100): the table row by row. -/
def Obligations.GapFollowsBand : Prop :=
  ∀ (r : RouteList) (b : Band), r.gapFloor ≤ r.gap →
    let active := { r with gapState := GapState.active }
    let opened := { r with gate := Gate.opened, gapTimer := none }
    (r.gapState = .off → b.value ≤ 1 → r.adapt b = r)
    ∧ (r.gapState = .off → 2 ≤ b.value → r.adapt b = { opened with gapState := .active, gap := r.gapFloor })
    ∧ (r.gapState = .active → b = .critical → r.adapt b = { active with gap := min (r.gap + r.gapStep) r.gapMax })
    ∧ (r.gapState = .active → b = .congested → r.adapt b = r)
    ∧ (r.gapState = .active → b.value ≤ 1 → r.gap = r.gapFloor → r.adapt b = { opened with gapState := .off })
    ∧ (r.gapState = .active → b.value ≤ 1 → r.gapFloor < r.gap →
        r.adapt b = { active with gap := max (r.gap - r.gapStep) r.gapFloor })

/-- The rate of a valid tariff (R126 to R129): the base of the period in force times the multiplier of the band, the slopes
below S and the part of the segment that S has entered, then the clamp to floor and ceiling. -/
def Obligations.RateFollowsTariff : Prop :=
  ∀ (x : Tariff) (minute s : Nat) (band : Band), x.InRange → s ≤ 1000 →
    ∃ (p : Period) (mult : Nat) (raw : Int), p ∈ x.periods ∧ p.start ≤ minute
      ∧ (∀ p' ∈ x.periods, p'.start ≤ minute → p'.start ≤ p.start) ∧ x.mults[band.value]? = some mult
      ∧ raw = ((p.base * mult / 256 : Nat) : Int) + (x.slopes.take (s / 125)).sum
          + (match x.slopes[s / 125]? with
            | some v => Int.tdiv (v * ((s : Int) - 125 * ((s / 125 : Nat) : Int))) 125
            | none => 0)
      ∧ raw = x.rawRate minute band s
      ∧ (raw < x.floor → x.rate minute band s = x.floor)
      ∧ (x.ceiling < raw → x.rate minute band s = x.ceiling)
      ∧ (x.floor ≤ raw → raw ≤ x.ceiling → (x.rate minute band s : Int) = raw)
      ∧ x.floor ≤ x.rate minute band s ∧ x.rate minute band s ≤ x.ceiling ∧ x.rate minute band s ≤ 2000000

/-- A valid tariff body reads back from its 57 bytes with every field (R110, R168; unused period entries are log entry 18). -/
def Obligations.TariffBodyReadsBack : Prop :=
  ∀ (x : Tariff) (rest : List Byte), x.InRange →
    (encTariff x).length = 57 ∧ tariffOf (encTariff x ++ rest) = some x

/-! ### Invariants -/

/-- Right after reset every law holds. -/
def Obligations.ResetMeetsEveryLaw : Prop := State.reset.Law

/-- Every command keeps the laws of the Circuit Map: a group's counts, free queue and guard list are those of its circuits
(R26, R27, R29, R31). -/
def Obligations.StepKeepsCircuitLaw : Prop :=
  ∀ s t : State, s.circ.Law → step s = .next t → t.circ.Law

/-- Every command keeps the laws of the route lists and their gaps (R53, R57, R58, R96). -/
def Obligations.StepKeepsRouteLaw : Prop :=
  ∀ s t : State, s.routes.law → step s = .next t → t.routes.law

/-- Every command keeps the law of the Settlement Queue: consecutive numbers, and an export state that fits batch and timer
(R138, R141, R143, R145, R146). -/
def Obligations.StepKeepsSettlementLaw : Prop :=
  ∀ s t : State, s.settle.law → s.mgmt.params.valid = true → step s = .next t →
    t.settle.law ∧ t.mgmt.params.valid = true

/-- Every command keeps every law of the device, the ones between blocks among them: each circuit of a context is Seized by
it (R2), reservations count the contexts with a slot and never pass 4,096 with the records (R138), owners are declared. -/
def Obligations.StepKeepsEveryLaw : Prop :=
  ∀ s t : State, s.Law → step s = .next t → t.Law

/-- Every Settlement Record in the queue keeps the charge equation of R134 over the values it carries. -/
def Obligations.StepKeepsChargeEquation : Prop :=
  ∀ s t : State,
    let charged := fun r : SettlementRecord =>
      r.charge = min (r.setupFee + (r.chargeable * r.rate + 30) / 60) 4294967295 ∧ r.chargeable ≤ 4294967295
    (∀ r ∈ s.settle.queued, charged r) → step s = .next t → ∀ r ∈ t.settle.queued, charged r
end

