-- ==== Sys2Proof/Laws/Table.lean ====
section
/-! SUPPORT. The laws of the sparse tables: what a number reads after each operation, and that every operation keeps the
canonical form. -/
namespace Sys2Proof.Machine

variable {α β : Type}

@[simp] theorem Table.find_nil (i : Nat) : Table.find i ([] : Table α) = none := rfl

theorem Table.find_cons (i k : Nat) (v : α) (t : Table α) :
    Table.find i ((k, v) :: t) = if k = i then some v else Table.find i t := rfl

theorem Table.find_put (i j : Nat) (x : α) (t : Table α) :
    Table.find j (Table.put i x t) = if i = j then some x else Table.find j t := by
  induction t with
  | nil => simp [Table.put, Table.find_cons]
  | cons p t ih =>
    obtain ⟨k, v⟩ := p
    simp only [Table.put]
    split
    · simp [Table.find_cons]
    · split
      · subst k; by_cases h : i = j <;> simp [Table.find_cons, h]
      · simp only [Table.find_cons, ih]
        by_cases h : k = j <;> by_cases h' : i = j <;> simp_all

@[simp] theorem Table.find_put_self (i : Nat) (x : α) (t : Table α) : Table.find i (Table.put i x t) = some x := by
  simp [Table.find_put]

theorem Table.find_put_of_ne {i j : Nat} (h : j ≠ i) (x : α) (t : Table α) :
    Table.find j (Table.put i x t) = Table.find j t := by simp [Table.find_put, Ne.symm h]

theorem Table.find_del (i j : Nat) (t : Table α) :
    Table.find j (Table.del i t) = if i = j then none else Table.find j t := by
  induction t with
  | nil => simp [Table.del]
  | cons p t ih =>
    obtain ⟨k, v⟩ := p
    simp only [Table.del]
    by_cases hk : k = i <;> by_cases hj : k = j <;> by_cases hi : i = j <;> simp_all [Table.find_cons]

@[simp] theorem Table.find_del_self (i : Nat) (t : Table α) : Table.find i (Table.del i t) = none := by
  simp [Table.find_del]

theorem Table.find_del_of_ne {i j : Nat} (h : j ≠ i) (t : Table α) :
    Table.find j (Table.del i t) = Table.find j t := by simp [Table.find_del, Ne.symm h]

theorem Table.find_adjust (i j : Nat) (f : α → α) (t : Table α) :
    Table.find j (Table.adjust i f t) = if i = j then (Table.find j t).map f else Table.find j t := by
  induction t with
  | nil => simp [Table.adjust]
  | cons p t ih =>
    obtain ⟨k, v⟩ := p
    simp only [Table.adjust]
    by_cases hk : k = i <;> by_cases hj : k = j <;> by_cases hi : i = j <;> simp_all [Table.find_cons]

@[simp] theorem Table.find_adjust_self (i : Nat) (f : α → α) (t : Table α) :
    Table.find i (Table.adjust i f t) = (Table.find i t).map f := by simp [Table.find_adjust]

theorem Table.find_adjust_of_ne {i j : Nat} (h : j ≠ i) (f : α → α) (t : Table α) :
    Table.find j (Table.adjust i f t) = Table.find j t := by simp [Table.find_adjust, Ne.symm h]

theorem Table.find_mapAll (j : Nat) (f : Nat → α → β) (t : Table α) :
    Table.find j (Table.mapAll f t) = (Table.find j t).map (f j) := by
  induction t with
  | nil => rfl
  | cons p t ih =>
    obtain ⟨k, v⟩ := p
    simp only [Table.mapAll, List.map_cons, Table.find_cons] at ih ⊢
    by_cases hj : k = j
    · subst hj; simp
    · simpa [hj] using ih

/-- What a table reads under a number is one of its entries. -/
theorem Table.mem_of_find {i : Nat} {x : α} {t : Table α} (h : Table.find i t = some x) : (i, x) ∈ t := by
  induction t with
  | nil => simp at h
  | cons p t ih =>
    obtain ⟨k, v⟩ := p
    rw [Table.find_cons] at h
    split at h
    · simp_all
    · exact List.mem_cons_of_mem _ (ih h)

theorem Table.find_eq_none {i : Nat} {t : Table α} : Table.find i t = none ↔ i ∉ Table.keys t := by
  induction t with
  | nil => simp [Table.keys]
  | cons p t ih =>
    obtain ⟨k, v⟩ := p
    rw [Table.find_cons]
    by_cases hk : k = i <;> simp_all [Table.keys, eq_comm]

/-! ### Canonical form -/

theorem Table.above_iff (lo : Nat) (t : Table α) : Table.above lo t = true ↔ ∀ p ∈ t, lo < p.1 := by
  induction t with
  | nil => simp [Table.above]
  | cons p t ih => obtain ⟨k, v⟩ := p; simp [Table.above, ih]

theorem Table.wf_iff (t : Table α) : Table.wf t = true ↔ t.Pairwise (fun p q => p.1 < q.1) := by
  induction t with
  | nil => simp [Table.wf]
  | cons p t ih => obtain ⟨k, v⟩ := p; simp [Table.wf, Table.above_iff, ih]

theorem Table.find_of_mem {i : Nat} {x : α} {t : Table α} (hw : Table.wf t = true) (h : (i, x) ∈ t) :
    Table.find i t = some x := by
  induction t with
  | nil => simp at h
  | cons p t ih =>
    obtain ⟨k, v⟩ := p
    simp only [Table.wf, Bool.and_eq_true, Table.above_iff] at hw
    rw [Table.find_cons]
    rcases List.mem_cons.mp h with h | h
    · simp_all
    · have := hw.1 _ h
      have hne : k ≠ i := by simp only at this; omega
      simpa [hne] using ih hw.2 h

theorem Table.mem_put {i : Nat} {x : α} {t : Table α} {p : Nat × α} (h : p ∈ Table.put i x t) :
    p = (i, x) ∨ p ∈ t := by
  induction t with
  | nil => simp_all [Table.put]
  | cons q t ih =>
    obtain ⟨k, v⟩ := q
    simp only [Table.put] at h
    split at h
    · simp_all
    · split at h
      · simp only [List.mem_cons] at h ⊢; tauto
      · rcases List.mem_cons.mp h with h | h
        · exact .inr (by simp [h])
        · rcases ih h with h | h
          · exact .inl h
          · exact .inr (List.mem_cons_of_mem _ h)

theorem Table.mem_del {i : Nat} {t : Table α} {p : Nat × α} : p ∈ Table.del i t ↔ p ∈ t ∧ p.1 ≠ i := by
  induction t with
  | nil => simp [Table.del]
  | cons q t ih =>
    obtain ⟨k, v⟩ := q
    obtain ⟨a, b⟩ := p
    simp only [Table.del]
    by_cases hk : k = i
    · simp only [hk, if_true, ih, List.mem_cons, Prod.mk.injEq]; grind
    · simp only [hk, if_false, ih, List.mem_cons, Prod.mk.injEq]; grind

theorem Table.mem_adjust {i : Nat} {f : α → α} {t : Table α} {p : Nat × α} (h : p ∈ Table.adjust i f t) :
    p ∈ t ∨ ∃ v, (i, v) ∈ t ∧ p = (i, f v) := by
  induction t with
  | nil => simp [Table.adjust] at h
  | cons q t ih =>
    obtain ⟨k, v⟩ := q
    simp only [Table.adjust] at h
    split at h
    · rename_i hk
      subst hk
      rcases List.mem_cons.mp h with h | h
      · exact .inr ⟨v, by simp, h⟩
      · rcases ih h with h | ⟨w, hw, h⟩
        · exact .inl (List.mem_cons_of_mem _ h)
        · exact .inr ⟨w, List.mem_cons_of_mem _ hw, h⟩
    · rcases List.mem_cons.mp h with h | h
      · exact .inl (by simp [h])
      · rcases ih h with h | ⟨w, hw, h⟩
        · exact .inl (List.mem_cons_of_mem _ h)
        · exact .inr ⟨w, List.mem_cons_of_mem _ hw, h⟩

theorem Table.wf_put (i : Nat) (x : α) {t : Table α} (h : Table.wf t = true) : Table.wf (Table.put i x t) = true := by
  induction t with
  | nil => simp [Table.put, Table.wf, Table.above]
  | cons p t ih =>
    obtain ⟨k, v⟩ := p
    simp only [Table.wf, Bool.and_eq_true, Table.above_iff] at h
    simp only [Table.put]
    split
    · simp only [Table.wf, Bool.and_eq_true, Table.above_iff]
      refine ⟨fun p hp => ?_, h⟩
      rcases List.mem_cons.mp hp with rfl | hp
      · assumption
      · have := h.1 p hp; omega
    · split
      · simp only [Table.wf, Bool.and_eq_true, Table.above_iff]; exact ⟨by rename_i e; subst e; exact h.1, h.2⟩
      · simp only [Table.wf, Bool.and_eq_true, Table.above_iff]
        refine ⟨fun p hp => ?_, ih h.2⟩
        rcases Table.mem_put hp with rfl | hp
        · simp only; omega
        · exact h.1 p hp

theorem Table.wf_filter (q : Nat × α → Bool) {t : Table α} (h : Table.wf t = true) : Table.wf (t.filter q) = true := by
  rw [Table.wf_iff] at h ⊢
  exact h.filter _

theorem Table.del_eq_filter (i : Nat) (t : Table α) : Table.del i t = t.filter fun p => decide (p.1 ≠ i) := by
  induction t with
  | nil => rfl
  | cons p t ih => obtain ⟨k, v⟩ := p; by_cases hk : k = i <;> simp [Table.del, ih, hk]

theorem Table.wf_del (i : Nat) {t : Table α} (h : Table.wf t = true) : Table.wf (Table.del i t) = true := by
  rw [Table.del_eq_filter]; exact Table.wf_filter _ h

theorem Table.keys_adjust (i : Nat) (f : α → α) (t : Table α) : Table.keys (Table.adjust i f t) = Table.keys t := by
  induction t with
  | nil => rfl
  | cons p t ih =>
    obtain ⟨k, v⟩ := p
    simp only [Table.adjust]
    split <;> simp_all [Table.keys]

theorem Table.keys_mapAll (f : Nat → α → β) (t : Table α) : Table.keys (Table.mapAll f t) = Table.keys t := by
  simp [Table.keys, Table.mapAll, Function.comp_def]

theorem Table.wf_keys (t : Table α) : Table.wf t = true ↔ (Table.keys t).Pairwise (· < ·) := by
  rw [Table.wf_iff, Table.keys, List.pairwise_map]

theorem Table.wf_adjust (i : Nat) (f : α → α) {t : Table α} (h : Table.wf t = true) :
    Table.wf (Table.adjust i f t) = true := by
  rw [Table.wf_keys] at h ⊢; rwa [Table.keys_adjust]

theorem Table.wf_mapAll (f : Nat → α → β) {t : Table α} (h : Table.wf t = true) :
    Table.wf (Table.mapAll f t) = true := by
  rw [Table.wf_keys] at h ⊢; rwa [Table.keys_mapAll]

/-! ### The free order -/

theorem insertRanked_perm (d : Nat) (x : α × Nat) (l : List (α × Nat)) : (insertRanked d x l).Perm (x :: l) := by
  induction l with
  | nil => exact .refl _
  | cons y t ih =>
    simp only [insertRanked]
    split
    · exact .refl _
    · exact (ih.cons y).trans (.swap _ _ _)

/-- Whatever the free order is, it holds the same things. -/
theorem arrange_perm (d : Nat) (xs : List α) : (arrange d xs).Perm xs := by
  have key : ∀ l : List (α × Nat), (l.foldr (insertRanked d) []).Perm l := by
    intro l
    induction l with
    | nil => exact .refl _
    | cons y t ih => exact (insertRanked_perm d y _).trans (ih.cons y)
  have := (key xs.zipIdx).map (·.1)
  simpa [arrange, List.zipIdx_map_fst] using this

/-- The number that a search gives is not used and lies in the range searched. -/
theorem lowestFree_spec {used : List Nat} {i fuel k : Nat} (h : lowestFree used i fuel = some k) :
    k ∉ used ∧ i ≤ k ∧ k < i + fuel ∧ ∀ j, i ≤ j → j < k → j ∈ used := by
  induction fuel generalizing i with
  | zero => simp [lowestFree] at h
  | succ n ih =>
    simp only [lowestFree] at h
    split at h
    · rename_i hi
      obtain ⟨h1, h2, h3, h4⟩ := ih h
      refine ⟨h1, by omega, by omega, fun j hj hk => ?_⟩
      rcases Nat.eq_or_lt_of_le hj with rfl | hj
      · exact hi
      · exact h4 j hj hk
    · simp only [Option.some.injEq] at h
      subst h
      exact ⟨by assumption, by omega, by omega, fun j h1 h2 => by omega⟩

end Sys2Proof.Machine
end

