-- ==== Sys2Proof/Laws/State.lean ====
section
/-! SUPPORT. What every field and every accessor reads after each named update, so that no later proof unfolds a record
update; and the algebra of frames. -/
namespace Sys2Proof.Machine

variable (s : State)


/-! ### withCtx -/

@[simp] theorem State.withCtx_pending (x : ContextTable) : (s.withCtx x).pending = s.pending := rfl
@[simp] theorem State.withCtx_resetLine (x : ContextTable) : (s.withCtx x).resetLine = s.resetLine := rfl
@[simp] theorem State.withCtx_fwd (x : ContextTable) : (s.withCtx x).fwd = s.fwd := rfl
@[simp] theorem State.withCtx_bwd (x : ContextTable) : (s.withCtx x).bwd = s.bwd := rfl
@[simp] theorem State.withCtx_ctx (x : ContextTable) : (s.withCtx x).ctx = x := rfl
@[simp] theorem State.withCtx_circ (x : ContextTable) : (s.withCtx x).circ = s.circ := rfl
@[simp] theorem State.withCtx_routes (x : ContextTable) : (s.withCtx x).routes = s.routes := rfl
@[simp] theorem State.withCtx_mon (x : ContextTable) : (s.withCtx x).mon = s.mon := rfl
@[simp] theorem State.withCtx_tariffs (x : ContextTable) : (s.withCtx x).tariffs = s.tariffs := rfl
@[simp] theorem State.withCtx_rating (x : ContextTable) : (s.withCtx x).rating = s.rating := rfl
@[simp] theorem State.withCtx_settle (x : ContextTable) : (s.withCtx x).settle = s.settle := rfl
@[simp] theorem State.withCtx_time (x : ContextTable) : (s.withCtx x).time = s.time := rfl
@[simp] theorem State.withCtx_mgmt (x : ContextTable) : (s.withCtx x).mgmt = s.mgmt := rfl
@[simp] theorem State.withCtx_fwdOut (x : ContextTable) : (s.withCtx x).fwdOut = s.fwdOut := rfl
@[simp] theorem State.withCtx_bwdOut (x : ContextTable) : (s.withCtx x).bwdOut = s.bwdOut := rfl
@[simp] theorem State.withCtx_draws (x : ContextTable) : (s.withCtx x).draws = s.draws := rfl
@[simp] theorem State.withCtx_circuit (x : ContextTable) (k : Nat) : (s.withCtx x).circuit k = s.circuit k := rfl
@[simp] theorem State.withCtx_group (x : ContextTable) (g : Nat) : (s.withCtx x).group g = s.group g := rfl
@[simp] theorem State.withCtx_carrier (x : ContextTable) (c : Nat) : (s.withCtx x).carrier c = s.carrier c := rfl
@[simp] theorem State.withCtx_routeList (x : ContextTable) (l : Nat) : (s.withCtx x).routeList l = s.routeList l :=
  rfl
@[simp] theorem State.withCtx_thresholds (x : ContextTable) (n : Nat) : (s.withCtx x).thresholds n = s.thresholds n :=
  rfl
@[simp] theorem State.withCtx_timerOf (x : ContextTable) (n : Nat) : (s.withCtx x).timerOf n = s.timerOf n := rfl
@[simp] theorem State.withCtx_port (x : ContextTable) (p : Port) : (s.withCtx x).port p = s.port p :=
  by cases p <;> rfl

/-! ### withCirc -/

@[simp] theorem State.withCirc_pending (x : CircuitMap) : (s.withCirc x).pending = s.pending := rfl
@[simp] theorem State.withCirc_resetLine (x : CircuitMap) : (s.withCirc x).resetLine = s.resetLine := rfl
@[simp] theorem State.withCirc_fwd (x : CircuitMap) : (s.withCirc x).fwd = s.fwd := rfl
@[simp] theorem State.withCirc_bwd (x : CircuitMap) : (s.withCirc x).bwd = s.bwd := rfl
@[simp] theorem State.withCirc_ctx (x : CircuitMap) : (s.withCirc x).ctx = s.ctx := rfl
@[simp] theorem State.withCirc_circ (x : CircuitMap) : (s.withCirc x).circ = x := rfl
@[simp] theorem State.withCirc_routes (x : CircuitMap) : (s.withCirc x).routes = s.routes := rfl
@[simp] theorem State.withCirc_mon (x : CircuitMap) : (s.withCirc x).mon = s.mon := rfl
@[simp] theorem State.withCirc_tariffs (x : CircuitMap) : (s.withCirc x).tariffs = s.tariffs := rfl
@[simp] theorem State.withCirc_rating (x : CircuitMap) : (s.withCirc x).rating = s.rating := rfl
@[simp] theorem State.withCirc_settle (x : CircuitMap) : (s.withCirc x).settle = s.settle := rfl
@[simp] theorem State.withCirc_time (x : CircuitMap) : (s.withCirc x).time = s.time := rfl
@[simp] theorem State.withCirc_mgmt (x : CircuitMap) : (s.withCirc x).mgmt = s.mgmt := rfl
@[simp] theorem State.withCirc_fwdOut (x : CircuitMap) : (s.withCirc x).fwdOut = s.fwdOut := rfl
@[simp] theorem State.withCirc_bwdOut (x : CircuitMap) : (s.withCirc x).bwdOut = s.bwdOut := rfl
@[simp] theorem State.withCirc_draws (x : CircuitMap) : (s.withCirc x).draws = s.draws := rfl
@[simp] theorem State.withCirc_context (x : CircuitMap) (i : Nat) : (s.withCirc x).context i = s.context i := rfl
@[simp] theorem State.withCirc_lookupRef (x : CircuitMap) (r : Nat) : (s.withCirc x).lookupRef r = s.lookupRef r :=
  rfl
@[simp] theorem State.withCirc_carrier (x : CircuitMap) (c : Nat) : (s.withCirc x).carrier c = s.carrier c := rfl
@[simp] theorem State.withCirc_routeList (x : CircuitMap) (l : Nat) : (s.withCirc x).routeList l = s.routeList l :=
  rfl
@[simp] theorem State.withCirc_thresholds (x : CircuitMap) (n : Nat) : (s.withCirc x).thresholds n = s.thresholds n :=
  rfl
@[simp] theorem State.withCirc_timerOf (x : CircuitMap) (n : Nat) : (s.withCirc x).timerOf n = s.timerOf n := rfl
@[simp] theorem State.withCirc_port (x : CircuitMap) (p : Port) : (s.withCirc x).port p = s.port p :=
  by cases p <;> rfl

/-! ### withRoutes -/

@[simp] theorem State.withRoutes_pending (x : RouteSelector) : (s.withRoutes x).pending = s.pending := rfl
@[simp] theorem State.withRoutes_resetLine (x : RouteSelector) : (s.withRoutes x).resetLine = s.resetLine := rfl
@[simp] theorem State.withRoutes_fwd (x : RouteSelector) : (s.withRoutes x).fwd = s.fwd := rfl
@[simp] theorem State.withRoutes_bwd (x : RouteSelector) : (s.withRoutes x).bwd = s.bwd := rfl
@[simp] theorem State.withRoutes_ctx (x : RouteSelector) : (s.withRoutes x).ctx = s.ctx := rfl
@[simp] theorem State.withRoutes_circ (x : RouteSelector) : (s.withRoutes x).circ = s.circ := rfl
@[simp] theorem State.withRoutes_routes (x : RouteSelector) : (s.withRoutes x).routes = x := rfl
@[simp] theorem State.withRoutes_mon (x : RouteSelector) : (s.withRoutes x).mon = s.mon := rfl
@[simp] theorem State.withRoutes_tariffs (x : RouteSelector) : (s.withRoutes x).tariffs = s.tariffs := rfl
@[simp] theorem State.withRoutes_rating (x : RouteSelector) : (s.withRoutes x).rating = s.rating := rfl
@[simp] theorem State.withRoutes_settle (x : RouteSelector) : (s.withRoutes x).settle = s.settle := rfl
@[simp] theorem State.withRoutes_time (x : RouteSelector) : (s.withRoutes x).time = s.time := rfl
@[simp] theorem State.withRoutes_mgmt (x : RouteSelector) : (s.withRoutes x).mgmt = s.mgmt := rfl
@[simp] theorem State.withRoutes_fwdOut (x : RouteSelector) : (s.withRoutes x).fwdOut = s.fwdOut := rfl
@[simp] theorem State.withRoutes_bwdOut (x : RouteSelector) : (s.withRoutes x).bwdOut = s.bwdOut := rfl
@[simp] theorem State.withRoutes_draws (x : RouteSelector) : (s.withRoutes x).draws = s.draws := rfl
@[simp] theorem State.withRoutes_context (x : RouteSelector) (i : Nat) : (s.withRoutes x).context i = s.context i :=
  rfl
@[simp] theorem State.withRoutes_lookupRef (x : RouteSelector) (r : Nat) :
    (s.withRoutes x).lookupRef r = s.lookupRef r :=
  rfl
@[simp] theorem State.withRoutes_circuit (x : RouteSelector) (k : Nat) : (s.withRoutes x).circuit k = s.circuit k :=
  rfl
@[simp] theorem State.withRoutes_group (x : RouteSelector) (g : Nat) : (s.withRoutes x).group g = s.group g := rfl
@[simp] theorem State.withRoutes_carrier (x : RouteSelector) (c : Nat) : (s.withRoutes x).carrier c = s.carrier c :=
  rfl
@[simp] theorem State.withRoutes_thresholds (x : RouteSelector) (n : Nat) :
    (s.withRoutes x).thresholds n = s.thresholds n :=
  rfl
@[simp] theorem State.withRoutes_timerOf (x : RouteSelector) (n : Nat) : (s.withRoutes x).timerOf n = s.timerOf n :=
  rfl
@[simp] theorem State.withRoutes_port (x : RouteSelector) (p : Port) : (s.withRoutes x).port p = s.port p :=
  by cases p <;> rfl

/-! ### withMon -/

@[simp] theorem State.withMon_pending (x : OccupancyMonitor) : (s.withMon x).pending = s.pending := rfl
@[simp] theorem State.withMon_resetLine (x : OccupancyMonitor) : (s.withMon x).resetLine = s.resetLine := rfl
@[simp] theorem State.withMon_fwd (x : OccupancyMonitor) : (s.withMon x).fwd = s.fwd := rfl
@[simp] theorem State.withMon_bwd (x : OccupancyMonitor) : (s.withMon x).bwd = s.bwd := rfl
@[simp] theorem State.withMon_ctx (x : OccupancyMonitor) : (s.withMon x).ctx = s.ctx := rfl
@[simp] theorem State.withMon_circ (x : OccupancyMonitor) : (s.withMon x).circ = s.circ := rfl
@[simp] theorem State.withMon_routes (x : OccupancyMonitor) : (s.withMon x).routes = s.routes := rfl
@[simp] theorem State.withMon_mon (x : OccupancyMonitor) : (s.withMon x).mon = x := rfl
@[simp] theorem State.withMon_tariffs (x : OccupancyMonitor) : (s.withMon x).tariffs = s.tariffs := rfl
@[simp] theorem State.withMon_rating (x : OccupancyMonitor) : (s.withMon x).rating = s.rating := rfl
@[simp] theorem State.withMon_settle (x : OccupancyMonitor) : (s.withMon x).settle = s.settle := rfl
@[simp] theorem State.withMon_time (x : OccupancyMonitor) : (s.withMon x).time = s.time := rfl
@[simp] theorem State.withMon_mgmt (x : OccupancyMonitor) : (s.withMon x).mgmt = s.mgmt := rfl
@[simp] theorem State.withMon_fwdOut (x : OccupancyMonitor) : (s.withMon x).fwdOut = s.fwdOut := rfl
@[simp] theorem State.withMon_bwdOut (x : OccupancyMonitor) : (s.withMon x).bwdOut = s.bwdOut := rfl
@[simp] theorem State.withMon_draws (x : OccupancyMonitor) : (s.withMon x).draws = s.draws := rfl
@[simp] theorem State.withMon_context (x : OccupancyMonitor) (i : Nat) : (s.withMon x).context i = s.context i := rfl
@[simp] theorem State.withMon_lookupRef (x : OccupancyMonitor) (r : Nat) :
    (s.withMon x).lookupRef r = s.lookupRef r :=
  rfl
@[simp] theorem State.withMon_circuit (x : OccupancyMonitor) (k : Nat) : (s.withMon x).circuit k = s.circuit k := rfl
@[simp] theorem State.withMon_group (x : OccupancyMonitor) (g : Nat) : (s.withMon x).group g = s.group g := rfl
@[simp] theorem State.withMon_carrier (x : OccupancyMonitor) (c : Nat) : (s.withMon x).carrier c = s.carrier c := rfl
@[simp] theorem State.withMon_routeList (x : OccupancyMonitor) (l : Nat) :
    (s.withMon x).routeList l = s.routeList l :=
  rfl
@[simp] theorem State.withMon_timerOf (x : OccupancyMonitor) (n : Nat) : (s.withMon x).timerOf n = s.timerOf n := rfl
@[simp] theorem State.withMon_port (x : OccupancyMonitor) (p : Port) : (s.withMon x).port p = s.port p :=
  by cases p <;> rfl

/-! ### withTariffs -/

@[simp] theorem State.withTariffs_pending (x : TariffTable) : (s.withTariffs x).pending = s.pending := rfl
@[simp] theorem State.withTariffs_resetLine (x : TariffTable) : (s.withTariffs x).resetLine = s.resetLine := rfl
@[simp] theorem State.withTariffs_fwd (x : TariffTable) : (s.withTariffs x).fwd = s.fwd := rfl
@[simp] theorem State.withTariffs_bwd (x : TariffTable) : (s.withTariffs x).bwd = s.bwd := rfl
@[simp] theorem State.withTariffs_ctx (x : TariffTable) : (s.withTariffs x).ctx = s.ctx := rfl
@[simp] theorem State.withTariffs_circ (x : TariffTable) : (s.withTariffs x).circ = s.circ := rfl
@[simp] theorem State.withTariffs_routes (x : TariffTable) : (s.withTariffs x).routes = s.routes := rfl
@[simp] theorem State.withTariffs_mon (x : TariffTable) : (s.withTariffs x).mon = s.mon := rfl
@[simp] theorem State.withTariffs_tariffs (x : TariffTable) : (s.withTariffs x).tariffs = x := rfl
@[simp] theorem State.withTariffs_rating (x : TariffTable) : (s.withTariffs x).rating = s.rating := rfl
@[simp] theorem State.withTariffs_settle (x : TariffTable) : (s.withTariffs x).settle = s.settle := rfl
@[simp] theorem State.withTariffs_time (x : TariffTable) : (s.withTariffs x).time = s.time := rfl
@[simp] theorem State.withTariffs_mgmt (x : TariffTable) : (s.withTariffs x).mgmt = s.mgmt := rfl
@[simp] theorem State.withTariffs_fwdOut (x : TariffTable) : (s.withTariffs x).fwdOut = s.fwdOut := rfl
@[simp] theorem State.withTariffs_bwdOut (x : TariffTable) : (s.withTariffs x).bwdOut = s.bwdOut := rfl
@[simp] theorem State.withTariffs_draws (x : TariffTable) : (s.withTariffs x).draws = s.draws := rfl
@[simp] theorem State.withTariffs_context (x : TariffTable) (i : Nat) : (s.withTariffs x).context i = s.context i :=
  rfl
@[simp] theorem State.withTariffs_lookupRef (x : TariffTable) (r : Nat) :
    (s.withTariffs x).lookupRef r = s.lookupRef r :=
  rfl
@[simp] theorem State.withTariffs_circuit (x : TariffTable) (k : Nat) : (s.withTariffs x).circuit k = s.circuit k :=
  rfl
@[simp] theorem State.withTariffs_group (x : TariffTable) (g : Nat) : (s.withTariffs x).group g = s.group g := rfl
@[simp] theorem State.withTariffs_routeList (x : TariffTable) (l : Nat) :
    (s.withTariffs x).routeList l = s.routeList l :=
  rfl
@[simp] theorem State.withTariffs_thresholds (x : TariffTable) (n : Nat) :
    (s.withTariffs x).thresholds n = s.thresholds n :=
  rfl
@[simp] theorem State.withTariffs_timerOf (x : TariffTable) (n : Nat) : (s.withTariffs x).timerOf n = s.timerOf n :=
  rfl
@[simp] theorem State.withTariffs_port (x : TariffTable) (p : Port) : (s.withTariffs x).port p = s.port p :=
  by cases p <;> rfl

/-! ### withRating -/

@[simp] theorem State.withRating_pending (x : RatingCounters) : (s.withRating x).pending = s.pending := rfl
@[simp] theorem State.withRating_resetLine (x : RatingCounters) : (s.withRating x).resetLine = s.resetLine := rfl
@[simp] theorem State.withRating_fwd (x : RatingCounters) : (s.withRating x).fwd = s.fwd := rfl
@[simp] theorem State.withRating_bwd (x : RatingCounters) : (s.withRating x).bwd = s.bwd := rfl
@[simp] theorem State.withRating_ctx (x : RatingCounters) : (s.withRating x).ctx = s.ctx := rfl
@[simp] theorem State.withRating_circ (x : RatingCounters) : (s.withRating x).circ = s.circ := rfl
@[simp] theorem State.withRating_routes (x : RatingCounters) : (s.withRating x).routes = s.routes := rfl
@[simp] theorem State.withRating_mon (x : RatingCounters) : (s.withRating x).mon = s.mon := rfl
@[simp] theorem State.withRating_tariffs (x : RatingCounters) : (s.withRating x).tariffs = s.tariffs := rfl
@[simp] theorem State.withRating_rating (x : RatingCounters) : (s.withRating x).rating = x := rfl
@[simp] theorem State.withRating_settle (x : RatingCounters) : (s.withRating x).settle = s.settle := rfl
@[simp] theorem State.withRating_time (x : RatingCounters) : (s.withRating x).time = s.time := rfl
@[simp] theorem State.withRating_mgmt (x : RatingCounters) : (s.withRating x).mgmt = s.mgmt := rfl
@[simp] theorem State.withRating_fwdOut (x : RatingCounters) : (s.withRating x).fwdOut = s.fwdOut := rfl
@[simp] theorem State.withRating_bwdOut (x : RatingCounters) : (s.withRating x).bwdOut = s.bwdOut := rfl
@[simp] theorem State.withRating_draws (x : RatingCounters) : (s.withRating x).draws = s.draws := rfl
@[simp] theorem State.withRating_context (x : RatingCounters) (i : Nat) : (s.withRating x).context i = s.context i :=
  rfl
@[simp] theorem State.withRating_lookupRef (x : RatingCounters) (r : Nat) :
    (s.withRating x).lookupRef r = s.lookupRef r :=
  rfl
@[simp] theorem State.withRating_circuit (x : RatingCounters) (k : Nat) : (s.withRating x).circuit k = s.circuit k :=
  rfl
@[simp] theorem State.withRating_group (x : RatingCounters) (g : Nat) : (s.withRating x).group g = s.group g := rfl
@[simp] theorem State.withRating_carrier (x : RatingCounters) (c : Nat) : (s.withRating x).carrier c = s.carrier c :=
  rfl
@[simp] theorem State.withRating_routeList (x : RatingCounters) (l : Nat) :
    (s.withRating x).routeList l = s.routeList l :=
  rfl
@[simp] theorem State.withRating_thresholds (x : RatingCounters) (n : Nat) :
    (s.withRating x).thresholds n = s.thresholds n :=
  rfl
@[simp] theorem State.withRating_timerOf (x : RatingCounters) (n : Nat) : (s.withRating x).timerOf n = s.timerOf n :=
  rfl
@[simp] theorem State.withRating_port (x : RatingCounters) (p : Port) : (s.withRating x).port p = s.port p :=
  by cases p <;> rfl

/-! ### withSettle -/

@[simp] theorem State.withSettle_pending (x : SettlementQueue) : (s.withSettle x).pending = s.pending := rfl
@[simp] theorem State.withSettle_resetLine (x : SettlementQueue) : (s.withSettle x).resetLine = s.resetLine := rfl
@[simp] theorem State.withSettle_fwd (x : SettlementQueue) : (s.withSettle x).fwd = s.fwd := rfl
@[simp] theorem State.withSettle_bwd (x : SettlementQueue) : (s.withSettle x).bwd = s.bwd := rfl
@[simp] theorem State.withSettle_ctx (x : SettlementQueue) : (s.withSettle x).ctx = s.ctx := rfl
@[simp] theorem State.withSettle_circ (x : SettlementQueue) : (s.withSettle x).circ = s.circ := rfl
@[simp] theorem State.withSettle_routes (x : SettlementQueue) : (s.withSettle x).routes = s.routes := rfl
@[simp] theorem State.withSettle_mon (x : SettlementQueue) : (s.withSettle x).mon = s.mon := rfl
@[simp] theorem State.withSettle_tariffs (x : SettlementQueue) : (s.withSettle x).tariffs = s.tariffs := rfl
@[simp] theorem State.withSettle_rating (x : SettlementQueue) : (s.withSettle x).rating = s.rating := rfl
@[simp] theorem State.withSettle_settle (x : SettlementQueue) : (s.withSettle x).settle = x := rfl
@[simp] theorem State.withSettle_time (x : SettlementQueue) : (s.withSettle x).time = s.time := rfl
@[simp] theorem State.withSettle_mgmt (x : SettlementQueue) : (s.withSettle x).mgmt = s.mgmt := rfl
@[simp] theorem State.withSettle_fwdOut (x : SettlementQueue) : (s.withSettle x).fwdOut = s.fwdOut := rfl
@[simp] theorem State.withSettle_bwdOut (x : SettlementQueue) : (s.withSettle x).bwdOut = s.bwdOut := rfl
@[simp] theorem State.withSettle_draws (x : SettlementQueue) : (s.withSettle x).draws = s.draws := rfl
@[simp] theorem State.withSettle_context (x : SettlementQueue) (i : Nat) : (s.withSettle x).context i = s.context i :=
  rfl
@[simp] theorem State.withSettle_lookupRef (x : SettlementQueue) (r : Nat) :
    (s.withSettle x).lookupRef r = s.lookupRef r :=
  rfl
@[simp] theorem State.withSettle_circuit (x : SettlementQueue) (k : Nat) : (s.withSettle x).circuit k = s.circuit k :=
  rfl
@[simp] theorem State.withSettle_group (x : SettlementQueue) (g : Nat) : (s.withSettle x).group g = s.group g := rfl
@[simp] theorem State.withSettle_carrier (x : SettlementQueue) (c : Nat) : (s.withSettle x).carrier c = s.carrier c :=
  rfl
@[simp] theorem State.withSettle_routeList (x : SettlementQueue) (l : Nat) :
    (s.withSettle x).routeList l = s.routeList l :=
  rfl
@[simp] theorem State.withSettle_thresholds (x : SettlementQueue) (n : Nat) :
    (s.withSettle x).thresholds n = s.thresholds n :=
  rfl
@[simp] theorem State.withSettle_timerOf (x : SettlementQueue) (n : Nat) : (s.withSettle x).timerOf n = s.timerOf n :=
  rfl
@[simp] theorem State.withSettle_port (x : SettlementQueue) (p : Port) : (s.withSettle x).port p = s.port p :=
  by cases p <;> rfl

/-! ### withTime -/

@[simp] theorem State.withTime_pending (x : TimeBase) : (s.withTime x).pending = s.pending := rfl
@[simp] theorem State.withTime_resetLine (x : TimeBase) : (s.withTime x).resetLine = s.resetLine := rfl
@[simp] theorem State.withTime_fwd (x : TimeBase) : (s.withTime x).fwd = s.fwd := rfl
@[simp] theorem State.withTime_bwd (x : TimeBase) : (s.withTime x).bwd = s.bwd := rfl
@[simp] theorem State.withTime_ctx (x : TimeBase) : (s.withTime x).ctx = s.ctx := rfl
@[simp] theorem State.withTime_circ (x : TimeBase) : (s.withTime x).circ = s.circ := rfl
@[simp] theorem State.withTime_routes (x : TimeBase) : (s.withTime x).routes = s.routes := rfl
@[simp] theorem State.withTime_mon (x : TimeBase) : (s.withTime x).mon = s.mon := rfl
@[simp] theorem State.withTime_tariffs (x : TimeBase) : (s.withTime x).tariffs = s.tariffs := rfl
@[simp] theorem State.withTime_rating (x : TimeBase) : (s.withTime x).rating = s.rating := rfl
@[simp] theorem State.withTime_settle (x : TimeBase) : (s.withTime x).settle = s.settle := rfl
@[simp] theorem State.withTime_time (x : TimeBase) : (s.withTime x).time = x := rfl
@[simp] theorem State.withTime_mgmt (x : TimeBase) : (s.withTime x).mgmt = s.mgmt := rfl
@[simp] theorem State.withTime_fwdOut (x : TimeBase) : (s.withTime x).fwdOut = s.fwdOut := rfl
@[simp] theorem State.withTime_bwdOut (x : TimeBase) : (s.withTime x).bwdOut = s.bwdOut := rfl
@[simp] theorem State.withTime_draws (x : TimeBase) : (s.withTime x).draws = s.draws := rfl
@[simp] theorem State.withTime_context (x : TimeBase) (i : Nat) : (s.withTime x).context i = s.context i := rfl
@[simp] theorem State.withTime_lookupRef (x : TimeBase) (r : Nat) : (s.withTime x).lookupRef r = s.lookupRef r := rfl
@[simp] theorem State.withTime_circuit (x : TimeBase) (k : Nat) : (s.withTime x).circuit k = s.circuit k := rfl
@[simp] theorem State.withTime_group (x : TimeBase) (g : Nat) : (s.withTime x).group g = s.group g := rfl
@[simp] theorem State.withTime_carrier (x : TimeBase) (c : Nat) : (s.withTime x).carrier c = s.carrier c := rfl
@[simp] theorem State.withTime_routeList (x : TimeBase) (l : Nat) : (s.withTime x).routeList l = s.routeList l := rfl
@[simp] theorem State.withTime_thresholds (x : TimeBase) (n : Nat) : (s.withTime x).thresholds n = s.thresholds n :=
  rfl
@[simp] theorem State.withTime_port (x : TimeBase) (p : Port) : (s.withTime x).port p = s.port p := by cases p <;> rfl

/-! ### withMgmt -/

@[simp] theorem State.withMgmt_pending (x : ManagementAgent) : (s.withMgmt x).pending = s.pending := rfl
@[simp] theorem State.withMgmt_resetLine (x : ManagementAgent) : (s.withMgmt x).resetLine = s.resetLine := rfl
@[simp] theorem State.withMgmt_fwd (x : ManagementAgent) : (s.withMgmt x).fwd = s.fwd := rfl
@[simp] theorem State.withMgmt_bwd (x : ManagementAgent) : (s.withMgmt x).bwd = s.bwd := rfl
@[simp] theorem State.withMgmt_ctx (x : ManagementAgent) : (s.withMgmt x).ctx = s.ctx := rfl
@[simp] theorem State.withMgmt_circ (x : ManagementAgent) : (s.withMgmt x).circ = s.circ := rfl
@[simp] theorem State.withMgmt_routes (x : ManagementAgent) : (s.withMgmt x).routes = s.routes := rfl
@[simp] theorem State.withMgmt_mon (x : ManagementAgent) : (s.withMgmt x).mon = s.mon := rfl
@[simp] theorem State.withMgmt_tariffs (x : ManagementAgent) : (s.withMgmt x).tariffs = s.tariffs := rfl
@[simp] theorem State.withMgmt_rating (x : ManagementAgent) : (s.withMgmt x).rating = s.rating := rfl
@[simp] theorem State.withMgmt_settle (x : ManagementAgent) : (s.withMgmt x).settle = s.settle := rfl
@[simp] theorem State.withMgmt_time (x : ManagementAgent) : (s.withMgmt x).time = s.time := rfl
@[simp] theorem State.withMgmt_mgmt (x : ManagementAgent) : (s.withMgmt x).mgmt = x := rfl
@[simp] theorem State.withMgmt_fwdOut (x : ManagementAgent) : (s.withMgmt x).fwdOut = s.fwdOut := rfl
@[simp] theorem State.withMgmt_bwdOut (x : ManagementAgent) : (s.withMgmt x).bwdOut = s.bwdOut := rfl
@[simp] theorem State.withMgmt_draws (x : ManagementAgent) : (s.withMgmt x).draws = s.draws := rfl
@[simp] theorem State.withMgmt_context (x : ManagementAgent) (i : Nat) : (s.withMgmt x).context i = s.context i := rfl
@[simp] theorem State.withMgmt_lookupRef (x : ManagementAgent) (r : Nat) :
    (s.withMgmt x).lookupRef r = s.lookupRef r :=
  rfl
@[simp] theorem State.withMgmt_circuit (x : ManagementAgent) (k : Nat) : (s.withMgmt x).circuit k = s.circuit k := rfl
@[simp] theorem State.withMgmt_group (x : ManagementAgent) (g : Nat) : (s.withMgmt x).group g = s.group g := rfl
@[simp] theorem State.withMgmt_carrier (x : ManagementAgent) (c : Nat) : (s.withMgmt x).carrier c = s.carrier c := rfl
@[simp] theorem State.withMgmt_routeList (x : ManagementAgent) (l : Nat) :
    (s.withMgmt x).routeList l = s.routeList l :=
  rfl
@[simp] theorem State.withMgmt_thresholds (x : ManagementAgent) (n : Nat) :
    (s.withMgmt x).thresholds n = s.thresholds n :=
  rfl
@[simp] theorem State.withMgmt_timerOf (x : ManagementAgent) (n : Nat) : (s.withMgmt x).timerOf n = s.timerOf n := rfl
@[simp] theorem State.withMgmt_port (x : ManagementAgent) (p : Port) : (s.withMgmt x).port p = s.port p :=
  by cases p <;> rfl

/-! ### Emission -/

@[simp] theorem State.emitFwd_pending (m : OutMsg) : (s.emitFwd m).pending = s.pending := rfl
@[simp] theorem State.emitFwd_resetLine (m : OutMsg) : (s.emitFwd m).resetLine = s.resetLine := rfl
@[simp] theorem State.emitFwd_fwd (m : OutMsg) : (s.emitFwd m).fwd = s.fwd := rfl
@[simp] theorem State.emitFwd_bwd (m : OutMsg) : (s.emitFwd m).bwd = s.bwd := rfl
@[simp] theorem State.emitFwd_ctx (m : OutMsg) : (s.emitFwd m).ctx = s.ctx := rfl
@[simp] theorem State.emitFwd_circ (m : OutMsg) : (s.emitFwd m).circ = s.circ := rfl
@[simp] theorem State.emitFwd_routes (m : OutMsg) : (s.emitFwd m).routes = s.routes := rfl
@[simp] theorem State.emitFwd_mon (m : OutMsg) : (s.emitFwd m).mon = s.mon := rfl
@[simp] theorem State.emitFwd_tariffs (m : OutMsg) : (s.emitFwd m).tariffs = s.tariffs := rfl
@[simp] theorem State.emitFwd_rating (m : OutMsg) : (s.emitFwd m).rating = s.rating := rfl
@[simp] theorem State.emitFwd_settle (m : OutMsg) : (s.emitFwd m).settle = s.settle := rfl
@[simp] theorem State.emitFwd_time (m : OutMsg) : (s.emitFwd m).time = s.time := rfl
@[simp] theorem State.emitFwd_mgmt (m : OutMsg) : (s.emitFwd m).mgmt = s.mgmt := rfl
@[simp] theorem State.emitFwd_fwdOut (m : OutMsg) : (s.emitFwd m).fwdOut = s.fwdOut ++ [m] := rfl
@[simp] theorem State.emitFwd_bwdOut (m : OutMsg) : (s.emitFwd m).bwdOut = s.bwdOut := rfl
@[simp] theorem State.emitFwd_draws (m : OutMsg) : (s.emitFwd m).draws = s.draws := rfl
@[simp] theorem State.emitFwd_context (m : OutMsg) (i : Nat) : (s.emitFwd m).context i = s.context i := rfl
@[simp] theorem State.emitFwd_lookupRef (m : OutMsg) (r : Nat) : (s.emitFwd m).lookupRef r = s.lookupRef r := rfl
@[simp] theorem State.emitFwd_circuit (m : OutMsg) (k : Nat) : (s.emitFwd m).circuit k = s.circuit k := rfl
@[simp] theorem State.emitFwd_group (m : OutMsg) (g : Nat) : (s.emitFwd m).group g = s.group g := rfl
@[simp] theorem State.emitFwd_carrier (m : OutMsg) (c : Nat) : (s.emitFwd m).carrier c = s.carrier c := rfl
@[simp] theorem State.emitFwd_routeList (m : OutMsg) (l : Nat) : (s.emitFwd m).routeList l = s.routeList l := rfl
@[simp] theorem State.emitFwd_thresholds (m : OutMsg) (n : Nat) : (s.emitFwd m).thresholds n = s.thresholds n := rfl
@[simp] theorem State.emitFwd_timerOf (m : OutMsg) (n : Nat) : (s.emitFwd m).timerOf n = s.timerOf n := rfl
@[simp] theorem State.emitFwd_port (m : OutMsg) (p : Port) : (s.emitFwd m).port p = s.port p := by cases p <;> rfl
@[simp] theorem State.emitBwd_pending (m : OutMsg) : (s.emitBwd m).pending = s.pending := rfl
@[simp] theorem State.emitBwd_resetLine (m : OutMsg) : (s.emitBwd m).resetLine = s.resetLine := rfl
@[simp] theorem State.emitBwd_fwd (m : OutMsg) : (s.emitBwd m).fwd = s.fwd := rfl
@[simp] theorem State.emitBwd_bwd (m : OutMsg) : (s.emitBwd m).bwd = s.bwd := rfl
@[simp] theorem State.emitBwd_ctx (m : OutMsg) : (s.emitBwd m).ctx = s.ctx := rfl
@[simp] theorem State.emitBwd_circ (m : OutMsg) : (s.emitBwd m).circ = s.circ := rfl
@[simp] theorem State.emitBwd_routes (m : OutMsg) : (s.emitBwd m).routes = s.routes := rfl
@[simp] theorem State.emitBwd_mon (m : OutMsg) : (s.emitBwd m).mon = s.mon := rfl
@[simp] theorem State.emitBwd_tariffs (m : OutMsg) : (s.emitBwd m).tariffs = s.tariffs := rfl
@[simp] theorem State.emitBwd_rating (m : OutMsg) : (s.emitBwd m).rating = s.rating := rfl
@[simp] theorem State.emitBwd_settle (m : OutMsg) : (s.emitBwd m).settle = s.settle := rfl
@[simp] theorem State.emitBwd_time (m : OutMsg) : (s.emitBwd m).time = s.time := rfl
@[simp] theorem State.emitBwd_mgmt (m : OutMsg) : (s.emitBwd m).mgmt = s.mgmt := rfl
@[simp] theorem State.emitBwd_fwdOut (m : OutMsg) : (s.emitBwd m).fwdOut = s.fwdOut := rfl
@[simp] theorem State.emitBwd_bwdOut (m : OutMsg) : (s.emitBwd m).bwdOut = s.bwdOut ++ [m] := rfl
@[simp] theorem State.emitBwd_draws (m : OutMsg) : (s.emitBwd m).draws = s.draws := rfl
@[simp] theorem State.emitBwd_context (m : OutMsg) (i : Nat) : (s.emitBwd m).context i = s.context i := rfl
@[simp] theorem State.emitBwd_lookupRef (m : OutMsg) (r : Nat) : (s.emitBwd m).lookupRef r = s.lookupRef r := rfl
@[simp] theorem State.emitBwd_circuit (m : OutMsg) (k : Nat) : (s.emitBwd m).circuit k = s.circuit k := rfl
@[simp] theorem State.emitBwd_group (m : OutMsg) (g : Nat) : (s.emitBwd m).group g = s.group g := rfl
@[simp] theorem State.emitBwd_carrier (m : OutMsg) (c : Nat) : (s.emitBwd m).carrier c = s.carrier c := rfl
@[simp] theorem State.emitBwd_routeList (m : OutMsg) (l : Nat) : (s.emitBwd m).routeList l = s.routeList l := rfl
@[simp] theorem State.emitBwd_thresholds (m : OutMsg) (n : Nat) : (s.emitBwd m).thresholds n = s.thresholds n := rfl
@[simp] theorem State.emitBwd_timerOf (m : OutMsg) (n : Nat) : (s.emitBwd m).timerOf n = s.timerOf n := rfl
@[simp] theorem State.emitBwd_port (m : OutMsg) (p : Port) : (s.emitBwd m).port p = s.port p := by cases p <;> rfl
@[simp] theorem State.notify_pending (t : ExTime) (n : Notice) : (s.notify t n).pending = s.pending := rfl
@[simp] theorem State.notify_resetLine (t : ExTime) (n : Notice) : (s.notify t n).resetLine = s.resetLine := rfl
@[simp] theorem State.notify_fwd (t : ExTime) (n : Notice) : (s.notify t n).fwd = s.fwd := rfl
@[simp] theorem State.notify_bwd (t : ExTime) (n : Notice) : (s.notify t n).bwd = s.bwd := rfl
@[simp] theorem State.notify_ctx (t : ExTime) (n : Notice) : (s.notify t n).ctx = s.ctx := rfl
@[simp] theorem State.notify_circ (t : ExTime) (n : Notice) : (s.notify t n).circ = s.circ := rfl
@[simp] theorem State.notify_routes (t : ExTime) (n : Notice) : (s.notify t n).routes = s.routes := rfl
@[simp] theorem State.notify_mon (t : ExTime) (n : Notice) : (s.notify t n).mon = s.mon := rfl
@[simp] theorem State.notify_tariffs (t : ExTime) (n : Notice) : (s.notify t n).tariffs = s.tariffs := rfl
@[simp] theorem State.notify_rating (t : ExTime) (n : Notice) : (s.notify t n).rating = s.rating := rfl
@[simp] theorem State.notify_settle (t : ExTime) (n : Notice) : (s.notify t n).settle = s.settle := rfl
@[simp] theorem State.notify_time (t : ExTime) (n : Notice) : (s.notify t n).time = s.time := rfl
@[simp] theorem State.notify_mgmt (t : ExTime) (n : Notice) : (s.notify t n).mgmt = s.mgmt := rfl
@[simp] theorem State.notify_fwdOut (t : ExTime) (n : Notice) : (s.notify t n).fwdOut = s.fwdOut := rfl
@[simp] theorem State.notify_bwdOut (t : ExTime) (n : Notice) : (s.notify t n).bwdOut = s.bwdOut ++ [.notice t n] :=
  rfl
@[simp] theorem State.notify_draws (t : ExTime) (n : Notice) : (s.notify t n).draws = s.draws := rfl
@[simp] theorem State.notify_context (t : ExTime) (n : Notice) (i : Nat) : (s.notify t n).context i = s.context i :=
  rfl
@[simp] theorem State.notify_lookupRef (t : ExTime) (n : Notice) (r : Nat) :
    (s.notify t n).lookupRef r = s.lookupRef r :=
  rfl
@[simp] theorem State.notify_circuit (t : ExTime) (n : Notice) (k : Nat) : (s.notify t n).circuit k = s.circuit k :=
  rfl
@[simp] theorem State.notify_group (t : ExTime) (n : Notice) (g : Nat) : (s.notify t n).group g = s.group g := rfl
@[simp] theorem State.notify_carrier (t : ExTime) (n : Notice) (c : Nat) : (s.notify t n).carrier c = s.carrier c :=
  rfl
@[simp] theorem State.notify_routeList (t : ExTime) (n : Notice) (l : Nat) :
    (s.notify t n).routeList l = s.routeList l :=
  rfl
@[simp] theorem State.notify_thresholds (t : ExTime) (n : Notice) (n' : Nat) :
    (s.notify t n).thresholds n' = s.thresholds n' :=
  rfl
@[simp] theorem State.notify_timerOf (t : ExTime) (n : Notice) (n' : Nat) :
    (s.notify t n).timerOf n' = s.timerOf n' :=
  rfl
@[simp] theorem State.notify_port (t : ExTime) (n : Notice) (p : Port) : (s.notify t n).port p = s.port p :=
  by cases p <;> rfl

/-! ### Ports -/

@[simp] theorem State.withPort_pending (p : Port) (x : PortState) : (s.withPort p x).pending = s.pending :=
  by cases p <;> rfl
@[simp] theorem State.withPort_resetLine (p : Port) (x : PortState) : (s.withPort p x).resetLine = s.resetLine :=
  by cases p <;> rfl
@[simp] theorem State.withPort_ctx (p : Port) (x : PortState) : (s.withPort p x).ctx = s.ctx := by cases p <;> rfl
@[simp] theorem State.withPort_circ (p : Port) (x : PortState) : (s.withPort p x).circ = s.circ := by cases p <;> rfl
@[simp] theorem State.withPort_routes (p : Port) (x : PortState) : (s.withPort p x).routes = s.routes :=
  by cases p <;> rfl
@[simp] theorem State.withPort_mon (p : Port) (x : PortState) : (s.withPort p x).mon = s.mon := by cases p <;> rfl
@[simp] theorem State.withPort_tariffs (p : Port) (x : PortState) : (s.withPort p x).tariffs = s.tariffs :=
  by cases p <;> rfl
@[simp] theorem State.withPort_rating (p : Port) (x : PortState) : (s.withPort p x).rating = s.rating :=
  by cases p <;> rfl
@[simp] theorem State.withPort_settle (p : Port) (x : PortState) : (s.withPort p x).settle = s.settle :=
  by cases p <;> rfl
@[simp] theorem State.withPort_time (p : Port) (x : PortState) : (s.withPort p x).time = s.time := by cases p <;> rfl
@[simp] theorem State.withPort_mgmt (p : Port) (x : PortState) : (s.withPort p x).mgmt = s.mgmt := by cases p <;> rfl
@[simp] theorem State.withPort_fwdOut (p : Port) (x : PortState) : (s.withPort p x).fwdOut = s.fwdOut :=
  by cases p <;> rfl
@[simp] theorem State.withPort_bwdOut (p : Port) (x : PortState) : (s.withPort p x).bwdOut = s.bwdOut :=
  by cases p <;> rfl
@[simp] theorem State.withPort_draws (p : Port) (x : PortState) : (s.withPort p x).draws = s.draws :=
  by cases p <;> rfl
@[simp] theorem State.withPort_context (p : Port) (x : PortState) (i : Nat) :
    (s.withPort p x).context i = s.context i :=
  by cases p <;> rfl
@[simp] theorem State.withPort_lookupRef (p : Port) (x : PortState) (r : Nat) :
    (s.withPort p x).lookupRef r = s.lookupRef r :=
  by cases p <;> rfl
@[simp] theorem State.withPort_circuit (p : Port) (x : PortState) (k : Nat) :
    (s.withPort p x).circuit k = s.circuit k :=
  by cases p <;> rfl
@[simp] theorem State.withPort_group (p : Port) (x : PortState) (g : Nat) : (s.withPort p x).group g = s.group g :=
  by cases p <;> rfl
@[simp] theorem State.withPort_carrier (p : Port) (x : PortState) (c : Nat) :
    (s.withPort p x).carrier c = s.carrier c :=
  by cases p <;> rfl
@[simp] theorem State.withPort_routeList (p : Port) (x : PortState) (l : Nat) :
    (s.withPort p x).routeList l = s.routeList l :=
  by cases p <;> rfl
@[simp] theorem State.withPort_thresholds (p : Port) (x : PortState) (n : Nat) :
    (s.withPort p x).thresholds n = s.thresholds n :=
  by cases p <;> rfl
@[simp] theorem State.withPort_timerOf (p : Port) (x : PortState) (n : Nat) :
    (s.withPort p x).timerOf n = s.timerOf n :=
  by cases p <;> rfl
@[simp] theorem State.withPort_port (p : Port) (x : PortState) : (s.withPort p x).port p = x := by cases p <;> rfl
@[simp] theorem State.withPort_forward_fwd (x : PortState) : (s.withPort .forward x).fwd = x := rfl
@[simp] theorem State.withPort_forward_bwd (x : PortState) : (s.withPort .forward x).bwd = s.bwd := rfl
@[simp] theorem State.withPort_backward_bwd (x : PortState) : (s.withPort .backward x).bwd = x := rfl
@[simp] theorem State.withPort_backward_fwd (x : PortState) : (s.withPort .backward x).fwd = s.fwd := rfl

/-! ### Updates of one entry -/


@[simp] theorem State.updContext_pending (i : Nat) (f : Context → Context) : (s.updContext i f).pending = s.pending :=
  rfl
@[simp] theorem State.updContext_resetLine (i : Nat) (f : Context → Context) :
    (s.updContext i f).resetLine = s.resetLine :=
  rfl
@[simp] theorem State.updContext_fwd (i : Nat) (f : Context → Context) : (s.updContext i f).fwd = s.fwd := rfl
@[simp] theorem State.updContext_bwd (i : Nat) (f : Context → Context) : (s.updContext i f).bwd = s.bwd := rfl
@[simp] theorem State.updContext_circ (i : Nat) (f : Context → Context) : (s.updContext i f).circ = s.circ := rfl
@[simp] theorem State.updContext_routes (i : Nat) (f : Context → Context) : (s.updContext i f).routes = s.routes :=
  rfl
@[simp] theorem State.updContext_mon (i : Nat) (f : Context → Context) : (s.updContext i f).mon = s.mon := rfl
@[simp] theorem State.updContext_tariffs (i : Nat) (f : Context → Context) : (s.updContext i f).tariffs = s.tariffs :=
  rfl
@[simp] theorem State.updContext_rating (i : Nat) (f : Context → Context) : (s.updContext i f).rating = s.rating :=
  rfl
@[simp] theorem State.updContext_settle (i : Nat) (f : Context → Context) : (s.updContext i f).settle = s.settle :=
  rfl
@[simp] theorem State.updContext_time (i : Nat) (f : Context → Context) : (s.updContext i f).time = s.time := rfl
@[simp] theorem State.updContext_mgmt (i : Nat) (f : Context → Context) : (s.updContext i f).mgmt = s.mgmt := rfl
@[simp] theorem State.updContext_fwdOut (i : Nat) (f : Context → Context) : (s.updContext i f).fwdOut = s.fwdOut :=
  rfl
@[simp] theorem State.updContext_bwdOut (i : Nat) (f : Context → Context) : (s.updContext i f).bwdOut = s.bwdOut :=
  rfl
@[simp] theorem State.updContext_draws (i : Nat) (f : Context → Context) : (s.updContext i f).draws = s.draws := rfl
@[simp] theorem State.updContext_circuit (i : Nat) (f : Context → Context) (k : Nat) :
    (s.updContext i f).circuit k = s.circuit k :=
  rfl
@[simp] theorem State.updContext_group (i : Nat) (f : Context → Context) (g : Nat) :
    (s.updContext i f).group g = s.group g :=
  rfl
@[simp] theorem State.updContext_carrier (i : Nat) (f : Context → Context) (c : Nat) :
    (s.updContext i f).carrier c = s.carrier c :=
  rfl
@[simp] theorem State.updContext_routeList (i : Nat) (f : Context → Context) (l : Nat) :
    (s.updContext i f).routeList l = s.routeList l :=
  rfl
@[simp] theorem State.updContext_thresholds (i : Nat) (f : Context → Context) (n : Nat) :
    (s.updContext i f).thresholds n = s.thresholds n :=
  rfl
@[simp] theorem State.updContext_timerOf (i : Nat) (f : Context → Context) (n : Nat) :
    (s.updContext i f).timerOf n = s.timerOf n :=
  rfl
@[simp] theorem State.updContext_port (i : Nat) (f : Context → Context) (p : Port) :
    (s.updContext i f).port p = s.port p :=
  by cases p <;> rfl

@[simp] theorem State.updGroup_pending (g : Nat) (f : Group → Group) : (s.updGroup g f).pending = s.pending := rfl
@[simp] theorem State.updGroup_resetLine (g : Nat) (f : Group → Group) : (s.updGroup g f).resetLine = s.resetLine :=
  rfl
@[simp] theorem State.updGroup_fwd (g : Nat) (f : Group → Group) : (s.updGroup g f).fwd = s.fwd := rfl
@[simp] theorem State.updGroup_bwd (g : Nat) (f : Group → Group) : (s.updGroup g f).bwd = s.bwd := rfl
@[simp] theorem State.updGroup_ctx (g : Nat) (f : Group → Group) : (s.updGroup g f).ctx = s.ctx := rfl
@[simp] theorem State.updGroup_routes (g : Nat) (f : Group → Group) : (s.updGroup g f).routes = s.routes := rfl
@[simp] theorem State.updGroup_mon (g : Nat) (f : Group → Group) : (s.updGroup g f).mon = s.mon := rfl
@[simp] theorem State.updGroup_tariffs (g : Nat) (f : Group → Group) : (s.updGroup g f).tariffs = s.tariffs := rfl
@[simp] theorem State.updGroup_rating (g : Nat) (f : Group → Group) : (s.updGroup g f).rating = s.rating := rfl
@[simp] theorem State.updGroup_settle (g : Nat) (f : Group → Group) : (s.updGroup g f).settle = s.settle := rfl
@[simp] theorem State.updGroup_time (g : Nat) (f : Group → Group) : (s.updGroup g f).time = s.time := rfl
@[simp] theorem State.updGroup_mgmt (g : Nat) (f : Group → Group) : (s.updGroup g f).mgmt = s.mgmt := rfl
@[simp] theorem State.updGroup_fwdOut (g : Nat) (f : Group → Group) : (s.updGroup g f).fwdOut = s.fwdOut := rfl
@[simp] theorem State.updGroup_bwdOut (g : Nat) (f : Group → Group) : (s.updGroup g f).bwdOut = s.bwdOut := rfl
@[simp] theorem State.updGroup_draws (g : Nat) (f : Group → Group) : (s.updGroup g f).draws = s.draws := rfl
@[simp] theorem State.updGroup_context (g : Nat) (f : Group → Group) (i : Nat) :
    (s.updGroup g f).context i = s.context i :=
  rfl
@[simp] theorem State.updGroup_lookupRef (g : Nat) (f : Group → Group) (r : Nat) :
    (s.updGroup g f).lookupRef r = s.lookupRef r :=
  rfl
@[simp] theorem State.updGroup_carrier (g : Nat) (f : Group → Group) (c : Nat) :
    (s.updGroup g f).carrier c = s.carrier c :=
  rfl
@[simp] theorem State.updGroup_routeList (g : Nat) (f : Group → Group) (l : Nat) :
    (s.updGroup g f).routeList l = s.routeList l :=
  rfl
@[simp] theorem State.updGroup_thresholds (g : Nat) (f : Group → Group) (n : Nat) :
    (s.updGroup g f).thresholds n = s.thresholds n :=
  rfl
@[simp] theorem State.updGroup_timerOf (g : Nat) (f : Group → Group) (n : Nat) :
    (s.updGroup g f).timerOf n = s.timerOf n :=
  rfl
@[simp] theorem State.updGroup_port (g : Nat) (f : Group → Group) (p : Port) : (s.updGroup g f).port p = s.port p :=
  by cases p <;> rfl

@[simp] theorem State.updMonitor_pending (g : Nat) (f : GroupMonitor → GroupMonitor) :
    (s.updMonitor g f).pending = s.pending :=
  rfl
@[simp] theorem State.updMonitor_resetLine (g : Nat) (f : GroupMonitor → GroupMonitor) :
    (s.updMonitor g f).resetLine = s.resetLine :=
  rfl
@[simp] theorem State.updMonitor_fwd (g : Nat) (f : GroupMonitor → GroupMonitor) : (s.updMonitor g f).fwd = s.fwd :=
  rfl
@[simp] theorem State.updMonitor_bwd (g : Nat) (f : GroupMonitor → GroupMonitor) : (s.updMonitor g f).bwd = s.bwd :=
  rfl
@[simp] theorem State.updMonitor_ctx (g : Nat) (f : GroupMonitor → GroupMonitor) : (s.updMonitor g f).ctx = s.ctx :=
  rfl
@[simp] theorem State.updMonitor_routes (g : Nat) (f : GroupMonitor → GroupMonitor) :
    (s.updMonitor g f).routes = s.routes :=
  rfl
@[simp] theorem State.updMonitor_mon (g : Nat) (f : GroupMonitor → GroupMonitor) : (s.updMonitor g f).mon = s.mon :=
  rfl
@[simp] theorem State.updMonitor_tariffs (g : Nat) (f : GroupMonitor → GroupMonitor) :
    (s.updMonitor g f).tariffs = s.tariffs :=
  rfl
@[simp] theorem State.updMonitor_rating (g : Nat) (f : GroupMonitor → GroupMonitor) :
    (s.updMonitor g f).rating = s.rating :=
  rfl
@[simp] theorem State.updMonitor_settle (g : Nat) (f : GroupMonitor → GroupMonitor) :
    (s.updMonitor g f).settle = s.settle :=
  rfl
@[simp] theorem State.updMonitor_time (g : Nat) (f : GroupMonitor → GroupMonitor) :
    (s.updMonitor g f).time = s.time :=
  rfl
@[simp] theorem State.updMonitor_mgmt (g : Nat) (f : GroupMonitor → GroupMonitor) :
    (s.updMonitor g f).mgmt = s.mgmt :=
  rfl
@[simp] theorem State.updMonitor_fwdOut (g : Nat) (f : GroupMonitor → GroupMonitor) :
    (s.updMonitor g f).fwdOut = s.fwdOut :=
  rfl
@[simp] theorem State.updMonitor_bwdOut (g : Nat) (f : GroupMonitor → GroupMonitor) :
    (s.updMonitor g f).bwdOut = s.bwdOut :=
  rfl
@[simp] theorem State.updMonitor_draws (g : Nat) (f : GroupMonitor → GroupMonitor) :
    (s.updMonitor g f).draws = s.draws :=
  rfl
@[simp] theorem State.updMonitor_context (g : Nat) (f : GroupMonitor → GroupMonitor) (i : Nat) :
    (s.updMonitor g f).context i = s.context i :=
  rfl
@[simp] theorem State.updMonitor_lookupRef (g : Nat) (f : GroupMonitor → GroupMonitor) (r : Nat) :
    (s.updMonitor g f).lookupRef r = s.lookupRef r :=
  rfl
@[simp] theorem State.updMonitor_carrier (g : Nat) (f : GroupMonitor → GroupMonitor) (c : Nat) :
    (s.updMonitor g f).carrier c = s.carrier c :=
  rfl
@[simp] theorem State.updMonitor_routeList (g : Nat) (f : GroupMonitor → GroupMonitor) (l : Nat) :
    (s.updMonitor g f).routeList l = s.routeList l :=
  rfl
@[simp] theorem State.updMonitor_thresholds (g : Nat) (f : GroupMonitor → GroupMonitor) (n : Nat) :
    (s.updMonitor g f).thresholds n = s.thresholds n :=
  rfl
@[simp] theorem State.updMonitor_timerOf (g : Nat) (f : GroupMonitor → GroupMonitor) (n : Nat) :
    (s.updMonitor g f).timerOf n = s.timerOf n :=
  rfl
@[simp] theorem State.updMonitor_port (g : Nat) (f : GroupMonitor → GroupMonitor) (p : Port) :
    (s.updMonitor g f).port p = s.port p :=
  by cases p <;> rfl

@[simp] theorem State.updTraffic_pending (g : Nat) (f : Traffic → Traffic) : (s.updTraffic g f).pending = s.pending :=
  rfl
@[simp] theorem State.updTraffic_resetLine (g : Nat) (f : Traffic → Traffic) :
    (s.updTraffic g f).resetLine = s.resetLine :=
  rfl
@[simp] theorem State.updTraffic_fwd (g : Nat) (f : Traffic → Traffic) : (s.updTraffic g f).fwd = s.fwd := rfl
@[simp] theorem State.updTraffic_bwd (g : Nat) (f : Traffic → Traffic) : (s.updTraffic g f).bwd = s.bwd := rfl
@[simp] theorem State.updTraffic_ctx (g : Nat) (f : Traffic → Traffic) : (s.updTraffic g f).ctx = s.ctx := rfl
@[simp] theorem State.updTraffic_routes (g : Nat) (f : Traffic → Traffic) : (s.updTraffic g f).routes = s.routes :=
  rfl
@[simp] theorem State.updTraffic_mon (g : Nat) (f : Traffic → Traffic) : (s.updTraffic g f).mon = s.mon := rfl
@[simp] theorem State.updTraffic_tariffs (g : Nat) (f : Traffic → Traffic) : (s.updTraffic g f).tariffs = s.tariffs :=
  rfl
@[simp] theorem State.updTraffic_rating (g : Nat) (f : Traffic → Traffic) : (s.updTraffic g f).rating = s.rating :=
  rfl
@[simp] theorem State.updTraffic_settle (g : Nat) (f : Traffic → Traffic) : (s.updTraffic g f).settle = s.settle :=
  rfl
@[simp] theorem State.updTraffic_time (g : Nat) (f : Traffic → Traffic) : (s.updTraffic g f).time = s.time := rfl
@[simp] theorem State.updTraffic_mgmt (g : Nat) (f : Traffic → Traffic) : (s.updTraffic g f).mgmt = s.mgmt := rfl
@[simp] theorem State.updTraffic_fwdOut (g : Nat) (f : Traffic → Traffic) : (s.updTraffic g f).fwdOut = s.fwdOut :=
  rfl
@[simp] theorem State.updTraffic_bwdOut (g : Nat) (f : Traffic → Traffic) : (s.updTraffic g f).bwdOut = s.bwdOut :=
  rfl
@[simp] theorem State.updTraffic_draws (g : Nat) (f : Traffic → Traffic) : (s.updTraffic g f).draws = s.draws := rfl
@[simp] theorem State.updTraffic_context (g : Nat) (f : Traffic → Traffic) (i : Nat) :
    (s.updTraffic g f).context i = s.context i :=
  rfl
@[simp] theorem State.updTraffic_lookupRef (g : Nat) (f : Traffic → Traffic) (r : Nat) :
    (s.updTraffic g f).lookupRef r = s.lookupRef r :=
  rfl
@[simp] theorem State.updTraffic_carrier (g : Nat) (f : Traffic → Traffic) (c : Nat) :
    (s.updTraffic g f).carrier c = s.carrier c :=
  rfl
@[simp] theorem State.updTraffic_routeList (g : Nat) (f : Traffic → Traffic) (l : Nat) :
    (s.updTraffic g f).routeList l = s.routeList l :=
  rfl
@[simp] theorem State.updTraffic_thresholds (g : Nat) (f : Traffic → Traffic) (n : Nat) :
    (s.updTraffic g f).thresholds n = s.thresholds n :=
  rfl
@[simp] theorem State.updTraffic_timerOf (g : Nat) (f : Traffic → Traffic) (n : Nat) :
    (s.updTraffic g f).timerOf n = s.timerOf n :=
  rfl
@[simp] theorem State.updTraffic_port (g : Nat) (f : Traffic → Traffic) (p : Port) :
    (s.updTraffic g f).port p = s.port p :=
  by cases p <;> rfl

@[simp] theorem State.updCarrier_pending (c : Nat) (f : Carrier → Carrier) : (s.updCarrier c f).pending = s.pending :=
  rfl
@[simp] theorem State.updCarrier_resetLine (c : Nat) (f : Carrier → Carrier) :
    (s.updCarrier c f).resetLine = s.resetLine :=
  rfl
@[simp] theorem State.updCarrier_fwd (c : Nat) (f : Carrier → Carrier) : (s.updCarrier c f).fwd = s.fwd := rfl
@[simp] theorem State.updCarrier_bwd (c : Nat) (f : Carrier → Carrier) : (s.updCarrier c f).bwd = s.bwd := rfl
@[simp] theorem State.updCarrier_ctx (c : Nat) (f : Carrier → Carrier) : (s.updCarrier c f).ctx = s.ctx := rfl
@[simp] theorem State.updCarrier_circ (c : Nat) (f : Carrier → Carrier) : (s.updCarrier c f).circ = s.circ := rfl
@[simp] theorem State.updCarrier_routes (c : Nat) (f : Carrier → Carrier) : (s.updCarrier c f).routes = s.routes :=
  rfl
@[simp] theorem State.updCarrier_mon (c : Nat) (f : Carrier → Carrier) : (s.updCarrier c f).mon = s.mon := rfl
@[simp] theorem State.updCarrier_rating (c : Nat) (f : Carrier → Carrier) : (s.updCarrier c f).rating = s.rating :=
  rfl
@[simp] theorem State.updCarrier_settle (c : Nat) (f : Carrier → Carrier) : (s.updCarrier c f).settle = s.settle :=
  rfl
@[simp] theorem State.updCarrier_time (c : Nat) (f : Carrier → Carrier) : (s.updCarrier c f).time = s.time := rfl
@[simp] theorem State.updCarrier_mgmt (c : Nat) (f : Carrier → Carrier) : (s.updCarrier c f).mgmt = s.mgmt := rfl
@[simp] theorem State.updCarrier_fwdOut (c : Nat) (f : Carrier → Carrier) : (s.updCarrier c f).fwdOut = s.fwdOut :=
  rfl
@[simp] theorem State.updCarrier_bwdOut (c : Nat) (f : Carrier → Carrier) : (s.updCarrier c f).bwdOut = s.bwdOut :=
  rfl
@[simp] theorem State.updCarrier_draws (c : Nat) (f : Carrier → Carrier) : (s.updCarrier c f).draws = s.draws := rfl
@[simp] theorem State.updCarrier_context (c : Nat) (f : Carrier → Carrier) (i : Nat) :
    (s.updCarrier c f).context i = s.context i :=
  rfl
@[simp] theorem State.updCarrier_lookupRef (c : Nat) (f : Carrier → Carrier) (r : Nat) :
    (s.updCarrier c f).lookupRef r = s.lookupRef r :=
  rfl
@[simp] theorem State.updCarrier_circuit (c : Nat) (f : Carrier → Carrier) (k : Nat) :
    (s.updCarrier c f).circuit k = s.circuit k :=
  rfl
@[simp] theorem State.updCarrier_group (c : Nat) (f : Carrier → Carrier) (g : Nat) :
    (s.updCarrier c f).group g = s.group g :=
  rfl
@[simp] theorem State.updCarrier_routeList (c : Nat) (f : Carrier → Carrier) (l : Nat) :
    (s.updCarrier c f).routeList l = s.routeList l :=
  rfl
@[simp] theorem State.updCarrier_thresholds (c : Nat) (f : Carrier → Carrier) (n : Nat) :
    (s.updCarrier c f).thresholds n = s.thresholds n :=
  rfl
@[simp] theorem State.updCarrier_timerOf (c : Nat) (f : Carrier → Carrier) (n : Nat) :
    (s.updCarrier c f).timerOf n = s.timerOf n :=
  rfl
@[simp] theorem State.updCarrier_port (c : Nat) (f : Carrier → Carrier) (p : Port) :
    (s.updCarrier c f).port p = s.port p :=
  by cases p <;> rfl

@[simp] theorem State.setList_pending (l : Nat) (x : RouteList) : (s.setList l x).pending = s.pending := rfl
@[simp] theorem State.setList_resetLine (l : Nat) (x : RouteList) : (s.setList l x).resetLine = s.resetLine := rfl
@[simp] theorem State.setList_fwd (l : Nat) (x : RouteList) : (s.setList l x).fwd = s.fwd := rfl
@[simp] theorem State.setList_bwd (l : Nat) (x : RouteList) : (s.setList l x).bwd = s.bwd := rfl
@[simp] theorem State.setList_ctx (l : Nat) (x : RouteList) : (s.setList l x).ctx = s.ctx := rfl
@[simp] theorem State.setList_circ (l : Nat) (x : RouteList) : (s.setList l x).circ = s.circ := rfl
@[simp] theorem State.setList_mon (l : Nat) (x : RouteList) : (s.setList l x).mon = s.mon := rfl
@[simp] theorem State.setList_tariffs (l : Nat) (x : RouteList) : (s.setList l x).tariffs = s.tariffs := rfl
@[simp] theorem State.setList_rating (l : Nat) (x : RouteList) : (s.setList l x).rating = s.rating := rfl
@[simp] theorem State.setList_settle (l : Nat) (x : RouteList) : (s.setList l x).settle = s.settle := rfl
@[simp] theorem State.setList_time (l : Nat) (x : RouteList) : (s.setList l x).time = s.time := rfl
@[simp] theorem State.setList_mgmt (l : Nat) (x : RouteList) : (s.setList l x).mgmt = s.mgmt := rfl
@[simp] theorem State.setList_fwdOut (l : Nat) (x : RouteList) : (s.setList l x).fwdOut = s.fwdOut := rfl
@[simp] theorem State.setList_bwdOut (l : Nat) (x : RouteList) : (s.setList l x).bwdOut = s.bwdOut := rfl
@[simp] theorem State.setList_draws (l : Nat) (x : RouteList) : (s.setList l x).draws = s.draws := rfl
@[simp] theorem State.setList_context (l : Nat) (x : RouteList) (i : Nat) : (s.setList l x).context i = s.context i :=
  rfl
@[simp] theorem State.setList_lookupRef (l : Nat) (x : RouteList) (r : Nat) :
    (s.setList l x).lookupRef r = s.lookupRef r :=
  rfl
@[simp] theorem State.setList_circuit (l : Nat) (x : RouteList) (k : Nat) : (s.setList l x).circuit k = s.circuit k :=
  rfl
@[simp] theorem State.setList_group (l : Nat) (x : RouteList) (g : Nat) : (s.setList l x).group g = s.group g := rfl
@[simp] theorem State.setList_carrier (l : Nat) (x : RouteList) (c : Nat) : (s.setList l x).carrier c = s.carrier c :=
  rfl
@[simp] theorem State.setList_thresholds (l : Nat) (x : RouteList) (n : Nat) :
    (s.setList l x).thresholds n = s.thresholds n :=
  rfl
@[simp] theorem State.setList_timerOf (l : Nat) (x : RouteList) (n : Nat) : (s.setList l x).timerOf n = s.timerOf n :=
  rfl
@[simp] theorem State.setList_port (l : Nat) (x : RouteList) (p : Port) : (s.setList l x).port p = s.port p :=
  by cases p <;> rfl

@[simp] theorem State.updList_pending (l : Nat) (f : RouteList → RouteList) : (s.updList l f).pending = s.pending :=
  rfl
@[simp] theorem State.updList_resetLine (l : Nat) (f : RouteList → RouteList) :
    (s.updList l f).resetLine = s.resetLine :=
  rfl
@[simp] theorem State.updList_fwd (l : Nat) (f : RouteList → RouteList) : (s.updList l f).fwd = s.fwd := rfl
@[simp] theorem State.updList_bwd (l : Nat) (f : RouteList → RouteList) : (s.updList l f).bwd = s.bwd := rfl
@[simp] theorem State.updList_ctx (l : Nat) (f : RouteList → RouteList) : (s.updList l f).ctx = s.ctx := rfl
@[simp] theorem State.updList_circ (l : Nat) (f : RouteList → RouteList) : (s.updList l f).circ = s.circ := rfl
@[simp] theorem State.updList_mon (l : Nat) (f : RouteList → RouteList) : (s.updList l f).mon = s.mon := rfl
@[simp] theorem State.updList_tariffs (l : Nat) (f : RouteList → RouteList) : (s.updList l f).tariffs = s.tariffs :=
  rfl
@[simp] theorem State.updList_rating (l : Nat) (f : RouteList → RouteList) : (s.updList l f).rating = s.rating := rfl
@[simp] theorem State.updList_settle (l : Nat) (f : RouteList → RouteList) : (s.updList l f).settle = s.settle := rfl
@[simp] theorem State.updList_time (l : Nat) (f : RouteList → RouteList) : (s.updList l f).time = s.time := rfl
@[simp] theorem State.updList_mgmt (l : Nat) (f : RouteList → RouteList) : (s.updList l f).mgmt = s.mgmt := rfl
@[simp] theorem State.updList_fwdOut (l : Nat) (f : RouteList → RouteList) : (s.updList l f).fwdOut = s.fwdOut := rfl
@[simp] theorem State.updList_bwdOut (l : Nat) (f : RouteList → RouteList) : (s.updList l f).bwdOut = s.bwdOut := rfl
@[simp] theorem State.updList_draws (l : Nat) (f : RouteList → RouteList) : (s.updList l f).draws = s.draws := rfl
@[simp] theorem State.updList_context (l : Nat) (f : RouteList → RouteList) (i : Nat) :
    (s.updList l f).context i = s.context i :=
  rfl
@[simp] theorem State.updList_lookupRef (l : Nat) (f : RouteList → RouteList) (r : Nat) :
    (s.updList l f).lookupRef r = s.lookupRef r :=
  rfl
@[simp] theorem State.updList_circuit (l : Nat) (f : RouteList → RouteList) (k : Nat) :
    (s.updList l f).circuit k = s.circuit k :=
  rfl
@[simp] theorem State.updList_group (l : Nat) (f : RouteList → RouteList) (g : Nat) :
    (s.updList l f).group g = s.group g :=
  rfl
@[simp] theorem State.updList_carrier (l : Nat) (f : RouteList → RouteList) (c : Nat) :
    (s.updList l f).carrier c = s.carrier c :=
  rfl
@[simp] theorem State.updList_thresholds (l : Nat) (f : RouteList → RouteList) (n : Nat) :
    (s.updList l f).thresholds n = s.thresholds n :=
  rfl
@[simp] theorem State.updList_timerOf (l : Nat) (f : RouteList → RouteList) (n : Nat) :
    (s.updList l f).timerOf n = s.timerOf n :=
  rfl
@[simp] theorem State.updList_port (l : Nat) (f : RouteList → RouteList) (p : Port) :
    (s.updList l f).port p = s.port p :=
  by cases p <;> rfl

@[simp] theorem State.countList_pending (l : Nat) (f : ListCounters → ListCounters) :
    (s.countList l f).pending = s.pending :=
  rfl
@[simp] theorem State.countList_resetLine (l : Nat) (f : ListCounters → ListCounters) :
    (s.countList l f).resetLine = s.resetLine :=
  rfl
@[simp] theorem State.countList_fwd (l : Nat) (f : ListCounters → ListCounters) : (s.countList l f).fwd = s.fwd := rfl
@[simp] theorem State.countList_bwd (l : Nat) (f : ListCounters → ListCounters) : (s.countList l f).bwd = s.bwd := rfl
@[simp] theorem State.countList_ctx (l : Nat) (f : ListCounters → ListCounters) : (s.countList l f).ctx = s.ctx := rfl
@[simp] theorem State.countList_circ (l : Nat) (f : ListCounters → ListCounters) : (s.countList l f).circ = s.circ :=
  rfl
@[simp] theorem State.countList_mon (l : Nat) (f : ListCounters → ListCounters) : (s.countList l f).mon = s.mon := rfl
@[simp] theorem State.countList_tariffs (l : Nat) (f : ListCounters → ListCounters) :
    (s.countList l f).tariffs = s.tariffs :=
  rfl
@[simp] theorem State.countList_rating (l : Nat) (f : ListCounters → ListCounters) :
    (s.countList l f).rating = s.rating :=
  rfl
@[simp] theorem State.countList_settle (l : Nat) (f : ListCounters → ListCounters) :
    (s.countList l f).settle = s.settle :=
  rfl
@[simp] theorem State.countList_time (l : Nat) (f : ListCounters → ListCounters) : (s.countList l f).time = s.time :=
  rfl
@[simp] theorem State.countList_mgmt (l : Nat) (f : ListCounters → ListCounters) : (s.countList l f).mgmt = s.mgmt :=
  rfl
@[simp] theorem State.countList_fwdOut (l : Nat) (f : ListCounters → ListCounters) :
    (s.countList l f).fwdOut = s.fwdOut :=
  rfl
@[simp] theorem State.countList_bwdOut (l : Nat) (f : ListCounters → ListCounters) :
    (s.countList l f).bwdOut = s.bwdOut :=
  rfl
@[simp] theorem State.countList_draws (l : Nat) (f : ListCounters → ListCounters) :
    (s.countList l f).draws = s.draws :=
  rfl
@[simp] theorem State.countList_context (l : Nat) (f : ListCounters → ListCounters) (i : Nat) :
    (s.countList l f).context i = s.context i :=
  rfl
@[simp] theorem State.countList_lookupRef (l : Nat) (f : ListCounters → ListCounters) (r : Nat) :
    (s.countList l f).lookupRef r = s.lookupRef r :=
  rfl
@[simp] theorem State.countList_circuit (l : Nat) (f : ListCounters → ListCounters) (k : Nat) :
    (s.countList l f).circuit k = s.circuit k :=
  rfl
@[simp] theorem State.countList_group (l : Nat) (f : ListCounters → ListCounters) (g : Nat) :
    (s.countList l f).group g = s.group g :=
  rfl
@[simp] theorem State.countList_carrier (l : Nat) (f : ListCounters → ListCounters) (c : Nat) :
    (s.countList l f).carrier c = s.carrier c :=
  rfl
@[simp] theorem State.countList_thresholds (l : Nat) (f : ListCounters → ListCounters) (n : Nat) :
    (s.countList l f).thresholds n = s.thresholds n :=
  rfl
@[simp] theorem State.countList_timerOf (l : Nat) (f : ListCounters → ListCounters) (n : Nat) :
    (s.countList l f).timerOf n = s.timerOf n :=
  rfl
@[simp] theorem State.countList_port (l : Nat) (f : ListCounters → ListCounters) (p : Port) :
    (s.countList l f).port p = s.port p :=
  by cases p <;> rfl

@[simp] theorem State.setThresholds_pending (n : Nat) (x : ThresholdSet) :
    (s.setThresholds n x).pending = s.pending :=
  rfl
@[simp] theorem State.setThresholds_resetLine (n : Nat) (x : ThresholdSet) :
    (s.setThresholds n x).resetLine = s.resetLine :=
  rfl
@[simp] theorem State.setThresholds_fwd (n : Nat) (x : ThresholdSet) : (s.setThresholds n x).fwd = s.fwd := rfl
@[simp] theorem State.setThresholds_bwd (n : Nat) (x : ThresholdSet) : (s.setThresholds n x).bwd = s.bwd := rfl
@[simp] theorem State.setThresholds_ctx (n : Nat) (x : ThresholdSet) : (s.setThresholds n x).ctx = s.ctx := rfl
@[simp] theorem State.setThresholds_circ (n : Nat) (x : ThresholdSet) : (s.setThresholds n x).circ = s.circ := rfl
@[simp] theorem State.setThresholds_routes (n : Nat) (x : ThresholdSet) : (s.setThresholds n x).routes = s.routes :=
  rfl
@[simp] theorem State.setThresholds_tariffs (n : Nat) (x : ThresholdSet) :
    (s.setThresholds n x).tariffs = s.tariffs :=
  rfl
@[simp] theorem State.setThresholds_rating (n : Nat) (x : ThresholdSet) : (s.setThresholds n x).rating = s.rating :=
  rfl
@[simp] theorem State.setThresholds_settle (n : Nat) (x : ThresholdSet) : (s.setThresholds n x).settle = s.settle :=
  rfl
@[simp] theorem State.setThresholds_time (n : Nat) (x : ThresholdSet) : (s.setThresholds n x).time = s.time := rfl
@[simp] theorem State.setThresholds_mgmt (n : Nat) (x : ThresholdSet) : (s.setThresholds n x).mgmt = s.mgmt := rfl
@[simp] theorem State.setThresholds_fwdOut (n : Nat) (x : ThresholdSet) : (s.setThresholds n x).fwdOut = s.fwdOut :=
  rfl
@[simp] theorem State.setThresholds_bwdOut (n : Nat) (x : ThresholdSet) : (s.setThresholds n x).bwdOut = s.bwdOut :=
  rfl
@[simp] theorem State.setThresholds_draws (n : Nat) (x : ThresholdSet) : (s.setThresholds n x).draws = s.draws := rfl
@[simp] theorem State.setThresholds_context (n : Nat) (x : ThresholdSet) (i : Nat) :
    (s.setThresholds n x).context i = s.context i :=
  rfl
@[simp] theorem State.setThresholds_lookupRef (n : Nat) (x : ThresholdSet) (r : Nat) :
    (s.setThresholds n x).lookupRef r = s.lookupRef r :=
  rfl
@[simp] theorem State.setThresholds_circuit (n : Nat) (x : ThresholdSet) (k : Nat) :
    (s.setThresholds n x).circuit k = s.circuit k :=
  rfl
@[simp] theorem State.setThresholds_group (n : Nat) (x : ThresholdSet) (g : Nat) :
    (s.setThresholds n x).group g = s.group g :=
  rfl
@[simp] theorem State.setThresholds_carrier (n : Nat) (x : ThresholdSet) (c : Nat) :
    (s.setThresholds n x).carrier c = s.carrier c :=
  rfl
@[simp] theorem State.setThresholds_routeList (n : Nat) (x : ThresholdSet) (l : Nat) :
    (s.setThresholds n x).routeList l = s.routeList l :=
  rfl
@[simp] theorem State.setThresholds_timerOf (n : Nat) (x : ThresholdSet) (n' : Nat) :
    (s.setThresholds n x).timerOf n' = s.timerOf n' :=
  rfl
@[simp] theorem State.setThresholds_port (n : Nat) (x : ThresholdSet) (p : Port) :
    (s.setThresholds n x).port p = s.port p :=
  by cases p <;> rfl

@[simp] theorem State.countCtx_pending (f : ContextCounters → ContextCounters) : (s.countCtx f).pending = s.pending :=
  rfl
@[simp] theorem State.countCtx_resetLine (f : ContextCounters → ContextCounters) :
    (s.countCtx f).resetLine = s.resetLine :=
  rfl
@[simp] theorem State.countCtx_fwd (f : ContextCounters → ContextCounters) : (s.countCtx f).fwd = s.fwd := rfl
@[simp] theorem State.countCtx_bwd (f : ContextCounters → ContextCounters) : (s.countCtx f).bwd = s.bwd := rfl
@[simp] theorem State.countCtx_circ (f : ContextCounters → ContextCounters) : (s.countCtx f).circ = s.circ := rfl
@[simp] theorem State.countCtx_routes (f : ContextCounters → ContextCounters) : (s.countCtx f).routes = s.routes :=
  rfl
@[simp] theorem State.countCtx_mon (f : ContextCounters → ContextCounters) : (s.countCtx f).mon = s.mon := rfl
@[simp] theorem State.countCtx_tariffs (f : ContextCounters → ContextCounters) : (s.countCtx f).tariffs = s.tariffs :=
  rfl
@[simp] theorem State.countCtx_rating (f : ContextCounters → ContextCounters) : (s.countCtx f).rating = s.rating :=
  rfl
@[simp] theorem State.countCtx_settle (f : ContextCounters → ContextCounters) : (s.countCtx f).settle = s.settle :=
  rfl
@[simp] theorem State.countCtx_time (f : ContextCounters → ContextCounters) : (s.countCtx f).time = s.time := rfl
@[simp] theorem State.countCtx_mgmt (f : ContextCounters → ContextCounters) : (s.countCtx f).mgmt = s.mgmt := rfl
@[simp] theorem State.countCtx_fwdOut (f : ContextCounters → ContextCounters) : (s.countCtx f).fwdOut = s.fwdOut :=
  rfl
@[simp] theorem State.countCtx_bwdOut (f : ContextCounters → ContextCounters) : (s.countCtx f).bwdOut = s.bwdOut :=
  rfl
@[simp] theorem State.countCtx_draws (f : ContextCounters → ContextCounters) : (s.countCtx f).draws = s.draws := rfl
@[simp] theorem State.countCtx_circuit (f : ContextCounters → ContextCounters) (k : Nat) :
    (s.countCtx f).circuit k = s.circuit k :=
  rfl
@[simp] theorem State.countCtx_group (f : ContextCounters → ContextCounters) (g : Nat) :
    (s.countCtx f).group g = s.group g :=
  rfl
@[simp] theorem State.countCtx_carrier (f : ContextCounters → ContextCounters) (c : Nat) :
    (s.countCtx f).carrier c = s.carrier c :=
  rfl
@[simp] theorem State.countCtx_routeList (f : ContextCounters → ContextCounters) (l : Nat) :
    (s.countCtx f).routeList l = s.routeList l :=
  rfl
@[simp] theorem State.countCtx_thresholds (f : ContextCounters → ContextCounters) (n : Nat) :
    (s.countCtx f).thresholds n = s.thresholds n :=
  rfl
@[simp] theorem State.countCtx_timerOf (f : ContextCounters → ContextCounters) (n : Nat) :
    (s.countCtx f).timerOf n = s.timerOf n :=
  rfl
@[simp] theorem State.countCtx_port (f : ContextCounters → ContextCounters) (p : Port) :
    (s.countCtx f).port p = s.port p :=
  by cases p <;> rfl

@[simp] theorem State.countCirc_pending (f : CircuitCounters → CircuitCounters) :
    (s.countCirc f).pending = s.pending :=
  rfl
@[simp] theorem State.countCirc_resetLine (f : CircuitCounters → CircuitCounters) :
    (s.countCirc f).resetLine = s.resetLine :=
  rfl
@[simp] theorem State.countCirc_fwd (f : CircuitCounters → CircuitCounters) : (s.countCirc f).fwd = s.fwd := rfl
@[simp] theorem State.countCirc_bwd (f : CircuitCounters → CircuitCounters) : (s.countCirc f).bwd = s.bwd := rfl
@[simp] theorem State.countCirc_ctx (f : CircuitCounters → CircuitCounters) : (s.countCirc f).ctx = s.ctx := rfl
@[simp] theorem State.countCirc_routes (f : CircuitCounters → CircuitCounters) : (s.countCirc f).routes = s.routes :=
  rfl
@[simp] theorem State.countCirc_mon (f : CircuitCounters → CircuitCounters) : (s.countCirc f).mon = s.mon := rfl
@[simp] theorem State.countCirc_tariffs (f : CircuitCounters → CircuitCounters) :
    (s.countCirc f).tariffs = s.tariffs :=
  rfl
@[simp] theorem State.countCirc_rating (f : CircuitCounters → CircuitCounters) : (s.countCirc f).rating = s.rating :=
  rfl
@[simp] theorem State.countCirc_settle (f : CircuitCounters → CircuitCounters) : (s.countCirc f).settle = s.settle :=
  rfl
@[simp] theorem State.countCirc_time (f : CircuitCounters → CircuitCounters) : (s.countCirc f).time = s.time := rfl
@[simp] theorem State.countCirc_mgmt (f : CircuitCounters → CircuitCounters) : (s.countCirc f).mgmt = s.mgmt := rfl
@[simp] theorem State.countCirc_fwdOut (f : CircuitCounters → CircuitCounters) : (s.countCirc f).fwdOut = s.fwdOut :=
  rfl
@[simp] theorem State.countCirc_bwdOut (f : CircuitCounters → CircuitCounters) : (s.countCirc f).bwdOut = s.bwdOut :=
  rfl
@[simp] theorem State.countCirc_draws (f : CircuitCounters → CircuitCounters) : (s.countCirc f).draws = s.draws := rfl
@[simp] theorem State.countCirc_context (f : CircuitCounters → CircuitCounters) (i : Nat) :
    (s.countCirc f).context i = s.context i :=
  rfl
@[simp] theorem State.countCirc_lookupRef (f : CircuitCounters → CircuitCounters) (r : Nat) :
    (s.countCirc f).lookupRef r = s.lookupRef r :=
  rfl
@[simp] theorem State.countCirc_carrier (f : CircuitCounters → CircuitCounters) (c : Nat) :
    (s.countCirc f).carrier c = s.carrier c :=
  rfl
@[simp] theorem State.countCirc_routeList (f : CircuitCounters → CircuitCounters) (l : Nat) :
    (s.countCirc f).routeList l = s.routeList l :=
  rfl
@[simp] theorem State.countCirc_thresholds (f : CircuitCounters → CircuitCounters) (n : Nat) :
    (s.countCirc f).thresholds n = s.thresholds n :=
  rfl
@[simp] theorem State.countCirc_timerOf (f : CircuitCounters → CircuitCounters) (n : Nat) :
    (s.countCirc f).timerOf n = s.timerOf n :=
  rfl
@[simp] theorem State.countCirc_port (f : CircuitCounters → CircuitCounters) (p : Port) :
    (s.countCirc f).port p = s.port p :=
  by cases p <;> rfl

@[simp] theorem State.countCtx_context (f : ContextCounters → ContextCounters) (i : Nat) :
    (s.countCtx f).context i = s.context i := rfl
@[simp] theorem State.countCtx_lookupRef (f : ContextCounters → ContextCounters) (r : Nat) :
    (s.countCtx f).lookupRef r = s.lookupRef r := rfl
@[simp] theorem State.countCirc_circuit (f : CircuitCounters → CircuitCounters) (k : Nat) :
    (s.countCirc f).circuit k = s.circuit k := rfl
@[simp] theorem State.countCirc_group (f : CircuitCounters → CircuitCounters) (g : Nat) :
    (s.countCirc f).group g = s.group g := rfl
@[simp] theorem State.updGroup_circuit (g : Nat) (f : Group → Group) (k : Nat) :
    (s.updGroup g f).circuit k = s.circuit k := rfl
@[simp] theorem State.updMonitor_circuit (g : Nat) (f : GroupMonitor → GroupMonitor) (k : Nat) :
    (s.updMonitor g f).circuit k = s.circuit k := rfl
@[simp] theorem State.updTraffic_circuit (g : Nat) (f : Traffic → Traffic) (k : Nat) :
    (s.updTraffic g f).circuit k = s.circuit k := rfl
@[simp] theorem State.updContext_lookupRef (i : Nat) (f : Context → Context) (r : Nat) :
    (s.updContext i f).lookupRef r = s.lookupRef r := rfl

theorem State.updContext_context (i : Nat) (f : Context → Context) (j : Nat) :
    (s.updContext i f).context j = if i = j then (s.context j).map f else s.context j :=
  Table.find_adjust i j f _

theorem State.updGroup_group (g : Nat) (f : Group → Group) (h : Nat) :
    (s.updGroup g f).group h = if g = h then (s.group h).map f else s.group h := Table.find_adjust g h f _

theorem State.updMonitor_group (g : Nat) (f : GroupMonitor → GroupMonitor) (h : Nat) :
    (s.updMonitor g f).group h =
      if g = h then (s.group h).map (fun r => { r with mon := f r.mon }) else s.group h := Table.find_adjust g h _ _

theorem State.updCarrier_carrier (c : Nat) (f : Carrier → Carrier) (d : Nat) :
    (s.updCarrier c f).carrier d = if c = d then (s.carrier d).map f else s.carrier d := Table.find_adjust c d f _

theorem State.setList_routeList (l : Nat) (x : RouteList) (m : Nat) :
    (s.setList l x).routeList m = if l = m then x else s.routeList m := by
  by_cases hx : x = RouteList.unloaded
  · by_cases h : l = m <;> simp [State.setList, State.routeList, State.withRoutes, hx, Table.find_del, h]
  · by_cases h : l = m <;> simp [State.setList, State.routeList, State.withRoutes, hx, Table.find_put, h]

theorem State.updList_routeList (l : Nat) (f : RouteList → RouteList) (m : Nat) :
    (s.updList l f).routeList m = if l = m then f (s.routeList m) else s.routeList m := by
  rw [State.updList, State.setList_routeList]
  by_cases h : l = m <;> simp [h]

theorem State.setThresholds_thresholds (n : Nat) (x : ThresholdSet) (m : Nat) :
    (s.setThresholds n x).thresholds m = if n = m then x else s.thresholds m := by
  by_cases hx : x = ThresholdSet.default
  · by_cases h : n = m <;> simp [State.setThresholds, State.thresholds, State.withMon, hx, Table.find_del, h]
  · by_cases h : n = m <;> simp [State.setThresholds, State.thresholds, State.withMon, hx, Table.find_put, h]

/-! ### Frames -/

/-- A frame by its parts. -/
theorem OnlyChanges.of_fields {parts : List Part} {s t : State}
    (h : ∀ p, p ∉ parts → p.same s t) : OnlyChanges parts s t := h

theorem OnlyChanges.refl (parts : List Part) (s : State) : OnlyChanges parts s s := by
  intro p _; cases p <;> rfl

theorem OnlyChanges.trans {parts : List Part} {s t u : State} (h : OnlyChanges parts s t)
    (h' : OnlyChanges parts t u) : OnlyChanges parts s u := by
  intro p hp
  have h1 := h p hp
  have h2 := h' p hp
  cases p <;> simp_all [Part.same]

theorem OnlyChanges.mono {parts more : List Part} {s t : State} (h : OnlyChanges parts s t)
    (hm : parts ⊆ more) : OnlyChanges more s t := fun p hp => h p fun hq => hp (hm hq)

end Sys2Proof.Machine
end

