-- ==== Sys2Proof/Laws/Ops.lean ====
section
/-! SUPPORT. What each shared operation can do, said once: taking a message, a circuit's move, the freeing of a context,
notices, the disposal of a seizure. -/
namespace Sys2Proof.Machine

variable {s : State}

/-! ### Taking a message -/

/-- The head message of a port's queue is picked and taken. -/
theorem takeHead_of {p : Port} {q : Frame → Bool} {act : Frame → State → State} {f : Frame} {rest : List Frame}
    (hq : (s.port p).queue = f :: rest) (hp : q f = true) :
    takeHead p q act s = act f (s.withPort p { s.port p with queue := rest }) := by
  simp [takeHead, hq, hp]

/-- With no message that is picked at the head nothing changes. -/
theorem takeHead_none {p : Port} {q : Frame → Bool} {act : Frame → State → State}
    (h : ∀ f, (s.port p).queue.head? = some f → q f = false) : takeHead p q act s = s := by
  unfold takeHead
  split
  · rfl
  · rename_i m rest e
    simp [h m (by simp [e])]

theorem takeKind_of {p : Port} {k : Nat} {act : Frame → State → State} {f : Frame} {rest : List Frame}
    (h : s.headed p k f rest) : takeKind p k act s = act f (s.withPort p { s.port p with queue := rest }) :=
  takeHead_of h.1 (by simp [h.2])

theorem takeKind_none {p : Port} {k : Nat} {act : Frame → State → State}
    (h : ∀ f, (s.port p).queue.head? = some f → kindOf f ≠ k) : takeKind p k act s = s :=
  takeHead_none fun f hf => by simp [h f hf]

/-- A request that is available is carried out on the state without it, and answered. -/
theorem takeRequest_of {code : Nat} {act : List Byte → State → Answer} {f : Frame} {rest : List Frame}
    (h : s.requested code f rest) (ha : available code s.mgmt.device = true) :
    takeRequest code act s =
      (act (paramsOf f) (s.withPort .forward { s.port .forward with queue := rest })).send f := by
  obtain ⟨⟨h1, h2⟩, h3, h4⟩ := h
  rw [takeRequest, takeHead_of h1 (by simp [h2, h3, knownRequest, h4])]
  simp [ha]

/-- A request that is not available is answered so, and nothing else changes. -/
theorem takeRequest_unavailable {code : Nat} {act : List Byte → State → Answer} {f : Frame} {rest : List Frame}
    (h : s.requested code f rest) (ha : available code s.mgmt.device = false) :
    takeRequest code act s =
      (s.withPort .forward { s.port .forward with queue := rest }).emitBwd
        (.reply (kindByteOf f) code .notAvailable []) := by
  obtain ⟨⟨h1, h2⟩, h3, h4⟩ := h
  rw [takeRequest, takeHead_of h1 (by simp [h2, h3, knownRequest, h4])]
  simp [ha, Answer.send, Answer.refuse, h3]

/-! ### Notices -/

theorem notifyAll_frame (s : State) (now : ExTime) (ns : List Notice) :
    OnlyChanges [.bwdOut, .draws] s (s.notifyAll now ns) := by
  unfold State.notifyAll
  split <;> (intro p hp; cases p <;> simp_all [Part.same])

/-- Some order of the notices leaves. -/
theorem notifyAll_bwdOut (s : State) (now : ExTime) (ns : List Notice) :
    ∃ ms : List Notice, (s.notifyAll now ns).bwdOut = s.bwdOut ++ ms.map (OutMsg.notice now) ∧ ms.Perm ns := by
  unfold State.notifyAll
  split
  · exact ⟨[], by simp⟩
  · exact ⟨[_], rfl, .refl _⟩
  · exact ⟨_, rfl, arrange_perm _ _⟩

/-- One notice at most leaves as it is, and draws no order. -/
theorem notifyAll_short (s : State) (now : ExTime) {ns : List Notice} (h : ns.length ≤ 1) :
    s.notifyAll now ns = { s with bwdOut := s.bwdOut ++ ns.map (OutMsg.notice now) } := by
  match ns, h with
  | [], _ => simp [State.notifyAll]
  | [n], _ => rfl

/-! ### A circuit's change -/

theorem recast_of {c : Nat} {r : Circuit} (f : Circuit → Circuit) (h : s.circuit c = some r) :
    s.recast c f = s.withCirc { s.circ with
      circuits := Table.put c (f r) s.circ.circuits
      groups := Table.adjust r.group (fun g => g.reclass c r.cls (f r).cls) s.circ.groups } := by
  simp [State.recast, h]

theorem recast_frame (s : State) (c : Nat) (f : Circuit → Circuit) : OnlyChanges [.circ] s (s.recast c f) := by
  unfold State.recast
  split
  · exact .refl _ _
  · intro p hp; cases p <;> simp_all [Part.same]

/-- A circuit's change moves the circuit and its group and nothing else (R27). -/
theorem recast_moved {c : Nat} {r : Circuit} {x : Group} (f : Circuit → Circuit) (h : s.circuit c = some r)
    (hx : s.group r.group = some x) :
    CircuitMoved c r (f r) (x.reclass c r.cls (f r).cls) s (s.recast c f) := by
  rw [recast_of f h]
  refine ⟨by simp [State.circuit], fun j hj => ?_, ?_, fun g hg => ?_, rfl⟩
  · simp [State.circuit, Table.find_put_of_ne hj]
  · simp only [State.group, State.withCirc_circ, Table.find_adjust_self]
    simp only [State.group] at hx
    simp [hx]
  · simp [State.group, Table.find_adjust_of_ne hg]

/-- What stands in the Circuit Map alone decides whether a circuit has moved. -/
theorem CircuitMoved.congr {k : Nat} {c c' : Circuit} {x' : Group} {s t s' t' : State}
    (h : CircuitMoved k c c' x' s t) (hs : s'.circ = s.circ) (ht : t'.circ = t.circ) : CircuitMoved k c c' x' s' t' := by
  obtain ⟨h1, h2, h3, h4, h5⟩ := h
  simp only [State.circuit, State.group] at h1 h2 h3 h4
  exact ⟨by simp [State.circuit, ht, h1], fun j hj => by simp [State.circuit, ht, hs, h2 j hj],
    by simp [State.group, ht, h3], fun g hg => by simp [State.group, ht, hs, h4 g hg], by simp [ht, hs, h5]⟩

/-- A change of the circuit's group after its move. -/
theorem CircuitMoved.updGroup {k : Nat} {c c' : Circuit} {x' : Group} {s t : State}
    (h : CircuitMoved k c c' x' s t) (f : Group → Group) : CircuitMoved k c c' (f x') s (t.updGroup c.group f) := by
  obtain ⟨h1, h2, h3, h4, h5⟩ := h
  refine ⟨h1, h2, ?_, fun g hg => ?_, h5⟩
  · rw [State.updGroup_group]; simp [h3]
  · rw [State.updGroup_group]; simp [Ne.symm hg, h4 g hg]

theorem enterReleasing_frame (s : State) (k : Nat) : OnlyChanges [.circ] s (s.enterReleasing k) := recast_frame _ _ _

/-- R33. -/
theorem enterReleasing_moved {k i : Nat} {r : Circuit} {x : Group} (h : s.circuit k = some r)
    (hc : r.cond = .seized i) (hx : s.group r.group = some x) :
    CircuitMoved k r { r with cond := .releasing (s.time.ticks + interval s.mgmt.params.tClear) }
      { x with counts := { x.counts with seized := x.counts.seized - 1, releasing := x.counts.releasing + 1 } } s
      (s.enterReleasing k) := by
  have := recast_moved (fun x => { x with cond := .releasing (s.time.ticks + supervision s.mgmt.params.tClear) }) h hx
  simpa [State.enterReleasing, Circuit.cls, hc, Group.reclass, Counts.move, Counts.upd, requeue, supervision, interval]
    using this

/-! ### Offer control and freeing -/

theorem compareLow_frame (s : State) (now : ExTime) : OnlyChanges [.ctx, .bwdOut] s (s.compareLow now) := by
  unfold State.compareLow
  split
  · intro p hp; cases p <;> simp_all [Part.same]
  · exact .refl _ _

theorem compareHigh_frame (s : State) (now : ExTime) : OnlyChanges [.ctx, .bwdOut] s (s.compareHigh now) := by
  unfold State.compareHigh
  split
  · intro p hp; cases p <;> simp_all [Part.same]
  · exact .refl _ _

theorem free_frame (s : State) (now : ExTime) (i : Nat) : OnlyChanges [.ctx, .bwdOut] s (s.free now i) := by
  unfold State.free
  split
  · exact .refl _ _
  · exact OnlyChanges.trans (by intro p hp; cases p <;> simp_all [Part.same]) (compareLow_frame _ _)

/-- The freeing of a context in use (R3, R105). -/
theorem free_of {now : ExTime} {i : Nat} {c : Context} (h : s.context i = some c) :
    ContextFreed i c s (s.free now i) ∧ (s.free now i).ctx.counters = s.ctx.counters
      ∧ (s.free now i).bwdOut = s.bwdOut ++ s.resumeReport now := by
  unfold State.free
  rw [h]
  simp only [State.compareLow]
  split
  · rename_i hc
    simp only [State.withCtx_ctx, State.withCtx_mgmt] at hc
    refine ⟨⟨?_, fun j hj => ?_, ?_, fun r hr => ?_, rfl, rfl, ?_⟩, rfl, ?_⟩
    · simp [State.context]
    · simp [State.context, Table.find_del_of_ne hj]
    · simp [State.lookupRef]
    · simp [State.lookupRef, Table.find_del_of_ne hr]
    · simp [hc]
    · simp [State.resumeReport, hc]
  · rename_i hc
    simp only [State.withCtx_ctx, State.withCtx_mgmt] at hc
    refine ⟨⟨?_, fun j hj => ?_, ?_, fun r hr => ?_, rfl, rfl, ?_⟩, rfl, ?_⟩
    · simp [State.context]
    · simp [State.context, Table.find_del_of_ne hj]
    · simp [State.lookupRef]
    · simp [State.lookupRef, Table.find_del_of_ne hr]
    · rw [if_neg hc]; rfl
    · rw [State.resumeReport, if_neg hc]; simp

/-! ### Disposal -/

theorem dispose_frame (s : State) (now : ExTime) (i : Nat) :
    OnlyChanges [.ctx, .settle, .rating, .tariffs] s (s.dispose now i) := by
  unfold State.dispose
  split
  · exact .refl _ _
  · split
    · intro p hp; cases p <;> simp_all [Part.same, State.rateRecord]
    · split <;> (intro p hp; cases p <;> simp_all [Part.same])

/-- A seizure that is not rated gives its slot back (R10, R140). -/
theorem dispose_unrated {now : ExTime} {i : Nat} {c : Context} (h : s.context i = some c) (hr : c.record now = none) :
    s.dispose now i =
      (s.withSettle { s.settle with reservations := s.settle.reservations - (if c.slot then 1 else 0) }).updContext i
        fun x => { x with quote := none, slot := false } := by
  unfold State.dispose
  rw [h]; simp only [hr]
  by_cases hs : c.slot <;> simp [hs, SettlementQueue.giveBack]
  rfl

/-! ### The expiries of a tick (R157, R158) -/

/-- The commands of one place take its expiry. -/
theorem ran_commands (s : State) (t : TimerId) (cs : List Instr) : s.ran (t.commands ++ cs) = (s.expire t).ran cs := by
  cases t <;> rfl

/-- Taking listed expiries is running their commands in that order. -/
theorem expireAll_eq_ran (s : State) (ids : List TimerId) : s.expireAll ids = s.ran (ids.flatMap TimerId.commands) := by
  induction ids generalizing s with
  | nil => rfl
  | cons t ts ih => rw [List.flatMap_cons, ran_commands]; exact ih _

/-- The expiries that come before the whole-second event are some of those of the tick. -/
theorem beforeEvent_perm (d : Nat) (ts : List TimerId) : ∃ later, (beforeEvent d ts ++ later).Perm ts := by
  refine ⟨((arrange d (none :: ts.map some)).dropWhile Option.isSome).filterMap id, ?_⟩
  have h := (arrange_perm d (none :: ts.map some)).filterMap id
  rwa [← List.takeWhile_append_dropWhile (p := Option.isSome) (l := arrange d (none :: ts.map some)),
    List.filterMap_append, List.filterMap_cons_none rfl, List.filterMap_map, Function.id_comp,
    List.filterMap_some] at h

/-- The expiries that no command has taken are taken before the next tick, all of them, in some order (log entry 4). -/
theorem settleExpiries_taken (s : State) :
    ∃ ids, ids.Perm s.dueTimers ∧ ExpiriesTaken ids s s.settleExpiries ∧ (s.dueTimers = [] → s.settleExpiries = s) := by
  unfold State.settleExpiries
  split
  · rename_i h; exact ⟨[], by rw [h], ⟨s.draws, rfl⟩, fun _ => rfl⟩
  · rename_i t h; exact ⟨[t], by rw [h], ⟨s.draws, expireAll_eq_ran s [t]⟩, by simp [h]⟩
  · rename_i h _; exact ⟨_, arrange_perm _ _, ⟨_, expireAll_eq_ran _ _⟩, fun e => absurd e h⟩

/-- The whole-second event stands among the expiries of its tick: some before it, the others after it (log entry 21). -/
theorem secondEvent_stands (s : State) :
    ∃ (first later : List TimerId) (v : State), (first ++ later).Perm s.dueTimers ∧ ExpiriesTaken first s v
      ∧ (s.dueTimers = [] → v = s) ∧ s.secondEvent = v.wholeSecond s.time.now := by
  unfold State.secondEvent
  split
  · rename_i h; exact ⟨[], [], s, by rw [h]; rfl, ⟨s.draws, rfl⟩, fun _ => rfl, rfl⟩
  · rename_i h
    obtain ⟨later, hp⟩ := beforeEvent_perm s.draws s.dueTimers
    exact ⟨_, later, _, hp, ⟨_, expireAll_eq_ran _ _⟩, fun e => absurd e h, rfl⟩

end Sys2Proof.Machine
end

