-- ==== Sys2Proof/WellFormed.lean ====
section
/-! DEFINITION. Which commands name something that exists: the operand ranges of spec/00_scope.md 2.4. An ill-formed
command names no place of the timer array (R157) and changes nothing. -/
namespace Sys2Proof

/-- The command's operand lies in its range. -/
def Instr.wellFormed : Instr → Bool
  | .tProceedExpiry i => decide (i < Config.contextCount)
  | .tClearExpiry i => decide (i < Config.contextCount)
  | .guardExpiry g => decide (1 ≤ g ∧ g ≤ Config.groupMax)
  | .clearingExpiry c => decide (c < Config.circuitCount)
  | .probeTimerExpiry g => decide (1 ≤ g ∧ g ≤ Config.groupMax)
  | .gapTimerExpiry l => decide (l < Config.listCount)
  | .hardReset | .resetRelease | .referenceTick | .messageArrival _ _ | .passThrough _ | .setup | .originRelease
  | .originReleaseConfirm | .progress | .answer | .farRelease | .farReleaseConfirm | .block | .unblock | .farSeize
  | .farClear | .tariffOffer | .batchAccept | .exportHalt | .exportResume | .acceptTimerExpiry | .sampleExpiry
  | .unknownRequest | .enterService | .quiesce | .restart | .readDeviceStatus | .clearErrorFlags | .setExchangeTime
  | .setGlobalParameters | .loadDestination | .deleteDestination | .lookupDestination | .loadRouteList | .restartGap
  | .loadThresholdSet | .loadTrunkGroup | .removeTrunkGroup | .setGroupState | .blockCircuit | .unblockCircuit
  | .declareCarrier | .removeCarrier | .loadTariff | .pinCarrier | .unpinCarrier | .readGroup | .readCircuit
  | .readContext | .readRouteList | .readCarrier | .latchCounters | .readLatched => true

end Sys2Proof
end

