-- ==== Sys2Proof/Laws/PerInstr.lean ====
section
/-! SUPPORT. The family of statements about every command as syntax: which operands are well formed (00_scope.md 2.4). A
command without a numbered operand is well formed. -/
namespace Sys2Proof.Laws

/-- The command is well formed exactly when its numbered operand, where it has one, lies in the range of 00_scope.md
2.4. -/
def OperandBounds.Statement : Instr → Prop
  | .tProceedExpiry i => (Instr.tProceedExpiry i).wellFormed = true ↔ i < 8192
  | .tClearExpiry i => (Instr.tClearExpiry i).wellFormed = true ↔ i < 8192
  | .guardExpiry g => (Instr.guardExpiry g).wellFormed = true ↔ 1 ≤ g ∧ g ≤ 255
  | .clearingExpiry k => (Instr.clearingExpiry k).wellFormed = true ↔ k < 16384
  | .probeTimerExpiry g => (Instr.probeTimerExpiry g).wellFormed = true ↔ 1 ≤ g ∧ g ≤ 255
  | .gapTimerExpiry l => (Instr.gapTimerExpiry l).wellFormed = true ↔ l < 512
  | .hardReset => (Instr.hardReset).wellFormed = true
  | .resetRelease => (Instr.resetRelease).wellFormed = true
  | .referenceTick => (Instr.referenceTick).wellFormed = true
  | .messageArrival a b => (Instr.messageArrival a b).wellFormed = true
  | .passThrough a => (Instr.passThrough a).wellFormed = true
  | .setup => (Instr.setup).wellFormed = true
  | .originRelease => (Instr.originRelease).wellFormed = true
  | .originReleaseConfirm => (Instr.originReleaseConfirm).wellFormed = true
  | .progress => (Instr.progress).wellFormed = true
  | .answer => (Instr.answer).wellFormed = true
  | .farRelease => (Instr.farRelease).wellFormed = true
  | .farReleaseConfirm => (Instr.farReleaseConfirm).wellFormed = true
  | .block => (Instr.block).wellFormed = true
  | .unblock => (Instr.unblock).wellFormed = true
  | .farSeize => (Instr.farSeize).wellFormed = true
  | .farClear => (Instr.farClear).wellFormed = true
  | .tariffOffer => (Instr.tariffOffer).wellFormed = true
  | .batchAccept => (Instr.batchAccept).wellFormed = true
  | .exportHalt => (Instr.exportHalt).wellFormed = true
  | .exportResume => (Instr.exportResume).wellFormed = true
  | .acceptTimerExpiry => (Instr.acceptTimerExpiry).wellFormed = true
  | .sampleExpiry => (Instr.sampleExpiry).wellFormed = true
  | .unknownRequest => (Instr.unknownRequest).wellFormed = true
  | .enterService => (Instr.enterService).wellFormed = true
  | .quiesce => (Instr.quiesce).wellFormed = true
  | .restart => (Instr.restart).wellFormed = true
  | .readDeviceStatus => (Instr.readDeviceStatus).wellFormed = true
  | .clearErrorFlags => (Instr.clearErrorFlags).wellFormed = true
  | .setExchangeTime => (Instr.setExchangeTime).wellFormed = true
  | .setGlobalParameters => (Instr.setGlobalParameters).wellFormed = true
  | .loadDestination => (Instr.loadDestination).wellFormed = true
  | .deleteDestination => (Instr.deleteDestination).wellFormed = true
  | .lookupDestination => (Instr.lookupDestination).wellFormed = true
  | .loadRouteList => (Instr.loadRouteList).wellFormed = true
  | .restartGap => (Instr.restartGap).wellFormed = true
  | .loadThresholdSet => (Instr.loadThresholdSet).wellFormed = true
  | .loadTrunkGroup => (Instr.loadTrunkGroup).wellFormed = true
  | .removeTrunkGroup => (Instr.removeTrunkGroup).wellFormed = true
  | .setGroupState => (Instr.setGroupState).wellFormed = true
  | .blockCircuit => (Instr.blockCircuit).wellFormed = true
  | .unblockCircuit => (Instr.unblockCircuit).wellFormed = true
  | .declareCarrier => (Instr.declareCarrier).wellFormed = true
  | .removeCarrier => (Instr.removeCarrier).wellFormed = true
  | .loadTariff => (Instr.loadTariff).wellFormed = true
  | .pinCarrier => (Instr.pinCarrier).wellFormed = true
  | .unpinCarrier => (Instr.unpinCarrier).wellFormed = true
  | .readGroup => (Instr.readGroup).wellFormed = true
  | .readCircuit => (Instr.readCircuit).wellFormed = true
  | .readContext => (Instr.readContext).wellFormed = true
  | .readRouteList => (Instr.readRouteList).wellFormed = true
  | .readCarrier => (Instr.readCarrier).wellFormed = true
  | .latchCounters => (Instr.latchCounters).wellFormed = true
  | .readLatched => (Instr.readLatched).wellFormed = true

theorem OperandBounds.hardReset : OperandBounds.Statement .hardReset := rfl
theorem OperandBounds.resetRelease : OperandBounds.Statement .resetRelease := rfl
theorem OperandBounds.referenceTick : OperandBounds.Statement .referenceTick := rfl
theorem OperandBounds.messageArrival (port : Port) (bytes : Frame) : OperandBounds.Statement (.messageArrival port bytes) := rfl
theorem OperandBounds.passThrough (port : Port) : OperandBounds.Statement (.passThrough port) := rfl
theorem OperandBounds.setup : OperandBounds.Statement .setup := rfl
theorem OperandBounds.originRelease : OperandBounds.Statement .originRelease := rfl
theorem OperandBounds.originReleaseConfirm : OperandBounds.Statement .originReleaseConfirm := rfl
theorem OperandBounds.progress : OperandBounds.Statement .progress := rfl
theorem OperandBounds.answer : OperandBounds.Statement .answer := rfl
theorem OperandBounds.farRelease : OperandBounds.Statement .farRelease := rfl
theorem OperandBounds.farReleaseConfirm : OperandBounds.Statement .farReleaseConfirm := rfl
theorem OperandBounds.block : OperandBounds.Statement .block := rfl
theorem OperandBounds.unblock : OperandBounds.Statement .unblock := rfl
theorem OperandBounds.farSeize : OperandBounds.Statement .farSeize := rfl
theorem OperandBounds.farClear : OperandBounds.Statement .farClear := rfl
theorem OperandBounds.tariffOffer : OperandBounds.Statement .tariffOffer := rfl
theorem OperandBounds.batchAccept : OperandBounds.Statement .batchAccept := rfl
theorem OperandBounds.exportHalt : OperandBounds.Statement .exportHalt := rfl
theorem OperandBounds.exportResume : OperandBounds.Statement .exportResume := rfl
theorem OperandBounds.tProceedExpiry (context : Nat) : OperandBounds.Statement (.tProceedExpiry context) := decide_eq_true_iff
theorem OperandBounds.tClearExpiry (context : Nat) : OperandBounds.Statement (.tClearExpiry context) := decide_eq_true_iff
theorem OperandBounds.guardExpiry (group : Nat) : OperandBounds.Statement (.guardExpiry group) := decide_eq_true_iff
theorem OperandBounds.clearingExpiry (circuit : Nat) : OperandBounds.Statement (.clearingExpiry circuit) := decide_eq_true_iff
theorem OperandBounds.probeTimerExpiry (group : Nat) : OperandBounds.Statement (.probeTimerExpiry group) := decide_eq_true_iff
theorem OperandBounds.gapTimerExpiry (list : Nat) : OperandBounds.Statement (.gapTimerExpiry list) := decide_eq_true_iff
theorem OperandBounds.acceptTimerExpiry : OperandBounds.Statement .acceptTimerExpiry := rfl
theorem OperandBounds.sampleExpiry : OperandBounds.Statement .sampleExpiry := rfl
theorem OperandBounds.unknownRequest : OperandBounds.Statement .unknownRequest := rfl
theorem OperandBounds.enterService : OperandBounds.Statement .enterService := rfl
theorem OperandBounds.quiesce : OperandBounds.Statement .quiesce := rfl
theorem OperandBounds.restart : OperandBounds.Statement .restart := rfl
theorem OperandBounds.readDeviceStatus : OperandBounds.Statement .readDeviceStatus := rfl
theorem OperandBounds.clearErrorFlags : OperandBounds.Statement .clearErrorFlags := rfl
theorem OperandBounds.setExchangeTime : OperandBounds.Statement .setExchangeTime := rfl
theorem OperandBounds.setGlobalParameters : OperandBounds.Statement .setGlobalParameters := rfl
theorem OperandBounds.loadDestination : OperandBounds.Statement .loadDestination := rfl
theorem OperandBounds.deleteDestination : OperandBounds.Statement .deleteDestination := rfl
theorem OperandBounds.lookupDestination : OperandBounds.Statement .lookupDestination := rfl
theorem OperandBounds.loadRouteList : OperandBounds.Statement .loadRouteList := rfl
theorem OperandBounds.restartGap : OperandBounds.Statement .restartGap := rfl
theorem OperandBounds.loadThresholdSet : OperandBounds.Statement .loadThresholdSet := rfl
theorem OperandBounds.loadTrunkGroup : OperandBounds.Statement .loadTrunkGroup := rfl
theorem OperandBounds.removeTrunkGroup : OperandBounds.Statement .removeTrunkGroup := rfl
theorem OperandBounds.setGroupState : OperandBounds.Statement .setGroupState := rfl
theorem OperandBounds.blockCircuit : OperandBounds.Statement .blockCircuit := rfl
theorem OperandBounds.unblockCircuit : OperandBounds.Statement .unblockCircuit := rfl
theorem OperandBounds.declareCarrier : OperandBounds.Statement .declareCarrier := rfl
theorem OperandBounds.removeCarrier : OperandBounds.Statement .removeCarrier := rfl
theorem OperandBounds.loadTariff : OperandBounds.Statement .loadTariff := rfl
theorem OperandBounds.pinCarrier : OperandBounds.Statement .pinCarrier := rfl
theorem OperandBounds.unpinCarrier : OperandBounds.Statement .unpinCarrier := rfl
theorem OperandBounds.readGroup : OperandBounds.Statement .readGroup := rfl
theorem OperandBounds.readCircuit : OperandBounds.Statement .readCircuit := rfl
theorem OperandBounds.readContext : OperandBounds.Statement .readContext := rfl
theorem OperandBounds.readRouteList : OperandBounds.Statement .readRouteList := rfl
theorem OperandBounds.readCarrier : OperandBounds.Statement .readCarrier := rfl
theorem OperandBounds.latchCounters : OperandBounds.Statement .latchCounters := rfl
theorem OperandBounds.readLatched : OperandBounds.Statement .readLatched := rfl

end Sys2Proof.Laws
end

