-- ==== Sys2Proof/Tests/Slice0.lean ====
section
/-! SUPPORT. The model's own tests: the smoke of WellFormed, the worked examples of the manual, one step of each command on a
small device, and for every statement with hypotheses a concrete state and operands that meet them. Expected values are
those of the manual's tables or of hand calculation from its rules; each section says which. -/
namespace Sys2Proof.Tests
open Sys2Proof Sys2Proof.Machine
set_option Elab.async false -- one test at a time: run together their threads take more memory than a check allows

/-! ### WellFormed: an ill-formed command for each check (00_scope 2.4) -/

theorem test_tProceedExpiry_context_8192_is_ill_formed : (Instr.tProceedExpiry 8192).wellFormed = false := by decide
theorem test_tClearExpiry_context_8192_is_ill_formed : (Instr.tClearExpiry 8192).wellFormed = false := by decide
theorem test_guardExpiry_group_0_is_ill_formed : (Instr.guardExpiry 0).wellFormed = false := by decide
theorem test_clearingExpiry_circuit_16384_is_ill_formed : (Instr.clearingExpiry 16384).wellFormed = false := by decide
theorem test_probeTimerExpiry_group_256_is_ill_formed : (Instr.probeTimerExpiry 256).wellFormed = false := by decide
theorem test_gapTimerExpiry_list_512_is_ill_formed : (Instr.gapTimerExpiry 512).wellFormed = false := by decide

/-! ### Worked examples of the manual -/

/-- Carrier 5's tariff of section 7.7. -/
def tariffA : Tariff :=
  { periods := [⟨0, 6000⟩, ⟨420, 12000⟩, ⟨1140, 8000⟩], setupFee := 500, mults := [256, 288, 320, 384]
    slopes := [0, 0, 0, 0, 100, 250, 400, 800], floor := 8000, ceiling := 20000, billingStep := 30, minSeconds := 60 }

/-- Section 7.7: minute 599, Congested, S 812 give 15,548. -/
theorem test_quote_of_section_7_7 : tariffA.rate 599 .congested 812 = 15548 := by decide

/-- Section 7.7, "A negative slope": 15,202, the partial term truncated toward zero. -/
theorem test_negative_slope_of_section_7_7 :
    ({ tariffA with slopes := [0, 0, 0, 0, 100, 250, -300, 800] } : Tariff).rate 599 .congested 812 = 15202 := by decide

/-- Section 7.8, "Full occupancy": 19,550, and with M3 at 512 the ceiling 20,000. -/
theorem test_full_occupancy_of_section_7_8 :
    tariffA.rate 599 .critical 1000 = 19550
      ∧ ({ tariffA with mults := [256, 288, 320, 512] } : Tariff).rate 599 .critical 1000 = 20000 := by decide

/-- Section 7.8, "A negative raw rate": raised to the floor 400. -/
theorem test_negative_raw_rate_of_section_7_8 :
    ({ tariffA with
      periods := [⟨0, 1000⟩], mults := [128, 128, 128, 128], slopes := [-2000, 0, 0, 0, 0, 0, 0, 0]
      floor := 400, ceiling := 5000 } : Tariff).rate 599 .clear 100 = 400 := by decide

/-- The quote that section 7.7 locks. -/
def quoteA : Quote :=
  { carrier := 5, rate := 15548, setupFee := 500, billingStep := 30, minSeconds := 60, band := .congested
    source := .localLoad }

/-- Charge, chargeable seconds and clamp flag of a rating. -/
def rated (q : Quote) (answer release : ExTime) : Nat × Nat × Bool :=
  let r := recordOf q 0x00A31C 20 2310 answer release
  (r.charge, r.chargeable, r.clamped)

/-- Section 7.7: 54,918 for 210 seconds. -/
theorem test_charge_of_section_7_7 : rated quoteA ⟨412, 3601250⟩ ⟨412, 3620950⟩ = (54918, 210, false) := by decide

/-- Section 7.8, "Answer and release in the same second" and "Clock set back": 16,048, the second with the flag. -/
theorem test_short_charges_of_section_7_8 :
    rated quoteA ⟨412, 3601250⟩ ⟨412, 3601320⟩ = (16048, 60, false)
      ∧ rated quoteA ⟨412, 3601250⟩ ⟨412, 3595000⟩ = (16048, 60, true) := by decide

/-- Section 7.8, "Saturation": 4,294,967,295 for 200,040 seconds. -/
theorem test_saturated_charge_of_section_7_8 :
    rated { quoteA with rate := 2000000, setupFee := 1000000, billingStep := 60, minSeconds := 0 } ⟨412, 0⟩ ⟨414, 2720000⟩
      = (4294967295, 200040, false) := by decide

/-- Section 9.6: 85,750 for a call across midnight. -/
theorem test_charge_across_midnight_of_section_9_6 :
    rated { quoteA with rate := 9000, setupFee := 250 } ⟨730, 8610250⟩ ⟨731, 25750⟩ = (85750, 570, false) := by decide

/-- Section 4.8: S256 after the four samples. -/
theorem test_smoothing_of_section_4_8 :
    smooth 2 (occupancy 64 ⟨9, 16, 33, 2, 1, 3⟩) 192000 = 195968
      ∧ smooth 2 (occupancy 64 ⟨9, 16, 34, 2, 0, 3⟩) 195968 = 198944
      ∧ smooth 2 (occupancy 64 ⟨0, 16, 42, 3, 1, 2⟩) 198944 = 213208
      ∧ smooth 2 (occupancy 64 ⟨36, 4, 20, 1, 1, 2⟩) 213208 = 185506 := by decide

/-- Section 4.8: the bands, and the note with k at 0. -/
theorem test_bands_of_section_4_8 :
    evalBand ⟨600, 750, 900, 20, 2⟩ 765 .busy = .busy ∧ evalBand ⟨600, 750, 900, 20, 2⟩ 777 .busy = .congested
      ∧ evalBand ⟨600, 750, 900, 20, 2⟩ 832 .congested = .congested
      ∧ evalBand ⟨600, 750, 900, 20, 2⟩ 724 .congested = .busy
      ∧ evalBand ⟨600, 750, 900, 20, 0⟩ 1000 .congested = .critical
      ∧ evalBand ⟨600, 750, 900, 20, 0⟩ 400 .critical = .clear := by decide

/-- List 140 of section 5.7, Active with this G. -/
def list140 (g : Nat) : RouteList :=
  { RouteList.unloaded with
    loaded := true, choices := [⟨66, 0⟩], gapEnable := true, gapFloor := 50, gapMax := 400, gapStep := 100
    gapState := .active, gap := g }

/-- Section 5.7, "The rest of the surge": 350, 400, unchanged, 300, 50, Off. -/
theorem test_gap_of_section_5_7 :
    ((list140 250).adapt .critical).gap = 350 ∧ ((list140 350).adapt .critical).gap = 400
      ∧ ((list140 400).adapt .congested).gap = 400 ∧ ((list140 400).adapt .busy).gap = 300
      ∧ ((list140 100).adapt .busy).gap = 50 ∧ ((list140 50).adapt .busy).gapState = .off := by decide

/-- R100: 60,000 + 10,000 against 65,535, and 200 - 500 against a floor of 50. -/
theorem test_gap_bounds_of_R100 :
    (({ list140 60000 with gapMax := 65535, gapStep := 10000 } : RouteList).adapt .critical).gap = 65535
      ∧ (({ list140 200 with gapStep := 500 } : RouteList).adapt .clear).gap = 50 := by decide

/-- R62: four choices and the pointer at 2. -/
theorem test_pass_order_of_R62 : passOrder 4 2 = [0, 2, 3, 1] := by decide

/-- R54: of entries for the first 3, 7 and 12 of 20 digits, the 12-digit one matches; a 21-digit one would not. -/
theorem test_longest_match_of_R54 :
    (destMatch [⟨List.replicate 3 7, .bar⟩, ⟨List.replicate 12 7, .route 4 none⟩, ⟨List.replicate 7 7, .bar⟩]
      (List.replicate 20 7)).map (·.kind) = some (.route 4 none) := by decide

/-- R152 and R153: the tick that completes a day, and the one that completes day 65,535. -/
theorem test_days_of_R153 :
    (ExTime.mk 730 8639999).tick = ⟨731, 0⟩ ∧ (ExTime.mk 65535 8639999).tick = ⟨0, 0⟩
      ∧ (ExTime.mk 65535 8639999).lastTick = true ∧ (ExTime.mk 65535 8639998).lastTick = false := by decide

/-- The check of R163 (generator x^16 + x^12 + x^5 + 1, preset 0xFFFF) over the nine bytes 31 to 39: 0x29B1. -/
theorem test_crc_of_the_nine_digits :
    crc [0x31, 0x32, 0x33, 0x34, 0x35, 0x36, 0x37, 0x38, 0x39] = 0x29B1#16 := by decide +kernel

/-! ### A small device

One group, number 1, with one circuit, number 5; one call at most, on context 0 with reference 9, over route list 7, whose
only choice is the group. -/

/-- Both-Way, Yielding, guard time 3 ticks, failure threshold 1, probe interval 10 seconds. -/
def cfgA : GroupConfig :=
  { first := 5, size := 1, owner := 0, direction := .bothWay, glare := .yielding, hunt := .oldestFree, guardTime := 3
    reservation := 0, thrSet := 0, theta := 1, probeInterval := 10, bandReport := true }

/-- Group 1 as its circuit 5 makes it. -/
def groupOf (c : Circuit) : Group :=
  { cfg := cfgA, admin := .inService, drainedSent := false, counts := countClasses [c]
    freeQueue := if c.cls = .free then [5] else [], guardList := if c.cls = .guard then [5] else []
    mon := GroupMonitor.fresh }

/-- Circuit 5 of group 1. -/
def circuitIn (cond : Condition) : Circuit := { group := 1, cond := cond, remote := false, localBlock := false }

/-- Route list 7. -/
def list7 : RouteList :=
  { RouteList.unloaded with
    loaded := true, choices := [⟨1, 0⟩], budget := 1, gapEnable := true, gapFloor := 5, gapMax := 9, gap := 5 }

/-- The device in service after 50 ticks, at minute 1 of day 3. -/
def device (c : Circuit) : State :=
  { State.reset with
    circ := { CircuitMap.reset with groups := [(1, groupOf c)], circuits := [(5, c)] }
    routes := { RouteSelector.reset with dests := [⟨[4, 4], .route 7 none⟩, ⟨[4, 5], .bar⟩], lists := [(7, list7)] }
    time := { now := ⟨3, 6000⟩, valid := true, ticks := 50, tickTime := ⟨3, 6000⟩ }
    mgmt := { device := .inService, params := GlobalParams.default } }

/-- Change group 1. -/
def withGroup (f : Group → Group) (s : State) : State := s.updGroup 1 f

/-- The call on circuit 5, in a state that holds it. -/
def callIn (p : Phase) : Context :=
  { callRef := 9, phase := p, number := [4, 4, 1], inCircuit := 77, list := 7, category := 0, priority := false, tried := []
    examined := 0, circuit := if p = .clearing then none else some (1, 5), probe := false, quote := none, slot := false
    seizeTime := ⟨3, 5000⟩, answerTime := if p = .connected then some ⟨3, 5500⟩ else none, lastCause := none
    noFurther := false, timer := if p = .proceeding ∨ p = .clearing then some 50 else none }

/-- The device with one call. -/
def calling (c : Context) : State :=
  { device (circuitIn (if c.circuit.isSome then .seized 0 else .idle)) with
    ctx := { ContextTable.reset with contexts := [(0, c)], refMap := [(9, 0)], inUse := 1, peak := 1 } }

/-- A message at the head of the forward queue. -/
def fwd (f : Frame) (s : State) : State := { s with fwd := { s.fwd with queue := [f], peak := 1 } }

/-- A message at the head of the backward queue. -/
def bwd (f : Frame) (s : State) : State := { s with bwd := { s.bwd with queue := [f], peak := 1 } }

/-- A message without a body. -/
def short (kind key : Nat) (cause : Nat := 0) : Frame := build kind key cause []

/-- A Management Request with tag 3. -/
def request (code : Nat) (params : List Byte) : Frame := build 0x40 0 3 (enc 1 code ++ params)

/-- A Setup with reference 9 for 441. -/
def setupFrame (number : List Digit) (priority : Bool) : Frame :=
  build 0x01 9 0 (enc 2 77 ++ enc 1 (if priority then 128 else 0) ++ enc 1 number.length ++ enc 1 0 ++ packDigits number)

/-- The state after one command. -/
def after (c : Instr) (s : State) : State :=
  match exec c s with
  | .next t => t
  | _ => s

/-! ### One step of each command -/

/-- R171. -/
theorem test_hardReset_clears_contexts : (after .hardReset (calling (callIn .alerting))).ctx.inUse = 0 := by decide

/-- R161, R158. -/
theorem test_resetRelease_starts_sample_timer :
    (after .resetRelease { device (circuitIn .idle) with resetLine := true }).mon.sampleTimer = some 150 := by decide

/-- R152. -/
theorem test_referenceTick_advances : (after .referenceTick (device (circuitIn .idle))).time.now = ⟨3, 6001⟩ := by
  decide +kernel

/-- R163, order 2: a wrong check is a Check error. -/
theorem test_messageArrival_bad_check :
    (after (.messageArrival .backward [0x02, 8, 0, 0, 5, 0, 0, 0]) (device (circuitIn .idle))).bwd.errors.check = 1 := by
  decide +kernel

/-- R162. -/
theorem test_messageArrival_queues :
    (after (.messageArrival .backward (short 0x03 5)) (device (circuitIn .idle))).bwd.queue = [short 0x03 5] := by
  decide +kernel

/-- R165. -/
theorem test_passThrough_forward :
    (after (.passThrough .forward) (fwd (short 0x9C 1) (device (circuitIn .idle)))).fwdOut = [.passed (short 0x9C 1)] := by
  decide +kernel

/-- R7, R30, section 1.8 event 1: the primary carries the call. -/
theorem test_setup_seizes :
    ((after .setup (fwd (setupFrame [4, 4, 1] false) (device (circuitIn .idle)))).context 0).map (·.circuit)
      = some (some (1, 5)) := by decide +kernel

/-- R6, order 1. -/
theorem test_setup_not_in_service :
    (after .setup (fwd (setupFrame [4, 4, 1] false) State.reset)).bwdOut = [.refuse 9 77 .notInService] := by
  decide +kernel

/-- R20: confirmed, released forward, Idle. -/
theorem test_originRelease_ends_call :
    let t := after .originRelease (fwd (short 0x04 9 16) (calling (callIn .alerting)))
    t.bwdOut = [.releaseConfirm 9] ∧ t.fwdOut = [.release 5 16] ∧ t.ctx.inUse = 0 := by decide +kernel

/-- R21. -/
theorem test_originReleaseConfirm_frees :
    (after .originReleaseConfirm (fwd (short 0x05 9) (calling (callIn .clearing)))).ctx.contexts = [] := by decide +kernel

/-- R12. -/
theorem test_progress_alerts :
    ((after .progress (bwd (short 0x02 5) (calling (callIn .proceeding)))).context 0).map (·.phase) = some .alerting := by
  decide +kernel

/-- R13. -/
theorem test_answer_connects :
    ((after .answer (bwd (short 0x03 5) (calling (callIn .alerting)))).context 0).map (·.answerTime)
      = some (some ⟨3, 6000⟩) := by decide +kernel

/-- R16: the cause goes to origin. -/
theorem test_farRelease_ends_call :
    (after .farRelease (bwd (short 0x04 5 18) (calling (callIn .alerting)))).bwdOut = [.release 9 18] := by decide +kernel

/-- R15, R70: a crankback from the only choice. -/
theorem test_farRelease_cranks_back :
    (after .farRelease (bwd (short 0x04 5 4) (calling (callIn .proceeding)))).bwdOut = [.release 9 4] := by decide +kernel

/-- R34: to Guard for 3 ticks. -/
theorem test_farReleaseConfirm_rests :
    ((after .farReleaseConfirm (bwd (short 0x05 5) (device (circuitIn (.releasing 90))))).circuit 5).map (·.cond)
      = some (.guard 53) := by decide +kernel

/-- R38. -/
theorem test_block_takes_from_free_queue :
    ((after .block (bwd (short 0x08 5) (device (circuitIn .idle)))).group 1).map (·.freeQueue) = some [] := by
  decide +kernel

/-- R40. -/
theorem test_unblock_confirms :
    (after .unblock (bwd (short 0x09 5) (device (circuitIn .idle)))).fwdOut = [.unblockConfirm 5] := by decide +kernel

/-- R42, Guard row. -/
theorem test_farSeize_from_guard :
    ((after .farSeize (bwd (short 0x0C 5) (device (circuitIn (.guard 60))))).circuit 5).map (·.cond) = some .farSeized := by
  decide +kernel

/-- R44. -/
theorem test_farClear_rests :
    ((after .farClear (bwd (short 0x0D 5) (device (circuitIn .farSeized)))).circuit 5).map (·.cond) = some (.guard 53) := by
  decide +kernel

/-- R113: an own-network group authorises nobody. -/
theorem test_tariffOffer_unauthorised :
    (after .tariffOffer (bwd (build 0x10 5 0 (enc 1 5 ++ enc 2 730 ++ enc 2 480 ++ encTariff tariffA))
      (device (circuitIn .idle)))).tariffs.unknownRejected = 1 := by decide +kernel

/-- A record waiting for the collector. -/
def recordA : SettlementRecord := { recordOf quoteA 9 1 5 ⟨3, 0⟩ ⟨3, 6000⟩ with seq := 1 }

/-- The device with one record outstanding. -/
def exporting (e : ExportState) : State :=
  { device (circuitIn .idle) with settle := { SettlementQueue.reset with
      queued := [recordA], nextSeq := 2, exportState := e, outstanding := 1
      acceptTimer := if e = .awaitingAccept then some 50 else none } }

/-- R145. -/
theorem test_batchAccept_removes :
    (after .batchAccept (fwd (short 0x22 0) (exporting .awaitingAccept))).settle.queued = [] := by decide +kernel

/-- R147. -/
theorem test_exportHalt_sets_flag : (after .exportHalt (fwd (short 0x23 0) (exporting .stalled))).settle.halt = true := by
  decide +kernel

/-- R148, section 8.6 event 16. -/
theorem test_exportResume_sends_again :
    (after .exportResume (fwd (short 0x24 0) (exporting .stalled))).bwdOut
      = [.record { recordA with resent := true }, .batchEnd 1 1 true] := by decide +kernel

/-- R17: a Release with No Response forward and to origin. -/
theorem test_tProceedExpiry_releases :
    (after (.tProceedExpiry 0) (calling (callIn .proceeding))).fwdOut = [.release 5 11] := by decide +kernel

/-- R22. -/
theorem test_tClearExpiry_frees : (after (.tClearExpiry 0) (calling (callIn .clearing))).ctx.inUse = 0 := by
  decide +kernel

/-- R32. -/
theorem test_guardExpiry_joins_free_queue :
    ((after (.guardExpiry 1) (device (circuitIn (.guard 50)))).group 1).map (·.freeQueue) = some [5] := by decide +kernel

/-- R35. -/
theorem test_clearingExpiry_blocks :
    ((after (.clearingExpiry 5) (device (circuitIn (.releasing 50)))).circuit 5).map (·.localBlock) = some true := by
  decide +kernel

/-- A Suspect group with its gate Closed and its probe timer due. -/
def suspect (x : Group) : Group :=
  { x with mon := { x.mon with health := .suspect, failCount := 1, gate := .closed, probeTimer := some 50 } }

/-- R88. -/
theorem test_probeTimerExpiry_opens :
    ((after (.probeTimerExpiry 1) (withGroup suspect (device (circuitIn .idle)))).group 1).map (·.mon.gate)
      = some .opened := by decide +kernel

/-- List 7 Active with its gate Closed. -/
def gapping (s : State) : State :=
  s.setList 7 { list7 with gapState := .active, gap := 8, gate := .closed, gapTimer := some 50 }

/-- R98. -/
theorem test_gapTimerExpiry_opens :
    ((after (.gapTimerExpiry 7) (gapping (device (circuitIn .idle)))).routeList 7).gate = .opened := by decide +kernel

/-- R146. -/
theorem test_acceptTimerExpiry_stalls :
    (after .acceptTimerExpiry (exporting .awaitingAccept)).settle.exportState = .stalled := by decide +kernel

/-- The device with its sample timer due. -/
def sampling (c : Circuit) : State := { device c with mon := { OccupancyMonitor.reset with sampleTimer := some 50 } }

/-- R79 to R82 with the defaults of R78: O is 1000, S256 a quarter of 256,000. -/
theorem test_sampleExpiry_smooths :
    ((after .sampleExpiry (sampling (circuitIn .farSeized))).group 1).map (·.mon.s256) = some 64000 := by decide +kernel

/-- R174: code 0x7F is not in the table of section 11.3. -/
theorem test_unknownRequest_bad_parameter :
    (after .unknownRequest (fwd (request 0x7F []) State.reset)).bwdOut = [.reply 3 0x7F .badParameter []] := by
  decide +kernel

/-- R175: refused without the time. -/
theorem test_enterService_needs_time :
    (after .enterService (fwd (request 0x01 []) State.reset)).bwdOut = [.reply 3 0x01 .notAvailable []] := by
  decide +kernel

/-- R176. -/
theorem test_quiesce : (after .quiesce (fwd (request 0x02 []) (device (circuitIn .idle)))).mgmt.device = .quiesced := by
  decide +kernel

/-- R179. -/
theorem test_restart_busy :
    (after .restart (fwd (request 0x03 [0]) (calling (callIn .alerting)))).bwdOut = [.reply 3 0x03 .busy []] := by
  decide +kernel

/-- R180, R52: forced. -/
theorem test_restart_forced :
    ((after .restart (fwd (request 0x03 [1]) (calling (callIn .alerting)))).circuit 5).map (·.cond) = some .idle := by
  decide +kernel

/-- R177: the first byte is the device state, the next six the exchange time. -/
theorem test_readDeviceStatus_head :
    (device (circuitIn .idle)).statusBytes.take 8 = [1, 0, 3, 0, 0, 0x17, 0x70, 1] := by decide +kernel

/-- R169. -/
theorem test_clearErrorFlags :
    (after .clearErrorFlags (fwd (request 0x05 []) { device (circuitIn .idle) with
      bwd := { PortState.reset with flags := ⟨true, true, true, true⟩ } })).bwd.flags = ⟨false, false, false, false⟩ := by
  decide +kernel

/-- R156: the reply carries the old time and flag. -/
theorem test_setExchangeTime_replies_old_time :
    (after .setExchangeTime (fwd (request 0x06 [0, 9, 0, 0, 0, 1]) (device (circuitIn .idle)))).bwdOut
      = [.reply 3 0x06 .done [0, 3, 0, 0, 0x17, 0x70, 1]] := by decide +kernel

/-- R178: the low watermark is not below the high one. -/
theorem test_setGlobalParameters_refused :
    (after .setGlobalParameters (fwd (request 0x07 [0, 1, 0, 1, 0, 1, 1, 0, 5, 0, 5, 1]) State.reset)).bwdOut
      = [.reply 3 0x07 .badParameter []] := by decide +kernel

/-- The parameters of Load Destination for 46 over list 7. -/
def dest46 : List Byte := encDigits 8 [4, 6] ++ [0, 0, 7, 0, 0]

/-- R56. -/
theorem test_loadDestination_joins :
    (after .loadDestination (fwd (request 0x10 dest46) (device (circuitIn .idle)))).routes.dests.length = 3 := by
  decide +kernel

/-- R56. -/
theorem test_deleteDestination_leaves :
    (after .deleteDestination (fwd (request 0x11 (encDigits 8 [4, 4])) (device (circuitIn .idle)))).routes.dests
      = [⟨[4, 5], .bar⟩] := by decide +kernel

/-- R56, R182: two digits, Route, list 7, no mask. -/
theorem test_lookupDestination_results :
    (after .lookupDestination (fwd (request 0x12 (encDigits 10 [4, 4, 1])) (device (circuitIn .idle)))).bwdOut
      = [.reply 3 0x12 .done [2, 0x44, 0, 0, 0, 0, 0, 0, 0, 0, 0, 7, 0, 0]] := by decide +kernel

/-- The parameters of Load Route List for this list, with one choice. -/
def listParams (l floor : Nat) : List Byte :=
  enc 2 l ++ [1, 1, 0, 0, 0] ++ List.replicate 28 0 ++ [0, 1] ++ enc 2 floor ++ enc 2 9 ++ enc 2 2

/-- R59, R103. -/
theorem test_loadRouteList_goes_off :
    ((after .loadRouteList (fwd (request 0x18 (listParams 7 6)) (gapping (device (circuitIn .idle))))).routeList 7).gap
      = 6 := by decide +kernel

/-- R102. -/
theorem test_restartGap_to_floor :
    ((after .restartGap (fwd (request 0x19 [0, 7]) (gapping (device (circuitIn .idle))))).routeList 7).gap = 5 := by
  decide +kernel

/-- R78. -/
theorem test_loadThresholdSet :
    (after .loadThresholdSet (fwd (request 0x20 [3, 0, 1, 0, 2, 0, 3, 0, 0, 6]) State.reset)).thresholds 3
      = ⟨1, 2, 3, 0, 6⟩ := by decide +kernel

/-- The parameters of Load Trunk Group: this id, first circuit, size and owner. -/
def groupParams (id first size owner : Nat) : List Byte :=
  enc 1 id ++ enc 2 first ++ enc 2 size ++ [BitVec.ofNat 8 owner, 1, 1, 0, 3, 0, 0, 0, 1, 10, 1]

/-- R47, R48: three new circuits in ascending order. -/
theorem test_loadTrunkGroup_queues :
    ((after .loadTrunkGroup (fwd (request 0x21 (groupParams 2 8 3 0)) State.reset)).group 2).map (·.freeQueue)
      = some [8, 9, 10] := by decide +kernel

/-- A group Out of Service. -/
def stopped (x : Group) : Group := { x with admin := .outOfService }

/-- R49. -/
theorem test_removeTrunkGroup :
    (after .removeTrunkGroup (fwd (request 0x22 [1]) (withGroup stopped (device (circuitIn .idle))))).circ.circuits
      = [] := by decide +kernel

/-- R45, R46: an empty group is reported as it enters Draining, before the reply. -/
theorem test_setGroupState_drains :
    (after .setGroupState (fwd (request 0x23 [1, 1]) (device (circuitIn .idle)))).bwdOut
      = [.notice ⟨3, 6000⟩ (.groupDrained 1), .reply 3 0x23 .done []] := by decide +kernel

/-- R41. -/
theorem test_blockCircuit :
    ((after .blockCircuit (fwd (request 0x24 [0, 5]) (device (circuitIn .idle)))).group 1).map (·.counts.blocked)
      = some 1 := by decide +kernel

/-- R41. -/
theorem test_unblockCircuit :
    ((after .unblockCircuit (fwd (request 0x25 [0, 5]) (device { circuitIn .idle with localBlock := true }))).group 1).map
      (·.counts.free) = some 1 := by decide +kernel

/-- The device with carrier 5 declared. -/
def carrying (f : Carrier → Carrier) : State :=
  { device (circuitIn .idle) with tariffs := { carriers := [(5, f (Carrier.declared tariffA))], unknownRejected := 0 } }

/-- R111. -/
theorem test_declareCarrier :
    ((after .declareCarrier (fwd (request 0x30 (5 :: encTariff tariffA)) State.reset)).carrier 5).map (·.current)
      = some tariffA := by decide +kernel

/-- R112. -/
theorem test_removeCarrier : (after .removeCarrier (fwd (request 0x31 [5]) (carrying id))).tariffs.carriers = [] := by
  decide +kernel

/-- R116, Pending mode. -/
theorem test_loadTariff_pending :
    ((after .loadTariff (fwd (request 0x32 (5 :: 1 :: enc 2 730 ++ enc 2 450 ++ 0 :: encTariff tariffA))
      (carrying id))).carrier 5).map (·.pending) = some (some ⟨tariffA, 730, 450, .localLoad⟩) := by decide +kernel

/-- A pending tariff that carrier 5 has offered. -/
def offered (c : Carrier) : Carrier := { c with pending := some ⟨tariffA, 730, 600, .offered⟩ }

/-- R117, section 6.10 event 9: withdrawn, and the reply says so. -/
theorem test_pinCarrier_withdraws :
    (after .pinCarrier (fwd (request 0x33 [5]) (carrying offered))).bwdOut = [.reply 3 0x33 .done [1]] := by decide +kernel

/-- R117. -/
theorem test_unpinCarrier :
    ((after .unpinCarrier (fwd (request 0x34 [5]) (carrying fun c => { c with pinned := true }))).carrier 5).map
      (·.pinned) = some false := by decide +kernel

/-- R50: configuration first. -/
theorem test_readGroup_results :
    ((groupOf (circuitIn .idle)).bytes 50).take 16 = [0, 5, 0, 1, 0, 1, 1, 0, 3, 0, 0, 0, 1, 10, 1, 0] := by decide +kernel

/-- R50: a Seized circuit names its owner's call reference. -/
theorem test_readCircuit_results :
    (after .readCircuit (fwd (request 0x41 [0, 5]) (calling (callIn .alerting)))).bwdOut
      = [.reply 3 0x41 .done [1, 1, 0, 0, 1, 0, 0, 9, 0, 0, 0, 0]] := by decide +kernel

/-- R177: the index and the state come first. -/
theorem test_readContext_results : ((callIn .connected).bytes 0 50).take 7 = [0, 0, 3, 0, 0, 9, 3] := by decide +kernel

/-- R75: one choice, group 1 without a ceiling. -/
theorem test_readRouteList_results : list7.bytes.take 8 = [1, 1, 0, 0, 0, 1, 1, 1] := by decide +kernel

/-- R122: the current tariff comes first. -/
theorem test_readCarrier_results : (Carrier.declared tariffA).bytes.take 57 = encTariff tariffA := by decide +kernel

/-- R92: the reply carries the time. -/
theorem test_latchCounters_replies_time :
    (after .latchCounters (fwd (request 0x48 [0, 0, 1]) (device (circuitIn .idle)))).bwdOut
      = [.reply 3 0x48 .done [0, 3, 0, 0, 0x17, 0x70]] := by decide +kernel

/-- R93. -/
theorem test_readLatched_empty :
    (after .readLatched (fwd (request 0x49 []) State.reset)).bwdOut = [.reply 3 0x49 .notFound []] := by decide +kernel

/-! ### Witnesses: for every statement with hypotheses, states and operands that meet them together

One theorem a statement, one conjunct a clause, at the boundary of the clause's range where it has one. -/

theorem headed_fwd {f : Frame} {k : Nat} (s : State) (h : kindOf f = k) : (fwd f s).headed .forward k f [] := ⟨rfl, h⟩

theorem headed_bwd {f : Frame} {k : Nat} (s : State) (h : kindOf f = k) : (bwd f s).headed .backward k f [] := ⟨rfl, h⟩

theorem requested_fwd {f : Frame} {code : Nat} (s : State)
    (h : kindOf f = 0x40 ∧ requestCode f = code ∧ requestLength code = some f.length) :
    (fwd f s).requested code f [] := ⟨⟨rfl, h.1⟩, h.2⟩

/-- The idle device. -/
def still : State := device (circuitIn .idle)

/-- The same at this exchange time. -/
def atTime (t : ExTime) : State := { still with time := { still.time with now := t } }

theorem witness_StepRunsFrontCommand :
    ({ still with pending := [.setup, .quiesce] } : State).pending = .setup :: [.quiesce] ∧ still.pending = [] := by decide

theorem witness_ResetLineHoldsAndReleases :
    ({ still with resetLine := true } : State).resetLine = true ∧ still.resetLine = false := by decide

/-- Two expiries wait: the guard expiry of group 1 and the sample expiry. -/
def overdue : State := sampling (circuitIn (.guard 50))

theorem witness_TickAdvancesTime :
    (∀ t ∈ [(⟨3, 6000⟩ : ExTime), ⟨3, 8639998⟩, ⟨65534, 8639999⟩, ⟨65535, 8639999⟩],
      (atTime t).resetLine = false ∧ (atTime t).dueTimers = [] ∧ (atTime t).time.law)
      ∧ overdue.resetLine = false ∧ overdue.dueTimers = [.guard 1, .sample] ∧ overdue.time.law := by
  unfold TimeBase.law; decide +kernel

theorem witness_WholeSecondActivatesDueTariffs :
    let s : State := { atTime ⟨730, 3599999⟩ with tariffs := (carrying offered).tariffs }
    let u : State := { s with mon := { s.mon with sampleTimer := some 51 } }
    s.resetLine = false ∧ s.dueTimers = [] ∧ s.time.now.tick.cs % 100 = 0
      ∧ (s.carrier 5).map (·.pending.isSome) = some true
      ∧ u.resetLine = false ∧ u.dueTimers = [] ∧ ({ u with time := u.time.tick } : State).dueTimers = [.sample]
      ∧ u.time.now.tick.cs % 100 = 0 := by decide +kernel

/-- The device with this many messages on the backward queue. -/
def crowded (n : Nat) : State := { still with bwd := { still.bwd with queue := List.replicate n (short 0x03 5), peak := n } }

theorem witness_ArrivalQueuesOrDiscards :
    still.resetLine = false
      ∧ (crowded 127).bwd.queue.length < 128 ∧ frameError .backward (short 0x03 5) = none
      ∧ 128 ≤ (crowded 128).bwd.queue.length
      ∧ frameError .backward [0x03, 8, 0, 0, 5, 0, 0, 0] = some .check
      ∧ frameError .backward ((short 0x03 5).take 7) = some .length
      ∧ frameError .backward (short 0x22 5) = some .kind := by decide +kernel

/-- R163 in its order, R164: a length field that is not the frame's, seven bytes, 121 bytes, a wrong check (also on a kind
that the port does not accept), a pass-through kind of any length, a kind of the other port, a Progress with a body byte,
and a Management Request without and with its code. -/
theorem test_frame_checks_of_R163 :
    frameError .backward [0x02, 9, 0, 0, 5, 0, 0, 0] = some .length
      ∧ frameError .backward [0x02, 7, 0, 0, 5, 0, 0] = some .length
      ∧ frameError .forward (0x40 :: 121 :: List.replicate 119 0) = some .length
      ∧ frameError .backward [0x22, 8, 0, 0, 5, 0, 0, 0] = some .check
      ∧ frameError .backward (build 0x80 1 0 [1, 2, 3]) = none
      ∧ frameError .forward (short 0x02 5) = some .kind
      ∧ frameError .backward (build 0x02 5 0 [0]) = some .length
      ∧ frameError .forward (build 0x40 0 0 []) = some .length
      ∧ frameError .forward (build 0x40 0 0 [4]) = none := by decide +kernel

/-- A record whose flags byte has the tariff source and the repeat set. -/
def recordB : SettlementRecord :=
  { seq := 0x01020304, carrier := 5, group := 1, circuit := 0x1234, callRef := 0x00A31C, answerTime := ⟨412, 3601250⟩
    releaseTime := ⟨412, 3620950⟩, chargeable := 210, rate := 15548, band := .congested, setupFee := 500, charge := 54918
    source := .offered, clamped := false, resent := true }

/-- One message or more of each kind that has a layout of one frame, and each notice. -/
def emitted : List OutMsg :=
  [.setup 1540 5 77 3 true [4, 4, 1], .setup 16383 255 65535 7 false (List.replicate 214 15), .progress 16777215, .answer 9
    , .release 1540 255, .releaseConfirm 9, .refuse 9 77 .congestion, .blockConfirm 5, .unblockConfirm 5, .record recordB
    , .batchEnd 20 0x01020304 true]
    ++ ([.holdOffer 7168 7168, .resumeOffer 6144 6144, .bandChange 1 .clear .critical 1000, .healthChange 1 .suspect 15
      , .groupDrained 255, .maintenanceBlock 1 16383, .clearingTimeout 16777215, .tariffActivated 5 .offered 65535 1439
      , .offerRejected 63 16383 0 .invalid, .exportStalled 0x01020304 5 300, .portError .backward .overrun 65535].map
        (OutMsg.notice ⟨65535, 8639999⟩))

theorem witness_EmittedMessagesHaveTheirLayout :
    (255 < 256 ∧ 16777215 < 16777216 ∧ (List.replicate 112 (0 : Byte)).length ≤ 112)
      ∧ (∀ m ∈ emitted, ∃ y, m.layout = some y ∧ y.Fit)
      ∧ ∀ n ∈ [0, 109, 110, 13952], (List.replicate n (0 : Byte)).length ≤ 13952 := by
  refine ⟨by decide, ?_, fun n h => ?_⟩
  · simp only [emitted, List.map_cons, List.map_nil, List.cons_append, List.nil_append, List.forall_mem_cons]
    refine ⟨?_, ?_, ?_, ?_, ?_, ?_, ?_, ?_, ?_, ?_, ?_, ?_, ?_, ?_, ?_, ?_, ?_, ?_, ?_, ?_, ?_, ?_, fun m h => by cases h⟩
    all_goals exact ⟨_, rfl, by unfold Layout.Fit Items.Fit; decide +kernel⟩
  · simp only [List.mem_cons, List.not_mem_nil, or_false] at h
    simp only [List.length_replicate]; omega

/-- The bytes before the check, written out from the tables of section 10.6: a Setup for 441 on circuit 1,540 with category
3 and priority, a Refuse for Congestion, a Batch End, a Settlement Record, an Export Stalled and a Port Error notice. -/
theorem test_bytes_of_section_10_6 :
    ((OutMsg.setup 1540 5 77 3 true [4, 4, 1]).wire.map (·.take 13)
        = [[0x01, 15, 0, 6, 4, 0, 0, 77, 0x83, 3, 5, 0x44, 0x10]]
      ∧ (OutMsg.refuse 9 77 .congestion).wire.map (·.take 8) = [[0x06, 10, 0, 0, 9, 4, 0, 77]]
      ∧ (OutMsg.batchEnd 20 0x01020304 true).wire.map (·.take 12) = [[0x21, 14, 0, 0, 0, 0, 20, 1, 2, 3, 4, 1]])
      ∧ (OutMsg.record recordB).wire.map (·.take 44)
        = [[0x20, 46, 0, 0xA3, 0x1C, 0, 1, 2, 3, 4, 5, 1, 0x12, 0x34, 0x01, 0x9C, 0, 0x36, 0xF3, 0x62, 0x01, 0x9C, 0, 0x37,
          0x40, 0x56, 0, 0, 0, 210, 0, 0, 0x3C, 0xBC, 2, 0, 0, 0x01, 0xF4, 0, 0, 0xD6, 0x86, 5]]
      ∧ (OutMsg.notice ⟨412, 3601250⟩ (.exportStalled 0x01020304 5 300)).wire.map (·.take 19)
        = [[0x30, 21, 0, 0, 0, 10, 0x01, 0x9C, 0, 0x36, 0xF3, 0x62, 1, 2, 3, 4, 5, 1, 44]]
      ∧ (OutMsg.notice ⟨412, 3601250⟩ (.portError .backward .overrun 128)).wire.map (·.take 16)
        = [[0x30, 18, 0, 0, 0, 11, 0x01, 0x9C, 0, 0x36, 0xF3, 0x62, 1, 4, 0, 128]] := by decide +kernel

/-- R168, R182: 110 result bytes leave in a part of 109 and a part of one with the final mark; no result bytes, in one
part. -/
theorem test_reply_parts_of_R168 :
    let results : List Byte := (List.range 110).map (BitVec.ofNat 8)
    (OutMsg.reply 7 4 .done results).wire.map (fun f => (f.take 10, f.length))
        = [([0x41, 120, 0, 0, 0, 7, 4, 0, 0, 0], 120), ([0x41, 12, 0, 0, 0, 7, 4, 0, 0x81, 109], 12)]
      ∧ (OutMsg.reply 7 5 .badParameter []).wire.map (·.take 9) = [[0x41, 11, 0, 0, 0, 7, 5, 1, 0x80]] := by decide +kernel

theorem witness_PassThroughLeavesUnchanged :
    ((fwd (short 0x80 1) still).port .forward).queue = short 0x80 1 :: [] ∧ 128 ≤ kindOf (short 0x80 1)
      ∧ ((bwd (short 0xFF 1) still).port .backward).queue = short 0xFF 1 :: [] ∧ 128 ≤ kindOf (short 0xFF 1) := by
  decide +kernel

theorem witness_CommandsWaitForTheirMessage :
    (∀ f, (fwd (short 0x24 0) still).fwd.queue.head? = some f → kindOf f ≠ 0x01)
      ∧ (∀ f, still.bwd.queue.head? = some f → kindOf f ≠ 0x02)
      ∧ (∀ f, (fwd (request 0x02 []) still).fwd.queue.head? = some f →
        ¬ (kindOf f = 0x40 ∧ requestCode f = 0x01 ∧ requestLength 0x01 = some f.length))
      ∧ (∀ f, ((bwd (short 0x03 5) still).port .backward).queue.head? = some f → kindOf f < 128) := by
  refine ⟨?_, ?_, ?_, ?_⟩ <;> rintro f ⟨⟩ <;> decide +kernel

/-- Every one of the 8,192 contexts in use. -/
def fullTable (c : Context) : Table Context := (List.range' 0 8192).map fun i => (i, c)

theorem find_range' {α : Type} (x : α) (i : Nat) :
    ∀ n a, a ≤ i → i < a + n → Table.find i ((List.range' a n).map fun j => (j, x)) = some x
  | 0, a, h, h' => by omega
  | n + 1, a, h, h' => by
    rw [List.range'_succ, List.map_cons, Table.find_cons]
    by_cases e : a = i
    · simp [e]
    · rw [if_neg e]; exact find_range' x i n (a + 1) (by omega) (by omega)

theorem witness_SetupRefusedBeforeRouting :
    (fwd (setupFrame [4] false) State.reset).headed .forward 0x01 (setupFrame [4] false) []
      ∧ State.reset.mgmt.device ≠ .inService
      ∧ still.mgmt.device = .inService ∧ (calling (callIn .alerting)).lookupRef (setupOf (setupFrame [4] false)).callRef ≠ none
      ∧ still.lookupRef (setupOf (setupFrame [4] false)).callRef = none
      ∧ (¬ ∃ i < 8192, ({ still with ctx := { still.ctx with contexts := fullTable (callIn .alerting) } } : State).context i
          = none)
      ∧ (∃ i < 8192, still.context i = none)
      ∧ (setupOf (setupFrame [] false)).count = 0 ∧ (setupOf (setupFrame (List.replicate 21 4) false)).count = 21 := by
  refine ⟨headed_fwd _ (by decide +kernel), by decide +kernel, by decide +kernel, by decide +kernel, by decide +kernel,
    ?_, ⟨0, by decide, by decide⟩, by decide +kernel, by decide +kernel⟩
  rintro ⟨i, h, e⟩
  have := find_range' (callIn .alerting) i 8192 0 (by omega) (by omega)
  simp only [State.context, fullTable, this] at e
  cases e

/-- Number 46 is routed to list 7 for category 3 alone. -/
def masked : State :=
  { still with routes := { still.routes with dests := still.routes.dests ++ [⟨[4, 6], .route 7 (some 0x08#8)⟩] } }

theorem witness_SetupWithoutRouteIsRefused :
    let none' := setupFrame [9] false
    let bar := setupFrame [4, 5] false
    let category := setupFrame [4, 6] false
    ((fwd none' masked).headed .forward 0x01 none' [] ∧ (fwd bar masked).headed .forward 0x01 bar []
      ∧ (fwd category masked).headed .forward 0x01 category [])
      ∧ masked.mgmt.device = .inService ∧ masked.lookupRef 9 = none ∧ (setupOf none').callRef = 9
      ∧ masked.context 0 = none ∧ (setupOf none').count = 1 ∧ (setupOf bar).count = 2
      ∧ destMatch masked.routes.dests (setupOf none').number = none
      ∧ destMatch masked.routes.dests (setupOf bar).number = some ⟨[4, 5], .bar⟩
      ∧ destMatch masked.routes.dests (setupOf category).number = some ⟨[4, 6], .route 7 (some 0x08#8)⟩
      ∧ (0x08#8).getLsbD (setupOf category).category = false :=
  ⟨⟨headed_fwd _ (by decide +kernel), headed_fwd _ (by decide +kernel), headed_fwd _ (by decide +kernel)⟩,
    by decide +kernel⟩

/-- A Setup for 441 reaches list 7 on context 0. -/
theorem reaches_list7 (p : Bool) (s : State) (h1 : s.mgmt.device = .inService) (h2 : s.ctx = ContextTable.reset)
    (h3 : s.routes.dests = still.routes.dests) :
    SetupReaches (fwd (setupFrame [4, 4, 1] p) s) (setupFrame [4, 4, 1] p) [] 0 7 := by
  refine ⟨headed_fwd _ (by cases p <;> decide +kernel), h1, ?_, by decide, ?_, fun j hj => absurd hj (by omega), ?_, ?_,
    [4, 4], none, ?_, fun b hb => by cases hb⟩
  · simp [State.lookupRef, fwd, h2, ContextTable.reset]
  · simp [State.context, fwd, h2, ContextTable.reset]
  · cases p <;> decide +kernel
  · cases p <;> decide +kernel
  · simp only [fwd, h3]; cases p <;> decide +kernel

theorem witness_SetupAtClosedGateIsGapped :
    SetupReaches (fwd (setupFrame [4, 4, 1] false) (gapping still)) (setupFrame [4, 4, 1] false) [] 0 7
      ∧ (setupOf (setupFrame [4, 4, 1] false)).priority = false ∧ ((gapping still).routeList 7).gapState = .active
      ∧ ((gapping still).routeList 7).gate = .closed :=
  ⟨reaches_list7 _ _ rfl rfl rfl, by decide +kernel⟩

/-- A group of carrier 5. -/
def partner (x : Group) : Group := { x with cfg := { x.cfg with owner := 5 } }

/-- Group 1 belongs to carrier 5, and the slot sum is 4,079. -/
def handover : State :=
  withGroup partner
    { carrying id with settle := { SettlementQueue.reset with reservations := 4079 } }

/-- A Suspect group whose gate is Open. -/
def probable (x : Group) : Group := { suspect x with mon := { (suspect x).mon with gate := .opened } }

/-- The first four checks of a choice, without the words of the definitions. -/
def fourChecks (s : State) (priority : Bool) (n : Nat) (ch : Choice) (x : Group) : Prop :=
  s.group ch.group = some x ∧ (x.admin = .inService ∧ ¬ (x.mon.health = .suspect ∧ x.mon.gate = .closed))
    ∧ ¬ (n ≠ 0 ∧ priority = false ∧ x.mon.band = .critical)
    ∧ (if n = 0 ∨ priority = true then 1 ≤ x.counts.free else x.cfg.reservation < x.counts.free)

theorem passes_own {s : State} {now : ExTime} {slots n : Nat} {p : Bool} {ch : Choice} {x : Group}
    (h : fourChecks s p n ch x) (ho : x.cfg.owner = 0) : Passes s now slots p n ch x none :=
  ⟨h.1, h.2.1, h.2.2.1, h.2.2.2, .inl ⟨ho, rfl⟩⟩

theorem passes_partner {s : State} {now : ExTime} {slots n : Nat} {p : Bool} {ch : Choice} {x : Group} (car : Carrier)
    (h : fourChecks s p n ch x)
    (h' : x.cfg.owner ≠ 0 ∧ slots < slotLimit p ∧ s.carrier x.cfg.owner = some car
      ∧ (p = true ∨ ch.ceiling = 0 ∨ (car.quoteOn x now).rate ≤ ch.ceiling)) :
    Passes s now slots p n ch x (some (car.quoteOn x now)) :=
  ⟨h.1, h.2.1, h.2.2.1, h.2.2.2, .inr ⟨h'.1, h'.2.1, car, h'.2.2.1, rfl, h'.2.2.2⟩⟩

/-- A group in service with one Free circuit. -/
def groupWith (owner : Nat) (b : Band) : Group :=
  { groupOf (circuitIn .idle) with
    cfg := { cfgA with owner := owner, first := 40 }, mon := { GroupMonitor.fresh with band := b } }

/-- A route list by its choices, its budget and its pointer. -/
structure Choosing where
  choices : List Choice
  budget : Nat
  pointer : Nat

/-- Five choices, each of which fails another check: no circuit, the band, not equipped, the price, no slot. -/
def five : List Choice := [⟨1, 0⟩, ⟨2, 0⟩, ⟨3, 0⟩, ⟨4, 1⟩, ⟨5, 0⟩]

/-- The reason of each of them. -/
def why (n : Nat) : Reason :=
  ([.noCircuit, .bandCritical, .unavailable, .pricedOut, .settlementFull] : List Reason)[n]?.getD .unavailable

/-- The device with that list 7, beside group 1 the groups of `five` and a sixth that is usable, and the slot sum at
4,080. -/
def amid (x : Choosing) (s : State) : State :=
  { s with
    circ := { s.circ with
      groups := s.circ.groups ++ [(2, groupWith 0 .critical), (4, groupWith 5 .clear), (5, groupWith 5 .clear),
        (6, { groupWith 0 .clear with freeQueue := [40] })]
      circuits := s.circ.circuits ++ [(40, { circuitIn .idle with group := 6 })] }
    routes := { s.routes with
      lists := [(7, { list7 with choices := x.choices, budget := x.budget, pointer := x.pointer })] }
    tariffs := (carrying id).tariffs
    settle := { SettlementQueue.reset with reservations := 4080 } }

/-- Without a circuit in group 1. -/
def choosing (x : Choosing) : State := amid x (device (circuitIn .farSeized))

/-- The alternates of `five` fail in every state that has their groups and the carrier. -/
theorem alternates_fail (s : State) (h2 : s.group 2 = some (groupWith 0 .critical)) (h3 : s.group 3 = none)
    (h4 : s.group 4 = some (groupWith 5 .clear)) (h5 : s.group 5 = some (groupWith 5 .clear))
    (hc : s.carrier 5 = some (Carrier.declared tariffA)) (p : Choice × Nat) (hp : p ∈ five.zipIdx.tail) :
    FailsBy s ⟨3, 6000⟩ 4080 false p.2 p.1 (why p.2) := by
  simp only [five, List.zipIdx, List.tail_cons, List.mem_cons, List.not_mem_nil, or_false] at hp
  rcases hp with rfl | rfl | rfl | rfl
  · exact ⟨_, h2, by unfold Group.usable Group.tooBusy; decide +kernel⟩
  · intro y hy; cases h3.symm.trans hy
  all_goals
    refine ⟨groupWith 5 .clear, Carrier.declared tariffA, ‹_›, ?_, ?_, ?_, by decide, hc, ?_⟩
    · unfold Group.usable; decide +kernel
    · unfold Group.tooBusy; decide +kernel
    · unfold Group.spares; decide +kernel
    · unfold Choice.affords; decide +kernel

theorem five_fail (x : Choosing) (p : Choice × Nat) (hp : p ∈ five.zipIdx) :
    FailsBy (fwd (setupFrame [4, 4, 1] false) (choosing x)) (choosing x).time.now (choosing x).settle.slotSum
      (setupOf (setupFrame [4, 4, 1] false)).priority p.2 p.1 (why p.2) := by
  have e : (setupOf (setupFrame [4, 4, 1] false)).priority = false := by decide +kernel
  rw [e]
  rcases List.mem_cons.mp hp with rfl | hp
  · exact ⟨groupOf (circuitIn .farSeized), rfl, by unfold Group.usable Group.tooBusy Group.spares; decide +kernel⟩
  · exact alternates_fail _ rfl rfl rfl rfl rfl p hp

/-- A Setup for 441 reaches list 7, whose gate lets it in, whose pass has these choices before the primary or alternate
`n`, and whose choice `n` passes its checks with circuit `k` hunted. -/
def Seizable (p : Bool) (s : State) (before : List (Choice × Nat)) (ch : Choice) (n : Nat) (x : Group) (k : Nat)
    (r : Circuit) (q : Option Quote) : Prop :=
  let s' := fwd (setupFrame [4, 4, 1] p) s
  SetupReaches s' (setupFrame [4, 4, 1] p) [] 0 7 ∧ (s'.routeList 7).letsIn (setupOf (setupFrame [4, 4, 1] p)).priority
    ∧ ((s'.routeList 7).choiceLaw ∧ (s'.routeList 7).inTurn = before ++ (ch, n) :: []
      ∧ before.length ≤ (s'.routeList 7).budget)
    ∧ Passes s' s'.time.now s'.settle.slotSum (setupOf (setupFrame [4, 4, 1] p)).priority n ch x q
    ∧ x.hunt = some k ∧ s'.circuit k = some r ∧ r.group = ch.group ∧ r.cls = .free

/-- On the primary, which hunts circuit 5. -/
def SeizableOnPrimary (p : Bool) (s : State) (x : Group) (q : Option Quote) : Prop :=
  Seizable p s [] ⟨1, 0⟩ 0 x 5 (circuitIn .idle) q

/-- List 7 Active with its gate Open. -/
def gateOpen : State := still.setList 7 { list7 with gapState := .active, gap := 8 }

/-- The gate Off, an Open gate, a Closed gate before a priority call; a Suspect group behind an Open probe gate; a handover
at the last free slot. -/
theorem witness_primary_of_SetupSeizesOnFirstUsableChoice :
    SeizableOnPrimary false still (groupOf (circuitIn .idle)) none
      ∧ SeizableOnPrimary false gateOpen (groupOf (circuitIn .idle)) none
      ∧ SeizableOnPrimary true (gapping still) (groupOf (circuitIn .idle)) none
      ∧ SeizableOnPrimary false (withGroup probable still) (probable (groupOf (circuitIn .idle))) none
      ∧ SeizableOnPrimary false handover (partner (groupOf (circuitIn .idle)))
          (some ((Carrier.declared tariffA).quoteOn (partner (groupOf (circuitIn .idle))) ⟨3, 6000⟩)) := by
  refine ⟨⟨reaches_list7 _ _ rfl rfl rfl, ?_, ?_, passes_own ?_ ?_, ?_⟩,
    ⟨reaches_list7 _ _ rfl rfl rfl, ?_, ?_, passes_own ?_ ?_, ?_⟩,
    ⟨reaches_list7 _ _ rfl rfl rfl, ?_, ?_, passes_own ?_ ?_, ?_⟩,
    ⟨reaches_list7 _ _ rfl rfl rfl, ?_, ?_, passes_own ?_ ?_, ?_⟩,
    ⟨reaches_list7 _ _ rfl rfl rfl, ?_, ?_, passes_partner (Carrier.declared tariffA) ?_ ?_, ?_⟩⟩
  all_goals first
    | decide +kernel
    | (unfold RouteList.letsIn; decide +kernel)
    | (unfold RouteList.choiceLaw; decide +kernel)
    | (unfold fourChecks; decide +kernel)

/-- The alternate before the pointer, after the primary and the two alternates from the pointer have failed. -/
theorem witness_SetupSeizesOnFirstUsableChoice :
    let x : Choosing := ⟨[⟨1, 0⟩, ⟨6, 0⟩, ⟨3, 0⟩, ⟨4, 1⟩], 3, 2⟩
    let before : List (Choice × Nat) := [(⟨1, 0⟩, 0), (⟨3, 0⟩, 2), (⟨4, 1⟩, 3)]
    Seizable false (choosing x) before ⟨6, 0⟩ 1 { groupWith 0 .clear with freeQueue := [40] } 40
        { circuitIn .idle with group := 6 } none
      ∧ ∀ p ∈ before, FailsBy (fwd (setupFrame [4, 4, 1] false) (choosing x)) (choosing x).time.now
          (choosing x).settle.slotSum (setupOf (setupFrame [4, 4, 1] false)).priority p.2 p.1 (why p.2) := by
  refine ⟨⟨reaches_list7 _ _ rfl rfl rfl, .inl rfl, ?_, passes_own ?_ rfl, ?_⟩, fun p hp => five_fail _ p ?_⟩
  · unfold RouteList.choiceLaw; decide +kernel
  · unfold fourChecks; decide +kernel
  · decide +kernel
  · revert p; decide +kernel

/-- Every choice examined, and a budget of two alternates of four. -/
theorem witness_SetupWithoutUsableChoiceIsRefused :
    let f := setupFrame [4, 4, 1] false
    ∀ b ∈ [4, 2],
      let s := fwd f (choosing ⟨five, b, 4⟩)
      let list := s.routeList 7
      SetupReaches s f [] 0 7 ∧ list.letsIn (setupOf f).priority ∧ (list.choices.map (·.group)).Nodup
        ∧ 1 ≤ list.pointer ∧ list.pointer ≤ max 1 (list.choices.length - 1)
        ∧ (list.inTurn.take (list.budget + 1)).length = b + 1 ∧ (list.inTurn.drop (list.budget + 1)).length = 4 - b
        ∧ ∀ p ∈ list.inTurn.take (list.budget + 1),
            FailsBy s s.time.now s.settle.slotSum (setupOf f).priority p.2 p.1 (why p.2) := by
  intro f b hb
  simp only [List.mem_cons, List.not_mem_nil, or_false] at hb
  rcases hb with rfl | rfl
  all_goals
    refine ⟨reaches_list7 _ _ rfl rfl rfl, .inl rfl, ?_, ?_, ?_, ?_, ?_, fun p hp => five_fail _ p ?_⟩
  case inl.refine_6 => revert p; decide +kernel
  case inr.refine_6 => revert p; decide +kernel
  all_goals decide +kernel

/-- A probe call in Proceeding on a Suspect group. -/
def probing : Context := { callIn .proceeding with probe := true }

theorem witness_OriginReleaseEndsUnratedCall :
    let f := short 0x04 9 16
    ∀ c ∈ [probing, callIn .alerting, callIn .connected],
      let s := fwd f (withGroup suspect (calling c))
      (s.fwd.queue = f :: [] ∧ kindOf f = 0x04) ∧ s.lookupRef (keyOf f) = some 0 ∧ s.context 0 = some c
        ∧ c.callRef = keyOf f ∧ c.phase ≠ .clearing ∧ c.circuit = some (1, 5) ∧ (c.quote = none ∨ c.phase ≠ .connected)
        ∧ s.circuit 5 = some (circuitIn (.seized 0)) ∧ (circuitIn (.seized 0)).group = 1 ∧ (s.group 1).isSome := by
  decide +kernel

/-- An answered handover call. -/
def handedOver : Context := { callIn .connected with quote := some quoteA, slot := true }

/-- The device with that call and its carrier, near the end of the sequence numbers. -/
def rating : State :=
  { calling handedOver with
    tariffs := (carrying id).tariffs
    settle := { SettlementQueue.reset with reservations := 1, nextSeq := 4294967295 } }

theorem witness_ReleaseRatesAnsweredCall :
    (∀ s ∈ [fwd (short 0x04 9 16) rating, bwd (short 0x04 5 16) rating],
      Owns s 0 handedOver 1 5 (circuitIn (.seized 0)) (groupOf (circuitIn (.seized 0)))
        ∧ (s.carrier quoteA.carrier).isSome = true ∧ s.settle.nextSeq ≤ 4294967295)
      ∧ (handedOver.phase = .connected ∧ handedOver.quote = some quoteA ∧ handedOver.answerTime = some ⟨3, 5500⟩)
      ∧ ((fwd (short 0x04 9 16) rating).fwd.queue = short 0x04 9 16 :: [] ∧ kindOf (short 0x04 9 16) = 0x04
        ∧ (fwd (short 0x04 9 16) rating).lookupRef (keyOf (short 0x04 9 16)) = some 0
        ∧ handedOver.callRef = keyOf (short 0x04 9 16))
      ∧ (bwd (short 0x04 5 16) rating).bwd.queue = short 0x04 5 16 :: [] ∧ kindOf (short 0x04 5 16) = 0x04
        ∧ keyOf (short 0x04 5 16) % 16384 = 5 := by
  unfold Owns; decide +kernel

theorem witness_OriginMessagesOutsideACall :
    (∀ p ∈ [(Phase.clearing, 0x05), (.clearing, 0x04), (.alerting, 0x05)],
      let f := short p.2 9
      let s := fwd f (calling (callIn p.1))
      (s.fwd.queue = f :: [] ∧ kindOf f = p.2) ∧ s.lookupRef (keyOf f) = some 0 ∧ s.context 0 = some (callIn p.1)
        ∧ (callIn p.1).callRef = keyOf f ∧ (callIn p.1).phase = p.1)
      ∧ ∀ k ∈ [0x04, 0x05], (fwd (short k 8) still).lookupRef (keyOf (short k 8)) = none ∧ kindOf (short k 8) = k := by
  decide +kernel

/-- The call holds circuit 5 of group 1. -/
theorem owns (c : Context) (h : c.circuit = some (1, 5)) :
    Owns (calling c) 0 c 1 5 (circuitIn (.seized 0)) (groupOf (circuitIn (.seized 0))) := by
  refine ⟨rfl, h, ?_, rfl, rfl, ?_⟩ <;> simp [calling, h] <;> rfl

theorem owns_bwd (f : Frame) (c : Context) (h : c.circuit = some (1, 5)) :
    Owns (bwd f (calling c)) 0 c 1 5 (circuitIn (.seized 0)) (groupOf (circuitIn (.seized 0))) := owns c h

theorem witness_ProgressInEachState :
    ∀ p ∈ [Phase.proceeding, .alerting, .connected],
      (bwd (short 0x02 5) (calling (callIn p))).headed .backward 0x02 (short 0x02 5) [] ∧ keyOf (short 0x02 5) % 16384 = 5
        ∧ (callIn p).phase = p
        ∧ Owns (bwd (short 0x02 5) (calling (callIn p))) 0 (callIn p) 1 5 (circuitIn (.seized 0)) (groupOf (circuitIn (.seized 0))) := by
  intro p hp
  refine ⟨headed_bwd _ (by decide +kernel), by decide +kernel, by cases p <;> rfl, owns_bwd _ _ ?_⟩
  cases p <;> first | rfl | simp at hp

theorem witness_AnswerInEachState :
    ∀ p ∈ [Phase.proceeding, .alerting, .connected],
      (bwd (short 0x03 5) (calling (callIn p))).headed .backward 0x03 (short 0x03 5) [] ∧ keyOf (short 0x03 5) % 16384 = 5
        ∧ (callIn p).phase = p
        ∧ Owns (bwd (short 0x03 5) (calling (callIn p))) 0 (callIn p) 1 5 (circuitIn (.seized 0)) (groupOf (circuitIn (.seized 0))) := by
  intro p hp
  refine ⟨headed_bwd _ (by decide +kernel), by decide +kernel, by cases p <;> rfl, owns_bwd _ _ ?_⟩
  cases p <;> first | rfl | simp at hp

theorem witness_FarReleaseEndsUnratedCall :
    (∀ p ∈ [Phase.proceeding, .alerting, .connected],
      let f := short 0x04 5 16
      (bwd f (calling (callIn p))).headed .backward 0x04 f [] ∧ keyOf f % 16384 = 5
        ∧ Owns (bwd f (calling (callIn p))) 0 (callIn p) 1 5 (circuitIn (.seized 0)) (groupOf (circuitIn (.seized 0)))
        ∧ (callIn p).phase = p ∧ kindByteOf f ∉ [4, 17] ∧ (callIn p).quote = none)
      ∧ (let f := short 0x04 5 19
        (∀ x ∈ [(id : Group → Group), probable],
          Owns (bwd f (withGroup x (calling probing))) 0 probing 1 5 (circuitIn (.seized 0))
            (x (groupOf (circuitIn (.seized 0)))))
          ∧ probing.phase = .proceeding ∧ probing.probe = true ∧ kindOf f = 0x04 ∧ keyOf f % 16384 = 5
          ∧ kindByteOf f = 19) := by
  refine ⟨?_, by unfold Owns; decide +kernel⟩
  intro p hp
  refine ⟨headed_bwd _ (by decide +kernel), by decide +kernel, owns_bwd _ _ ?_, by cases p <;> rfl, by decide +kernel, rfl⟩
  cases p <;> first | rfl | simp at hp

/-- The messages and the timer by which the call on circuit 5 may lose it. -/
def Losable (s : State) (c : Context) : Prop :=
  (∀ cause ∈ [4, 17], (bwd (short 0x04 5 cause) s).bwd.queue = [short 0x04 5 cause] ∧ kindOf (short 0x04 5 cause) = 0x04
      ∧ keyOf (short 0x04 5 cause) % 16384 = 5 ∧ kindByteOf (short 0x04 5 cause) = cause)
    ∧ ((bwd (short 0x0C 5) s).bwd.queue = [short 0x0C 5] ∧ kindOf (short 0x0C 5) = 0x0C ∧ keyOf (short 0x0C 5) % 16384 = 5
      ∧ (groupOf (circuitIn (.seized 0))).cfg.direction = .bothWay
      ∧ (groupOf (circuitIn (.seized 0))).cfg.glare = .yielding)
    ∧ c.timer = some 50 ∧ 50 ≤ s.time.ticks ∧ s.time.tickTime = s.time.now

/-- The call loses circuit 5 with these choices left, in this order. -/
def Losing (s : State) (c : Context) (left : List (Choice × Nat)) : Prop :=
  (Owns s 0 c 1 5 (circuitIn (.seized 0)) (groupOf (circuitIn (.seized 0))) ∧ c.phase = .proceeding
    ∧ (s.routeList c.list).choiceLaw ∧ (s.routeList c.list).leftFor c 1 = left) ∧ Losable s c

/-- Every group tried; the budget spent and the mark of R1 before four untried alternates; four alternates that fail, of
which the budget lets two or all be examined. -/
theorem witness_LossWithoutUsableChoiceReleasesCall :
    (Losing (calling probing) probing []
      ∧ Losing (amid ⟨five, 4, 4⟩ (calling { probing with examined := 4 })) { probing with examined := 4 } []
      ∧ Losing (amid ⟨five, 4, 4⟩ (calling { probing with noFurther := true })) { probing with noFurther := true } [])
      ∧ Losing (amid ⟨five, 2, 3⟩ (calling probing)) probing [(⟨4, 1⟩, 3), (⟨5, 0⟩, 4)]
      ∧ Losing (amid ⟨five, 4, 3⟩ (calling probing)) probing [(⟨4, 1⟩, 3), (⟨5, 0⟩, 4), (⟨2, 0⟩, 1), (⟨3, 0⟩, 2)]
      ∧ ∀ x, ∀ p ∈ five.zipIdx.tail, FailsBy (amid x (calling probing)) (amid x (calling probing)).time.now
          ((amid x (calling probing)).slotsWithout probing) probing.priority p.2 p.1 (why p.2) := by
  refine ⟨⟨?_, ?_, ?_⟩, ?_, ?_, fun x p hp => alternates_fail _ rfl rfl rfl rfl rfl p hp⟩
  all_goals unfold Losing Losable Owns RouteList.choiceLaw; decide +kernel

/-- The group that circuit 6 is free in. -/
def second (owner : Nat) : Group := { groupWith owner .clear with freeQueue := [6] }

/-- The device with the call on circuit 5, a second group with circuit 6 Free, and list 7 over these choices. -/
def roomy (owner : Nat) (choices : List Choice) : State :=
  let s := calling probing
  { s with
    circ := { s.circ with
      groups := s.circ.groups ++ [(2, second owner)]
      circuits := s.circ.circuits ++ [(6, { circuitIn .idle with group := 2 })] }
    routes := { s.routes with lists := [(7, { list7 with choices := choices })] }
    tariffs := (carrying id).tariffs
    settle := { SettlementQueue.reset with reservations := 4079 } }

/-- The call loses circuit 5 and may seize circuit 6 on choice `n`, the one that is left. -/
def Onward (s : State) (n owner : Nat) (q : Option Quote) : Prop :=
  Losing s probing [(⟨2, 20000⟩, n)] ∧ ((second owner).hunt = some 6 ∧ s.circuit 6 = some { circuitIn .idle with group := 2 })
    ∧ Passes s s.time.now (s.slotsWithout probing) probing.priority n ⟨2, 20000⟩ (second owner) q

/-- One choice left, an alternate, a primary, a handover; and two alternates that fail before one that passes, with
another behind it. -/
theorem witness_LossReseizesOnFirstUsableChoice :
    let s := amid ⟨[⟨1, 0⟩, ⟨2, 0⟩, ⟨3, 0⟩, ⟨4, 1⟩, ⟨6, 0⟩, ⟨5, 0⟩], 4, 2⟩ (calling probing)
    let y : Group := { groupWith 0 .clear with freeQueue := [40] }
    let before : List (Choice × Nat) := [(⟨3, 0⟩, 2), (⟨4, 1⟩, 3)]
    (({ circuitIn .idle with group := 2 } : Circuit).cls = .free
      ∧ Onward (roomy 0 [⟨1, 0⟩, ⟨2, 20000⟩]) 1 0 none ∧ Onward (roomy 0 [⟨2, 20000⟩, ⟨1, 0⟩]) 0 0 none
      ∧ Onward (roomy 5 [⟨1, 0⟩, ⟨2, 20000⟩]) 1 5 (some ((Carrier.declared tariffA).quoteOn (second 5) ⟨3, 6000⟩)))
      ∧ Losing s probing (before ++ (⟨6, 0⟩, 4) :: [(⟨5, 0⟩, 5)])
      ∧ (y.hunt = some 40 ∧ s.circuit 40 = some { circuitIn .idle with group := 6 }
        ∧ ({ circuitIn .idle with group := 6 } : Circuit).cls = .free)
      ∧ Passes s s.time.now (s.slotsWithout probing) probing.priority 4 ⟨6, 0⟩ y none
      ∧ ∀ p ∈ before, FailsBy s s.time.now (s.slotsWithout probing) probing.priority p.2 p.1 (why p.2) := by
  refine ⟨⟨by decide, ⟨?_, ?_, passes_own ?_ ?_⟩, ⟨?_, ?_, passes_own ?_ ?_⟩,
    ⟨?_, ?_, passes_partner (Carrier.declared tariffA) ?_ ?_⟩⟩, ?_, ?_, passes_own ?_ ?_,
    fun p hp => alternates_fail _ rfl rfl rfl rfl rfl p ?_⟩
  all_goals first
    | decide +kernel
    | (revert p; decide +kernel)
    | (unfold Losing Losable Owns RouteList.choiceLaw; decide +kernel)
    | (unfold fourChecks; decide +kernel)

/-- Conditions without an owner. -/
def unowned : List Condition := [.idle, .farSeized, .guard 60, .releasing 60]

theorem witness_FarMessagesWithoutOwner :
    (∀ k ∈ [0x02, 0x03, 0x04, 0x05], kindOf (short k 5) = k ∧ keyOf (short k 5) % 16384 = 5)
      ∧ (∀ c ∈ unowned, (device (circuitIn c)).circuit 5 = some (circuitIn c)
          ∧ (device (circuitIn c)).group (circuitIn c).group = some (groupOf (circuitIn c)))
      ∧ (∀ c ∈ [Condition.idle, .farSeized, .guard 60], ∀ i d, (circuitIn c).cond ≠ .seized i
          ∧ (circuitIn c).cond ≠ .releasing d)
      ∧ (circuitIn (.releasing 60)).cond = .releasing 60
      ∧ ((calling (callIn .alerting)).circuit 5 = some (circuitIn (.seized 0))
          ∧ ((calling (callIn .alerting)).group 1).isSome ∧ (circuitIn (.seized 0)).cond = .seized 0)
      ∧ (∀ k ∈ [0x02, 0x03, 0x04, 0x05, 0x08, 0x09, 0x0C, 0x0D], kindOf (short k 16383) = k
          ∧ still.circuit (keyOf (short k 16383) % 16384) = none) := by
  refine ⟨by decide +kernel, by decide +kernel, ?_, rfl, by decide +kernel, by decide +kernel⟩
  intro c hc i d
  constructor <;> (rintro rfl; simp at hc)

theorem witness_BlocksMoveOneFlag :
    (∀ c ∈ [circuitIn .idle, { circuitIn .idle with remote := true, localBlock := true }, circuitIn .farSeized],
      (device c).circuit 5 = some c ∧ (device c).group c.group = some (groupOf c))
      ∧ (∀ k ∈ [0x08, 0x09], kindOf (short k 5) = k ∧ keyOf (short k 5) % 16384 = 5)
      ∧ (∀ p ∈ [(0x24, 5), (0x25, 5), (0x24, 16383), (0x25, 16384)],
          let f := request p.1 (enc 2 p.2)
          kindOf f = 0x40 ∧ requestCode f = p.1 ∧ requestLength p.1 = some f.length ∧ field 0 2 (paramsOf f) = p.2)
      ∧ still.circuit 16383 = none := by decide +kernel

/-- The device whose group has this direction and glare role. -/
def seizable (d : Direction) (g : GlareRole) (c : Context) : State :=
  withGroup (fun x => { x with cfg := { x.cfg with direction := d, glare := g } }) (calling c)

theorem witness_FarSeizeByCondition :
    (kindOf (short 0x0C 5) = 0x0C ∧ keyOf (short 0x0C 5) % 16384 = 5)
      ∧ ((seizable .outgoing .yielding (callIn .alerting)).group 1).map (·.cfg.direction) = some .outgoing
      ∧ (∀ c ∈ [circuitIn .idle, { circuitIn .idle with remote := true }, circuitIn (.guard 60), circuitIn .farSeized,
            circuitIn (.releasing 60)], (device c).circuit 5 = some c ∧ (device c).group 1 = some (groupOf c)
              ∧ (groupOf c).cfg.direction = .bothWay)
      ∧ (∀ p ∈ [Phase.proceeding, .alerting],
          ((seizable .bothWay .controlling (callIn p)).group 1).map (fun x => (x.cfg.direction, x.cfg.glare))
            = some (.bothWay, .controlling)
          ∧ (seizable .bothWay .controlling (callIn p)).circuit 5 = some (circuitIn (.seized 0))
          ∧ (seizable .bothWay .controlling (callIn p)).context 0 = some (callIn p) ∧ (callIn p).phase = p) := by
  decide +kernel

theorem witness_FarClearEndsFarSeizure :
    (kindOf (short 0x0D 5) = 0x0D ∧ keyOf (short 0x0D 5) % 16384 = 5)
      ∧ (∀ c ∈ [circuitIn .farSeized, circuitIn .idle], (device c).circuit 5 = some c
          ∧ (device c).group c.group = some (groupOf c))
      ∧ (circuitIn .idle).cond ≠ .farSeized
      ∧ keyOf (short 0x0D 16383) % 16384 = 16383 ∧ still.circuit 16383 = none := by decide +kernel

/-- A Tariff Offer on circuit 5 that claims this carrier, with this minute and body. -/
def offerFrame (claimed minute : Nat) (t : Tariff) : Frame :=
  build 0x10 5 0 (enc 1 claimed ++ enc 2 730 ++ enc 2 minute ++ encTariff t)

/-- Carrier 5 owns group 1. -/
def owning (f : Carrier → Carrier) : State :=
  withGroup partner (carrying f)

theorem tariffA_inRange : tariffA.InRange := by
  constructor <;> decide +kernel

theorem witness_TariffOfferIsJudged :
    (∀ m ∈ [1439, 1440], kindOf (offerFrame 5 m tariffA) = 0x10 ∧ (offerOf (offerFrame 5 m tariffA)).circuit = 5
        ∧ (offerOf (offerFrame 5 m tariffA)).claimed = 5 ∧ (offerOf (offerFrame 5 m tariffA)).minute = m
        ∧ (offerOf (offerFrame 5 m tariffA)).body = some tariffA)
      ∧ tariffA.InRange
      ∧ (∀ c ∈ [0, 6, 64], (offerOf (offerFrame c 0 tariffA)).claimed = c)
      ∧ (still.circuit 5).isSome ∧ (still.group 1).map (·.cfg.owner) = some 0
      ∧ ({ still with circ := CircuitMap.reset } : State).circuit 5 = none
      ∧ (∀ b ∈ [true, false], ((owning fun c => { c with pinned := b }).carrier 5).map (·.pinned) = some b
          ∧ ((owning fun c => { c with pinned := b }).group 1).map (·.cfg.owner) = some 5) :=
  ⟨by decide +kernel, tariffA_inRange, by decide +kernel⟩

theorem witness_CollectorDrivesExport :
    (∀ k ∈ [0x22, 0x23, 0x24], kindOf (short k 0) = k)
      ∧ (∀ e ∈ [ExportState.awaitingAccept, .stalled, .ready], (exporting e).settle.exportState = e
          ∧ (exporting e).settle.queued ≠ [])
      ∧ still.settle.exportState = .ready ∧ still.settle.queued = [] := by decide +kernel

theorem witness_CircuitTimersExpire :
    50 ≤ still.time.ticks
      ∧ (∀ c ∈ [circuitIn (.guard 50), { circuitIn (.guard 50) with remote := true }, circuitIn (.releasing 50)],
          (device c).circuit 5 = some c ∧ (device c).group c.group = some (groupOf c))
      ∧ (groupOf (circuitIn (.guard 50))).guardList.head? = some 5 := by decide +kernel

theorem witness_TimersOfOneOwnerExpire :
    ((calling (callIn .clearing)).context 0 = some (callIn .clearing) ∧ (callIn .clearing).phase = .clearing
      ∧ (callIn .clearing).timer = some 50 ∧ 50 ≤ (calling (callIn .clearing)).time.ticks)
      ∧ ((exporting .awaitingAccept).settle.exportState = .awaitingAccept
        ∧ (exporting .awaitingAccept).settle.acceptTimer = some 50 ∧ 50 ≤ (exporting .awaitingAccept).time.ticks
        ∧ (exporting .awaitingAccept).settle.queued = recordA :: [])
      ∧ 50 ≤ still.time.ticks
      ∧ (∀ f ∈ [suspect, fun x => { suspect x with mon := { (suspect x).mon with health := .normal } }],
          ((withGroup f still).group 1).map (·.mon.probeTimer) = some (some 50))
      ∧ ((gapping still).routeList 7).gapTimer = some 50 := by decide +kernel

theorem witness_SampleEvaluatesGroups :
    (∀ c ∈ [circuitIn .farSeized, circuitIn .idle], (sampling c).mon.sampleTimer = some 50
        ∧ 50 ≤ (sampling c).time.ticks ∧ Table.wf (sampling c).circ.groups = true)
      ∧ ((sampling (circuitIn .farSeized)).routeList 7 = list7 ∧ list7.loaded = true ∧ list7.gapEnable = true
        ∧ list7.choices.head? = some ⟨1, 0⟩ ∧ (groupOf (circuitIn .farSeized)).admin ≠ .outOfService)
      ∧ ((sampling (circuitIn .idle)).routeList 8).loaded = false := by decide +kernel

theorem witness_TimersNotDueDoNothing :
    let s : State := { calling (callIn .proceeding) with time := { still.time with ticks := 49 } }
    (∀ c, s.context 0 = some c → ∀ d, c.timer = some d → s.time.ticks < d)
      ∧ (∀ x k r d, s.group 1 = some x → x.guardList.head? = some k → s.circuit k = some r → r.cond = .guard d →
          s.time.ticks < d)
      ∧ (∀ r d, s.circuit 5 = some r → r.cond = .releasing d → s.time.ticks < d)
      ∧ (∀ x, s.group 1 = some x → ∀ d, x.mon.probeTimer = some d → s.time.ticks < d)
      ∧ (∀ d, (s.routeList 7).gapTimer = some d → s.time.ticks < d)
      ∧ (∀ d, s.settle.acceptTimer = some d → s.time.ticks < d)
      ∧ (∀ d, s.mon.sampleTimer = some d → s.time.ticks < d) := by
  refine ⟨?_, ?_, ?_, ?_, ?_, ?_, ?_⟩
  · rintro c ⟨⟩ d ⟨⟩; decide
  · rintro x k r d ⟨⟩ ⟨⟩
  · rintro r d ⟨⟩ ⟨⟩
  · rintro x ⟨⟩ d ⟨⟩
  · rintro d ⟨⟩
  · rintro d ⟨⟩
  · rintro d ⟨⟩; decide

/-- A frame is a Management Request with this code, of the length that R182 gives. -/
def asks (code : Nat) (f : Frame) : Bool :=
  decide (kindOf f = 0x40 ∧ requestCode f = code ∧ requestLength code = some f.length)

theorem requested_of_asks {code : Nat} {f : Frame} (s : State) (h : asks code f = true) :
    (fwd f s).requested code f [] := requested_fwd s (of_decide_eq_true h)

/-- The device in this state, with this time-valid flag. -/
def standing (d : DeviceState) (valid : Bool) : State :=
  { still with mgmt := { still.mgmt with device := d }, time := { still.time with valid := valid } }

theorem witness_DeviceStateJudgesRequests :
    (∀ f ∈ [request 0x7F [], request 0x01 [0]], kindOf f = 0x40 ∧ requestLength (requestCode f) ≠ some f.length)
      ∧ asks 0x01 (request 0x01 []) = true ∧ asks 0x02 (request 0x02 []) = true ∧ asks 0x03 (request 0x03 [0]) = true
      ∧ State.reset.mgmt.device = .unconfigured ∧ still.mgmt.device = .inService
      ∧ (∀ v ∈ [true, false], (standing .unconfigured v).mgmt.device = .unconfigured
          ∧ (standing .unconfigured v).time.valid = v)
      ∧ (standing .quiesced false).mgmt.device = .quiesced ∧ still.mgmt.device ≠ .unconfigured := by decide +kernel

theorem witness_RestartClearsCalls :
    asks 0x03 (request 0x03 [0]) = true ∧ asks 0x03 (request 0x03 [1]) = true
      ∧ field 0 1 (paramsOf (request 0x03 [0])) = 0 ∧ field 0 1 (paramsOf (request 0x03 [1])) ≠ 0
      ∧ still.mgmt.device ≠ .unconfigured ∧ Table.wf still.routes.lists = true
      ∧ (calling (callIn .alerting)).mgmt.device ≠ .unconfigured ∧ Table.wf (calling (callIn .alerting)).routes.lists = true
      ∧ 0 < (calling (callIn .alerting)).ctx.inUse
      ∧ still.ctx.inUse = 0 ∧ still.settle.reservations = 0 ∧ still.settle.queued = [] := by decide +kernel

theorem witness_ReadsAnswerAndChangeNothing :
    asks 0x04 (request 0x04 []) = true
      ∧ (∀ n ∈ [0, 1, 20, 21], let f := request 0x12 (enc 1 n ++ List.replicate 10 0x44)
          asks 0x12 f = true ∧ (digitStringOf 0 10 (paramsOf f)).count = n)
      ∧ destMatch still.routes.dests [4] = none ∧ (destMatch still.routes.dests (List.replicate 20 4)).isSome = true
      ∧ (∀ p ∈ [(0x40, 1), (0x40, 2), (0x44, 0), (0x44, 1), (0x44, 5), (0x44, 63), (0x44, 64)],
          let f := request p.1 (enc 1 p.2)
          asks p.1 f = true ∧ field 0 1 (paramsOf f) = p.2)
      ∧ (still.group 1).isSome = true ∧ still.group 2 = none
      ∧ (∀ p ∈ [(0x41, 5), (0x41, 16383), (0x41, 16384), (0x43, 7), (0x43, 511), (0x43, 512)],
          let f := request p.1 (enc 2 p.2)
          asks p.1 f = true ∧ field 0 2 (paramsOf f) = p.2)
      ∧ (still.circuit 5).isSome = true ∧ still.circuit 16383 = none
      ∧ (∀ r ∈ [8, 9], asks 0x42 (request 0x42 (enc 3 r)) = true ∧ field 0 3 (paramsOf (request 0x42 (enc 3 r))) = r)
      ∧ (calling (callIn .alerting)).lookupRef 8 = none ∧ (calling (callIn .alerting)).lookupRef 9 = some 0
      ∧ (calling (callIn .alerting)).context 0 = some (callIn .alerting)
      ∧ ((carrying id).carrier 5).isSome = true ∧ (carrying id).carrier 1 = none ∧ (carrying id).carrier 63 = none
      ∧ (State.reset.statusItems.Fit ∧ (exporting .awaitingAccept).statusItems.Fit)
      ∧ (∀ e ∈ still.routes.dests, e.pfx.length ≤ 15 ∧ e.items.Fit)
      ∧ ((suspect (groupOf (circuitIn .idle))).items 0).Fit
      ∧ ((calling probing).circuitItems (circuitIn (.seized 0))).Fit ∧ (still.circuitItems (circuitIn (.guard 60))).Fit
      ∧ (∀ c ∈ [handedOver, callIn .clearing], c.number.length ≤ 20 ∧ (c.items 8191 50).Fit)
      ∧ (list7.items.Fit ∧ RouteList.unloaded.items.Fit) ∧ (offered (Carrier.declared tariffA)).items.Fit := by
  unfold Items.Fit; decide +kernel

theorem witness_FlagsClearedAndTimeSet :
    asks 0x05 (request 0x05 []) = true
      ∧ ∀ cs ∈ [0, 8639999, 8640000], let f := request 0x06 (enc 2 65535 ++ enc 4 cs)
        asks 0x06 f = true ∧ field 2 4 (paramsOf f) = cs := by decide +kernel

/-- The parameters of Set Global Parameters. -/
def globals (sample high low batch : Nat) : List Byte :=
  enc 2 1 ++ enc 2 1 ++ enc 2 1 ++ enc 1 sample ++ enc 2 high ++ enc 2 low ++ enc 1 batch

theorem witness_GlobalParametersReplaced :
    (∀ p ∈ [(1, 1, 0, 1), (255, 8192, 8191, 64), (0, 1, 0, 1), (1, 0, 0, 1), (1, 8193, 0, 1), (1, 5, 5, 1), (1, 1, 0, 0),
          (1, 1, 0, 65)],
        let f := request 0x07 (globals p.1 p.2.1 p.2.2.1 p.2.2.2)
        let g := globalParamsOf (paramsOf f)
        asks 0x07 f = true ∧ (g.samplePeriod, g.highWater, g.lowWater, g.batchSize) = p)
      ∧ ((calling (callIn .alerting)).ctx.offer = .opened ∧ 1 ≤ (calling (callIn .alerting)).ctx.inUse) := by
  decide +kernel

/-- 8,192 different prefixes of four digits. -/
def prefixOf (i : Nat) : List Digit :=
  [BitVec.ofNat 4 (i / 4096), BitVec.ofNat 4 (i / 256), BitVec.ofNat 4 (i / 16), BitVec.ofNat 4 i]

theorem prefixOf_inj {i j : Nat} (hi : i < 8192) (hj : j < 8192) (h : prefixOf i = prefixOf j) : i = j := by
  simp only [prefixOf, List.cons.injEq, and_true, ← BitVec.toNat_inj, BitVec.toNat_ofNat] at h
  omega

/-- A full destination table. -/
def fullDests : List DestEntry := (List.range 8192).map fun i => ⟨prefixOf i, .bar⟩

theorem fullDests_nodup : (fullDests.map (·.pfx)).Nodup := by
  simp only [fullDests, List.map_map]
  refine List.Nodup.map_on (fun i hi j hj h => ?_) List.nodup_range
  exact prefixOf_inj (List.mem_range.mp hi) (List.mem_range.mp hj) h

theorem witness_DestinationsLoadedAndDeleted :
    (still.routes.dests.map (·.pfx)).Nodup
      ∧ ((fullDests.map (·.pfx)).Nodup ∧ 8192 ≤ fullDests.length
          ∧ ∀ e ∈ fullDests, e.pfx ≠ (loadDestOf (paramsOf (request 0x10 dest46))).pfx.digits)
      ∧ (asks 0x10 (request 0x10 dest46) = true ∧ (loadDestOf (paramsOf (request 0x10 dest46))).pfx = ⟨2, [4, 6]⟩
          ∧ (loadDestOf (paramsOf (request 0x10 dest46))).kind = 0
          ∧ (loadDestOf (paramsOf (request 0x10 dest46))).list = 7
          ∧ (loadDestOf (paramsOf (request 0x10 dest46))).maskPresent = false)
      ∧ (let f := request 0x10 (enc 1 16 ++ List.replicate 8 0 ++ [0, 0, 7, 0, 0]);
          asks 0x10 f = true ∧ ¬ (loadDestOf (paramsOf f)).pfx.count ≤ 15)
      ∧ (let f := request 0x10 (encDigits 8 [4] ++ [1, 0xFF, 0xFF, 0, 0]);
          asks 0x10 f = true ∧ (loadDestOf (paramsOf f)).kind = 1 ∧ (loadDestOf (paramsOf f)).list = 0xFFFF)
      ∧ (∀ d ∈ [[4, 4], [4, 6]], let f := request 0x11 (encDigits 8 d)
          asks 0x11 f = true ∧ (digitStringOf 0 8 (paramsOf f)).digits = d
            ∧ (digitStringOf 0 8 (paramsOf f)).count = d.length)
      ∧ (∃ e ∈ still.routes.dests, e.pfx = [4, 4]) ∧ (∀ e ∈ still.routes.dests, e.pfx ≠ [4, 6]) := by
  refine ⟨by decide +kernel, ⟨fullDests_nodup, by simp [fullDests], ?_⟩, by decide +kernel⟩
  have h : (loadDestOf (paramsOf (request 0x10 dest46))).pfx.digits = [4, 6] := by decide +kernel
  rw [h]
  intro e he
  simp only [fullDests, List.mem_map] at he
  obtain ⟨i, -, rfl⟩ := he
  simp [prefixOf]

theorem witness_RouteListsLoadedAndGapRestarted :
    (∀ p ∈ [(511, 1), (511, 9), (512, 1), (7, 0), (7, 10)], let f := request 0x18 (listParams p.1 p.2)
        let r := loadListOf (paramsOf f)
        asks 0x18 f = true ∧ r.list = p.1 ∧ r.gapFloor = p.2 ∧ r.gapMax = 9 ∧ r.count = 1 ∧ r.choices = [⟨1, 0⟩]
          ∧ r.budget = 0)
      ∧ (∀ l ∈ [7, 8, 511, 512], asks 0x19 (request 0x19 (enc 2 l)) = true
          ∧ field 0 2 (paramsOf (request 0x19 (enc 2 l))) = l)
      ∧ ((gapping still).routeList 7).loaded = true ∧ ((gapping still).routeList 511).loaded = false := by decide +kernel

theorem witness_ThresholdSetsLoaded :
    ∀ p ∈ [(15, 6), (16, 6), (15, 7)], let f := request 0x20 (enc 1 p.1 ++ [0, 1, 0, 2, 3, 0xE7, 0, 200] ++ enc 1 p.2)
      asks 0x20 f = true ∧ field 0 1 (paramsOf f) = p.1 ∧ field 1 2 (paramsOf f) = 1 ∧ field 3 2 (paramsOf f) = 2
        ∧ field 5 2 (paramsOf f) = 999 ∧ field 7 2 (paramsOf f) = 200 ∧ field 9 1 (paramsOf f) = p.2 := by decide +kernel

/-- The circuits of the small device keep the law of the Circuit Map. -/
theorem still_circ_law : still.circ.Law := by
  refine ⟨by decide, by decide, by decide, ?_⟩
  intro p hp
  simp only [still, device, List.mem_singleton] at hp
  subst hp
  refine ⟨by decide, fun k => ?_, by decide, by decide, fun k => ?_, by decide, fun k => ?_, ?_⟩
  · by_cases h : 5 = k
    · subst h; simp [still, device, Table.find, GroupConfig.holds, groupOf, cfgA, circuitIn]
    · simp only [still, device, Table.find, if_neg h, GroupConfig.holds, groupOf, cfgA]
      simp only [reduceCtorEq, false_and, exists_false, iff_false]
      intro hk
      have := of_decide_eq_true hk
      omega
  · by_cases h : 5 = k
    · subst h; decide
    · simp [still, device, Table.find, h, groupOf, circuitIn, Circuit.cls, Ne.symm h]
  · by_cases h : 5 = k
    · subst h; decide
    · simp [still, device, Table.find, h, groupOf, circuitIn, Circuit.cls]
  · exact ⟨by decide, by decide, by decide⟩

theorem witness_TrunkGroupLoaded :
    still.circ.Law ∧ State.reset.circ.Law
      ∧ (∀ p ∈ [(1, 5, 2, 0), (2, 6, 1024, 0), (255, 15360, 1024, 0), (2, 6, 1025, 0), (2, 5, 1, 0), (2, 6, 1, 63)],
          let f := request 0x21 (groupParams p.1 p.2.1 p.2.2.1 p.2.2.2)
          let q := loadGroupOf (paramsOf f)
          asks 0x21 f = true ∧ (q.id, q.first, q.size, q.owner) = p ∧ q.probeInterval = 10 ∧ q.thrSet = 0)
      ∧ (still.circuit 5).map (·.group) = some 1 ∧ still.carrier 63 = none
      ∧ (still.group 1).map (·.admin) = some .inService
      ∧ ((withGroup stopped still).group 1).map (·.admin) = some .outOfService
      ∧ still.group 2 = none ∧ still.group 255 = none := by
  refine ⟨still_circ_law, ⟨by decide, by decide, by decide, ?_⟩, by decide +kernel⟩
  intro p hp; cases hp

/-- Circuit 5 is Idle, so that group 1 rests wholly. -/
theorem still_rests : (withGroup stopped still).restsWholly 1 := by
  intro k r h _
  simp only [withGroup, State.updGroup_circuit] at h
  by_cases e : 5 = k
  · subst e
    simp only [still, device, State.circuit, Table.find, if_true, Option.some.injEq] at h
    rw [← h]; rfl
  · simp [still, device, State.circuit, Table.find, e] at h

theorem witness_TrunkGroupRemovedOrSet :
    still.circ.Law ∧ (withGroup stopped still).restsWholly 1
      ∧ (∀ g ∈ [1, 2], asks 0x22 (request 0x22 [BitVec.ofNat 8 g]) = true
          ∧ field 0 1 (paramsOf (request 0x22 [BitVec.ofNat 8 g])) = g)
      ∧ (∀ p ∈ [(1, 0), (1, 1), (1, 2), (1, 3), (2, 2), (2, 3)],
          let f := request 0x23 (enc 1 p.1 ++ enc 1 p.2)
          asks 0x23 f = true ∧ field 0 1 (paramsOf f) = p.1 ∧ field 1 1 (paramsOf f) = p.2)
      ∧ (still.group 1).isSome = true ∧ still.group 2 = none
      ∧ ((withGroup stopped still).group 1).map (·.admin) = some .outOfService :=
  ⟨still_circ_law, still_rests, by decide +kernel⟩

/-- A tariff whose floor exceeds its ceiling. -/
def badTariff : Tariff := { tariffA with floor := 25000 }

theorem witness_CarriersDeclaredAndRemoved :
    Table.wf (carrying id).circ.groups = true ∧ tariffA.InRange ∧ ¬ badTariff.InRange
      ∧ (∀ p ∈ [(0, tariffA), (1, tariffA), (5, tariffA), (63, tariffA), (64, tariffA), (5, badTariff)],
          let f := request 0x30 (enc 1 p.1 ++ encTariff p.2)
          asks 0x30 f = true ∧ field 0 1 (paramsOf f) = p.1 ∧ tariffOf ((paramsOf f).drop 1) = some p.2)
      ∧ (∀ id' ∈ [0, 5, 63, 64], asks 0x31 (request 0x31 (enc 1 id')) = true
          ∧ field 0 1 (paramsOf (request 0x31 (enc 1 id'))) = id')
      ∧ ((carrying id).carrier 5).isSome = true ∧ (carrying id).carrier 63 = none
      ∧ ((owning id).group 1).map (·.cfg.owner) = some 5 ∧ ((carrying id).group 1).map (·.cfg.owner) = some 0 := by
  refine ⟨by decide +kernel, tariffA_inRange, fun h => absurd h.bounds.1 (by decide), by decide +kernel⟩

theorem witness_TariffsLoadedAndPinned :
    tariffA.InRange
      ∧ (∀ p ∈ [(5, 0, 0, tariffA), (5, 1, 1439, tariffA), (5, 1, 1440, tariffA), (5, 2, 0, tariffA), (0, 0, 0, tariffA),
            (64, 0, 0, tariffA), (63, 0, 0, tariffA), (5, 0, 0, badTariff)],
          let f := request 0x32 (enc 1 p.1 ++ enc 1 p.2.1 ++ enc 2 730 ++ enc 2 p.2.2.1 ++ [1] ++ encTariff p.2.2.2)
          let q := loadTariffOf (paramsOf f)
          asks 0x32 f = true ∧ (q.carrier, q.mode, q.minute) = (p.1, p.2.1, p.2.2.1) ∧ q.body = some p.2.2.2
            ∧ field 0 1 (paramsOf f) = p.1)
      ∧ (∀ code ∈ [0x33, 0x34], ∀ id' ∈ [0, 5, 63, 64], asks code (request code (enc 1 id')) = true
          ∧ field 0 1 (paramsOf (request code (enc 1 id'))) = id')
      ∧ (carrying id).carrier 63 = none ∧ ((carrying id).carrier 5).map (·.pending) = some none
      ∧ ((carrying offered).carrier 5).map (fun c => c.pending.map (·.source)) = some (some .offered) :=
  ⟨tariffA_inRange, by decide +kernel⟩

theorem witness_LatchCopiesCounters :
    (∀ p ∈ [(3, 0), (0, 0), (0, 256), (1, 512), (2, 0), (2, 64), (0, 1), (0, 255), (1, 0), (1, 511), (2, 1), (2, 5),
          (2, 63)],
        let f := request 0x48 (enc 1 p.1 ++ enc 2 p.2)
        asks 0x48 f = true ∧ field 0 1 (paramsOf f) = p.1 ∧ field 1 2 (paramsOf f) = p.2)
      ∧ (still.group 1).isSome = true ∧ still.group 255 = none
      ∧ ((carrying id).carrier 5).isSome = true ∧ (carrying id).carrier 63 = none
      ∧ asks 0x49 (request 0x49 []) = true ∧ still.mon.latch = none
      ∧ ((still.latch ⟨.routeList, 7, ⟨3, 0⟩, true, .list ListCounters.zero⟩).mon.latch).isSome = true
      ∧ (∀ n ∈ [LatchedCounters.group (groupOf (circuitIn .idle)).mon.traffic, .list list7.counters,
          .carrier (Carrier.declared tariffA).counters], (Latch.mk .routeList 511 ⟨65535, 8639999⟩ true n).items.Fit) := by
  unfold Items.Fit; decide +kernel

/-- The three entries of section 3.8. -/
def destsOf38 : List DestEntry :=
  [⟨[4, 4], .route 12 none⟩, ⟨[4, 4, 2, 0], .route 90 (some 0x0F#8)⟩, ⟨[4, 4, 2, 0, 7, 1], .bar⟩]

theorem witness_LongestPrefixMatches :
    (destsOf38.map (·.pfx)).Nodup
      ∧ (destMatch destsOf38 [4, 4, 2, 0, 7, 9, 4, 6, 0, 1, 1, 3]).map (·.pfx) = some [4, 4, 2, 0]
      ∧ destMatch destsOf38 [4, 5] = none := by decide

/-- A new call at its selection pass, and one whose primary is tried, over a list with group 1 as primary or as
alternate. -/
def passing (c : Context) (choices : List Choice) : State :=
  { (still.setList 7 { list7 with choices := choices }) with
    ctx := { ContextTable.reset with contexts := [(0, { c with circuit := none })], refMap := [(9, 0)], inUse := 1 } }

theorem witness_SeizedChoicePassesChecks :
    (passing (callIn .proceeding) [⟨1, 0⟩]).context 0 = some { callIn .proceeding with circuit := none }
      ∧ (∃ s', (passing (callIn .proceeding) [⟨1, 0⟩]).selectionPass ⟨3, 6000⟩ 0 7 = (s', .seized 1 5))
      ∧ (∃ s', (passing (callIn .proceeding) [⟨2, 0⟩, ⟨1, 0⟩]).selectionPass ⟨3, 6000⟩ 0 7 = (s', .seized 1 5))
      ∧ (∃ s', ({ passing (callIn .proceeding) [⟨1, 8000⟩] with
            circ := handover.circ, tariffs := handover.tariffs, settle := handover.settle } : State).selectionPass
          ⟨3, 6000⟩ 0 7 = (s', .seized 1 5)) :=
  ⟨by decide, ⟨_, Prod.ext rfl (by decide +kernel)⟩, ⟨_, Prod.ext rfl (by decide +kernel)⟩,
    ⟨_, Prod.ext rfl (by decide +kernel)⟩⟩

theorem witness_OccupancyIsBusyShare :
    9 + 16 + 33 + 2 + 1 + 3 = 64 ∧ 64 - 16 ≠ 0 ∧ 0 + 4 + 0 + 0 + 0 + 0 = 4 ∧ 4 - 4 = 0 := by decide

theorem witness_SmoothingStepStaysBetween :
    6 ≤ 6 ∧ 1000 ≤ 1000 ∧ 256000 ≤ 256000 ∧ 192000 ≤ 256 * 812 ∧ 256 * 400 < 213208 := by decide

theorem witness_BandTestSettles :
    (1 ≤ 600 ∧ 600 < 750 ∧ 750 < 900)
      ∧ ((Band.busy).value < 3 ∧ (⟨600, 750, 900, 20, 2⟩ : ThresholdSet).bound ((Band.busy).value + 1) + 20 ≤ 770)
      ∧ (0 < (Band.congested).value ∧ 749 < (⟨600, 750, 900, 20, 2⟩ : ThresholdSet).bound (Band.congested).value) := by
  decide

theorem witness_GapFollowsBand :
    (∀ g ∈ [50, 250], (list140 g).gapFloor ≤ (list140 g).gap ∧ (list140 g).gapState = .active)
      ∧ (list140 50).gap = (list140 50).gapFloor ∧ (list140 250).gapFloor < (list140 250).gap
      ∧ ({ list140 50 with gapState := .off } : RouteList).gapState = .off
      ∧ (Band.busy).value ≤ 1 ∧ 2 ≤ (Band.congested).value := by decide

/-- Carrier 9's tariff of section 7.8, whose raw rate is negative. -/
def tariffB : Tariff :=
  { tariffA with
    periods := [⟨0, 1000⟩], mults := [128, 128, 128, 128], slopes := [-2000, 0, 0, 0, 0, 0, 0, 0], floor := 400
    ceiling := 5000 }

theorem witness_RateFollowsTariff :
    tariffA.InRange ∧ tariffB.InRange ∧ 1000 ≤ 1000
      ∧ tariffB.rawRate 599 .clear 100 < tariffB.floor ∧ (tariffA.floor : Int) ≤ tariffA.rawRate 599 .congested 812
      ∧ tariffA.rawRate 599 .congested 812 ≤ tariffA.ceiling := by
  refine ⟨tariffA_inRange, by constructor <;> decide, by decide⟩

theorem witness_TariffBodyReadsBack : tariffA.InRange ∧ (encTariff tariffA).length = 57 :=
  ⟨tariffA_inRange, by decide +kernel⟩

/-- The small device keeps every law. -/
theorem still_law : still.Law where
  time := by unfold TimeBase.law; decide
  fwd := ⟨by decide, by decide, by rintro f ⟨⟩⟩
  bwd := ⟨by decide, by decide, by rintro f ⟨⟩⟩
  params := by decide
  ctx := by
    refine ⟨by decide, by decide, by decide, fun r i => ?_, by decide, by decide, by decide, by decide⟩
    simp [still, device, State.reset, ContextTable.reset]
  contexts := by rintro p ⟨⟩
  circ := still_circ_law
  routes := by
    refine ⟨by decide, by decide, by decide, fun p hp => ?_⟩
    simp only [still, device, List.mem_singleton] at hp
    subst hp
    exact ⟨by decide, ⟨by decide, rfl, rfl, rfl⟩, by decide, by decide, by decide, by decide, by decide⟩
  tariffs := ⟨by decide, by rintro p ⟨⟩⟩
  settle := ⟨by decide, by decide, by decide, rfl, rfl, fun _ => rfl⟩
  owners := by
    intro i g k
    constructor
    · rintro ⟨c, h, -⟩
      simp [still, device, State.context, State.reset, ContextTable.reset] at h
    · rintro ⟨r, h, hc, -⟩
      by_cases e : 5 = k
      · subst e
        simp only [still, device, State.circuit, Table.find, if_true, Option.some.injEq] at h
        rw [← h] at hc; cases hc
      · simp [still, device, State.circuit, Table.find, e] at h
  slots := by decide
  carriers := by decide

/-- The small device with a command in front of its queue. -/
def commanded : State := { fwd (setupFrame [4, 4, 1] false) still with pending := [.setup] }

theorem witness_StepKeepsCircuitLaw :
    commanded.circ.Law ∧ step commanded = .next (after .setup { commanded with pending := [] }) :=
  ⟨still_circ_law, rfl⟩

theorem witness_StepKeepsRouteLaw :
    commanded.routes.law ∧ step commanded = .next (after .setup { commanded with pending := [] }) :=
  ⟨still_law.routes, rfl⟩

theorem witness_StepKeepsSettlementLaw :
    commanded.settle.law ∧ commanded.mgmt.params.valid = true
      ∧ step commanded = .next (after .setup { commanded with pending := [] }) :=
  ⟨still_law.settle, still_law.params, rfl⟩

theorem witness_StepKeepsEveryLaw :
    ({ still with pending := [.referenceTick] } : State).Law
      ∧ step { still with pending := [.referenceTick] } = .next (after .referenceTick still) :=
  ⟨{ still_law with }, rfl⟩

theorem witness_StepKeepsChargeEquation :
    (∀ r ∈ (exporting .awaitingAccept).settle.queued,
        r.charge = min (r.setupFee + (r.chargeable * r.rate + 30) / 60) 4294967295 ∧ r.chargeable ≤ 4294967295)
      ∧ step { exporting .awaitingAccept with pending := [.acceptTimerExpiry] }
          = .next (after .acceptTimerExpiry (exporting .awaitingAccept)) :=
  ⟨by decide +kernel, rfl⟩

end Sys2Proof.Tests
end

