-- ==== Sys2Proof/Proofs/Tables.lean ====
section
/-! SUPPORT. The sparse tables up to the order of their entries, and what holds of every entry. -/
namespace Sys2Proof.Machine

variable {α : Type}

theorem Table.nodup_of_wf {t : Table α} (hw : Table.wf t = true) : t.Nodup :=
  ((Table.wf_iff t).mp hw).imp fun h e => by subst e; exact Nat.lt_irrefl _ h

/-- In a canonical table what a number reads and what the table lists are the same. -/
theorem Table.mem_iff_find {t : Table α} (hw : Table.wf t = true) {i : Nat} {x : α} :
    (i, x) ∈ t ↔ Table.find i t = some x := ⟨Table.find_of_mem hw, Table.mem_of_find⟩

theorem Table.forall_mem_iff {t : Table α} (hw : Table.wf t = true) {P : Nat × α → Prop} :
    (∀ p ∈ t, P p) ↔ ∀ i x, Table.find i t = some x → P (i, x) :=
  ⟨fun h _ _ hx => h _ (Table.mem_of_find hx), fun h _ hp => h _ _ (Table.find_of_mem hw hp)⟩

/-- An entry and the rest of its table. -/
theorem Table.perm_of_find {t : Table α} (hw : Table.wf t = true) {i : Nat} {x : α} (h : Table.find i t = some x) :
    t.Perm ((i, x) :: Table.del i t) := by
  have hd : (Table.del i t).Nodup := Table.nodup_of_wf (Table.wf_del i hw)
  refine (List.perm_ext_iff_of_nodup (Table.nodup_of_wf hw)
    (List.nodup_cons.mpr ⟨fun hm => (Table.mem_del.mp hm).2 rfl, hd⟩)).mpr fun p => ?_
  obtain ⟨j, y⟩ := p
  rw [List.mem_cons, Table.mem_del, Table.mem_iff_find hw]
  by_cases hj : j = i
  · subst hj; simp [h, eq_comm]
  · simp [hj]

theorem Table.del_put (i : Nat) (x : α) (t : Table α) : Table.del i (Table.put i x t) = Table.del i t := by
  induction t with
  | nil => simp [Table.put, Table.del]
  | cons p t ih =>
    obtain ⟨k, v⟩ := p
    simp only [Table.put]
    split
    · simp [Table.del]
    · split
      · rename_i hk; simp [Table.del, hk]
      · simp [Table.del, ih]

theorem Table.del_adjust (i : Nat) (f : α → α) (t : Table α) : Table.del i (Table.adjust i f t) = Table.del i t := by
  induction t with
  | nil => rfl
  | cons p t ih => obtain ⟨k, v⟩ := p; by_cases hk : k = i <;> simp [Table.adjust, Table.del, hk, ih]

theorem Table.put_perm {t : Table α} (hw : Table.wf t = true) (i : Nat) (x : α) :
    (Table.put i x t).Perm ((i, x) :: Table.del i t) := by
  simpa [Table.del_put] using Table.perm_of_find (Table.wf_put i x hw) (Table.find_put_self i x t)

theorem Table.adjust_perm {t : Table α} (hw : Table.wf t = true) {i : Nat} {x : α} (f : α → α)
    (h : Table.find i t = some x) : (Table.adjust i f t).Perm ((i, f x) :: Table.del i t) := by
  simpa [Table.del_adjust] using
    Table.perm_of_find (i := i) (x := f x) (Table.wf_adjust i f hw) (by simp [h])

theorem Table.del_of_find_none {t : Table α} {i : Nat} (h : Table.find i t = none) : Table.del i t = t := by
  rw [Table.del_eq_filter, List.filter_eq_self]
  intro p hp
  have hk := Table.find_eq_none.mp h
  simp only [decide_eq_true_eq]
  exact fun e => hk (e ▸ List.mem_map_of_mem hp)

theorem Table.adjust_of_find_none {t : Table α} {i : Nat} (f : α → α) (h : Table.find i t = none) :
    Table.adjust i f t = t := by
  induction t with
  | nil => rfl
  | cons p t ih =>
    obtain ⟨k, v⟩ := p
    rw [Table.find_cons] at h
    split at h
    · simp at h
    · rename_i hk; simp [Table.adjust, hk, ih h]

theorem Table.nodup_keys {t : Table α} (hw : Table.wf t = true) : (Table.keys t).Nodup :=
  ((Table.wf_keys t).mp hw).imp fun h => Nat.ne_of_lt h

end Sys2Proof.Machine
end

