-- ==== Sys2Proof/Proofs/CircuitLaw.lean ====
section
/-! SUPPORT. The laws of the Circuit Map (R26 to R31): what each operation on circuits and groups keeps of them. -/
namespace Sys2Proof.Machine

/-! ### Counts by class -/

theorem Counts.upd_comm (n : Counts) (a b : CircuitClass) :
    (n.upd a (· + 1)).upd b (· + 1) = (n.upd b (· + 1)).upd a (· + 1) := by
  cases a <;> cases b <;> rfl

theorem Counts.move_of_upd (n : Counts) (a b : CircuitClass) : (n.upd a (· + 1)).move a b = n.upd b (· + 1) := by
  cases a <;> cases b <;> rfl

theorem countClasses_cons (c : Circuit) (cs : List Circuit) :
    countClasses (c :: cs) = (countClasses cs).upd c.cls (· + 1) := by
  have comm : RightCommutative fun (n : Counts) (c : Circuit) => n.upd c.cls (· + 1) :=
    ⟨fun n a b => Counts.upd_comm n a.cls b.cls⟩
  have h : (c :: cs).Perm (cs ++ [c]) := (List.perm_append_singleton c cs).symm
  rw [countClasses, h.foldl_eq, List.foldl_append]
  rfl

theorem countClasses_perm {cs ds : List Circuit} (h : cs.Perm ds) : countClasses cs = countClasses ds := by
  have comm : RightCommutative fun (n : Counts) (c : Circuit) => n.upd c.cls (· + 1) :=
    ⟨fun n a b => Counts.upd_comm n a.cls b.cls⟩
  exact h.foldl_eq _

/-- Every circuit is counted in one class (R28). -/
theorem countClasses_total (cs : List Circuit) : (countClasses cs).total = cs.length := by
  induction cs with
  | nil => rfl
  | cons c cs ih =>
    rw [countClasses_cons, List.length_cons, ← ih]
    cases c.cls <;> simp only [Counts.upd, Counts.total] <;> omega

/-! ### The circuits of a group -/

theorem mem_membersOf {g : Nat} {t : Table Circuit} {p : Nat × Circuit} : p ∈ membersOf g t ↔ p ∈ t ∧ p.2.group = g := by
  simp [membersOf]

/-- The circuits of a group, one circuit apart. -/
theorem membersOf_perm {t u : Table Circuit} {k : Nat} {c : Circuit} (h : t.Perm ((k, c) :: u)) (g : Nat) :
    (membersOf g t).Perm (if c.group = g then (k, c) :: membersOf g u else membersOf g u) := by
  have := h.filter fun p => decide (p.2.group = g)
  rw [List.filter_cons] at this
  simpa [membersOf] using this

/-- A circuit that stays in its group changes its group's counts by its class, and no other group's (R27). -/
theorem countClasses_put {t : Table Circuit} (hw : Table.wf t = true) {k : Nat} {c c' : Circuit}
    (h : Table.find k t = some c) (hg : c'.group = c.group) (g : Nat) :
    countClasses ((membersOf g (Table.put k c' t)).map (·.2)) =
      if c.group = g then (countClasses ((membersOf g t).map (·.2))).move c.cls c'.cls
      else countClasses ((membersOf g t).map (·.2)) := by
  have old := countClasses_perm ((membersOf_perm (Table.perm_of_find hw h) g).map (·.2))
  have new := countClasses_perm ((membersOf_perm (Table.put_perm hw k c') g).map (·.2))
  rw [old, new, hg]
  split
  · simp only [List.map_cons, countClasses_cons, Counts.move_of_upd]
  · rfl

/-! ### The lists of a group -/

/-- A list that holds the circuits of one class holds them after one circuit's change of class (R29, R31). -/
theorem mem_requeue {k a b : CircuitClass} {c j : Nat} {q : List Nat} (h : c ∈ q ↔ a = k) :
    j ∈ requeue k c a b q ↔ if j = c then b = k else j ∈ q := by
  by_cases hab : a = b
  · subst hab; by_cases hj : j = c
    · subst hj; simpa [requeue] using h
    · simp [requeue, hj]
  · by_cases ha : a = k
    · subst ha; by_cases hj : j = c <;> simp [requeue, hab, hj]
      exact Ne.symm hab
    · by_cases hb : b = k
      · subst hb; by_cases hj : j = c <;> simp [requeue, hab, hj]
      · by_cases hj : j = c
        · subst hj; simp [requeue, hab, ha, hb, h]
        · simp [requeue, hab, ha, hb, hj]

theorem nodup_requeue {k a b : CircuitClass} {c : Nat} {q : List Nat} (hq : q.Nodup) (h : c ∈ q ↔ a = k) :
    (requeue k c a b q).Nodup := by
  unfold requeue
  split
  · exact hq
  · split
    · exact hq.filter _
    · rename_i ha
      split
      · exact List.nodup_append.mpr ⟨hq, by simp, fun x hx y hy => by
          rw [List.mem_singleton.mp hy]; exact fun e => ha (h.mp (e ▸ hx))⟩
      · exact hq

/-! ### One group against the circuits -/

/-- What of a group its law reads beside the circuits: range, counts, lists and monitor. -/
theorem Group.Law.congr {t : Table Circuit} {g : Nat} {x y : Group} (h : x.Law t g) (hs : y.cfg.size = x.cfg.size)
    (hf : y.cfg.first = x.cfg.first) (hc : y.counts = x.counts) (hq : y.freeQueue = x.freeQueue)
    (hl : y.guardList = x.guardList) (hm : y.mon.law) : y.Law t g where
  size := hs ▸ h.size
  place k := by simpa [GroupConfig.holds, hs, hf] using h.place k
  counts := hc ▸ h.counts
  freeOnce := hq ▸ h.freeOnce
  free := hq ▸ h.free
  guardOnce := hl ▸ h.guardOnce
  guard := hl ▸ h.guard
  monitor := hm

/-- A group's law after one of the circuits has changed within its group (R27, R29, R31). -/
theorem Group.Law.reclass {t : Table Circuit} {g k : Nat} {x : Group} {c c' : Circuit} (h : x.Law t g)
    (hw : Table.wf t = true) (hk : Table.find k t = some c) (hg : c'.group = c.group) :
    (if c.group = g then x.reclass k c.cls c'.cls else x).Law (Table.put k c' t) g := by
  have same : ∀ (P : Circuit → Prop) j, (∃ d, Table.find j (Table.put k c' t) = some d ∧ d.group = g ∧ P d)
      ↔ if j = k then c.group = g ∧ P c' else ∃ d, Table.find j t = some d ∧ d.group = g ∧ P d := by
    intro P j
    by_cases hj : j = k
    · subst hj; simp [hg]
    · simp [Table.find_put_of_ne hj, hj]
  have place : ∀ j, x.cfg.holds j = true ↔ ∃ d, Table.find j (Table.put k c' t) = some d ∧ d.group = g := by
    intro j
    have := same (fun _ => True) j
    simp only [and_true] at this
    rw [this, h.place]
    by_cases hj : j = k
    · subst hj; simp [hk]
    · simp [hj]
  have hfree := h.free k
  have hguard := h.guard k
  simp only [hk, Option.some.injEq, exists_eq_left'] at hfree hguard
  by_cases hcg : c.group = g
  · simp only [hcg, true_and] at hfree hguard
    rw [if_pos hcg]
    exact {
      size := h.size
      place := place
      counts := by rw [countClasses_put hw hk hg, if_pos hcg, ← h.counts]; rfl
      freeOnce := nodup_requeue h.freeOnce hfree
      free := fun j => by rw [same (fun d => d.cls = .free)]; simp only [Group.reclass, mem_requeue hfree, hcg, h.free, true_and]
      guardOnce := nodup_requeue h.guardOnce hguard
      guard := fun j => by
        rw [same (fun d => d.cls = .guard)]; simp only [Group.reclass, mem_requeue hguard, hcg, h.guard, true_and]
      monitor := h.monitor }
  · simp only [hcg, false_and, iff_false] at hfree hguard
    rw [if_neg hcg]
    exact { h with
      place := place
      counts := by rw [countClasses_put hw hk hg, if_neg hcg, ← h.counts]
      free := fun j => by
        rw [same (fun d => d.cls = .free)]
        by_cases hj : j = k
        · subst hj; simp [hcg, hfree]
        · simp [hj, h.free]
      guard := fun j => by
        rw [same (fun d => d.cls = .guard)]
        by_cases hj : j = k
        · subst hj; simp [hcg, hguard]
        · simp [hj, h.guard] }

/-- All the circuits of a group's range are counted (R26, R27). -/
theorem Group.Law.total {t : Table Circuit} {g : Nat} {x : Group} (h : x.Law t g) (hw : Table.wf t = true) :
    x.counts.total = x.cfg.size := by
  have hm : Table.wf (membersOf g t) = true := Table.wf_filter _ hw
  have hp : (Table.keys (membersOf g t)).Perm x.cfg.range := by
    refine (List.perm_ext_iff_of_nodup (Table.nodup_keys hm) ?_).mpr fun k => ?_
    · exact List.Nodup.map (fun a b e => by simpa using e) List.nodup_range
    · have := h.place k
      simp only [GroupConfig.holds, decide_eq_true_eq] at this
      simp only [Table.keys, List.mem_map, GroupConfig.range, List.mem_range, Prod.exists, mem_membersOf,
        Table.mem_iff_find hw, exists_and_right, exists_eq_right]
      rw [← this]
      exact ⟨fun ⟨h1, h2⟩ => ⟨k - x.cfg.first, by omega, by omega⟩, fun ⟨a, h1, h2⟩ => by omega⟩
  have hl := hp.length_eq
  rw [h.counts, countClasses_total, List.length_map]
  simpa [Table.keys, GroupConfig.range] using hl

/-! ### The whole Circuit Map -/

/-- The law by what the numbers read. -/
theorem CircuitMap.Law.group {m : CircuitMap} (h : m.Law) {g : Nat} {x : Group} (hx : Table.find g m.groups = some x) :
    x.Law m.circuits g := h.groups _ (Table.mem_of_find hx)

theorem CircuitMap.law_of_find {m : CircuitMap} (hg : Table.wf m.groups = true) (hc : Table.wf m.circuits = true)
    (he : ∀ k c, Table.find k m.circuits = some c → (Table.find c.group m.groups).isSome = true)
    (hl : ∀ g x, Table.find g m.groups = some x → x.Law m.circuits g) : m.Law where
  groupsForm := hg
  circuitsForm := hc
  equipped := (Table.forall_mem_iff hc).mpr he
  groups := (Table.forall_mem_iff hg).mpr hl

theorem State.circuit_equipped {s : State} (h : s.circ.Law) {k : Nat} {c : Circuit} (hc : s.circuit k = some c) :
    ∃ x, s.group c.group = some x := Option.isSome_iff_exists.mp (h.equipped _ (Table.mem_of_find hc))

/-- A circuit's change of condition or flags keeps the law (R27, R29). -/
theorem recast_circLaw {s : State} (h : s.circ.Law) (k : Nat) (f : Circuit → Circuit) (hf : ∀ c, (f c).group = c.group) :
    (s.recast k f).circ.Law := by
  cases hk : s.circuit k with
  | none => simpa [State.recast, hk] using h
  | some c =>
    rw [recast_of f hk]
    refine CircuitMap.law_of_find (Table.wf_adjust _ _ h.groupsForm) (Table.wf_put _ _ h.circuitsForm) ?_ ?_
    · intro j d hd
      simp only [State.withCirc_circ, Table.find_put] at hd ⊢
      have he : (Table.find d.group s.circ.groups).isSome = true := by
        split at hd
        · cases hd; rw [hf]; exact h.equipped _ (Table.mem_of_find hk)
        · exact h.equipped _ (Table.mem_of_find hd)
      rw [Table.find_adjust]
      split <;> simp [he]
    · intro g x hx
      simp only [State.withCirc_circ, Table.find_adjust] at hx ⊢
      by_cases hg : c.group = g
      · rw [if_pos hg, Option.map_eq_some_iff] at hx
        obtain ⟨y, hy, rfl⟩ := hx
        simpa [hg] using (h.group hy).reclass h.circuitsForm hk (hf c)
      · rw [if_neg hg] at hx
        simpa [hg] using (h.group hx).reclass h.circuitsForm hk (hf c)

/-- A change of one group that keeps its own law keeps the law of the map. -/
theorem updGroup_circLaw {s : State} (h : s.circ.Law) {g : Nat} {f : Group → Group}
    (hf : ∀ x, s.group g = some x → x.Law s.circ.circuits g → (f x).Law s.circ.circuits g) : (s.updGroup g f).circ.Law := by
  refine CircuitMap.law_of_find (Table.wf_adjust _ _ h.groupsForm) h.circuitsForm (fun k c hc => ?_) fun j x hx => ?_
  · have := h.equipped _ (Table.mem_of_find hc)
    simp only [State.updGroup, State.withCirc_circ, Table.find_adjust]
    split <;> simp [this]
  · simp only [State.updGroup, State.withCirc_circ, Table.find_adjust] at hx
    split at hx
    · rename_i e; subst e
      obtain ⟨y, hy, rfl⟩ := Option.map_eq_some_iff.mp hx
      exact hf y hy (h.group hy)
    · exact h.group hx

theorem countCirc_circLaw {s : State} (h : s.circ.Law) (f : CircuitCounters → CircuitCounters) : (s.countCirc f).circ.Law :=
  { h with }

theorem updMonitor_circLaw {s : State} (h : s.circ.Law) (g : Nat) {f : GroupMonitor → GroupMonitor}
    (hf : ∀ m, m.law → (f m).law) : (s.updMonitor g f).circ.Law :=
  updGroup_circLaw h fun _ _ hl => hl.congr rfl rfl rfl rfl rfl (hf _ hl.monitor)

theorem updTraffic_circLaw {s : State} (h : s.circ.Law) (g : Nat) (f : Traffic → Traffic) : (s.updTraffic g f).circ.Law :=
  updMonitor_circLaw h g fun _ hm => hm

theorem markDrained_circLaw {s : State} (h : s.circ.Law) (g : Nat) : (s.markDrained g).circ.Law :=
  updGroup_circLaw h fun x _ hl => by
    split
    · exact hl.congr rfl rfl rfl rfl rfl hl.monitor
    · exact hl

end Sys2Proof.Machine
end

