-- ==== Sys2Proof/Proofs/CircuitTables.lean ====
section
/-! SUPPORT. The Circuit Map's law through the reports on a group, the sample, and the redrawing of whole tables: load,
removal, Restart. -/
namespace Sys2Proof.Machine

/-! ### The monitor's fields (R85 to R88) -/

theorem GroupMonitor.fresh_law : GroupMonitor.fresh.law := by simp [GroupMonitor.law, GroupMonitor.fresh]

theorem GroupMonitor.success_law {m : GroupMonitor} (h : m.law) : m.success.law := by
  obtain ⟨hs, _, hn⟩ := h
  cases hh : m.health <;> simp_all [GroupMonitor.success, GroupMonitor.law]

theorem GroupMonitor.fail_law {m : GroupMonitor} (h : m.law) (theta : Nat) : (m.fail theta).law := by
  obtain ⟨hs, _, hn⟩ := h
  have hc : satAdd 15 1 m.failCount ≤ 15 := Nat.min_le_right _ _
  unfold GroupMonitor.fail
  split
  · exact ⟨hs, hc, by simp⟩
  · exact ⟨hs, hc, hn⟩

theorem GroupMonitor.probeFailed_law {m : GroupMonitor} (h : m.law) (due : Option Nat) : (m.probeFailed due).law := by
  obtain ⟨hs, hc, hn⟩ := h
  cases hh : m.health <;> simp_all [GroupMonitor.probeFailed, GroupMonitor.law]

theorem GroupMonitor.probeExpired_law {m : GroupMonitor} (h : m.law) : m.probeExpired.law := by
  obtain ⟨hs, hc, hn⟩ := h
  cases hh : m.health <;> simp_all [GroupMonitor.probeExpired, GroupMonitor.law]

/-! ### The evaluation of a group (R80, R81) -/

/-- With every circuit of the range counted the occupancy is 1,000 at most (R80). -/
theorem occupancy_le {size : Nat} {n : Counts} (h : n.total = size) : occupancy size n ≤ 1000 := by
  unfold occupancy
  split
  · exact Nat.le_refl _
  · refine Nat.div_le_of_le_mul ?_
    rw [Nat.mul_comm]
    refine Nat.mul_le_mul_right _ ?_
    simp only [Counts.total] at h
    omega

/-- The smoothed value stays in the range of the occupancy (R81). -/
theorem smooth_le {k o v : Nat} (ho : o ≤ 1000) (hv : v ≤ 256000) : smooth k o v ≤ 256000 := by
  have hm : (1 : Int) ≤ 2 ^ k := one_le_pow₀ (by norm_num)
  have hd : Int.fdiv (256 * (o : Int) - v) (2 ^ k) ≤ max (256 * (o : Int) - v) 0 := by
    rcases le_total 0 (256 * (o : Int) - v) with h | h
    · rw [Int.fdiv_eq_ediv_of_nonneg _ (by omega)]
      exact le_max_of_le_left (Int.ediv_le_self _ h)
    · rw [Int.fdiv_eq_ediv_of_nonneg _ (by omega)]
      exact le_max_of_le_right (Int.ediv_nonpos_of_nonpos_of_neg h (by omega))
  unfold smooth
  omega

theorem Group.Law.evaluate {t : Table Circuit} {g : Nat} {x : Group} (h : x.Law t g) (hw : Table.wf t = true)
    (thr : ThresholdSet) : (x.evaluate thr).Law t g :=
  h.congr rfl rfl rfl rfl rfl
    ⟨smooth_le (occupancy_le (h.total hw)) h.monitor.1, h.monitor.2.1, h.monitor.2.2⟩

/-! ### Whole tables -/

theorem Table.find_filter {α : Type} {t : Table α} (hw : Table.wf t = true) (q : Nat × α → Bool) (k : Nat) :
    Table.find k (t.filter q) = (Table.find k t).filter fun x => q (k, x) := by
  ext x
  rw [← Table.mem_iff_find (Table.wf_filter q hw), List.mem_filter, Table.mem_iff_find hw, Option.filter_eq_some_iff]

/-- Two circuit tables that hold the same circuits of a group. -/
def SameMembers (g : Nat) (t u : Table Circuit) : Prop :=
  ∀ k c, c.group = g → (Table.find k u = some c ↔ Table.find k t = some c)

theorem SameMembers.perm {g : Nat} {t u : Table Circuit} (h : SameMembers g t u) (ht : Table.wf t = true)
    (hu : Table.wf u = true) : (membersOf g u).Perm (membersOf g t) := by
  refine (List.perm_ext_iff_of_nodup ((Table.nodup_of_wf hu).filter _) ((Table.nodup_of_wf ht).filter _)).mpr fun p => ?_
  obtain ⟨k, c⟩ := p
  change (k, c) ∈ membersOf g u ↔ (k, c) ∈ membersOf g t
  simp only [mem_membersOf, Table.mem_iff_find ht, Table.mem_iff_find hu]
  exact and_congr_left (h k c)

/-- A group's law reads its own circuits alone. -/
theorem Group.Law.sameMembers {g : Nat} {t u : Table Circuit} {x : Group} (h : x.Law t g) (hs : SameMembers g t u)
    (ht : Table.wf t = true) (hu : Table.wf u = true) : x.Law u g := by
  have same : ∀ (P : Circuit → Prop) j, (∃ d, Table.find j u = some d ∧ d.group = g ∧ P d)
      ↔ ∃ d, Table.find j t = some d ∧ d.group = g ∧ P d :=
    fun P j => exists_congr fun d => ⟨fun ⟨h1, h2, h3⟩ => ⟨(hs j d h2).mp h1, h2, h3⟩,
      fun ⟨h1, h2, h3⟩ => ⟨(hs j d h2).mpr h1, h2, h3⟩⟩
  exact { h with
    place := fun j => by have := same (fun _ => True) j; simp only [and_true] at this; rw [this]; exact h.place j
    counts := by rw [h.counts]; exact countClasses_perm ((hs.perm ht hu).symm.map _)
    free := fun j => by rw [same]; exact h.free j
    guard := fun j => by rw [same]; exact h.guard j }

/-! ### Load and removal (R47 to R49) -/

theorem GroupConfig.mem_range (g : GroupConfig) (k : Nat) : k ∈ g.range ↔ g.holds k = true := by
  simp only [GroupConfig.range, List.mem_map, List.mem_range, GroupConfig.holds, decide_eq_true_eq]
  exact ⟨fun ⟨a, h1, h2⟩ => by omega, fun h => ⟨k - g.first, by omega, by omega⟩⟩

theorem mem_newCircuits (g : GroupConfig) (t : Table Circuit) (k : Nat) :
    k ∈ newCircuits g t ↔ g.holds k = true ∧ Table.find k t = none := by
  simp [newCircuits, GroupConfig.mem_range]

theorem newCircuits_nodup (g : GroupConfig) (t : Table Circuit) : (newCircuits g t).Nodup :=
  (List.Nodup.map (fun _ _ e => by simpa using e) List.nodup_range).filter _

theorem find_foldl_put {α : Type} (x : α) (ks : List Nat) (t : Table α) (k : Nat) :
    Table.find k (ks.foldl (fun t c => Table.put c x t) t) = if k ∈ ks then some x else Table.find k t := by
  induction ks generalizing t with
  | nil => simp
  | cons c ks ih =>
    rw [List.foldl_cons, ih, Table.find_put]
    by_cases hk : k ∈ ks <;> by_cases hc : c = k <;> simp [hk, hc, eq_comm]
    exact fun e => absurd e.symm hc

theorem wf_foldl_put {α : Type} (x : α) (ks : List Nat) {t : Table α} (h : Table.wf t = true) :
    Table.wf (ks.foldl (fun t c => Table.put c x t) t) = true := by
  induction ks generalizing t with
  | nil => exact h
  | cons c ks ih => exact ih (Table.wf_put c x h)

theorem redraw_wf (id : Nat) (g : GroupConfig) {t : Table Circuit} (h : Table.wf t = true) :
    Table.wf (redraw id g t) = true := wf_foldl_put _ _ (Table.wf_filter _ h)

/-- What the redrawn table holds: the circuits of other groups, those of the group that are in the range, and new ones where
the range held none (R47, R48). -/
theorem find_redraw (id : Nat) (g : GroupConfig) {t : Table Circuit} (h : Table.wf t = true) (k : Nat) (c : Circuit) :
    Table.find k (redraw id g t) = some c ↔
      (Table.find k t = some c ∧ (c.group ≠ id ∨ g.holds k = true))
        ∨ (Table.find k t = none ∧ g.holds k = true ∧ c = Circuit.new id) := by
  rw [redraw, find_foldl_put, Table.find_filter h]
  by_cases hk : k ∈ newCircuits g t
  · have := (mem_newCircuits g t k).mp hk
    simp [hk, this, eq_comm]
  · rw [mem_newCircuits] at hk
    rw [if_neg (by rwa [mem_newCircuits]), Option.filter_eq_some_iff]
    simp only [Bool.or_eq_true, decide_eq_true_eq]
    refine ⟨.inl, ?_⟩
    rintro (h1 | ⟨h1, h2, -⟩)
    · exact h1
    · exact absurd ⟨h2, h1⟩ hk

/-- What a load needs of the group that it replaces: its circuits are Idle, and its free queue is right (R47). -/
structure Reloadable (id : Nat) (old : Option Group) (t : Table Circuit) : Prop where
  idle : ∀ k c, Table.find k t = some c → c.group = id → c.cond = .idle
  freeOnce : ((old.map (·.freeQueue)).getD []).Nodup
  free : ∀ k, k ∈ (old.map (·.freeQueue)).getD [] ↔ ∃ c, Table.find k t = some c ∧ c.group = id ∧ c.cls = .free
  monitor : ((old.map (·.mon)).getD GroupMonitor.fresh).law

theorem reloadable_none {m : CircuitMap} (h : m.Law) {id : Nat} (hn : Table.find id m.groups = none) :
    Reloadable id none m.circuits := by
  have none_in : ∀ k c, Table.find k m.circuits = some c → c.group ≠ id := fun k c hk e => by
    have := h.equipped _ (Table.mem_of_find hk)
    simp [e, hn] at this
  exact ⟨fun k c hk e => absurd e (none_in k c hk), List.nodup_nil,
    fun k => by simpa using fun c hk e => absurd e (none_in k c hk), GroupMonitor.fresh_law⟩

theorem idle_of_allIdle {id : Nat} {t : Table Circuit} (h : allIdle id t = true) {k : Nat} {c : Circuit}
    (hk : Table.find k t = some c) (hg : c.group = id) : c.cond = .idle := by
  have := List.all_eq_true.mp h (k, c) (mem_membersOf.mpr ⟨Table.mem_of_find hk, hg⟩)
  simpa using this

theorem reloadable_some {m : CircuitMap} (h : m.Law) {id : Nat} {x : Group} (hx : Table.find id m.groups = some x)
    (hi : x.idleOut id m.circuits = true) : Reloadable id (some x) m.circuits := by
  simp only [Group.idleOut, Bool.and_eq_true] at hi
  exact ⟨fun k c hk e => idle_of_allIdle hi.2 hk e, (h.group hx).freeOnce, (h.group hx).free, (h.group hx).monitor⟩

theorem loadedGroup_law {id : Nat} {g : GroupConfig} {old : Option Group} {t : Table Circuit} (hw : Table.wf t = true)
    (hs : 1 ≤ g.size) (ho : overlapsOther id g t = false) (hr : Reloadable id old t) :
    (loadedGroup id g old t).Law (redraw id g t) id := by
  have own : ∀ k c, Table.find k t = some c → g.holds k = true → c.group = id := by
    intro k c hk hh
    have := List.any_eq_false.mp ho _ (Table.mem_of_find hk)
    simpa [hh] using this
  have new_free : (Circuit.new id).cls = .free := rfl
  exact {
    size := hs
    place := fun k => by
      simp only [loadedGroup, find_redraw id g hw]
      constructor
      · intro hk
        cases hf : Table.find k t with
        | none => exact ⟨Circuit.new id, .inr ⟨rfl, hk, rfl⟩, rfl⟩
        | some c => exact ⟨c, .inl ⟨rfl, .inr hk⟩, own k c hf hk⟩
      · rintro ⟨c, ⟨_, hne | hk⟩ | ⟨_, hk, _⟩, hg⟩
        · exact absurd hg hne
        · exact hk
        · exact hk
    counts := rfl
    freeOnce := List.nodup_append.mpr ⟨hr.freeOnce.filter _, newCircuits_nodup g t, fun a ha b hb => by
      obtain ⟨c, hc, _⟩ := (hr.free a).mp (List.mem_filter.mp ha).1
      have := ((mem_newCircuits g t b).mp hb).2
      exact fun e => by subst e; simp [hc] at this⟩
    free := fun k => by
      simp only [loadedGroup, List.mem_append, List.mem_filter, mem_newCircuits, hr.free, find_redraw id g hw]
      constructor
      · rintro (⟨⟨c, hc, hg, hf⟩, hk⟩ | ⟨hk, hn⟩)
        · exact ⟨c, .inl ⟨hc, .inr hk⟩, hg, hf⟩
        · exact ⟨Circuit.new id, .inr ⟨hn, hk, rfl⟩, rfl, new_free⟩
      · rintro ⟨c, ⟨hc, hk⟩ | ⟨hn, hk, _⟩, hg, hf⟩
        · exact .inl ⟨⟨c, hc, hg, hf⟩, hk.resolve_left (fun e => e hg)⟩
        · exact .inr ⟨hk, hn⟩
    guardOnce := List.nodup_nil
    guard := fun k => by
      simp only [loadedGroup, List.not_mem_nil, find_redraw id g hw, false_iff]
      rintro ⟨c, ⟨hc, _⟩ | ⟨_, _, rfl⟩, hg, hf⟩
      · have hi := hr.idle k c hc hg
        unfold Circuit.cls at hf
        rw [hi] at hf
        simp only at hf
        split at hf <;> simp at hf
      · simp [new_free] at hf
    monitor := hr.monitor }

/-- The load of a group keeps the law (R47, R48). -/
theorem equip_circLaw {s : State} (h : s.circ.Law) {id : Nat} {g : GroupConfig} (hs : 1 ≤ g.size)
    (ho : overlapsOther id g s.circ.circuits = false) (hr : Reloadable id (s.group id) s.circ.circuits) :
    (s.equip id g).circ.Law := by
  have hw := redraw_wf id g h.circuitsForm
  refine CircuitMap.law_of_find (Table.wf_put _ _ h.groupsForm) hw (fun k c hc => ?_) fun j x hx => ?_
  · simp only [State.equip, State.withCirc_circ] at hc ⊢
    rw [find_redraw id g h.circuitsForm] at hc
    rw [Table.find_put]
    split
    · rfl
    · rename_i hne
      rcases hc with ⟨hc, -⟩ | ⟨-, -, rfl⟩
      · exact h.equipped _ (Table.mem_of_find hc)
      · exact absurd rfl hne
  · simp only [State.equip, State.withCirc_circ, Table.find_put] at hx ⊢
    split at hx
    · rename_i e; subst e; cases hx
      exact loadedGroup_law h.circuitsForm hs ho hr
    · rename_i hne
      refine (h.group hx).sameMembers (fun k c hg => ?_) h.circuitsForm hw
      rw [find_redraw id g h.circuitsForm]
      constructor
      · rintro (⟨hc, -⟩ | ⟨-, -, rfl⟩)
        · exact hc
        · exact absurd hg hne
      · exact fun hc => .inl ⟨hc, .inl (hg ▸ Ne.symm hne)⟩

/-- The removal of a group keeps the law (R49). -/
theorem unequip_circLaw {s : State} (h : s.circ.Law) (id : Nat) : (s.unequip id).circ.Law := by
  have hw : Table.wf (s.circ.circuits.filter fun p => decide (p.2.group ≠ id)) = true := Table.wf_filter _ h.circuitsForm
  refine CircuitMap.law_of_find (Table.wf_del _ h.groupsForm) hw (fun k c hc => ?_) fun j x hx => ?_
  · simp only [State.unequip, State.withCirc_circ, Table.find_filter h.circuitsForm, Option.filter_eq_some_iff,
      decide_eq_true_eq] at hc ⊢
    rw [Table.find_del, if_neg (Ne.symm hc.2)]
    exact h.equipped _ (Table.mem_of_find hc.1)
  · simp only [State.unequip, State.withCirc_circ, Table.find_del] at hx ⊢
    split at hx
    · simp at hx
    · rename_i hne
      refine (h.group hx).sameMembers (fun k c hg => ?_) h.circuitsForm hw
      rw [Table.find_filter h.circuitsForm, Option.filter_eq_some_iff]
      simp [hg, Ne.symm hne]

/-! ### Restart (R52, R95) -/

theorem find_idleCircuits (t : Table Circuit) (k : Nat) :
    Table.find k (idleCircuits t) = (Table.find k t).map fun c => { c with cond := .idle } := Table.find_mapAll _ _ _

theorem Group.Law.restarted {t : Table Circuit} {g : Nat} {x : Group} (h : x.Law t g) (hw : Table.wf t = true) :
    (x.restarted (membersOf g (idleCircuits t))).Law (idleCircuits t) g := by
  have hw' : Table.wf (idleCircuits t) = true := Table.wf_mapAll _ hw
  exact {
    size := h.size
    place := fun k => by
      rw [find_idleCircuits]
      refine (h.place k).trans ⟨fun ⟨c, hc, hg⟩ => ⟨{ c with cond := .idle }, by simp [hc], hg⟩, fun ⟨c, hc, hg⟩ => ?_⟩
      obtain ⟨d, hd, rfl⟩ := Option.map_eq_some_iff.mp hc
      exact ⟨d, hd, hg⟩
    counts := rfl
    freeOnce := (Table.nodup_keys (Table.wf_filter _ (Table.wf_filter _ hw')))
    free := fun k => by
      simp only [Group.restarted, Group.recount, List.mem_map, List.mem_filter, Prod.exists,
        mem_membersOf, Table.mem_iff_find hw', decide_eq_true_eq, and_assoc]
      exact ⟨fun ⟨a, c, hc, hg, hf, e⟩ => ⟨c, e ▸ hc, hg, hf⟩, fun ⟨c, hc, hg, hf⟩ => ⟨k, c, hc, hg, hf, rfl⟩⟩
    guardOnce := List.nodup_nil
    guard := fun k => by
      simp only [Group.restarted, Group.recount, List.not_mem_nil, false_iff]
      rintro ⟨c, hc, -, hf⟩
      rw [find_idleCircuits] at hc
      obtain ⟨d, -, rfl⟩ := Option.map_eq_some_iff.mp hc
      simp only [Circuit.cls] at hf
      split at hf <;> simp at hf
    monitor := GroupMonitor.fresh_law }

theorem CircuitMap.Law.restart {m : CircuitMap} (h : m.Law) : m.restart.Law := by
  have hg : Table.wf m.restart.groups = true := by
    simp only [CircuitMap.restart]; exact Table.wf_mapAll _ h.groupsForm
  have hc : Table.wf (idleCircuits m.circuits) = true := Table.wf_mapAll _ h.circuitsForm
  refine CircuitMap.law_of_find hg hc (fun k c hc => ?_) fun g x hx => ?_
  · obtain ⟨d, hd, rfl⟩ := Option.map_eq_some_iff.mp ((find_idleCircuits _ _).symm.trans hc)
    have := h.equipped _ (Table.mem_of_find hd)
    simp only [CircuitMap.restart, Table.find_mapAll, Option.isSome_map]
    exact this
  · simp only [CircuitMap.restart, Table.find_mapAll] at hx
    obtain ⟨y, hy, rfl⟩ := Option.map_eq_some_iff.mp hx
    have := (h.group hy).restarted h.circuitsForm
    split
    · exact this.congr rfl rfl rfl rfl rfl this.monitor
    · exact this

end Sys2Proof.Machine
end

