-- ==== Sys2Proof/Proofs/RouteLaw.lean ====
section
/-! SUPPORT. The laws of the route lists and their gaps (R53, R57, R58, R96), list by list and for the whole table. -/
namespace Sys2Proof.Machine

/-- A list keeps its choices, its pointer and its gap in law. -/
def RouteList.Lawful (r : RouteList) : Prop := r.gapLaw ∧ r.choiceLaw

theorem RouteList.unloaded_lawful : RouteList.unloaded.Lawful := by
  simp [RouteList.Lawful, RouteList.gapLaw, RouteList.choiceLaw, RouteList.unloaded]

/-! ### One list -/

/-- A list's law reads neither its counters nor its budget. -/
theorem RouteList.Lawful.counted {r : RouteList} (h : r.Lawful) (n : ListCounters) : ({ r with counters := n } : RouteList).Lawful := h

theorem RouteList.Lawful.pointed {r : RouteList} (h : r.Lawful) {p : Nat} (h1 : 1 ≤ p)
    (h2 : p ≤ max 1 (r.choices.length - 1)) : ({ r with pointer := p } : RouteList).Lawful := by
  obtain ⟨hg, hl, hc, hn, -, -⟩ := h
  exact ⟨hg, hl, hc, hn, h1, h2⟩

theorem afterAlternate_pos (n i : Nat) : 1 ≤ afterAlternate n i := by unfold afterAlternate; split <;> omega

theorem afterAlternate_le (n i : Nat) : afterAlternate n i ≤ max 1 (n - 1) := by unfold afterAlternate; split <;> omega

theorem RouteList.Lawful.afterAlternate {r : RouteList} (h : r.Lawful) (i : Nat) :
    ({ r with pointer := afterAlternate r.choices.length i } : RouteList).Lawful :=
  h.pointed (afterAlternate_pos _ _) (afterAlternate_le _ _)

theorem RouteList.Lawful.pastLost {r : RouteList} (h : r.Lawful) (g : Nat) : (r.pastLost g).Lawful := by
  unfold RouteList.pastLost
  split
  · exact h.afterAlternate _
  · exact h

/-- Gap state Off at the floor is in law (R96). -/
theorem RouteList.gapLaw_off {r : RouteList} (h : r.gapFloor ≤ r.gapMax) (ho : r.gapState = .off) (hg : r.gap = r.gapFloor)
    (hk : r.gate = .opened) (ht : r.gapTimer = none) : r.gapLaw := by
  refine ⟨h, ?_⟩
  rw [ho]; exact ⟨hg, hk, ht⟩

/-- Gap state Active with an Open gate and a gap in range is in law (R96). -/
theorem RouteList.gapLaw_open {r : RouteList} (h : r.gapFloor ≤ r.gapMax) (ho : r.gapState = .active)
    (hl : r.gapFloor ≤ r.gap) (hu : r.gap ≤ r.gapMax) (hk : r.gate = .opened) (ht : r.gapTimer = none) : r.gapLaw := by
  refine ⟨h, ?_⟩
  rw [ho]; exact ⟨hl, hu, by simp [hk, ht]⟩

theorem RouteList.gapLaw.active {r : RouteList} (h : r.gapLaw) (ha : r.gapState = .active) :
    r.gapFloor ≤ r.gap ∧ r.gap ≤ r.gapMax ∧ (r.gapTimer.isSome ↔ r.gate = .closed) := by
  have := h.2; rwa [ha] at this

theorem RouteList.Lawful.judge {r : RouteList} (h : r.Lawful) (priority : Bool) {timer : Nat → Option Nat}
    (ht : ∀ n, (timer n).isSome = true) : (r.judge priority timer).Lawful := by
  unfold RouteList.judge
  split
  · rename_i ha _
    have hl := h.1.active ha
    exact ⟨⟨h.1.1, by simp only [ha]; exact ⟨hl.1, hl.2.1, by simp [ht]⟩⟩, h.2⟩
  · exact h

theorem RouteList.Lawful.recover {r : RouteList} (h : r.Lawful) (ha : r.gapState = .active) : r.recover.Lawful := by
  have hl := h.1.active ha
  unfold RouteList.recover
  split
  · rename_i hf; exact ⟨RouteList.gapLaw_off h.1.1 rfl hf rfl rfl, h.2⟩
  · refine ⟨⟨h.1.1, ?_⟩, h.2⟩
    simp only [ha]
    exact ⟨le_max_right _ _, by omega, hl.2.2⟩

theorem RouteList.Lawful.adapt {r : RouteList} (h : r.Lawful) (b : Band) : (r.adapt b).Lawful := by
  have opens : ({ r with gapState := .active, gap := r.gapFloor, gate := .opened, gapTimer := none } : RouteList).Lawful :=
    ⟨RouteList.gapLaw_open h.1.1 rfl le_rfl h.1.1 rfl rfl, h.2⟩
  cases hs : r.gapState with
  | off =>
    cases b <;> simp only [RouteList.adapt, hs]
    case clear => exact h
    case busy => exact h
    all_goals exact opens
  | active =>
    have hl := h.1.active hs
    cases b <;> simp only [RouteList.adapt, hs]
    case critical =>
      refine ⟨⟨h.1.1, ?_⟩, h.2⟩
      exact ⟨le_min (hl.1.trans (Nat.le_add_right _ _)) h.1.1, min_le_right _ _, hl.2.2⟩
    case congested => exact h
    all_goals exact h.recover hs

theorem RouteList.Lawful.gateOpened {r : RouteList} (h : r.Lawful) :
    ({ r with gate := .opened, gapTimer := none } : RouteList).Lawful := by
  obtain ⟨⟨hf, hs⟩, hc⟩ := h
  refine ⟨⟨hf, ?_⟩, hc⟩
  cases ha : r.gapState <;> simp_all

theorem RouteList.Lawful.restartGap {r : RouteList} (h : r.Lawful) : r.restartGap.Lawful := by
  unfold RouteList.restartGap
  split
  · exact h
  · rename_i ha; exact ⟨RouteList.gapLaw_open h.1.1 ha le_rfl h.1.1 rfl rfl, h.2⟩

theorem RouteList.Lawful.restart {r : RouteList} (h : r.Lawful) : r.restart.Lawful := by
  obtain ⟨⟨hf, -⟩, hl, hc, hn, -, -⟩ := h
  exact ⟨RouteList.gapLaw_off hf rfl rfl rfl rfl, hl, hc, hn, le_rfl, le_max_left _ _⟩

theorem length_choicesOf (p : List Byte) (off n : Nat) : (choicesOf p off n).length = n := by
  induction n generalizing off with
  | zero => rfl
  | succ n ih => simp [choicesOf, ih]

/-- A load that R59 accepts leaves a lawful list. -/
theorem RouteList.reload_lawful (old : RouteList) {p : List Byte} (h : (loadListOf p).valid = true) :
    (old.reload (loadListOf p)).Lawful := by
  simp only [LoadListReq.valid, Bool.and_eq_true, decide_eq_true_eq] at h
  obtain ⟨⟨⟨-, h1, h8, -, -, hf⟩, -⟩, hn⟩ := h
  have hlen : (loadListOf p).choices.length = min (loadListOf p).count 8 := length_choicesOf _ _ _
  refine ⟨RouteList.gapLaw_off hf rfl rfl rfl rfl, ?_, fun _ => ?_, hn, le_rfl, le_max_left _ _⟩
  · show (loadListOf p).choices.length ≤ 8; omega
  · show (loadListOf p).choices ≠ []
    exact List.ne_nil_of_length_pos (by omega)

/-! ### The Route Selector -/

theorem RouteSelector.law.lawful {r : RouteSelector} (h : r.law) {p : Nat × RouteList} (hp : p ∈ r.lists) : p.2.Lawful :=
  (h.2.2.2 p hp).2

theorem routeList_lawful {s : State} (h : s.routes.law) (l : Nat) : (s.routeList l).Lawful := by
  unfold State.routeList
  cases hf : Table.find l s.routes.lists with
  | none => exact RouteList.unloaded_lawful
  | some r => exact h.lawful (Table.mem_of_find hf)

/-- A lawful list in its place keeps the law. -/
theorem setList_routeLaw {s : State} (h : s.routes.law) (l : Nat) {x : RouteList} (hx : x.Lawful) :
    (s.setList l x).routes.law := by
  obtain ⟨hd, hn, hw, hl⟩ := h
  refine ⟨hd, hn, ?_, fun p hp => ?_⟩
  · simp only [State.setList, State.withRoutes_routes]
    split
    · exact Table.wf_del _ hw
    · exact Table.wf_put _ _ hw
  · simp only [State.setList, State.withRoutes_routes] at hp
    split at hp
    · exact hl p (Table.mem_del.mp hp).1
    · rename_i hu
      rcases Table.mem_put hp with rfl | hp
      · exact ⟨hu, hx⟩
      · exact hl p hp

theorem updList_routeLaw {s : State} (h : s.routes.law) (l : Nat) {f : RouteList → RouteList}
    (hf : (s.routeList l).Lawful → (f (s.routeList l)).Lawful) : (s.updList l f).routes.law :=
  setList_routeLaw h l (hf (routeList_lawful h l))

theorem countList_routeLaw {s : State} (h : s.routes.law) (l : Nat) (f : ListCounters → ListCounters) :
    (s.countList l f).routes.law := updList_routeLaw h l fun hl => hl.counted _

theorem countMatch_law {r : RouteSelector} (h : r.law) (m : MatchResult) : (r.countMatch m).law := by
  cases m <;> exact h

/-- The adaptation of the lists that a group drives keeps the law (R99, R100). -/
theorem handBand_routeLaw {s : State} (h : s.routes.law) (g : Nat) (b : Band) : (s.handBand g b).routes.law := by
  obtain ⟨hd, hn, hw, hl⟩ := h
  have hw' : Table.wf (s.handBand g b).routes.lists = true := by
    simp only [State.handBand, State.withRoutes_routes]; exact Table.wf_mapAll _ hw
  refine ⟨hd, hn, hw', fun p hp => ?_⟩
  obtain ⟨q, hq, rfl⟩ := List.mem_map.mp hp
  obtain ⟨hu, hlaw⟩ := hl q hq
  dsimp only
  split
  · rename_i hdr
    have hload : q.2.loaded = true := by
      simp only [RouteList.drivenBy, Bool.and_eq_true] at hdr; exact hdr.1.1
    have keeps : (q.2.adapt b).loaded = q.2.loaded := by
      unfold RouteList.adapt RouteList.recover
      split <;> first | rfl | (split <;> rfl)
    refine ⟨fun e => ?_, RouteList.Lawful.adapt hlaw b⟩
    rw [e, hload] at keeps
    simp [RouteList.unloaded] at keeps
  · exact ⟨hu, hlaw⟩

theorem RouteSelector.restart_law {r : RouteSelector} (h : r.law) : r.restart.law := by
  obtain ⟨hd, hn, hw, hl⟩ := h
  refine ⟨hd, hn, Table.wf_filter _ (Table.wf_mapAll _ hw), fun p hp => ?_⟩
  obtain ⟨hm, hne⟩ := List.mem_filter.mp hp
  obtain ⟨q, hq, rfl⟩ := List.mem_map.mp hm
  exact ⟨by simpa using hne, RouteList.Lawful.restart (hl q hq).2⟩

/-! ### The destination table (R53, R56) -/

theorem putDest_of_hasPrefix {e : DestEntry} {d : List DestEntry} (h : hasPrefix d e.pfx = true) :
    (putDest e d).map (·.pfx) = d.map (·.pfx) := by
  induction d with
  | nil => simp [hasPrefix] at h
  | cons x t ih =>
    unfold putDest
    split
    · rename_i hx; simp [hx]
    · rename_i hx
      simp only [hasPrefix, List.any_cons, hx, decide_false, Bool.false_or] at h
      simp [ih h]

theorem putDest_of_new {e : DestEntry} {d : List DestEntry} (h : hasPrefix d e.pfx = false) : putDest e d = d ++ [e] := by
  induction d with
  | nil => rfl
  | cons x t ih =>
    simp only [hasPrefix, List.any_cons, Bool.or_eq_false_iff, decide_eq_false_iff_not] at h
    simp [putDest, h.1, ih h.2]

theorem putDest_routeLaw {r : RouteSelector} (h : r.law) {e : DestEntry}
    (hf : ¬ (hasPrefix r.dests e.pfx = false ∧ Config.destinationMax ≤ r.dests.length)) :
    ({ r with dests := putDest e r.dests } : RouteSelector).law := by
  obtain ⟨hd, hn, hl⟩ := h
  cases hp : hasPrefix r.dests e.pfx with
  | true =>
    have := putDest_of_hasPrefix hp
    exact ⟨this ▸ hd, by have := congrArg List.length this; simp only [List.length_map] at this; simpa [this] using hn, hl⟩
  | false =>
    have hne : e.pfx ∉ r.dests.map (·.pfx) := by
      rw [List.mem_map]
      rintro ⟨x, hx, he⟩
      have := List.any_eq_false.mp hp x hx
      simp [he] at this
    rw [putDest_of_new hp]
    refine ⟨?_, ?_, hl⟩
    · simp only [List.map_append, List.map_cons, List.map_nil]
      exact List.nodup_append.mpr ⟨hd, by simp, fun a ha b hb => by
        rw [List.mem_singleton.mp hb]; exact fun e' => hne (e' ▸ ha)⟩
    · simp only [List.length_append, List.length_cons, List.length_nil]
      simp only [hp, true_and] at hf
      omega

theorem filterDests_law {r : RouteSelector} (h : r.law) (q : DestEntry → Bool) :
    ({ r with dests := r.dests.filter q } : RouteSelector).law := by
  obtain ⟨hd, hn, hl⟩ := h
  exact ⟨hd.sublist (List.filter_sublist.map _), (List.length_filter_le _ _).trans hn, hl⟩

end Sys2Proof.Machine
end

