-- ==== Sys2Proof/Proofs/TariffLaw.lean ====
section
/-! SUPPORT. The law of the Tariff Table (R109, R110, R117). -/
namespace Sys2Proof.Machine

theorem updCarrier_tariffLaw {s : State} (h : s.tariffs.law) (id : Nat) {f : Carrier → Carrier}
    (hf : ∀ c, s.carrier id = some c → c.law → (f c).law) : (s.updCarrier id f).tariffs.law := by
  refine ⟨Table.wf_adjust _ _ h.1, fun p hp => ?_⟩
  rcases Table.mem_adjust hp with hp | ⟨c, hc, rfl⟩
  · exact h.2 p hp
  · obtain ⟨h1, h2, hl⟩ := h.2 _ hc
    exact ⟨h1, h2, hf c (Table.find_of_mem h.1 hc) hl⟩

theorem Carrier.count_law {c : Carrier} (h : c.law) (f : CarrierCounters → CarrierCounters) : (c.count f).law := h

theorem Carrier.settle_law {c : Carrier} (h : c.law) (charge : Nat) : (c.settle charge).law := h

theorem Carrier.activate_law {c : Carrier} (h : c.law) (now : ExTime) : (c.activate now).law := by
  unfold Carrier.activate
  split
  · exact h
  · rename_i p hp
    split
    · exact ⟨(h.2 p hp).1, by simp⟩
    · exact h

theorem validBody_some {t : Option Tariff} {b : Tariff} (h : validBody t = some b) : b.valid = true :=
  (Option.filter_eq_some_iff.mp h).2

theorem Carrier.declared_law {b : Tariff} (h : b.valid = true) : (Carrier.declared b).law := ⟨h, by simp [Carrier.declared]⟩

theorem Carrier.pin_law {c : Carrier} (h : c.law) : c.pin.law := by
  refine ⟨h.1, fun p hp => ?_⟩
  simp only [Carrier.pin] at hp
  split at hp
  · simp at hp
  · rename_i ho
    obtain ⟨h1, h2, -⟩ := h.2 p hp
    refine ⟨h1, h2, fun _ => ?_⟩
    cases hs : p.source with
    | localLoad => rfl
    | offered => simp [Carrier.offeredPending, hp, hs] at ho

theorem Carrier.unpin_law {c : Carrier} (h : c.law) : ({ c with pinned := false } : Carrier).law :=
  ⟨h.1, fun p hp => ⟨(h.2 p hp).1, (h.2 p hp).2.1, by simp⟩⟩

/-- A load that passes the first check of R116 leaves a lawful carrier. -/
theorem Carrier.load_law {c : Carrier} (h : c.law) {r : LoadTariffReq} (hr : r.fieldsFit = true) {b : Tariff}
    (hb : b.valid = true) : (c.load r b).law := by
  simp only [LoadTariffReq.fieldsFit, Bool.and_eq_true, decide_eq_true_eq] at hr
  unfold Carrier.load
  split
  · refine ⟨hb, fun p hp => ?_⟩
    simp only at hp
    split at hp
    · simp at hp
    · exact h.2 p hp
  · rename_i hm
    refine ⟨h.1, fun p hp => ?_⟩
    simp only [Option.some.injEq] at hp
    subst hp
    exact ⟨hb, (hr.2.resolve_left hm).2, fun _ => rfl⟩

/-- An offer that R114 and R115 accept leaves a lawful carrier. -/
theorem Carrier.offer_law {c : Carrier} (h : c.law) (hp : c.pinned = false) {p : Pending} (hb : p.body.valid = true)
    (hm : p.minute ≤ 1439) (f : CarrierCounters → CarrierCounters) :
    ({ c.count f with pending := some p } : Carrier).law := by
  refine ⟨h.1, fun p' e => ?_⟩
  simp only [Option.some.injEq] at e
  subst e
  exact ⟨hb, hm, by simp [Carrier.count, hp]⟩

theorem putCarrier_tariffLaw {s : State} (h : s.tariffs.law) {id : Nat} (hid : carrierId id = true) {c : Carrier}
    (hc : c.law) : (s.putCarrier id c).tariffs.law := by
  refine ⟨Table.wf_put _ _ h.1, fun p hp => ?_⟩
  rcases Table.mem_put hp with rfl | hp
  · simp only [carrierId, decide_eq_true_eq] at hid
    exact ⟨hid.1, hid.2, hc⟩
  · exact h.2 p hp

end Sys2Proof.Machine
end

