-- ==== Sys2Proof/Proofs/SettlementLaw.lean ====
section
/-! SUPPORT. The law of the Settlement Queue (R138, R141, R143 to R148), also within an event that has rated a call and not
yet looked at the condition of R143. -/
namespace Sys2Proof.Machine

/-- The law of the queue; within an event that has rated a call (`rated`) records may stand that could be sent (log entry 11). -/
def SettlementQueue.lawUpTo (rated : Bool) (q : SettlementQueue) : Prop :=
  1 ≤ q.nextSeq ∧ q.nextSeq ≤ Config.max32 ∧ follows (q.queued.map (·.seq)) q.nextSeq = true
    ∧ match q.exportState with
      | .ready => q.outstanding = 0 ∧ q.acceptTimer = none ∧ (q.halt = false → rated = false → q.queued = [])
      | .awaitingAccept => 1 ≤ q.outstanding ∧ q.outstanding ≤ q.queued.length ∧ q.acceptTimer.isSome = true
      | .stalled => 1 ≤ q.outstanding ∧ q.outstanding ≤ q.queued.length ∧ q.acceptTimer = none

theorem SettlementQueue.lawUpTo_false (q : SettlementQueue) : q.lawUpTo false ↔ q.law := by
  cases he : q.exportState <;> simp [SettlementQueue.lawUpTo, SettlementQueue.law, he]

theorem SettlementQueue.lawUpTo.rated {q : SettlementQueue} {b : Bool} (h : q.lawUpTo b) : q.lawUpTo true := by
  obtain ⟨h1, h2, h3, h4⟩ := h
  refine ⟨h1, h2, h3, ?_⟩
  cases he : q.exportState <;> simp_all

/-! ### Numbering (R141) -/

theorem follows_append {l : List Nat} {n : Nat} (h : follows l n = true) : follows (l ++ [n]) (nextSeqAfter n) = true := by
  match l, h with
  | [], _ => simp [follows]
  | [a], h => simpa [follows] using h
  | a :: b :: t, h =>
    simp only [follows, Bool.and_eq_true] at h
    have := follows_append h.2
    simp only [List.cons_append, follows, Bool.and_eq_true]
    exact ⟨h.1, this⟩

theorem follows_tail {a : Nat} {l : List Nat} {n : Nat} (h : follows (a :: l) n = true) : follows l n = true := by
  cases l with
  | nil => rfl
  | cons b t => simp only [follows, Bool.and_eq_true] at h; exact h.2

theorem follows_drop {l : List Nat} {n : Nat} (h : follows l n = true) (k : Nat) : follows (l.drop k) n = true := by
  induction k generalizing l with
  | zero => exact h
  | succ k ih =>
    cases l with
    | nil => exact h
    | cons a t => exact ih (follows_tail h)

theorem nextSeqAfter_bounds (n : Nat) : 1 ≤ nextSeqAfter n ∧ nextSeqAfter n ≤ Config.max32 := by
  unfold nextSeqAfter
  split
  · simp [Config.max32]
  · omega

/-! ### Operations on the queue -/

theorem SettlementQueue.append_lawUpTo {q : SettlementQueue} {b : Bool} (h : q.lawUpTo b) (r : SettlementRecord) :
    (q.append r).lawUpTo true := by
  obtain ⟨h1, h2, h3, h4⟩ := h
  obtain ⟨n1, n2⟩ := nextSeqAfter_bounds q.nextSeq
  refine ⟨n1, n2, by simpa [SettlementQueue.append] using follows_append h3, ?_⟩
  cases he : q.exportState <;> simp_all [SettlementQueue.append] <;> omega

theorem SettlementQueue.accept_lawUpTo {q : SettlementQueue} {b : Bool} (h : q.lawUpTo b) : q.accept.lawUpTo true := by
  obtain ⟨h1, h2, h3, -⟩ := h
  exact ⟨h1, h2, by simpa [SettlementQueue.accept, List.map_drop] using follows_drop h3 _, rfl, rfl, by simp⟩

theorem SettlementQueue.halted_law {q : SettlementQueue} (h : q.law) : ({ q with halt := true } : SettlementQueue).law := by
  obtain ⟨h1, h2, h3, h4⟩ := h
  refine ⟨h1, h2, h3, ?_⟩
  cases he : q.exportState <;> simp_all

theorem SettlementQueue.resumed_lawUpTo {q : SettlementQueue} (h : q.law) :
    ({ q with halt := false } : SettlementQueue).lawUpTo true := by
  obtain ⟨h1, h2, h3, h4⟩ := h
  refine ⟨h1, h2, h3, ?_⟩
  cases he : q.exportState <;> simp_all

theorem SettlementQueue.lawUpTo.law_of_busy {q : SettlementQueue} {b : Bool} (h : q.lawUpTo b) (hb : q.exportState ≠ .ready) :
    q.law := by
  obtain ⟨h1, h2, h3, h4⟩ := h
  refine ⟨h1, h2, h3, ?_⟩
  cases he : q.exportState <;> simp_all

theorem SettlementQueue.stalled_law {q : SettlementQueue} (h : q.law) (he : q.exportState = .awaitingAccept)
    (n : SettlementCounters) :
    ({ q with exportState := .stalled, acceptTimer := none, counters := n } : SettlementQueue).law := by
  obtain ⟨h1, h2, h3, h4⟩ := h
  rw [he] at h4
  exact ⟨h1, h2, h3, h4.1, h4.2.1, rfl⟩

theorem SettlementQueue.restart_law {q : SettlementQueue} (h : q.law) : q.restart.law :=
  ⟨h.1, h.2.1, rfl, rfl, rfl, fun _ => rfl⟩

theorem markRepeats_seq (b : Nat) (rs : List SettlementRecord) : (markRepeats b rs).map (·.seq) = rs.map (·.seq) := by
  conv_rhs => rw [← List.take_append_drop b rs]
  simp only [markRepeats, List.map_append, List.map_map]
  rfl

theorem markRepeats_length (b : Nat) (rs : List SettlementRecord) : (markRepeats b rs).length = rs.length := by
  simpa using congrArg List.length (markRepeats_seq b rs)

/-- A stalled batch that is sent again (R148). -/
theorem resendBatch_law {s : State} (h : s.settle.law) (he : s.settle.exportState = .stalled) : s.resendBatch.settle.law := by
  obtain ⟨h1, h2, h3, h4⟩ := h
  rw [he] at h4
  exact ⟨h1, h2, (congrArg (follows · _) (markRepeats_seq _ _)).trans h3, h4.1,
    (markRepeats_length _ _).symm ▸ h4.2.1, rfl⟩

/-- The look at the condition of R143 leaves no records behind that could be sent. -/
theorem exportLook_law {s : State} {b : Bool} (h : s.settle.lawUpTo b) (hp : s.mgmt.params.valid = true) :
    s.exportLook.settle.law := by
  obtain ⟨h1, h2, h3, h4⟩ := h
  simp only [GlobalParams.valid, decide_eq_true_eq] at hp
  unfold State.exportLook
  split
  · rename_i hl
    have := List.length_pos_of_ne_nil hl.2.2
    exact ⟨h1, h2, h3, Nat.le_min.mpr ⟨hp.2.2.2.2.1, this⟩, Nat.min_le_right _ _, rfl⟩
  · rename_i hl
    refine ⟨h1, h2, h3, ?_⟩
    cases he : s.settle.exportState <;> simp_all

end Sys2Proof.Machine
end

