-- ==== Sys2Proof/Proofs/ContextLaw.lean ====
section
/-! SUPPORT. The law of the Context Table (R3, R4, R105, R107): allocation and freeing, offer control, and the contexts that
hold a slot (R138). -/
namespace Sys2Proof.Machine

/-- The map and the counts follow the contexts (R3, R4). -/
structure ContextTable.MapLaw (x : ContextTable) : Prop where
  contexts : Table.wf x.contexts = true
  refMap : Table.wf x.refMap = true
  range : ∀ p ∈ x.contexts, p.1 < Config.contextCount
  refs : ∀ ref i, Table.find ref x.refMap = some i ↔ ∃ c, Table.find i x.contexts = some c ∧ c.callRef = ref
  inUse : x.inUse = x.contexts.length
  peak : x.inUse ≤ x.peak

/-- The offer state follows the count (R105, R107). -/
def ContextTable.offerLaw (x : ContextTable) (g : GlobalParams) : Prop :=
  (x.offer = .opened → x.inUse < g.highWater) ∧ (x.offer = .held → g.lowWater < x.inUse)

theorem ContextTable.law_iff (x : ContextTable) (g : GlobalParams) : x.law g ↔ x.MapLaw ∧ x.offerLaw g :=
  ⟨fun ⟨h1, h2, h3, h4, h5, h6, h7, h8⟩ => ⟨⟨h1, h2, h3, h4, h5, h6⟩, h7, h8⟩,
    fun ⟨⟨h1, h2, h3, h4, h5, h6⟩, h7, h8⟩ => ⟨h1, h2, h3, h4, h5, h6, h7, h8⟩⟩

theorem ContextTable.law.map {x : ContextTable} {g : GlobalParams} (h : x.law g) : x.MapLaw := ((x.law_iff g).mp h).1

theorem ContextTable.law.offer {x : ContextTable} {g : GlobalParams} (h : x.law g) : x.offerLaw g := ((x.law_iff g).mp h).2

theorem GlobalParams.low_lt_high {g : GlobalParams} (h : g.valid = true) : g.lowWater < g.highWater := by
  simp only [GlobalParams.valid, decide_eq_true_eq] at h; omega

/-! ### Map and counts -/

/-- A change of one context that keeps its call reference. -/
theorem ContextTable.MapLaw.adjust {x : ContextTable} (h : x.MapLaw) {i : Nat} {f : Context → Context}
    (hf : ∀ c, (f c).callRef = c.callRef) : ({ x with contexts := Table.adjust i f x.contexts } : ContextTable).MapLaw where
  contexts := Table.wf_adjust _ _ h.contexts
  refMap := h.refMap
  range p hp := by
    rcases Table.mem_adjust hp with hp | ⟨v, hv, rfl⟩
    · exact h.range p hp
    · exact h.range (i, v) hv
  refs ref j := by
    rw [h.refs, Table.find_adjust]
    split
    · simp [hf]
    · rfl
  inUse := by
    have := congrArg List.length (Table.keys_adjust i f x.contexts)
    simp only [Table.keys, List.length_map] at this
    exact h.inUse.trans this.symm
  peak := h.peak

/-- A new context under a new reference (R3, R4). -/
theorem ContextTable.MapLaw.put {x : ContextTable} (h : x.MapLaw) {i : Nat} {c : Context}
    (hi : Table.find i x.contexts = none) (hr : Table.find c.callRef x.refMap = none) (hb : i < Config.contextCount) :
    ({ x with
      contexts := Table.put i c x.contexts, refMap := Table.put c.callRef i x.refMap, inUse := x.inUse + 1
      peak := max x.peak (x.inUse + 1) } : ContextTable).MapLaw where
  contexts := Table.wf_put _ _ h.contexts
  refMap := Table.wf_put _ _ h.refMap
  range p hp := by
    rcases Table.mem_put hp with rfl | hp
    · exact hb
    · exact h.range p hp
  refs ref j := by
    have new_ref : ∀ d, Table.find j x.contexts = some d → d.callRef ≠ c.callRef := fun d hd e => by
      have := (h.refs c.callRef j).mpr ⟨d, hd, e⟩
      simp [hr] at this
    rw [Table.find_put, Table.find_put]
    by_cases he : c.callRef = ref <;> by_cases hj : i = j
    · simp [he, hj]
    · subst he; simpa [hj] using new_ref
    · subst hj; simp [he, h.refs, hi]
    · simp [he, hj, h.refs]
  inUse := by
    have := (Table.put_perm h.contexts i c).length_eq
    rw [Table.del_of_find_none hi, List.length_cons] at this
    simp only [this, h.inUse]
  peak := le_max_right _ _

/-- A context in use less (R3, R4). -/
theorem ContextTable.MapLaw.del {x : ContextTable} (h : x.MapLaw) {i : Nat} {c : Context}
    (hi : Table.find i x.contexts = some c) :
    ({ x with
      contexts := Table.del i x.contexts, refMap := Table.del c.callRef x.refMap, inUse := x.inUse - 1 } :
        ContextTable).MapLaw where
  contexts := Table.wf_del _ h.contexts
  refMap := Table.wf_del _ h.refMap
  range p hp := h.range p (Table.mem_del.mp hp).1
  refs ref j := by
    have mine := (h.refs c.callRef i).mpr ⟨c, hi, rfl⟩
    rw [Table.find_del, Table.find_del]
    by_cases he : c.callRef = ref <;> by_cases hj : i = j
    · simp [he, hj]
    · subst he
      simp only [if_true, hj, if_false, reduceCtorEq, false_iff]
      intro hx
      have := (h.refs _ _).mpr hx
      simp [mine, hj] at this
    · subst hj
      simp only [he, if_false, if_true, reduceCtorEq, false_and, exists_false, iff_false]
      intro hx
      obtain ⟨d, hd, rfl⟩ := (h.refs _ _).mp hx
      rw [hi, Option.some.injEq] at hd
      exact he (hd ▸ rfl)
    · simp [he, hj, h.refs]
  inUse := by
    have := (Table.perm_of_find h.contexts hi).length_eq
    simp only [List.length_cons] at this
    simp only [h.inUse]; omega
  peak := (Nat.sub_le _ _).trans h.peak

/-! ### Offer control (R105) -/

/-- The look at the high watermark after the count has risen. -/
theorem compareHigh_ctxLaw {s : State} (hm : s.ctx.MapLaw) (hp : s.mgmt.params.valid = true)
    (hh : s.ctx.offer = .held → s.mgmt.params.lowWater < s.ctx.inUse) (now : ExTime) :
    (s.compareHigh now).ctx.law s.mgmt.params := by
  have hlt := GlobalParams.low_lt_high hp
  rw [ContextTable.law_iff]
  unfold State.compareHigh
  split
  · rename_i hc
    exact ⟨{ hm with }, by simp, fun _ => lt_of_lt_of_le hlt hc.2⟩
  · rename_i hc
    exact ⟨hm, fun ho => Nat.lt_of_not_le fun hle => hc ⟨ho, hle⟩, hh⟩

/-- The look at the low watermark after the count has fallen. -/
theorem compareLow_ctxLaw {s : State} (hm : s.ctx.MapLaw) (hp : s.mgmt.params.valid = true)
    (hh : s.ctx.offer = .opened → s.ctx.inUse < s.mgmt.params.highWater) (now : ExTime) :
    (s.compareLow now).ctx.law s.mgmt.params := by
  have hlt := GlobalParams.low_lt_high hp
  rw [ContextTable.law_iff]
  unfold State.compareLow
  split
  · rename_i hc
    exact ⟨{ hm with }, fun _ => lt_of_le_of_lt hc.2 hlt, by simp⟩
  · rename_i hc
    exact ⟨hm, hh, fun ho => Nat.lt_of_not_le fun hle => hc ⟨ho, hle⟩⟩

theorem compareBoth_ctxLaw {s : State} (hm : s.ctx.MapLaw) (hp : s.mgmt.params.valid = true) (now : ExTime) :
    (s.compareBoth now).ctx.law s.mgmt.params := by
  unfold State.compareBoth
  split
  · rename_i ho; exact compareHigh_ctxLaw hm hp (by simp [ho]) now
  · rename_i ho; exact compareLow_ctxLaw hm hp (by simp [ho]) now

theorem compareHigh_contexts (s : State) (now : ExTime) : (s.compareHigh now).ctx.contexts = s.ctx.contexts := by
  unfold State.compareHigh; split <;> rfl

theorem compareLow_contexts (s : State) (now : ExTime) : (s.compareLow now).ctx.contexts = s.ctx.contexts := by
  unfold State.compareLow; split <;> rfl

theorem compareBoth_contexts (s : State) (now : ExTime) : (s.compareBoth now).ctx.contexts = s.ctx.contexts := by
  unfold State.compareBoth; split
  · exact compareHigh_contexts s now
  · exact compareLow_contexts s now

theorem compareBoth_frame (s : State) (now : ExTime) : OnlyChanges [.ctx, .bwdOut] s (s.compareBoth now) := by
  unfold State.compareBoth; split
  · exact compareHigh_frame s now
  · exact compareLow_frame s now

theorem allocate_ctxLaw {s : State} (h : s.ctx.law s.mgmt.params) (hp : s.mgmt.params.valid = true) {i : Nat} {c : Context}
    (hi : s.context i = none) (hr : s.lookupRef c.callRef = none) (hb : i < Config.contextCount) (now : ExTime) :
    (s.allocate now i c).ctx.law s.mgmt.params := by
  unfold State.allocate
  exact compareHigh_ctxLaw (s := s.withCtx _) (h.map.put hi hr hb) hp (fun ho => Nat.lt_succ_of_lt (h.offer.2 ho)) now

theorem free_ctxLaw {s : State} (h : s.ctx.law s.mgmt.params) (hp : s.mgmt.params.valid = true) (now : ExTime) (i : Nat) :
    (s.free now i).ctx.law s.mgmt.params := by
  unfold State.free
  split
  · exact h
  · rename_i c hc
    exact compareLow_ctxLaw (s := s.withCtx _) (h.map.del hc) hp (fun ho => lt_of_le_of_lt (Nat.sub_le _ _) (h.offer.1 ho)) now

theorem updContext_ctxLaw {s : State} (h : s.ctx.law s.mgmt.params) (i : Nat) {f : Context → Context}
    (hf : ∀ c, (f c).callRef = c.callRef) : (s.updContext i f).ctx.law s.mgmt.params :=
  (ContextTable.law_iff _ _).mpr ⟨h.map.adjust hf, h.offer⟩

/-! ### The contexts that hold a slot (R138) -/

theorem slotHolders_updContext {s : State} (hw : Table.wf s.ctx.contexts = true) {i : Nat} {c : Context}
    (hi : s.context i = some c) (f : Context → Context) :
    (s.updContext i f).slotHolders + (if c.slot then 1 else 0) = s.slotHolders + if (f c).slot then 1 else 0 := by
  have h1 := (Table.perm_of_find hw hi).countP_eq fun p : Nat × Context => p.2.slot
  have h2 := (Table.adjust_perm hw f hi).countP_eq fun p : Nat × Context => p.2.slot
  rw [List.countP_cons] at h1 h2
  simp only [State.slotHolders, State.updContext, State.withCtx_ctx, h1, h2]
  omega

theorem slotHolders_del {s : State} (hw : Table.wf s.ctx.contexts = true) {i : Nat} {c : Context} (hi : s.context i = some c)
    (hs : c.slot = false) : ((Table.del i s.ctx.contexts).countP fun p => p.2.slot) = s.slotHolders := by
  have h := (Table.perm_of_find hw hi).countP_eq fun p : Nat × Context => p.2.slot
  simpa [hs, State.slotHolders] using h.symm

theorem slotHolders_put {s : State} (hw : Table.wf s.ctx.contexts = true) {i : Nat} (hi : s.context i = none) {c : Context}
    (hs : c.slot = false) : ((Table.put i c s.ctx.contexts).countP fun p => p.2.slot) = s.slotHolders := by
  have h := (Table.put_perm hw i c).countP_eq fun p : Nat × Context => p.2.slot
  rw [Table.del_of_find_none hi] at h
  simpa [hs, State.slotHolders] using h

end Sys2Proof.Machine
end

