-- ==== Sys2Proof/Proofs/MidLaw.lean ====
section
/-! SUPPORT. The laws of the device within an event: one context may be between two circuits, and a batch may be due. Every
shared operation keeps them. -/
namespace Sys2Proof.Machine

/-- What holds of a context that is between two circuits: between its allocation or the loss of its circuit and its next
seizure, its Clearing or its freeing (R1, R2). -/
structure Context.Loose (c : Context) : Prop where
  slot : c.slot = c.quote.isSome
  tried : c.tried.length ≤ Config.triedMax
  triedOnce : c.tried.Nodup
  answer : c.phase = .proceeding → c.answerTime = none

/-- The laws of the device within an event: context `hole`, if there is one, is between two circuits, and `seat` is what the
Circuit Map holds for it; where a call has been `rated` a batch may be due. -/
structure MidLaw (hole : Option Nat) (seat : Option (Nat × Nat)) (rated : Bool) (s : State) : Prop where
  time : s.time.law
  fwd : s.fwd.law .forward
  bwd : s.bwd.law .backward
  params : s.mgmt.params.valid = true
  ctx : s.ctx.law s.mgmt.params
  contexts : ∀ i c, hole ≠ some i → s.context i = some c → c.law
  loose : ∀ i c, hole = some i → s.context i = some c → c.Loose
  circ : s.circ.Law
  routes : s.routes.law
  tariffs : s.tariffs.law
  settle : s.settle.lawUpTo rated
  owners : ∀ i g k, (if hole = some i then seat = some (g, k) else ∃ c, s.context i = some c ∧ c.circuit = some (g, k)) ↔
    ∃ r, s.circuit k = some r ∧ r.cond = .seized i ∧ r.group = g
  slots : s.settle.reservations = s.slotHolders ∧ s.settle.slotSum ≤ Config.slotMax
  carriers : ∀ g x, s.group g = some x → x.cfg.owner = 0 ∨ (s.carrier x.cfg.owner).isSome = true

theorem midLaw_iff (s : State) : MidLaw none none false s ↔ s.Law := by
  constructor
  · intro h
    exact {
      time := h.time, fwd := h.fwd, bwd := h.bwd, params := h.params, ctx := h.ctx, circ := h.circ, routes := h.routes
      tariffs := h.tariffs, slots := h.slots
      contexts := (Table.forall_mem_iff h.ctx.map.contexts).mpr fun i c => h.contexts i c (by simp)
      settle := (SettlementQueue.lawUpTo_false _).mp h.settle
      owners := fun i g k => by simpa using h.owners i g k
      carriers := (Table.forall_mem_iff h.circ.groupsForm).mpr h.carriers }
  · intro h
    exact {
      time := h.time, fwd := h.fwd, bwd := h.bwd, params := h.params, ctx := h.ctx, circ := h.circ, routes := h.routes
      tariffs := h.tariffs, slots := h.slots
      contexts := fun i c _ hc => h.contexts _ (Table.mem_of_find hc)
      loose := by simp
      settle := (SettlementQueue.lawUpTo_false _).mpr h.settle
      owners := fun i g k => by simpa using h.owners i g k
      carriers := fun g x hx => h.carriers _ (Table.mem_of_find hx) }

/-! ### Parts that no law reads -/

/-- The parts that no law reads. -/
def lawless : List Part := [.pending, .resetLine, .mon, .rating, .fwdOut, .bwdOut, .draws]

section
variable {hole : Option Nat} {seat : Option (Nat × Nat)} {rated : Bool} {s : State}

theorem MidLaw.of_frame {t : State} (h : MidLaw hole seat rated s) (hf : OnlyChanges lawless s t) : MidLaw hole seat rated t := by
  have htime : t.time = s.time := hf .time (by decide)
  have hfwd : t.fwd = s.fwd := hf .fwd (by decide)
  have hbwd : t.bwd = s.bwd := hf .bwd (by decide)
  have hmgmt : t.mgmt = s.mgmt := hf .mgmt (by decide)
  have hctx : t.ctx = s.ctx := hf .ctx (by decide)
  have hcirc : t.circ = s.circ := hf .circ (by decide)
  have hroutes : t.routes = s.routes := hf .routes (by decide)
  have htariffs : t.tariffs = s.tariffs := hf .tariffs (by decide)
  have hsettle : t.settle = s.settle := hf .settle (by decide)
  have hcontext : ∀ i, t.context i = s.context i := fun i => by rw [State.context, hctx]; rfl
  have hcircuit : ∀ k, t.circuit k = s.circuit k := fun k => by rw [State.circuit, hcirc]; rfl
  exact {
    time := htime ▸ h.time
    fwd := hfwd ▸ h.fwd
    bwd := hbwd ▸ h.bwd
    params := hmgmt ▸ h.params
    ctx := by rw [hctx, hmgmt]; exact h.ctx
    contexts := fun i c hi hc => h.contexts i c hi (hcontext i ▸ hc)
    loose := fun i c hi hc => h.loose i c hi (hcontext i ▸ hc)
    circ := hcirc ▸ h.circ
    routes := hroutes ▸ h.routes
    tariffs := htariffs ▸ h.tariffs
    settle := hsettle ▸ h.settle
    owners := fun i g k => by rw [hcontext, hcircuit]; exact h.owners i g k
    slots := by rw [State.slotHolders, hctx, hsettle]; exact h.slots
    carriers := fun g x hx => by
      rw [State.group, hcirc] at hx
      rw [State.carrier, htariffs]
      exact h.carriers g x hx }

theorem MidLaw.emitFwd (h : MidLaw hole seat rated s) (m : OutMsg) : MidLaw hole seat rated (s.emitFwd m) := { h with }
theorem MidLaw.emitBwd (h : MidLaw hole seat rated s) (m : OutMsg) : MidLaw hole seat rated (s.emitBwd m) := { h with }
theorem MidLaw.notify (h : MidLaw hole seat rated s) (now : ExTime) (n : Notice) : MidLaw hole seat rated (s.notify now n) := { h with }
theorem MidLaw.withMon (h : MidLaw hole seat rated s) (x : OccupancyMonitor) : MidLaw hole seat rated (s.withMon x) := { h with }
theorem MidLaw.withRating (h : MidLaw hole seat rated s) (x : RatingCounters) : MidLaw hole seat rated (s.withRating x) := { h with }
theorem MidLaw.withDraws (h : MidLaw hole seat rated s) (n : Nat) : MidLaw hole seat rated { s with draws := n } := { h with }
theorem MidLaw.withPending (h : MidLaw hole seat rated s) (cs : List Instr) : MidLaw hole seat rated { s with pending := cs } :=
  { h with }

theorem MidLaw.notifyAll (h : MidLaw hole seat rated s) (now : ExTime) (ns : List Notice) :
    MidLaw hole seat rated (s.notifyAll now ns) := h.of_frame ((notifyAll_frame s now ns).mono (by decide))

/-! ### One block at a time -/

theorem MidLaw.withTime (h : MidLaw hole seat rated s) {x : TimeBase} (hx : x.law) : MidLaw hole seat rated (s.withTime x) :=
  { h with time := hx }

theorem MidLaw.withRoutes (h : MidLaw hole seat rated s) {x : RouteSelector} (hx : x.law) : MidLaw hole seat rated (s.withRoutes x) :=
  { h with routes := hx }

theorem MidLaw.withPort (h : MidLaw hole seat rated s) (p : Port) {x : PortState} (hx : x.law p) :
    MidLaw hole seat rated (s.withPort p x) := by
  cases p
  · exact { h with fwd := hx }
  · exact { h with bwd := hx }

theorem MidLaw.port (h : MidLaw hole seat rated s) (p : Port) : (s.port p).law p := by
  cases p
  · exact h.fwd
  · exact h.bwd

theorem MidLaw.setDevice (h : MidLaw hole seat rated s) (d : DeviceState) : MidLaw hole seat rated (s.setDevice d) := { h with }

theorem MidLaw.countCtx (h : MidLaw hole seat rated s) (f : ContextCounters → ContextCounters) :
    MidLaw hole seat rated (s.countCtx f) := { h with ctx := h.ctx }

theorem MidLaw.updList (h : MidLaw hole seat rated s) (l : Nat) {f : RouteList → RouteList}
    (hf : (s.routeList l).Lawful → (f (s.routeList l)).Lawful) : MidLaw hole seat rated (s.updList l f) :=
  h.withRoutes (updList_routeLaw h.routes l hf)

theorem MidLaw.countList (h : MidLaw hole seat rated s) (l : Nat) (f : ListCounters → ListCounters) :
    MidLaw hole seat rated (s.countList l f) := h.updList l fun hl => hl.counted _

/-- The queue with the same slots. -/
theorem MidLaw.withSettle (h : MidLaw hole seat rated s) {after : Bool} {q : SettlementQueue} (hq : q.lawUpTo after)
    (hr : q.reservations = s.settle.reservations) (hl : q.queued.length ≤ s.settle.queued.length) :
    MidLaw hole seat after (s.withSettle q) :=
  { h with
    settle := hq
    slots := ⟨hr.trans h.slots.1, by
      have := h.slots.2
      simp only [SettlementQueue.slotSum, State.withSettle_settle] at this ⊢
      omega⟩ }

/-- Tariffs in law in which no owner of a group goes missing. -/
theorem MidLaw.withTariffs (h : MidLaw hole seat rated s) {x : TariffTable} (hx : x.law)
    (hd : ∀ g y, s.group g = some y → (s.carrier y.cfg.owner).isSome = true →
      (Table.find y.cfg.owner x.carriers).isSome = true) : MidLaw hole seat rated (s.withTariffs x) :=
  { h with
    tariffs := hx
    carriers := fun g y hy => (h.carriers g y hy).imp_right (hd g y hy) }

theorem MidLaw.updCarrier (h : MidLaw hole seat rated s) (id : Nat) {f : Carrier → Carrier}
    (hf : ∀ c, s.carrier id = some c → c.law → (f c).law) : MidLaw hole seat rated (s.updCarrier id f) :=
  h.withTariffs (updCarrier_tariffLaw h.tariffs id hf) fun g y _ hs => by
    simp only [Table.find_adjust]
    split
    · simpa [State.carrier] using hs
    · exact hs

/-- A Circuit Map in law with the same owners of circuits. -/
theorem MidLaw.withCirc (h : MidLaw hole seat rated s) {m : CircuitMap} (hm : m.Law)
    (hs : ∀ i g k, (∃ r, Table.find k m.circuits = some r ∧ r.cond = .seized i ∧ r.group = g)
      ↔ ∃ r, s.circuit k = some r ∧ r.cond = .seized i ∧ r.group = g)
    (hd : ∀ g x, Table.find g m.groups = some x → x.cfg.owner = 0 ∨ (s.carrier x.cfg.owner).isSome = true) :
    MidLaw hole seat rated (s.withCirc m) :=
  { h with
    circ := hm
    owners := fun i g k => (h.owners i g k).trans (hs i g k).symm
    carriers := hd }

/-- A change of one group that leaves its owner leaves the owners declared. -/
theorem MidLaw.carriers_adjust (h : MidLaw hole seat rated s) {g : Nat} {f : Group → Group}
    (hf : ∀ x, (f x).cfg.owner = x.cfg.owner) (j : Nat) (x : Group)
    (hx : Table.find j (Table.adjust g f s.circ.groups) = some x) :
    x.cfg.owner = 0 ∨ (s.carrier x.cfg.owner).isSome = true := by
  rw [Table.find_adjust] at hx
  split at hx
  · obtain ⟨y, hy, rfl⟩ := Option.map_eq_some_iff.mp hx
    rw [hf]; exact h.carriers _ y hy
  · exact h.carriers _ x hx

theorem MidLaw.countCirc (h : MidLaw hole seat rated s) (f : CircuitCounters → CircuitCounters) :
    MidLaw hole seat rated (s.countCirc f) := h.withCirc (countCirc_circLaw h.circ f) (fun _ _ _ => .rfl) h.carriers

theorem MidLaw.updGroup (h : MidLaw hole seat rated s) {g : Nat} {f : Group → Group}
    (hf : ∀ x, s.group g = some x → x.Law s.circ.circuits g → (f x).Law s.circ.circuits g)
    (ho : ∀ x, (f x).cfg.owner = x.cfg.owner) : MidLaw hole seat rated (s.updGroup g f) :=
  h.withCirc (updGroup_circLaw h.circ hf) (fun _ _ _ => .rfl) (h.carriers_adjust ho)

theorem MidLaw.updMonitor (h : MidLaw hole seat rated s) (g : Nat) {f : GroupMonitor → GroupMonitor}
    (hf : ∀ m, m.law → (f m).law) : MidLaw hole seat rated (s.updMonitor g f) :=
  h.updGroup (fun _ _ hl => hl.congr rfl rfl rfl rfl rfl (hf _ hl.monitor)) fun _ => rfl

theorem MidLaw.updTraffic (h : MidLaw hole seat rated s) (g : Nat) (f : Traffic → Traffic) :
    MidLaw hole seat rated (s.updTraffic g f) := h.updMonitor g fun _ hm => hm

theorem MidLaw.markDrained (h : MidLaw hole seat rated s) (g : Nat) : MidLaw hole seat rated (s.markDrained g) :=
  h.updGroup
    (fun x _ hl => by
      split
      · exact hl.congr rfl rfl rfl rfl rfl hl.monitor
      · exact hl)
    fun x => by split <;> rfl

theorem MidLaw.drainCheck (h : MidLaw hole seat rated s) (now : ExTime) (g : Nat) : MidLaw hole seat rated (s.drainCheck now g) :=
  (h.markDrained g).notifyAll now _

theorem MidLaw.healthSuccess (h : MidLaw hole seat rated s) (now : ExTime) (g : Nat) :
    MidLaw hole seat rated (s.healthSuccess now g) := by
  unfold State.healthSuccess
  split
  · exact h
  · have h1 := h.updMonitor g fun m hm => GroupMonitor.success_law hm
    dsimp only
    split
    · exact h1.notify _ _
    · exact h1

theorem MidLaw.healthFailure (h : MidLaw hole seat rated s) (now : ExTime) (g : Nat) :
    MidLaw hole seat rated (s.healthFailure now g) := by
  unfold State.healthFailure
  split
  · exact h
  · rename_i r _
    have h1 := h.updMonitor g fun m hm => GroupMonitor.fail_law hm r.cfg.theta
    dsimp only
    split
    · exact h1.notify _ _
    · exact h1

theorem MidLaw.probeUnsuccessful (h : MidLaw hole seat rated s) (g : Nat) : MidLaw hole seat rated (s.probeUnsuccessful g) := by
  unfold State.probeUnsuccessful
  split
  · exact h
  · exact h.updMonitor g fun m hm => GroupMonitor.probeFailed_law hm _

/-- A change of flags or condition of a circuit that no call holds before or after. -/
theorem MidLaw.recast (h : MidLaw hole seat rated s) {k : Nat} {f : Circuit → Circuit} (hg : ∀ c, (f c).group = c.group)
    (hc : ∀ r, s.circuit k = some r → ∀ i, (f r).cond = .seized i ↔ r.cond = .seized i) :
    MidLaw hole seat rated (s.recast k f) := by
  have hl := recast_circLaw h.circ k f hg
  cases hk : s.circuit k with
  | none => simpa [State.recast, hk] using h
  | some r =>
    rw [recast_of f hk] at hl ⊢
    refine h.withCirc hl (fun i g j => ?_) (h.carriers_adjust fun _ => rfl)
    simp only [Table.find_put]
    split
    · rename_i e; subst e
      have := hc r hk i
      simp [hk, this, hg]
    · rfl

/-! ### The context between two circuits -/

/-- A change of the context that is between circuits. -/
theorem MidLaw.updHole {i : Nat} (h : MidLaw (some i) seat rated s) {f : Context → Context}
    (hr : ∀ c, (f c).callRef = c.callRef) (hs : ∀ c, (f c).slot = c.slot)
    (hl : ∀ c, s.context i = some c → c.Loose → (f c).Loose) :
    MidLaw (some i) seat rated (s.updContext i f) :=
  { h with
    ctx := updContext_ctxLaw h.ctx i hr
    contexts := fun j c hj hc => by
      rw [State.updContext_context, if_neg (fun e : i = j => hj (congrArg some e))] at hc
      exact h.contexts j c hj hc
    loose := fun j c hj hc => by
      rw [State.updContext_context, if_pos (Option.some.inj hj)] at hc
      obtain ⟨d, hd, rfl⟩ := Option.map_eq_some_iff.mp hc
      cases hj
      exact hl d hd (h.loose i d rfl hd)
    owners := fun j g k => by
      refine Iff.trans ?_ (h.owners j g k)
      by_cases hj : some i = some j
      · simp only [if_pos hj]
      · simp only [if_neg hj, State.updContext_context, if_neg (fun e : i = j => hj (congrArg some e))]
    slots := by
      refine ⟨h.slots.1.trans ?_, h.slots.2⟩
      cases hc : s.context i with
      | none => simp only [State.slotHolders, State.updContext, State.withCtx_ctx, Table.adjust_of_find_none f hc]
      | some c =>
        have := slotHolders_updContext h.ctx.map.contexts hc f
        rw [hs] at this
        omega }

theorem Context.addTried_loose {c : Context} (h : c.Loose) (g : Nat) : (c.addTried g).Loose := by
  unfold Context.addTried
  split
  · exact h
  · split
    · exact { h with }
    · rename_i hg hlen
      refine { h with tried := ?_, triedOnce := ?_ }
      · simp only [List.length_append, List.length_cons, List.length_nil]; omega
      · exact List.nodup_append.mpr ⟨h.triedOnce, by simp, fun a ha b hb => by
          rw [List.mem_singleton.mp hb]; exact fun e => hg (e ▸ ha)⟩

theorem Context.addTried_callRef (c : Context) (g : Nat) : (c.addTried g).callRef = c.callRef := by
  unfold Context.addTried; split <;> (try split) <;> rfl

theorem Context.addTried_slot (c : Context) (g : Nat) : (c.addTried g).slot = c.slot := by
  unfold Context.addTried; split <;> (try split) <;> rfl

theorem MidLaw.endProbe {i : Nat} (h : MidLaw (some i) seat rated s) (g : Nat) : MidLaw (some i) seat rated (s.endProbe i g) := by
  unfold State.endProbe
  split
  · exact h
  · rename_i c _
    have hp : MidLaw (some i) seat rated (if c.probe then s.probeUnsuccessful g else s) := by
      split
      · exact h.probeUnsuccessful g
      · exact h
    exact hp.updHole (fun _ => rfl) (fun _ => rfl) fun _ _ hl => { hl with }

/-- A context may be taken as one between circuits, with the circuit that it holds. -/
theorem MidLaw.midway {i : Nat} {c : Context} (h : MidLaw none none rated s) (hc : s.context i = some c) :
    MidLaw (some i) c.circuit rated s :=
  { h with
    contexts := fun j d _ hd => h.contexts j d (by simp) hd
    loose := fun j d _ hd => by
      obtain ⟨h1, h2, h3, h4⟩ := h.contexts j d (by simp) hd
      exact ⟨h1, h2, h3, fun hp => by rw [hp] at h4; exact h4.2.1⟩
    owners := fun j g k => by
      refine Iff.trans ?_ (h.owners j g k)
      split
      · rename_i e; cases e; simp [hc]
      · simp }

/-- A context that holds what the Circuit Map holds for it, and is in law, is not between circuits. -/
theorem MidLaw.close {i : Nat} {c : Context} (h : MidLaw (some i) seat rated s) (hc : s.context i = some c)
    (hk : c.circuit = seat) (hl : c.law) : MidLaw none none rated s :=
  { h with
    contexts := fun j d _ hd => by
      by_cases hj : some i = some j
      · cases hj; rw [hc] at hd; cases hd; exact hl
      · exact h.contexts j d hj hd
    loose := by simp
    owners := fun j g k => by
      refine Iff.trans ?_ (h.owners j g k)
      by_cases hj : some i = some j
      · cases hj; simp [hc, hk]
      · simp only [if_neg hj, reduceCtorEq, if_false] }

/-- No two contexts hold one circuit: what the Circuit Map holds for the one between circuits is nobody else's. -/
theorem MidLaw.seat_alone {i g k : Nat} (h : MidLaw (some i) (some (g, k)) rated s) :
    ∃ r, s.circuit k = some r ∧ r.cond = .seized i ∧ r.group = g := (h.owners i g k).mp (by simp)

/-- The release of the circuit of a context leaves the context between circuits (R31, R33, R43). -/
theorem MidLaw.unseat {i g k : Nat} (h : MidLaw (some i) (some (g, k)) rated s) {f : Circuit → Circuit}
    (hg : ∀ c, (f c).group = c.group) (hf : ∀ c j, (f c).cond ≠ .seized j) :
    MidLaw (some i) none rated (s.recast k f) := by
  have hl := recast_circLaw h.circ k f hg
  obtain ⟨r, hk, hc, -⟩ := h.seat_alone
  rw [recast_of f hk] at hl ⊢
  exact { h with
    circ := hl
    owners := fun j g' m => by
      have ho := h.owners j g' m
      simp only [State.withCirc_context, State.circuit, State.withCirc_circ, Table.find_put]
      by_cases hj : some i = some j
      · simp only [if_pos hj, reduceCtorEq, false_iff]
        rintro ⟨r', hr', hs', hg'⟩
        split at hr'
        · cases hr'; exact hf _ _ hs'
        · rename_i hm
          have := (ho.mpr ⟨r', hr', hs', hg'⟩)
          rw [if_pos hj, Option.some.injEq, Prod.mk.injEq] at this
          exact hm this.2
      · rw [if_neg hj] at ho ⊢
        rw [ho]
        by_cases hm : k = m
        · subst hm
          simp only [if_true, Option.some.injEq, exists_eq_left', hf, false_and, iff_false, hk, hc]
          rintro ⟨e, -⟩
          cases e; exact hj rfl
        · rw [if_neg hm]; rfl
    carriers := h.carriers_adjust fun _ => rfl }

/-- A circuit that no call holds is seized for the context between circuits (R8). -/
theorem MidLaw.sit {i k : Nat} {r : Circuit} (h : MidLaw (some i) none rated s) (hk : s.circuit k = some r)
    (hc : ∀ j, r.cond ≠ .seized j) {f : Circuit → Circuit} (hg : ∀ c, (f c).group = c.group)
    (hf : ∀ c, (f c).cond = .seized i) : MidLaw (some i) (some (r.group, k)) rated (s.recast k f) := by
  have hl := recast_circLaw h.circ k f hg
  rw [recast_of f hk] at hl ⊢
  exact { h with
    circ := hl
    owners := fun j g' m => by
      have ho := h.owners j g' m
      simp only [State.withCirc_context, State.circuit, State.withCirc_circ, Table.find_put]
      by_cases hj : some i = some j
      · rw [if_pos hj] at ho ⊢
        cases hj
        by_cases hm : k = m
        · subst hm; simp [hf, hg]
        · rw [if_neg hm]
          simp only [Option.some.injEq, Prod.mk.injEq, hm, and_false, false_iff]
          exact fun hx => by simpa using ho.mpr hx
      · rw [if_neg hj] at ho ⊢
        rw [ho]
        by_cases hm : k = m
        · subst hm
          simp only [hk, Option.some.injEq, exists_eq_left', if_true, hf, hc, false_and, false_iff]
          rintro ⟨e, -⟩
          cases e; exact hj rfl
        · rw [if_neg hm]; rfl
    carriers := h.carriers_adjust fun _ => rfl }

end
end Sys2Proof.Machine
end

