-- ==== Sys2Proof/Proofs/Frames.lean ====
section
/-! SUPPORT. What each shared operation leaves alone, and what the accessors then read. -/
namespace Sys2Proof.Machine

variable {s t : State} {parts : List Part}

/-! ### Accessors under a frame -/

theorem OnlyChanges.context_eq (h : OnlyChanges parts s t) (hp : Part.ctx ∉ parts) (i : Nat) : t.context i = s.context i := by
  have e : t.ctx = s.ctx := h .ctx hp
  rw [State.context, e]; rfl

theorem OnlyChanges.lookupRef_eq (h : OnlyChanges parts s t) (hp : Part.ctx ∉ parts) (r : Nat) :
    t.lookupRef r = s.lookupRef r := by
  have e : t.ctx = s.ctx := h .ctx hp
  rw [State.lookupRef, e]; rfl

theorem OnlyChanges.circuit_eq (h : OnlyChanges parts s t) (hp : Part.circ ∉ parts) (k : Nat) : t.circuit k = s.circuit k := by
  have e : t.circ = s.circ := h .circ hp
  rw [State.circuit, e]; rfl

theorem OnlyChanges.group_eq (h : OnlyChanges parts s t) (hp : Part.circ ∉ parts) (g : Nat) : t.group g = s.group g := by
  have e : t.circ = s.circ := h .circ hp
  rw [State.group, e]; rfl

theorem OnlyChanges.routeList_eq (h : OnlyChanges parts s t) (hp : Part.routes ∉ parts) (l : Nat) :
    t.routeList l = s.routeList l := by
  have e : t.routes = s.routes := h .routes hp
  rw [State.routeList, e]; rfl

theorem OnlyChanges.carrier_eq (h : OnlyChanges parts s t) (hp : Part.tariffs ∉ parts) (id : Nat) :
    t.carrier id = s.carrier id := by
  have e : t.tariffs = s.tariffs := h .tariffs hp
  rw [State.carrier, e]; rfl

/-! ### Named updates -/

theorem withPort_forward_frame (s : State) (x : PortState) : OnlyChanges [.fwd] s (s.withPort .forward x) := by
  intro p hp; cases p <;> simp at hp <;> rfl

theorem withPort_backward_frame (s : State) (x : PortState) : OnlyChanges [.bwd] s (s.withPort .backward x) := by
  intro p hp; cases p <;> simp at hp <;> rfl

theorem withCtx_frame (s : State) (x : ContextTable) : OnlyChanges [.ctx] s (s.withCtx x) := by
  intro p hp; cases p <;> simp at hp <;> rfl

theorem withCirc_frame (s : State) (x : CircuitMap) : OnlyChanges [.circ] s (s.withCirc x) := by
  intro p hp; cases p <;> simp at hp <;> rfl

theorem withRoutes_frame (s : State) (x : RouteSelector) : OnlyChanges [.routes] s (s.withRoutes x) := by
  intro p hp; cases p <;> simp at hp <;> rfl

theorem withTariffs_frame (s : State) (x : TariffTable) : OnlyChanges [.tariffs] s (s.withTariffs x) := by
  intro p hp; cases p <;> simp at hp <;> rfl

theorem withRating_frame (s : State) (x : RatingCounters) : OnlyChanges [.rating] s (s.withRating x) := by
  intro p hp; cases p <;> simp at hp <;> rfl

theorem withSettle_frame (s : State) (x : SettlementQueue) : OnlyChanges [.settle] s (s.withSettle x) := by
  intro p hp; cases p <;> simp at hp <;> rfl

theorem emitFwd_frame (s : State) (m : OutMsg) : OnlyChanges [.fwdOut] s (s.emitFwd m) := by
  intro p hp; cases p <;> simp at hp <;> rfl

theorem emitBwd_frame (s : State) (m : OutMsg) : OnlyChanges [.bwdOut] s (s.emitBwd m) := by
  intro p hp; cases p <;> simp at hp <;> rfl

theorem notify_frame (s : State) (now : ExTime) (n : Notice) : OnlyChanges [.bwdOut] s (s.notify now n) := emitBwd_frame _ _

theorem updContext_frame (s : State) (i : Nat) (f : Context → Context) : OnlyChanges [.ctx] s (s.updContext i f) :=
  withCtx_frame _ _

theorem countCtx_frame (s : State) (f : ContextCounters → ContextCounters) : OnlyChanges [.ctx] s (s.countCtx f) :=
  withCtx_frame _ _

theorem countCirc_frame (s : State) (f : CircuitCounters → CircuitCounters) : OnlyChanges [.circ] s (s.countCirc f) :=
  withCirc_frame _ _

theorem updGroup_frame (s : State) (g : Nat) (f : Group → Group) : OnlyChanges [.circ] s (s.updGroup g f) :=
  withCirc_frame _ _

theorem updMonitor_frame (s : State) (g : Nat) (f : GroupMonitor → GroupMonitor) : OnlyChanges [.circ] s (s.updMonitor g f) :=
  withCirc_frame _ _

theorem updTraffic_frame (s : State) (g : Nat) (f : Traffic → Traffic) : OnlyChanges [.circ] s (s.updTraffic g f) :=
  withCirc_frame _ _

theorem updList_frame (s : State) (l : Nat) (f : RouteList → RouteList) : OnlyChanges [.routes] s (s.updList l f) :=
  withRoutes_frame _ _

theorem countList_frame (s : State) (l : Nat) (f : ListCounters → ListCounters) : OnlyChanges [.routes] s (s.countList l f) :=
  withRoutes_frame _ _

/-! ### Reports and looks -/

theorem drainNotices_short (s : State) (g : Nat) : (s.drainNotices g).length ≤ 1 := by
  unfold State.drainNotices
  split
  · split <;> simp
  · simp

/-- The look of R46 gives one notice at most, so it draws no order. -/
theorem drainCheck_eq (s : State) (now : ExTime) (g : Nat) :
    s.drainCheck now g =
      { s.markDrained g with bwdOut := s.bwdOut ++ (s.drainNotices g).map (OutMsg.notice now) } := by
  rw [State.drainCheck, notifyAll_short _ _ (drainNotices_short s g)]; rfl

theorem drainCheck_frame (s : State) (now : ExTime) (g : Nat) : OnlyChanges [.circ, .bwdOut] s (s.drainCheck now g) := by
  rw [drainCheck_eq]
  intro p hp; cases p <;> simp at hp <;> rfl

theorem enterGuard_frame (s : State) (now : ExTime) (k : Nat) : OnlyChanges [.circ, .bwdOut] s (s.enterGuard now k) := by
  unfold State.enterGuard
  split
  · exact .refl _ _
  · split
    · exact .refl _ _
    · exact ((recast_frame _ _ _).mono (by decide)).trans (drainCheck_frame _ _ _)

theorem healthSuccess_frame (s : State) (now : ExTime) (g : Nat) :
    OnlyChanges [.circ, .bwdOut] s (s.healthSuccess now g) := by
  have h1 := (updMonitor_frame s g GroupMonitor.success).mono (more := [.circ, .bwdOut]) (by decide)
  unfold State.healthSuccess
  split
  · exact .refl _ _
  · dsimp only
    split
    · exact h1.trans ((notify_frame _ _ _).mono (by decide))
    · exact h1

theorem healthFailure_frame (s : State) (now : ExTime) (g : Nat) :
    OnlyChanges [.circ, .bwdOut] s (s.healthFailure now g) := by
  unfold State.healthFailure
  split
  · exact .refl _ _
  · rename_i r _
    have h1 := (updMonitor_frame s g fun m => m.fail r.cfg.theta).mono (more := [.circ, .bwdOut]) (by decide)
    dsimp only
    split
    · exact h1.trans ((notify_frame _ _ _).mono (by decide))
    · exact h1

theorem probeUnsuccessful_frame (s : State) (g : Nat) : OnlyChanges [.circ] s (s.probeUnsuccessful g) := by
  unfold State.probeUnsuccessful
  split
  · exact .refl _ _
  · exact updMonitor_frame _ _ _

theorem endProbe_frame (s : State) (i g : Nat) : OnlyChanges [.ctx, .circ] s (s.endProbe i g) := by
  unfold State.endProbe
  split
  · exact .refl _ _
  · refine OnlyChanges.trans ?_ ((updContext_frame _ _ _).mono (by decide))
    split
    · exact (probeUnsuccessful_frame _ _).mono (by decide)
    · exact .refl _ _

theorem startProceeding_frame (s : State) (i : Nat) : OnlyChanges [.ctx] s (s.startProceeding i) := updContext_frame _ _ _

theorem startClearing_frame (s : State) (i : Nat) : OnlyChanges [.ctx] s (s.startClearing i) := updContext_frame _ _ _

theorem allocate_frame (s : State) (now : ExTime) (i : Nat) (c : Context) :
    OnlyChanges [.ctx, .bwdOut] s (s.allocate now i c) :=
  ((withCtx_frame s _).mono (by decide)).trans (compareHigh_frame _ _)

theorem exportLook_frame (s : State) : OnlyChanges [.settle, .bwdOut] s s.exportLook := by
  unfold State.exportLook
  split
  · intro p hp; cases p <;> simp at hp <;> rfl
  · exact .refl _ _

theorem exportIf_frame (s : State) (b : Bool) : OnlyChanges [.settle, .bwdOut] s (s.exportIf b) := by
  cases b
  · exact .refl _ _
  · exact exportLook_frame s

/-! ### The selection pass -/

theorem priceCheck_frame (s : State) (now : ExTime) (priority : Bool) (ceiling : Nat) (r : Group) :
    OnlyChanges [.rating] s (s.priceCheck now priority ceiling r).1 := by
  unfold State.priceCheck
  split
  · exact .refl _ _
  · dsimp only
    split
    · exact withRating_frame _ _
    · split <;> exact withRating_frame _ _

theorem examine_frame (s : State) (now : ExTime) (k : Nat) (priority : Bool) (ch : Choice) :
    OnlyChanges [.circ, .rating] s (s.examine now k priority ch).1 := by
  have h1 := (updTraffic_frame s ch.group Traffic.attempt).mono (more := [.circ, .rating]) (by decide)
  unfold State.examine
  dsimp only
  split
  · split
    · exact h1.trans ((updTraffic_frame _ _ _).mono (by decide))
    · exact h1
  · exact h1
  · split
    · exact h1
    · split
      · exact h1
      · exact h1.trans ((priceCheck_frame _ _ _ _ _).mono (by decide))

theorem choiceFailed_frame (s : State) (i l k g : Nat) : OnlyChanges [.ctx, .routes] s (s.choiceFailed i l k g) := by
  have h1 := (updContext_frame s i fun c => c.addTried g).mono (more := [.ctx, .routes]) (by decide)
  unfold State.choiceFailed
  dsimp only
  split
  · exact h1
  · exact h1.trans ((updList_frame _ _ _).mono (by decide))

end Sys2Proof.Machine
end

