-- ==== Sys2Proof/Proofs/CallLaw.lean ====
section
/-! SUPPORT. The laws through the life of a call: the release of its circuit, its disposal, its freeing, its next seizure. -/
namespace Sys2Proof.Machine

variable {seat : Option (Nat × Nat)} {rated : Bool} {s : State} {i : Nat} {c : Context}

/-! ### Releasing a circuit (R31, R33) -/

theorem enterGuard_eq {k : Nat} {r : Circuit} {x : Group} (hk : s.circuit k = some r) (hx : s.group r.group = some x)
    (now : ExTime) : s.enterGuard now k =
      (s.recast k fun c => { c with cond := x.restCondition s.time.ticks }).drainCheck now r.group := by
  simp only [State.enterGuard, hk, hx]; rfl

theorem Group.restCondition_ne_seized (x : Group) (ticks j : Nat) : x.restCondition ticks ≠ .seized j := by
  unfold Group.restCondition; split <;> simp

theorem MidLaw.enterGuard_of_seat {g k : Nat} (h : MidLaw (some i) (some (g, k)) rated s) (now : ExTime) :
    MidLaw (some i) none rated (s.enterGuard now k) := by
  obtain ⟨r, hk, -, -⟩ := h.seat_alone
  obtain ⟨x, hx⟩ := State.circuit_equipped h.circ hk
  rw [enterGuard_eq hk hx]
  have := h.unseat (f := fun c => { c with cond := x.restCondition s.time.ticks }) (fun _ => rfl)
    fun _ => x.restCondition_ne_seized _
  exact this.drainCheck _ _

theorem MidLaw.enterReleasing_of_seat {g k : Nat} (h : MidLaw (some i) (some (g, k)) rated s) :
    MidLaw (some i) none rated (s.enterReleasing k) := h.unseat (fun _ => rfl) fun _ _ => by simp

theorem MidLaw.farTakes_of_seat {g k : Nat} (h : MidLaw (some i) (some (g, k)) rated s) :
    MidLaw (some i) none rated (s.farTakes k) := h.unseat (fun _ => rfl) fun _ _ => by simp

/-- A circuit that no call holds comes to rest (R31). -/
theorem MidLaw.enterGuard {hole : Option Nat} (h : MidLaw hole seat rated s) {k : Nat} {r : Circuit}
    (hk : s.circuit k = some r) (hn : ∀ j, r.cond ≠ .seized j) (now : ExTime) :
    MidLaw hole seat rated (s.enterGuard now k) := by
  obtain ⟨x, hx⟩ := State.circuit_equipped h.circ hk
  rw [enterGuard_eq hk hx]
  refine MidLaw.drainCheck ?_ _ _
  refine h.recast (fun _ => rfl) fun r' hr' j => ?_
  rw [hk] at hr'; cases hr'
  exact iff_of_false (x.restCondition_ne_seized _ j) (hn j)

/-! ### The slot of a context (R10, R138 to R141) -/

theorem slot_reserved (h : MidLaw (some i) seat rated s) (hc : s.context i = some c) (hs : c.slot = true) :
    1 ≤ s.settle.reservations := by
  have := slotHolders_updContext h.ctx.map.contexts hc fun x => { x with slot := false }
  simp only [hs, if_true] at this
  have := h.slots.1
  simp at *; omega

/-- The context between circuits takes or gives back its slot with the queue. -/
theorem MidLaw.swapSlot {after : Bool} (h : MidLaw (some i) seat rated s) (hc : s.context i = some c)
    {q : SettlementQueue} {f : Context → Context} (hq : q.lawUpTo after) (hr : ∀ c, (f c).callRef = c.callRef)
    (hl : c.Loose → (f c).Loose)
    (hres : q.reservations + (if c.slot then 1 else 0) = s.settle.reservations + if (f c).slot then 1 else 0)
    (hsum : q.slotSum ≤ Config.slotMax) : MidLaw (some i) seat after ((s.withSettle q).updContext i f) :=
  { h with
    ctx := updContext_ctxLaw (s := s.withSettle q) h.ctx i hr
    settle := hq
    contexts := fun j d hj hd => by
      rw [State.updContext_context, if_neg (fun e : i = j => hj (congrArg some e))] at hd
      exact h.contexts j d hj hd
    loose := fun j d hj hd => by
      cases hj
      rw [State.updContext_context, if_pos rfl, State.withSettle_context, hc] at hd
      cases hd
      exact hl (h.loose i c rfl hc)
    owners := fun j g k => by
      refine Iff.trans ?_ (h.owners j g k)
      by_cases hj : some i = some j
      · simp only [if_pos hj]
      · simp only [if_neg hj, State.updContext_context, if_neg (fun e : i = j => hj (congrArg some e)),
          State.withSettle_context]
    slots := by
      refine ⟨?_, hsum⟩
      have h1 := slotHolders_updContext (s := s.withSettle q) h.ctx.map.contexts hc f
      have h2 : (s.withSettle q).slotHolders = s.slotHolders := rfl
      have h3 := h.slots.1
      change q.reservations = _
      omega }

/-! ### Disposal (R10) -/

theorem dispose_context (hc : s.context i = some c) (now : ExTime) (j : Nat) :
    (s.dispose now i).context j = if i = j then some { c with quote := none, slot := false } else s.context j := by
  unfold State.dispose
  rw [hc]
  simp only [State.updContext_context]
  have key : ∀ t : State, t.context j = s.context j →
      (if i = j then (t.context j).map fun x => { x with quote := none, slot := false } else t.context j)
        = if i = j then some { c with quote := none, slot := false } else s.context j := by
    intro t ht
    rw [ht]
    split
    · rename_i e; subst e; simp [hc]
    · rfl
  apply key
  split
  · rfl
  · split <;> rfl

/-- A record is made of a rated call alone (R10, R135). -/
theorem Context.rated_of_record {now : ExTime} {r : SettlementRecord} (h : c.record now = some r) :
    c.rated = true ∧ c.quote.isSome = true := by
  unfold Context.record at h
  split at h
  · rename_i hq _ _
    split at h
    · rename_i hp; simp [Context.rated, hp, hq]
    · simp at h
  · simp at h

theorem MidLaw.dispose (h : MidLaw (some i) seat false s) (hc : s.context i = some c) (now : ExTime) :
    MidLaw (some i) seat c.rated (s.dispose now i) := by
  have hloose := h.loose i c rfl hc
  have cleared : c.Loose → ({ c with quote := none, slot := false } : Context).Loose := fun hl => { hl with slot := rfl }
  have hsum := h.slots.2
  simp only [SettlementQueue.slotSum] at hsum
  have weaken : ∀ t, MidLaw (some i) seat false t → MidLaw (some i) seat c.rated t := fun t ht => by
    cases hr : c.rated
    · exact ht
    · exact { ht with settle := ht.settle.rated }
  unfold State.dispose
  rw [hc]
  dsimp only
  split
  · rename_i r hr
    obtain ⟨hrated, hquote⟩ := Context.rated_of_record hr
    have hslot : c.slot = true := hloose.slot.trans hquote
    have hres := slot_reserved h hc hslot
    have h1 : MidLaw (some i) seat false ((s.withRating (s.rating.rate r)).updCarrier r.carrier fun c => c.settle r.charge) :=
      (h.withRating _).updCarrier r.carrier fun d _ hd => Carrier.settle_law hd _
    have h2 := h1.swapSlot hc (q := s.settle.append r) (f := fun x => { x with quote := none, slot := false })
      (SettlementQueue.append_lawUpTo h.settle r) (fun _ => rfl) cleared
      (by simp only [SettlementQueue.append, hslot]
          change s.settle.reservations - 1 + 1 = s.settle.reservations + _
          simp; omega)
      (by simp only [SettlementQueue.append, SettlementQueue.slotSum, List.length_append, List.length_cons, List.length_nil]
          omega)
    rw [hrated]
    exact h2
  · apply weaken
    split
    · rename_i hslot
      have hres := slot_reserved h hc hslot
      exact h.swapSlot hc (q := s.settle.giveBack) h.settle (fun _ => rfl) cleared
        (by simp only [SettlementQueue.giveBack, hslot]; simp; omega)
        (by simp only [SettlementQueue.giveBack, SettlementQueue.slotSum]; omega)
    · rename_i hslot
      exact h.swapSlot hc (q := s.settle) h.settle (fun _ => rfl) cleared (by simp [hslot]) h.slots.2

/-! ### The end of a call -/

/-- A change of the Context Table alone, with its outputs. -/
theorem MidLaw.of_ctx {hole hole' : Option Nat} {seat' : Option (Nat × Nat)} {t : State} (h : MidLaw hole seat rated s)
    (hf : OnlyChanges [.ctx, .bwdOut] s t) (hctx : t.ctx.law s.mgmt.params)
    (hlaw : ∀ i c, hole' ≠ some i → t.context i = some c → c.law)
    (hloose : ∀ i c, hole' = some i → t.context i = some c → c.Loose)
    (hown : ∀ i g k, (if hole' = some i then seat' = some (g, k) else ∃ c, t.context i = some c ∧ c.circuit = some (g, k))
      ↔ if hole = some i then seat = some (g, k) else ∃ c, s.context i = some c ∧ c.circuit = some (g, k))
    (hslots : t.slotHolders = s.slotHolders) : MidLaw hole' seat' rated t := by
  have hmgmt : t.mgmt = s.mgmt := hf .mgmt (by decide)
  have hsettle : t.settle = s.settle := hf .settle (by decide)
  have htime : t.time = s.time := hf .time (by decide)
  have hfwd : t.fwd = s.fwd := hf .fwd (by decide)
  have hbwd : t.bwd = s.bwd := hf .bwd (by decide)
  have hcirc : t.circ = s.circ := hf .circ (by decide)
  have hroutes : t.routes = s.routes := hf .routes (by decide)
  have htariffs : t.tariffs = s.tariffs := hf .tariffs (by decide)
  exact {
    time := htime ▸ h.time, fwd := hfwd ▸ h.fwd, bwd := hbwd ▸ h.bwd, params := hmgmt ▸ h.params, ctx := hmgmt ▸ hctx
    contexts := hlaw, loose := hloose, circ := hcirc ▸ h.circ, routes := hroutes ▸ h.routes
    tariffs := htariffs ▸ h.tariffs, settle := hsettle ▸ h.settle
    owners := fun j g k => by rw [hf.circuit_eq (by decide)]; exact (hown j g k).trans (h.owners j g k)
    slots := by rw [hsettle, hslots]; exact h.slots
    carriers := fun g x hx => by
      rw [hf.carrier_eq (by decide)]
      exact h.carriers g x (hf.group_eq (by decide) g ▸ hx) }

theorem free_slotHolders (hw : Table.wf s.ctx.contexts = true) (hc : s.context i = some c) (hs : c.slot = false)
    (now : ExTime) : (s.free now i).slotHolders = s.slotHolders := by
  unfold State.free
  rw [hc]
  simp only [State.slotHolders, compareLow_contexts]
  exact slotHolders_del hw hc hs

/-- The freeing of a context without a circuit and without a slot (R3). -/
theorem MidLaw.free (h : MidLaw (some i) none rated s) (hc : s.context i = some c) (hs : c.slot = false) (now : ExTime) :
    MidLaw none none rated (s.free now i) := by
  obtain ⟨hfreed, -, -⟩ := free_of (now := now) hc
  refine h.of_ctx (free_frame s now i) (free_ctxLaw h.ctx h.params now i) (fun j d _ hd => ?_) (by simp)
    (fun j g k => ?_) (free_slotHolders h.ctx.map.contexts hc hs now)
  · by_cases hj : j = i
    · subst hj; simp [hfreed.context] at hd
    · rw [hfreed.others j hj] at hd
      exact h.contexts j d (by simpa using Ne.symm hj) hd
  · by_cases hj : j = i
    · subst hj; simp [hfreed.context]
    · simp [hfreed.others j hj, Ne.symm hj]

theorem startClearing_context (hc : s.context i = some c) :
    (s.startClearing i).context i = some { c with
      phase := .clearing, circuit := none, probe := false, timer := s.timerOf (supervision s.mgmt.params.tClear) } := by
  rw [State.startClearing, State.updContext_context]; simp [hc]

theorem startProceeding_context (hc : s.context i = some c) :
    (s.startProceeding i).context i = some { c with
      phase := .proceeding, timer := s.timerOf (supervision s.mgmt.params.tProceed) } := by
  rw [State.startProceeding, State.updContext_context]; simp [hc]

/-- A call whose seizure is disposed of enters Clearing (R2). -/
theorem MidLaw.startClearing (h : MidLaw (some i) none rated s) (hc : s.context i = some c) (hq : c.quote = none) :
    MidLaw none none rated (s.startClearing i) := by
  have hl := h.loose i c rfl hc
  refine MidLaw.close (h.updHole (fun _ => rfl) (fun _ => rfl) fun d _ hd => { hd with answer := by simp })
    (startClearing_context hc) rfl ?_
  exact ⟨hl.slot, hl.tried, hl.triedOnce, rfl, hq, rfl, rfl⟩

/-- A context on its new circuit proceeds (R5, R7). -/
theorem MidLaw.startProceeding {g k : Nat} (h : MidLaw (some i) (some (g, k)) rated s) (hc : s.context i = some c)
    (hk : c.circuit = some (g, k)) (hp : c.phase = .proceeding) : MidLaw none none rated (s.startProceeding i) := by
  have hl := h.loose i c rfl hc
  refine MidLaw.close (h.updHole (fun _ => rfl) (fun _ => rfl) fun d hd hdl => { hdl with answer := fun _ => ?_ })
    (startProceeding_context hc) hk ?_
  · rw [hc] at hd; cases hd; exact hl.answer hp
  · exact ⟨hl.slot, hl.tried, hl.triedOnce, by simp [hk], hl.answer hp, rfl⟩

theorem MidLaw.exportLook {hole : Option Nat} (h : MidLaw hole seat rated s) : MidLaw hole seat false s.exportLook := by
  have hl := exportLook_law h.settle h.params
  unfold State.exportLook at hl ⊢
  split
  · rename_i hc
    rw [if_pos hc] at hl
    refine MidLaw.of_frame (s := s.withSettle s.sendBatch.settle) ?_ ?_
    · exact h.withSettle ((SettlementQueue.lawUpTo_false _).mpr hl) rfl le_rfl
    · intro p hp; cases p <;> first | rfl | exact absurd (by decide) hp
  · rename_i hc
    rw [if_neg hc] at hl
    exact { h with settle := (SettlementQueue.lawUpTo_false _).mpr hl }

theorem MidLaw.exportIf {hole : Option Nat} (h : MidLaw hole seat rated s) : MidLaw hole seat false (s.exportIf rated) := by
  cases rated
  · exact h
  · exact h.exportLook

/-! ### Allocation (R3) -/

/-- What the allocation of one context leaves (R3, R105). -/
theorem allocate_of {now : ExTime} (s : State) (i : Nat) (c : Context) :
    (∀ j, (s.allocate now i c).context j = if i = j then some c else s.context j)
      ∧ (∀ r, (s.allocate now i c).lookupRef r = if c.callRef = r then some i else s.lookupRef r)
      ∧ (s.allocate now i c).ctx.inUse = s.ctx.inUse + 1
      ∧ (s.allocate now i c).ctx.peak = max s.ctx.peak (s.ctx.inUse + 1)
      ∧ (s.allocate now i c).ctx.offer =
          (if s.ctx.offer = .held ∨ s.mgmt.params.highWater ≤ s.ctx.inUse + 1 then .held else .opened)
      ∧ (s.allocate now i c).ctx.counters = s.ctx.counters
      ∧ (s.allocate now i c).bwdOut = s.bwdOut ++ s.holdReport now := by
  unfold State.allocate State.compareHigh
  split
  · rename_i hc
    simp only [State.withCtx_ctx, State.withCtx_mgmt] at hc
    refine ⟨fun j => Table.find_put i j c _, fun r => Table.find_put _ r i _, rfl, rfl, ?_, rfl, ?_⟩
    · simp [hc.2]
    · simp [State.holdReport, hc]
  · rename_i hc
    simp only [State.withCtx_ctx, State.withCtx_mgmt] at hc
    refine ⟨fun j => Table.find_put i j c _, fun r => Table.find_put _ r i _, rfl, rfl, ?_, rfl, ?_⟩
    · cases ho : s.ctx.offer
      · simpa [ho] using hc
      · simp [ho]
    · rw [State.holdReport, if_neg hc]; simp

/-- A new context is between circuits (R3, log entry 22). -/
theorem MidLaw.allocate (h : MidLaw none none rated s) (hi : s.context i = none) (hr : s.lookupRef c.callRef = none)
    (hb : i < Config.contextCount) (hl : c.Loose) (hs : c.slot = false) (now : ExTime) :
    MidLaw (some i) none rated (s.allocate now i c) := by
  obtain ⟨hctx, -⟩ := allocate_of (now := now) s i c
  refine h.of_ctx (allocate_frame s now i c) (allocate_ctxLaw h.ctx h.params hi hr hb now) (fun j d hj hd => ?_)
    (fun j d hj hd => ?_) (fun j g k => ?_) ?_
  · rw [hctx, if_neg (fun e : i = j => hj (congrArg some e))] at hd
    exact h.contexts j d (by simp) hd
  · rw [hctx, if_pos (Option.some.inj hj)] at hd
    cases hd; exact hl
  · by_cases hj : i = j
    · subst hj; simp [hi]
    · simp [hctx, hj]
  · simp only [State.allocate, State.slotHolders, compareHigh_contexts]
    exact slotHolders_put h.ctx.map.contexts hi hs

/-! ### Seizure (R8) -/

theorem Group.hunt_mem {x : Group} {k : Nat} (h : x.hunt = some k) : k ∈ x.freeQueue := by
  unfold Group.hunt at h
  split at h
  · exact List.mem_of_head? h
  · exact List.min?_mem h

/-- The circuit that a group hunts is a Free one of its own (R29, R30). -/
theorem hunted_free (h : s.circ.Law) {g k : Nat} {x : Group} (hx : s.group g = some x) (hk : x.hunt = some k) :
    ∃ r, s.circuit k = some r ∧ r.group = g ∧ r.cls = .free := ((h.group hx).free k).mp (Group.hunt_mem hk)

theorem Circuit.cond_of_free {r : Circuit} (h : r.cls = .free) : r.cond = .idle := by
  unfold Circuit.cls at h
  split at h <;> simp_all

/-- The order in which a seizure touches the queue and the monitor does not matter. -/
theorem seizeCircuit_eq (s : State) (now : ExTime) (i l k g n : Nat) (q : Option Quote) :
    s.seizeCircuit now i l k g n q =
      let suspect := decide ((s.group g).map (·.mon.health) = some .suspect)
      let s1 := (s.recast n fun x => { x with cond := .seized i }).updTraffic g Traffic.seize
      let s2 := if suspect then s1.updMonitor g fun m => { m with gate := .closed } else s1
      let s3 := if k = 0 then s2 else s2.updList l fun r => { r with pointer := k }
      (s3.withSettle (if q.isSome then s3.settle.reserve else s3.settle)).updContext i fun x =>
        { x with circuit := some (g, n), seizeTime := now, quote := q, slot := q.isSome, probe := suspect } := by
  unfold State.seizeCircuit
  dsimp only
  cases q <;> by_cases hs : (s.group g).map (·.mon.health) = some .suspect <;> by_cases hk : k = 0 <;> simp [hs, hk] <;> rfl

end Sys2Proof.Machine
end

