-- ==== Sys2Proof/Proofs/PassLaw.lean ====
section
/-! SUPPORT. The laws through a selection pass, a reselection and the ways in which a call loses its circuit. -/
namespace Sys2Proof.Machine

variable {s : State} {i : Nat} {c : Context}

/-- Context `i` is in Proceeding and has no quote: it waits for its next circuit (R14). -/
def Waiting (i : Nat) (s : State) : Prop := ∃ c, s.context i = some c ∧ c.phase = .proceeding ∧ c.quote = none

theorem Waiting.of_frame {t : State} {parts : List Part} (h : Waiting i s) (hf : OnlyChanges parts s t)
    (hp : Part.ctx ∉ parts) : Waiting i t := by
  obtain ⟨c, hc, hw⟩ := h
  exact ⟨c, (hf.context_eq hp i).trans hc, hw⟩

theorem Waiting.updContext (h : Waiting i s) {f : Context → Context}
    (hf : ∀ c, (f c).phase = c.phase ∧ (f c).quote = c.quote) : Waiting i (s.updContext i f) := by
  obtain ⟨c, hc, hp, hq⟩ := h
  refine ⟨f c, by rw [State.updContext_context]; simp [hc], (hf c).1.trans hp, (hf c).2.trans hq⟩

theorem Context.addTried_same (c : Context) (g : Nat) :
    (c.addTried g).phase = c.phase ∧ (c.addTried g).quote = c.quote := by
  unfold Context.addTried; split <;> (try split) <;> exact ⟨rfl, rfl⟩

/-! ### The examination of a choice (R62 to R67) -/

theorem MidLaw.priceCheck {hole : Option Nat} {seat : Option (Nat × Nat)} {rated : Bool} (h : MidLaw hole seat rated s)
    (now : ExTime) (priority : Bool) (ceiling : Nat) (r : Group) :
    MidLaw hole seat rated (s.priceCheck now priority ceiling r).1 :=
  h.of_frame ((priceCheck_frame s now priority ceiling r).mono (by decide))

theorem MidLaw.examine {hole : Option Nat} {seat : Option (Nat × Nat)} {rated : Bool} (h : MidLaw hole seat rated s)
    (now : ExTime) (k : Nat) (priority : Bool) (ch : Choice) : MidLaw hole seat rated (s.examine now k priority ch).1 := by
  have h1 := h.updTraffic ch.group Traffic.attempt
  unfold State.examine
  dsimp only
  split
  · split
    · exact h1.updTraffic _ _
    · exact h1
  · exact h1
  · split
    · exact h1
    · split
      · exact h1
      · exact h1.priceCheck _ _ _ _

theorem slotFree_lt {priority : Bool} {q : SettlementQueue} (h : slotFree priority q = true) : q.slotSum < Config.slotMax := by
  simp only [slotFree, decide_eq_true_eq] at h
  cases priority
  · exact h.trans (by decide)
  · exact h

/-- A choice that passes with a quote has found a slot (R66). -/
theorem slot_of_pass {now : ExTime} {k : Nat} {priority : Bool} {ch : Choice} {q : Quote}
    (h : (s.examine now k priority ch).2 = .pass (some q)) : s.settle.slotSum < Config.slotMax := by
  unfold State.examine at h
  dsimp only at h
  split at h
  · simp at h
  · simp at h
  · split at h
    · simp at h
    · split at h
      · simp at h
      · unfold State.priceCheck at h
        split at h
        · simp at h
        · dsimp only at h
          split at h
          · simp at h
          · split at h
            · rename_i hs
              exact slotFree_lt hs
            · simp at h

theorem MidLaw.choiceFailed {seat : Option (Nat × Nat)} {rated : Bool} (h : MidLaw (some i) seat rated s) (l k g : Nat) :
    MidLaw (some i) seat rated (s.choiceFailed i l k g) := by
  have h1 := h.updHole (f := fun c => c.addTried g) (fun c => c.addTried_callRef g) (fun c => c.addTried_slot g)
    fun _ _ hl => Context.addTried_loose hl g
  unfold State.choiceFailed
  dsimp only
  split
  · exact h1
  · exact h1.updList l fun hl => hl.afterAlternate k

theorem Waiting.choiceFailed (h : Waiting i s) (l k g : Nat) : Waiting i (s.choiceFailed i l k g) := by
  have h1 := h.updContext (f := fun c => c.addTried g) fun c => c.addTried_same g
  unfold State.choiceFailed
  dsimp only
  split
  · exact h1
  · exact h1.of_frame (updList_frame _ _ _) (by decide)

/-! ### Seizure (R8, R68) -/

/-- A seizure puts the waiting context on the hunted circuit. -/
theorem MidLaw.seizeCircuit (h : MidLaw (some i) none false s) (hw : Waiting i s) {g n k l : Nat} {x : Group}
    (hx : s.group g = some x) (hn : x.hunt = some n) (hk : k ≠ 0 → k < (s.routeList l).choices.length) {q : Option Quote}
    (hq : q.isSome = true → s.settle.slotSum < Config.slotMax) (now : ExTime) :
    MidLaw (some i) (some (g, n)) false (s.seizeCircuit now i l k g n q)
      ∧ ∃ c, (s.seizeCircuit now i l k g n q).context i = some c ∧ c.phase = .proceeding ∧ c.circuit = some (g, n) := by
  obtain ⟨c, hc, hp, hquote⟩ := hw
  obtain ⟨r, hr, rfl, hfree⟩ := hunted_free h.circ hx hn
  have hcond := Circuit.cond_of_free hfree
  rw [seizeCircuit_eq]
  extract_lets suspect s1 s2 s3
  have h1 : MidLaw (some i) (some (r.group, n)) false s1 :=
    (h.sit (f := fun c => { c with cond := .seized i }) hr (by simp [hcond]) (fun _ => rfl) fun _ => rfl).updTraffic _ _
  have f1 : OnlyChanges [.circ] s s1 := (recast_frame _ _ _).trans (updTraffic_frame _ _ _)
  have hx1 : ∀ y, s1.group r.group = some y → y.mon.health = x.mon.health := by
    intro y hy
    have hm := recast_moved (fun c => { c with cond := .seized i }) hr hx
    have e : s1.group r.group = ((s.recast n fun c => { c with cond := .seized i }).group r.group).map
        (fun y => { y with mon := { y.mon with traffic := y.mon.traffic.seize } }) :=
      (State.updMonitor_group _ _ _ _).trans (if_pos rfl)
    rw [e, hm.group] at hy
    cases hy; rfl
  have h2 : MidLaw (some i) (some (r.group, n)) false s2 ∧ OnlyChanges [.circ] s s2 := by
    by_cases hs : suspect = true
    · rw [show s2 = s1.updMonitor _ _ from if_pos hs]
      refine ⟨h1.updGroup (fun y hy hl => hl.congr rfl rfl rfl rfl rfl ?_) fun _ => rfl,
        f1.trans (updMonitor_frame _ _ _)⟩
      refine ⟨hl.monitor.1, hl.monitor.2.1, fun hh => ?_⟩
      have hsus : x.mon.health = .suspect := by simpa [suspect, hx] using hs
      rw [← hx1 y hy] at hsus
      exact absurd (hsus.symm.trans hh) (by decide)
    · rw [show s2 = s1 from if_neg hs]; exact ⟨h1, f1⟩
  have h3 : MidLaw (some i) (some (r.group, n)) false s3 ∧ OnlyChanges [.circ, .routes] s s3 := by
    have f2 := h2.2.mono (more := [.circ, .routes]) (by decide)
    by_cases hz : k = 0
    · rw [show s3 = s2 from if_pos hz]; exact ⟨h2.1, f2⟩
    · rw [show s3 = s2.updList _ _ from if_neg hz]
      refine ⟨h2.1.updList l fun hl => hl.pointed (Nat.pos_of_ne_zero hz) ?_, f2.trans ((updList_frame _ _ _).mono (by decide))⟩
      have := hk hz
      rw [h2.2.routeList_eq (by decide)]
      omega
  have hc3 : s3.context i = some c := (h3.2.context_eq (by decide) i).trans hc
  have hset : s3.settle = s.settle := h3.2 .settle (by decide)
  have hslot : c.slot = false := by rw [(h.loose i c rfl hc).slot, hquote]; rfl
  refine ⟨h3.1.swapSlot hc3 (q := if q.isSome then s3.settle.reserve else s3.settle) ?_ (fun _ => rfl)
    (fun hl => { hl with slot := rfl }) ?_ ?_, ?_⟩
  · split
    · exact h3.1.settle
    · exact h3.1.settle
  · rw [hslot]
    cases q <;> rfl
  · have hsum := h.slots.2
    cases q with
    | none => simpa [hset] using hsum
    | some q =>
      have := hq rfl
      simp only [Option.isSome_some, if_true, hset, SettlementQueue.reserve, SettlementQueue.slotSum] at this ⊢
      omega
  · refine ⟨{ c with
      circuit := some (r.group, n), seizeTime := now, quote := q, slot := q.isSome, probe := suspect }, ?_, hp, rfl⟩
    rw [State.updContext_context]
    simp only [if_true, State.withSettle_context, hc3, Option.map_some]

/-! ### The pass (R62, R67, R68) -/

/-- What a pass leaves: the context on its circuit, or still waiting. -/
def PassKeeps (i : Nat) : State × PassEnd → Prop
  | (t, .seized g k) => MidLaw (some i) (some (g, k)) false t
      ∧ ∃ c, t.context i = some c ∧ c.phase = .proceeding ∧ c.circuit = some (g, k)
  | (t, .failed _) => MidLaw (some i) none false t ∧ Waiting i t

theorem passLoop_keeps (now : ExTime) (i l : Nat) (ks : List Nat) (reasons : List Reason) {s : State}
    (h : MidLaw (some i) none false s) (hw : Waiting i s) : PassKeeps i (passLoop now i l ks reasons s) := by
  induction ks generalizing reasons s with
  | nil => exact ⟨h, hw⟩
  | cons k ks ih =>
    unfold passLoop
    split
    · rename_i c ch hc hch
      split
      · exact ih _ h hw
      · split
        · exact ih _ h hw
        · extract_lets s1
          have h1 : MidLaw (some i) none false s1 ∧ Waiting i s1 ∧ OnlyChanges [.ctx] s s1 := by
            by_cases hk : k = 0
            · rw [show s1 = s from if_pos hk]; exact ⟨h, hw, .refl _ _⟩
            · rw [show s1 = s.updContext i _ from if_neg hk]
              exact ⟨h.updHole (fun _ => rfl) (fun _ => rfl) fun _ _ hl => { hl with },
                hw.updContext fun _ => ⟨rfl, rfl⟩, updContext_frame _ _ _⟩
          obtain ⟨h1, hw1, f1⟩ := h1
          have h2 := h1.examine now k c.priority ch
          have f2 := examine_frame s1 now k c.priority ch
          have hw2 := hw1.of_frame f2 (by decide)
          split
          · rename_i s2 r he
            rw [he] at h2 hw2
            exact ih _ (h2.choiceFailed _ _ _) (hw2.choiceFailed _ _ _)
          · rename_i s2 q he
            have hq : q.isSome = true → s2.settle.slotSum < Config.slotMax := by
              intro hq
              obtain ⟨q', rfl⟩ := Option.isSome_iff_exists.mp hq
              have e : s2.settle = s1.settle := by have := f2 .settle (by decide); rwa [he] at this
              rw [e]
              exact slot_of_pass (by rw [he])
            rw [he] at h2 hw2 f2
            split
            · rename_i n hn
              obtain ⟨x, hx, hxn⟩ := Option.bind_eq_some_iff.mp hn
              refine h2.seizeCircuit hw2 hx hxn (fun _ => ?_) hq now
              rw [f2.routeList_eq (by decide), f1.routeList_eq (by decide)]
              exact (List.getElem?_eq_some_iff.mp hch).1
            · exact ih _ (h2.choiceFailed _ _ _) (hw2.choiceFailed _ _ _)
    · exact ih _ h hw

theorem selectionPass_keeps (now : ExTime) (l : Nat) (h : MidLaw (some i) none false s) (hw : Waiting i s) :
    PassKeeps i (s.selectionPass now i l) := by
  unfold State.selectionPass
  split
  · exact ⟨h, hw⟩
  · split
    · exact ⟨h, hw⟩
    · exact passLoop_keeps now i l _ _ h hw

theorem MidLaw.proceed {g k : Nat} (h : MidLaw (some i) (some (g, k)) false s) (hc : s.context i = some c)
    (hp : c.phase = .proceeding) (hk : c.circuit = some (g, k)) : MidLaw none none false (s.proceed i g k) := by
  simp only [State.proceed, hc]
  exact (h.startProceeding hc hk hp).emitFwd _

theorem MidLaw.failCall (h : MidLaw (some i) none false s) (hw : Waiting i s) (cause : Cause) :
    MidLaw none none false (s.failCall i cause) := by
  obtain ⟨c, hc, -, hq⟩ := hw
  simp only [State.failCall, hc]
  exact (h.emitBwd _).startClearing hc hq

/-- A reselection leaves the call on a circuit or in Clearing (R14). -/
theorem MidLaw.reselect (h : MidLaw (some i) none false s) (hw : Waiting i s) (now : ExTime) (instead : Option Cause) :
    MidLaw none none false (s.reselect now i instead) := by
  unfold State.reselect
  split
  · rename_i hn
    obtain ⟨c, hc, -⟩ := hw
    simp [hc] at hn
  · rename_i c hc
    extract_lets s1
    have h1 := selectionPass_keeps now c.list (h.countList c.list fun k => { k with reselections := inc32 k.reselections })
      (hw.of_frame (countList_frame _ _ _) (by decide))
    change PassKeeps i (s1.selectionPass now i c.list) at h1
    split
    · rename_i he
      rw [he] at h1
      obtain ⟨h2, d, hd, hp, hk⟩ := h1
      exact h2.proceed hd hp hk
    · rename_i he
      rw [he] at h1
      exact (h1.1.countList _ _).failCall (h1.2.of_frame (countList_frame _ _ _) (by decide)) _

/-! ### The loss of a circuit (R15 to R18) -/

/-- Context `i` is in Proceeding. -/
def Proceeds (i : Nat) (s : State) : Prop := ∃ c, s.context i = some c ∧ c.phase = .proceeding

theorem Proceeds.of_frame {t : State} {parts : List Part} (h : Proceeds i s) (hf : OnlyChanges parts s t)
    (hp : Part.ctx ∉ parts) : Proceeds i t := by
  obtain ⟨c, hc, hw⟩ := h
  exact ⟨c, (hf.context_eq hp i).trans hc, hw⟩

theorem Proceeds.endProbe (h : Proceeds i s) (g : Nat) : Proceeds i (s.endProbe i g) := by
  obtain ⟨c, hc, hp⟩ := h
  have he : (if c.probe then s.probeUnsuccessful g else s).context i = some c := by
    split
    · exact ((probeUnsuccessful_frame s g).context_eq (by decide) i).trans hc
    · exact hc
  refine ⟨{ c with probe := false }, ?_, hp⟩
  simp only [State.endProbe, hc]
  rw [State.updContext_context]; simp [he]

/-- What a lost seizure leaves waits for its next circuit (R15, R17, R18). -/
theorem MidLaw.loseCircuit (h : MidLaw (some i) none false s) (hp : Proceeds i s) (now : ExTime) (l g : Nat) (cause : Cause) :
    MidLaw (some i) none false (s.loseCircuit now i l g cause) ∧ Waiting i (s.loseCircuit now i l g cause) := by
  obtain ⟨c, hc, hphase⟩ := hp
  have h1 : MidLaw (some i) none false ((s.updContext i fun c => c.addTried g).updList l fun r => r.pastLost g) :=
    (h.updHole (fun c => c.addTried_callRef g) (fun c => c.addTried_slot g)
      fun _ _ hl => Context.addTried_loose hl g).updList l fun hl => hl.pastLost g
  have hc1 : ((s.updContext i fun c => c.addTried g).updList l fun r => r.pastLost g).context i = some (c.addTried g) := by
    rw [(updList_frame _ _ _).context_eq (by decide), State.updContext_context]; simp [hc]
  have h2 := h1.dispose hc1 now
  rw [show (c.addTried g).rated = false by simp [Context.rated, (c.addTried_same g).1, hphase]] at h2
  refine ⟨h2.updHole (fun _ => rfl) (fun _ => rfl) fun _ _ hl => { hl with }, ?_⟩
  refine ⟨_, by rw [State.loseCircuit, State.updContext_context, if_pos rfl, dispose_context hc1, if_pos rfl]; rfl, ?_, rfl⟩
  exact (c.addTried_same g).1.trans hphase

theorem MidLaw.crankback {g k : Nat} (h : MidLaw none none false s) (hc : s.context i = some c) (hp : c.phase = .proceeding)
    (hk : c.circuit = some (g, k)) (cause : Cause) : MidLaw none none false (s.crankback i g k cause c) := by
  have h0 := h.midway hc
  rw [hk] at h0
  unfold State.crankback
  extract_lets now s1 s2
  have h1 : MidLaw (some i) none false s1 := ((h0.emitFwd _).enterGuard_of_seat now).updTraffic _ _
  have p1 : Proceeds i s1 := (Proceeds.of_frame (s := s.emitFwd _) ⟨c, hc, hp⟩ (enterGuard_frame _ now k) (by decide)).of_frame
    (updTraffic_frame _ _ _) (by decide)
  have h2 : MidLaw (some i) none false s2 ∧ Proceeds i s2 := by
    by_cases hcu : cause = .circuitUnavailable
    · rw [show s2 = s1.healthFailure now g from if_pos hcu]
      exact ⟨h1.healthFailure _ _, p1.of_frame (healthFailure_frame _ _ _) (by decide)⟩
    · rw [show s2 = s1 from if_neg hcu]; exact ⟨h1, p1⟩
  obtain ⟨h3, w3⟩ := (h2.1.endProbe g).loseCircuit (h2.2.endProbe g) now c.list g cause
  exact h3.reselect w3 now none

theorem MidLaw.noResponse {g k : Nat} (h : MidLaw none none false s) (hc : s.context i = some c) (hp : c.phase = .proceeding)
    (hk : c.circuit = some (g, k)) : MidLaw none none false (s.noResponse i g k c) := by
  have h0 := h.midway hc
  rw [hk] at h0
  unfold State.noResponse
  extract_lets now s1
  have h1 : MidLaw (some i) none false s1 := (h0.emitFwd _).enterReleasing_of_seat
  have p1 : Proceeds i s1 := Proceeds.of_frame (s := s.emitFwd _) ⟨c, hc, hp⟩ (enterReleasing_frame _ k) (by decide)
  obtain ⟨h3, w3⟩ := ((h1.healthFailure now g).endProbe g).loseCircuit
    ((p1.of_frame (healthFailure_frame _ _ _) (by decide)).endProbe g) now c.list g .noResponse
  exact h3.reselect w3 now _

theorem MidLaw.glareLost {g k : Nat} (h : MidLaw none none false s) (hc : s.context i = some c) (hp : c.phase = .proceeding)
    (hk : c.circuit = some (g, k)) : MidLaw none none false ((s.farTakes k).glareLost i g c) := by
  have h0 := h.midway hc
  rw [hk] at h0
  have h1 := (h0.farTakes_of_seat).updTraffic g Traffic.glareLoss
  have p1 : Proceeds i ((s.farTakes k).updTraffic g Traffic.glareLoss) :=
    (Proceeds.of_frame ⟨c, hc, hp⟩ (recast_frame s k _) (by decide)).of_frame (updTraffic_frame _ _ _) (by decide)
  obtain ⟨h3, w3⟩ := (h1.endProbe g).loseCircuit (p1.endProbe g) (s.farTakes k).time.now c.list g .congestion
  exact h3.reselect w3 _ _

/-! ### The end of a call by a release (R16, R20) -/

/-- A context is the same but for its probe flag. -/
def SameButProbe (i : Nat) (c : Context) (s : State) : Prop := ∃ b, s.context i = some { c with probe := b }

theorem SameButProbe.endProbe (h : SameButProbe i c s) (g : Nat) : SameButProbe i c (s.endProbe i g) := by
  obtain ⟨b, hc⟩ := h
  have he : (if b then s.probeUnsuccessful g else s).context i = some { c with probe := b } := by
    split
    · exact ((probeUnsuccessful_frame s g).context_eq (by decide) i).trans hc
    · exact hc
  refine ⟨false, ?_⟩
  simp only [State.endProbe, hc]
  rw [State.updContext_context]; simp [he]

theorem SameButProbe.of_frame {t : State} {parts : List Part} (h : SameButProbe i c s) (hf : OnlyChanges parts s t)
    (hp : Part.ctx ∉ parts) : SameButProbe i c t := by
  obtain ⟨b, hc⟩ := h
  exact ⟨b, (hf.context_eq hp i).trans hc⟩

theorem MidLaw.originEnds {g k : Nat} (h : MidLaw none none false s) (hc : s.context i = some c)
    (hk : c.circuit = some (g, k)) (cause : Nat) : MidLaw none none false (s.originEnds i g k cause c) := by
  have h0 := h.midway hc
  rw [hk] at h0
  unfold State.originEnds
  extract_lets now s1 s2
  have h1 : MidLaw (some i) none false s1 := ((h0.emitBwd _).emitFwd _).enterReleasing_of_seat
  have c1 : SameButProbe i c s1 :=
    SameButProbe.of_frame (s := (s.emitBwd _).emitFwd _) ⟨c.probe, hc⟩ (enterReleasing_frame _ k) (by decide)
  have h2 : MidLaw (some i) none false s2 ∧ SameButProbe i c s2 := by
    by_cases hp : c.phase = .proceeding
    · rw [show s2 = s1.endProbe i g from if_pos hp]; exact ⟨h1.endProbe g, c1.endProbe g⟩
    · rw [show s2 = s1 from if_neg hp]; exact ⟨h1, c1⟩
  obtain ⟨h2, b, hb⟩ := h2
  exact ((h2.dispose hb now).free ((dispose_context hb now i).trans (if_pos rfl)) rfl now).exportIf

theorem MidLaw.farEnds {g k : Nat} (h : MidLaw none none false s) (hc : s.context i = some c)
    (hk : c.circuit = some (g, k)) (cause : Nat) : MidLaw none none false (s.farEnds i g k cause c) := by
  have h0 := h.midway hc
  rw [hk] at h0
  unfold State.farEnds
  extract_lets now s1 s2
  have h1 : MidLaw (some i) none false s1 := (h0.emitFwd _).enterGuard_of_seat now
  have c1 : SameButProbe i c s1 :=
    SameButProbe.of_frame (s := s.emitFwd _) ⟨c.probe, hc⟩ (enterGuard_frame _ now k) (by decide)
  have h2 : MidLaw (some i) none false s2 ∧ SameButProbe i c s2 := by
    by_cases hp : c.phase = .proceeding
    · rw [show s2 = (if _ then s1.healthFailure now g else s1).endProbe i g from if_pos hp]
      split
      · exact ⟨(h1.healthFailure _ _).endProbe g, (c1.of_frame (healthFailure_frame _ _ _) (by decide)).endProbe g⟩
      · exact ⟨h1.endProbe g, c1.endProbe g⟩
    · rw [show s2 = s1 from if_neg hp]; exact ⟨h1, c1⟩
  obtain ⟨h2, b, hb⟩ := h2
  exact (((h2.dispose hb now).emitBwd _).startClearing
    (c := { c with probe := b, quote := none, slot := false })
    ((dispose_context hb now i).trans (if_pos rfl)) rfl).exportIf

end Sys2Proof.Machine
end

