-- ==== Sys2Proof/Proofs/CommandLaw.lean ====
section
/-! SUPPORT. Every command keeps the laws of the device: call messages, expiries, requests, ticks and resets in turn. -/
namespace Sys2Proof.Machine

variable {s : State}

/-! ### Taking a message (R162, R174) -/

theorem PortState.law.tail {port : Port} {p : PortState} (h : p.law port) {f : Frame} {rest : List Frame}
    (hq : p.queue = f :: rest) : ({ p with queue := rest } : PortState).law port := by
  obtain ⟨h1, h2, h3⟩ := h
  rw [hq] at h1 h3
  exact ⟨(Nat.le_succ _).trans h1, h2, fun g hg => h3 g (List.mem_cons_of_mem _ hg)⟩

theorem MidLaw.takeHead (h : MidLaw none none false s) (port : Port) (p : Frame → Bool) {act : Frame → State → State}
    (hact : ∀ f s, MidLaw none none false s → MidLaw none none false (act f s)) :
    MidLaw none none false (takeHead port p act s) := by
  unfold Machine.takeHead
  split
  · exact h
  · rename_i m rest hq
    split
    · exact hact m _ (h.withPort port ((h.port port).tail hq))
    · exact h

theorem MidLaw.takeRequest (h : MidLaw none none false s) (code : Nat) {act : List Byte → State → Answer}
    (hact : ∀ p s, MidLaw none none false s → MidLaw none none false (act p s).state) :
    MidLaw none none false (takeRequest code act s) := by
  refine h.takeHead _ _ fun f u hu => MidLaw.emitBwd ?_ _
  split
  · exact hact _ _ hu
  · exact hu

theorem MidLaw.onCircuit (h : MidLaw none none false s) {act : Nat → Circuit → State → State} (f : Frame)
    (hact : ∀ k c s, s.circuit k = some c → MidLaw none none false s → MidLaw none none false (act k c s)) :
    MidLaw none none false (onCircuit act f s) := by
  unfold Machine.onCircuit
  split
  · exact h.countCirc _
  · rename_i c hc; exact hact _ c s hc h

/-! ### Reset and Restart (R171, R180) -/

theorem reset_law : State.reset.Law where
  time := by unfold TimeBase.law; decide
  fwd := by simp [State.reset, PortState.reset, PortState.law]
  bwd := by simp [State.reset, PortState.reset, PortState.law]
  params := by decide
  ctx := by simp [State.reset, ContextTable.reset, ContextTable.law, Table.wf, ManagementAgent.reset, GlobalParams.default]
  contexts := by simp [State.reset, ContextTable.reset]
  circ := CircuitMap.law_of_find rfl rfl (by simp [State.reset, CircuitMap.reset]) (by simp [State.reset, CircuitMap.reset])
  routes := by simp [State.reset, RouteSelector.reset, RouteSelector.law, Table.wf]
  tariffs := by simp [State.reset, TariffTable.reset, TariffTable.law, Table.wf]
  settle := ⟨by decide, by decide, rfl, rfl, rfl, fun _ => rfl⟩
  owners := by
    simp [State.reset, State.context, State.circuit, ContextTable.reset, CircuitMap.reset]
  slots := by decide
  carriers := by simp [State.reset, CircuitMap.reset]

/-- A hard reset holds the line; no law reads that or the stopped sample timer (R171). -/
theorem hardReset_law {t : State} (h : exec .hardReset s = .next t) : MidLaw none none false t := by
  cases h
  refine ((midLaw_iff _).mpr reset_law).of_frame ?_
  intro p hp
  cases p <;> first | rfl | exact absurd (by decide) hp

theorem MidLaw.restart (h : MidLaw none none false s) : MidLaw none none false s.restart := by
  have hp := h.params
  simp only [GlobalParams.valid, decide_eq_true_eq] at hp
  have hctx : s.ctx.restart.law s.mgmt.params := (ContextTable.law_iff _ _).mpr
    ⟨⟨rfl, rfl, by simp [ContextTable.restart], by simp [ContextTable.restart], rfl, le_rfl⟩,
      fun _ => hp.2.1, by simp [ContextTable.restart]⟩
  have hnone : ∀ i c, Table.find i s.ctx.restart.contexts ≠ some c := by simp [ContextTable.restart]
  refine MidLaw.notifyAll ?_ _ _
  exact { h with
    ctx := hctx
    contexts := fun i c _ hc => absurd hc (hnone i c)
    loose := by simp
    circ := h.circ.restart
    routes := RouteSelector.restart_law h.routes
    settle := (SettlementQueue.lawUpTo_false _).mpr (SettlementQueue.restart_law ((SettlementQueue.lawUpTo_false _).mp h.settle))
    owners := fun i g k => by
      have hcirc : ∀ r, Table.find k (s.circ.restart).circuits = some r → r.cond = .idle := fun r hr => by
        obtain ⟨d, -, rfl⟩ := Option.map_eq_some_iff.mp ((find_idleCircuits _ _).symm.trans hr)
        rfl
      simp only [reduceCtorEq, if_false]
      exact iff_of_false (fun ⟨c, hc, _⟩ => hnone i c hc) fun ⟨r, hr, hc, _⟩ => by
        have := hcirc r hr
        rw [this] at hc; cases hc
    slots := ⟨rfl, Nat.zero_le _⟩
    carriers := fun g x hx => by
      simp only [State.setDevice, State.group, State.withMgmt_circ, State.withSettle_circ, State.withRoutes_circ,
        State.withCirc_circ, CircuitMap.restart, Table.find_mapAll] at hx
      obtain ⟨y, hy, rfl⟩ := Option.map_eq_some_iff.mp hx
      have := h.carriers g y hy
      split <;> exact this }

/-! ### Origin side -/

/-- A context in law that keeps its reference, its slot and its circuit. -/
theorem MidLaw.updLawful {i : Nat} {c : Context} (h : MidLaw none none false s) (hc : s.context i = some c)
    {f : Context → Context} (hr : ∀ c, (f c).callRef = c.callRef) (hs : ∀ c, (f c).slot = c.slot)
    (hk : (f c).circuit = c.circuit) (hl : (f c).law) : MidLaw none none false (s.updContext i f) := by
  refine MidLaw.close (c := f c) ((h.midway hc).updHole hr hs fun d hd _ => ?_)
    (by rw [State.updContext_context]; simp [hc]) hk hl
  rw [hc] at hd; cases hd
  obtain ⟨h1, h2, h3, h4⟩ := hl
  exact ⟨h1, h2, h3, fun hp => by rw [hp] at h4; exact h4.2.1⟩

/-- The freeing of a context in Clearing (R21, R22). -/
theorem MidLaw.freeClearing {i : Nat} {c : Context} (h : MidLaw none none false s) (hc : s.context i = some c)
    (hp : c.phase = .clearing) (now : ExTime) : MidLaw none none false (s.free now i) := by
  obtain ⟨hs, -, -, hph⟩ := h.contexts i c (by simp) hc
  rw [hp] at hph
  have h0 := h.midway hc
  rw [hph.1] at h0
  exact h0.free hc (by rw [hs, hph.2.1]; rfl) now

theorem MidLaw.originRelease (h : MidLaw none none false s) (i cause : Nat) :
    MidLaw none none false (s.originRelease i cause) := by
  unfold State.originRelease
  split
  · exact h
  · rename_i c hc
    split
    · rename_i hp; exact (h.emitBwd _).freeClearing (s := s.emitBwd _) hc hp _
    · rename_i hk _; exact h.originEnds hc hk cause
    · exact h

/-- A Setup refused in routing frees its context (R7). -/
theorem MidLaw.refuseRouted {i : Nat} (h : MidLaw (some i) none false s) (hw : Waiting i s) (now : ExTime) (m : SetupMsg)
    (cause : Cause) : MidLaw none none false (s.refuseRouted now i m cause) := by
  obtain ⟨c, hc, -, hq⟩ := hw
  exact (h.emitBwd _).free (s := s.emitBwd _) hc (by rw [(h.loose i c rfl hc).slot, hq]; rfl) now

theorem MidLaw.routePass {i : Nat} (h : MidLaw (some i) none false s) (hw : Waiting i s) (now : ExTime) (l : Nat)
    (m : SetupMsg) : MidLaw none none false (s.routePass now i l m) := by
  have h1 := selectionPass_keeps now l h hw
  unfold State.routePass
  split
  · rename_i he
    rw [he] at h1
    obtain ⟨h2, d, hd, hp, hk⟩ := h1
    exact h2.proceed hd hp hk
  · rename_i he
    rw [he] at h1
    exact (h1.1.countList _ _).refuseRouted (h1.2.of_frame (countList_frame _ _ _) (by decide)) _ _ _

theorem MidLaw.routeOver {i : Nat} (h : MidLaw (some i) none false s) (hw : Waiting i s) (now : ExTime) (l : Nat)
    (m : SetupMsg) : MidLaw none none false (s.routeOver now i l m) := by
  unfold State.routeOver
  extract_lets s1
  have h1 : MidLaw (some i) none false s1 :=
    (h.updHole (f := fun c => { c with list := l }) (fun _ => rfl) (fun _ => rfl) fun _ _ hl => { hl with }).countList _ _
  have w1 : Waiting i s1 :=
    (hw.updContext (f := fun c => { c with list := l }) fun _ => ⟨rfl, rfl⟩).of_frame (countList_frame _ _ _) (by decide)
  split
  · exact (h1.updList l fun hl => hl.judge _ fun _ => rfl).routePass (w1.of_frame (updList_frame _ _ _) (by decide)) _ _ _
  · exact (h1.countList _ _).refuseRouted (w1.of_frame (countList_frame _ _ _) (by decide)) _ _ _

theorem MidLaw.route {i : Nat} (h : MidLaw (some i) none false s) (hw : Waiting i s) (now : ExTime) (m : SetupMsg) :
    MidLaw none none false (s.route now i m) := by
  unfold State.route
  generalize judgeMatch m.category (destMatch s.routes.dests m.number) = r
  have h1 := h.withRoutes (countMatch_law h.routes r)
  have w1 : Waiting i (s.withRoutes (s.routes.countMatch r)) := hw.of_frame (withRoutes_frame _ _) (by decide)
  cases r
  case toList l => exact h1.routeOver w1 _ _ _
  all_goals exact h1.refuseRouted w1 _ _ _

theorem MidLaw.refuseEarly (h : MidLaw none none false s) (m : SetupMsg) (cause : Cause) :
    MidLaw none none false (s.refuseEarly m cause) := (h.countCtx _).emitBwd _

theorem SetupMsg.context_loose (m : SetupMsg) (now : ExTime) : (m.context now).Loose :=
  ⟨rfl, Nat.zero_le _, List.nodup_nil, fun _ => rfl⟩

theorem MidLaw.takeSetup (h : MidLaw none none false s) (m : SetupMsg) : MidLaw none none false (s.takeSetup m) := by
  unfold State.takeSetup
  extract_lets now s1
  have h1 : MidLaw none none false s1 := h.countCtx _
  split
  · exact h1.refuseEarly _ _
  · split
    · exact h1.refuseEarly _ _
    · rename_i href
      split
      · exact h1.refuseEarly _ _
      · rename_i i hi
        split
        · exact h1.refuseEarly _ _
        · obtain ⟨hkey, -, hb, -⟩ := lowestFree_spec hi
          have hnone : s1.context i = none := Table.find_eq_none.mpr hkey
          refine (h1.allocate hnone (Option.not_isSome_iff_eq_none.mp href) (by simpa using hb) (m.context_loose now) rfl now).route
            ⟨m.context now, ?_, rfl, rfl⟩ now m
          rw [(allocate_of s1 i _).1, if_pos rfl]

/-! ### Far side -/

/-- The context that seizes a circuit, with that circuit (R2). -/
theorem MidLaw.owner {k i : Nat} {r : Circuit} (h : MidLaw none none false s) (hk : s.circuit k = some r)
    (hc : r.cond = .seized i) : ∃ c, s.context i = some c ∧ c.circuit = some (r.group, k) := by
  simpa using (h.owners i r.group k).mpr ⟨r, hk, hc, rfl⟩

theorem MidLaw.contextProgress (h : MidLaw none none false s) (i : Nat) : MidLaw none none false (s.contextProgress i) := by
  unfold State.contextProgress
  split
  · exact h
  · rename_i c hc
    split
    · rename_i hp hk
      obtain ⟨h1, h2, h3, h4⟩ := h.contexts i c (by simp) hc
      rw [hp] at h4
      have h5 := h.updLawful hc (f := fun x => { x with phase := .alerting, timer := none, probe := false })
        (fun _ => rfl) (fun _ => rfl) rfl ⟨h1, h2, h3, h4.1, h4.2.1, rfl, rfl⟩
      exact (h5.healthSuccess _ _).emitBwd _
    · exact h.emitBwd _
    · exact h.countCtx _

theorem MidLaw.connect {i : Nat} {c : Context} (h : MidLaw none none false s) (hc : s.context i = some c)
    (hk : c.circuit.isSome = true) (g : Nat) : MidLaw none none false (s.connect i g) := by
  obtain ⟨h1, h2, h3, -⟩ := h.contexts i c (by simp) hc
  have h4 := h.updLawful hc
    (f := fun x => { x with phase := .connected, answerTime := some s.time.now, timer := none, probe := false })
    (fun _ => rfl) (fun _ => rfl) rfl ⟨h1, h2, h3, hk, rfl, rfl, rfl⟩
  exact h4.updTraffic _ _

theorem MidLaw.contextAnswer (h : MidLaw none none false s) (i : Nat) : MidLaw none none false (s.contextAnswer i) := by
  unfold State.contextAnswer
  split
  · exact h
  · rename_i c hc
    split
    · rename_i hk; exact ((h.connect hc (by simp [hk]) _).healthSuccess _ _).emitBwd _
    · rename_i hk; exact (h.connect hc (by simp [hk]) _).emitBwd _
    · exact h.countCtx _

theorem MidLaw.contextRelease (h : MidLaw none none false s) (i cause : Nat) :
    MidLaw none none false (s.contextRelease i cause) := by
  unfold State.contextRelease
  split
  · exact h
  · rename_i c hc
    split
    · exact h
    · rename_i g k hk
      split
      · rename_i hp _; exact h.crankback hc hp hk _
      · exact h.farEnds hc hk _

theorem MidLaw.glare (h : MidLaw none none false s) {i k : Nat} {c : Circuit} (hk : s.circuit k = some c)
    (hi : c.cond = .seized i) (r : Group) : MidLaw none none false (s.glare i k r c.group) := by
  obtain ⟨d, hd, hdk⟩ := h.owner hk hi
  simp only [State.glare, hd]
  split
  · rename_i hp
    split
    · exact h.countCirc _
    · exact h.glareLost hd hp hdk
  · exact h.countCirc _

theorem MidLaw.farTakes (h : MidLaw none none false s) {k : Nat} {c : Circuit} (hk : s.circuit k = some c)
    (hn : ∀ i, c.cond ≠ .seized i) : MidLaw none none false (s.farTakes k) := by
  refine h.recast (fun _ => rfl) fun r hr i => ?_
  rw [hk] at hr; cases hr
  exact iff_of_false (by simp) (hn i)

theorem MidLaw.farSeize (h : MidLaw none none false s) {k : Nat} {c : Circuit} (hk : s.circuit k = some c) :
    MidLaw none none false (s.farSeize k c) := by
  unfold State.farSeize
  split
  · exact h.countCirc _
  · rename_i r _
    split
    · exact h.countCirc _
    · rename_i hc
      split
      · exact h.countCirc _
      · exact h.farTakes hk (by simp [hc])
    · rename_i hc; exact h.farTakes hk (by simp [hc])
    · rename_i hc; exact h.glare hk hc r
    · exact h.countCirc _
    · exact h.countCirc _

theorem MidLaw.setFlag (h : MidLaw none none false s) (k : Nat) {f : Circuit → Circuit} (hg : ∀ c, (f c).group = c.group)
    (hc : ∀ c, (f c).cond = c.cond) : MidLaw none none false (s.recast k f) :=
  h.recast hg fun r _ i => by rw [hc]

/-! ### Tariff Offers (R113 to R115) -/

theorem MidLaw.rejectOffer (h : MidLaw none none false s) (m : OfferMsg) (owner : Nat) (reason : OfferReason) :
    MidLaw none none false (s.rejectOffer m owner reason) := by
  unfold State.rejectOffer
  refine MidLaw.notify ?_ _ _
  split
  · exact h.updCarrier _ fun _ _ hl => Carrier.count_law hl _
  · exact h.withTariffs h.tariffs fun _ _ _ hs => hs

theorem MidLaw.judgeOffer (h : MidLaw none none false s) {m : OfferMsg} (owner : Nat) {c : Carrier}
    (hc : s.carrier m.claimed = some c) : MidLaw none none false (s.judgeOffer m owner c) := by
  unfold State.judgeOffer
  split
  · exact h.updCarrier _ fun _ _ hl => Carrier.count_law hl _
  · rename_i hp
    split
    · exact h.rejectOffer _ _ _
    · rename_i b hb
      split
      · exact h.rejectOffer _ _ _
      · refine h.updCarrier _ fun d hd hl => Carrier.offer_law hl ?_ (validBody_some hb) (by simp only; omega) _
        rw [hc] at hd; cases hd
        simpa using hp

theorem MidLaw.takeOffer (h : MidLaw none none false s) (m : OfferMsg) : MidLaw none none false (s.takeOffer m) := by
  unfold State.takeOffer
  extract_lets owner s1
  have h1 : MidLaw none none false s1 := by
    cases hc : s.circuit m.circuit
    · simp only [s1, hc]; exact h.countCirc _
    · simp only [s1, hc]; exact h
  split
  · exact h1.rejectOffer _ _ _
  · split
    · rename_i c hc; exact h1.judgeOffer owner hc
    · exact h1.rejectOffer _ _ _

/-! ### Expiries -/

theorem MidLaw.expireProceed (h : MidLaw none none false s) (i : Nat) : MidLaw none none false (s.expireProceed i) := by
  unfold State.expireProceed
  split
  · exact h
  · rename_i c hc
    split
    · rename_i hp hk _; exact h.noResponse hc hp hk
    · exact h

theorem MidLaw.expireClear (h : MidLaw none none false s) (i : Nat) : MidLaw none none false (s.expireClear i) := by
  unfold State.expireClear
  split
  · exact h
  · rename_i c hc
    split
    · rename_i hp _; exact ((h.freeClearing hc hp _).notify _ _).countCtx _
    · exact h

theorem MidLaw.expireGuard (h : MidLaw none none false s) (g : Nat) : MidLaw none none false (s.expireGuard g) := by
  unfold State.expireGuard
  split
  · exact h
  · split
    · exact h
    · rename_i k _ c hk
      split
      · rename_i hc
        split
        · refine h.recast (fun _ => rfl) fun r hr i => ?_
          rw [hk] at hr; cases hr
          simp [hc]
        · exact h
      · exact h

theorem MidLaw.expireClearing (h : MidLaw none none false s) (k : Nat) : MidLaw none none false (s.expireClearing k) := by
  unfold State.expireClearing
  split
  · exact h
  · rename_i c hk
    split
    · rename_i hc
      split
      · unfold State.maintenanceBlock
        extract_lets s1
        have h1 : MidLaw none none false s1 := ?_
        · exact ((h1.markDrained _).notifyAll _ _).countCirc _
        refine h.recast (fun _ => rfl) fun r hr i => ?_
        rw [hk] at hr; cases hr
        simp [hc]
      · exact h
    · exact h

theorem MidLaw.expireProbe (h : MidLaw none none false s) (g : Nat) : MidLaw none none false (s.expireProbe g) := by
  unfold State.expireProbe
  split
  · exact h
  · split
    · exact h.updMonitor g fun m hm => GroupMonitor.probeExpired_law hm
    · exact h

theorem MidLaw.expireGap (h : MidLaw none none false s) (l : Nat) : MidLaw none none false (s.expireGap l) := by
  unfold State.expireGap
  split
  · exact h.updList l fun hl => hl.gateOpened
  · exact h

theorem MidLaw.expireAccept (h : MidLaw none none false s) : MidLaw none none false s.expireAccept := by
  unfold State.expireAccept
  extract_lets q
  split
  · rename_i hc
    have hl := (SettlementQueue.lawUpTo_false _).mp h.settle
    exact (h.withSettle ((SettlementQueue.lawUpTo_false _).mpr (SettlementQueue.stalled_law hl hc.2 _)) rfl le_rfl).notify _ _
  · exact h

theorem MidLaw.evaluateGroup (h : MidLaw none none false s) (g : Nat) : MidLaw none none false (s.evaluateGroup g) := by
  unfold State.evaluateGroup
  split
  · exact h
  · rename_i r hr
    split
    · extract_lets r1
      have h1 : MidLaw none none false (s.updGroup g fun _ => r1) := by
        refine h.withCirc (updGroup_circLaw h.circ fun x hx hl => ?_) (fun _ _ _ => .rfl) fun j x hx => ?_
        · rw [hr] at hx; cases hx
          exact hl.evaluate h.circ.circuitsForm _
        · rw [Table.find_adjust] at hx
          split at hx
          · obtain ⟨y, hy, rfl⟩ := Option.map_eq_some_iff.mp hx
            exact h.carriers g r hr
          · exact h.carriers j x hx
      exact h1.withRoutes (handBand_routeLaw h1.routes g r1.mon.band)
    · exact h

theorem MidLaw.expireSample (h : MidLaw none none false s) : MidLaw none none false s.expireSample := by
  have all : ∀ (gs : List Nat) (s : State), MidLaw none none false s → MidLaw none none false (gs.foldl State.evaluateGroup s) := by
    intro gs
    induction gs with
    | nil => exact fun _ h => h
    | cons g gs ih => exact fun s h => ih _ (h.evaluateGroup g)
  unfold State.expireSample
  split
  · exact ((all _ s h).withMon _).notifyAll _ _
  · exact h

theorem MidLaw.expire (h : MidLaw none none false s) (id : TimerId) : MidLaw none none false (s.expire id) := by
  cases id with
  | supervision i => exact (h.expireProceed i).expireClear i
  | guard g => exact h.expireGuard g
  | clearing k => exact h.expireClearing k
  | probe g => exact h.expireProbe g
  | gap l => exact h.expireGap l
  | accept => exact h.expireAccept
  | sample => exact h.expireSample

theorem MidLaw.expireAll (h : MidLaw none none false s) (ids : List TimerId) : MidLaw none none false (s.expireAll ids) := by
  induction ids generalizing s with
  | nil => exact h
  | cons id ids ih => exact ih (h.expire id)

/-! ### Time (R118, R152 to R154) -/

theorem TimeBase.law.tick {b : TimeBase} (h : b.law) : b.tick.law := by
  obtain ⟨h1, h2, -, -⟩ := h
  have hn : b.now.tick.day ≤ Config.dayMax ∧ b.now.tick.cs < Config.dayLength := by
    unfold ExTime.tick
    split
    · exact ⟨h1, by assumption⟩
    · split
      · exact ⟨Nat.succ_le_of_lt (by assumption), Nat.zero_lt_succ _⟩
      · exact ⟨Nat.zero_le _, Nat.zero_lt_succ _⟩
  exact ⟨hn.1, hn.2, hn.1, hn.2⟩

theorem MidLaw.wholeSecond (h : MidLaw none none false s) (now : ExTime) : MidLaw none none false (s.wholeSecond now) := by
  unfold State.wholeSecond
  split
  · refine MidLaw.notifyAll (h.withTariffs ⟨?_, fun p hp => ?_⟩ fun g y _ hs => ?_) _ _
    · simp only; exact Table.wf_mapAll _ h.tariffs.1
    · obtain ⟨q, hq, rfl⟩ := List.mem_map.mp hp
      obtain ⟨h1, h2, hl⟩ := h.tariffs.2 q hq
      exact ⟨h1, h2, Carrier.activate_law hl now⟩
    · rw [Table.find_mapAll, Option.isSome_map]; exact hs
  · exact h

theorem MidLaw.settleExpiries (h : MidLaw none none false s) : MidLaw none none false s.settleExpiries := by
  unfold State.settleExpiries
  split
  · exact h
  · exact h.expire _
  · exact (h.withDraws _).expireAll _

theorem MidLaw.advance (h : MidLaw none none false s) : MidLaw none none false s.advance := by
  unfold State.advance
  extract_lets s1
  have h1 : MidLaw none none false s1 := h.withTime h.time.tick
  split
  · unfold State.secondEvent
    split
    · exact h1.wholeSecond _
    · exact ((h1.withDraws _).expireAll _).wholeSecond _
  · exact h1

/-! ### The settlement collector (R145 to R148) -/

theorem MidLaw.batchAccept (h : MidLaw none none false s) :
    MidLaw none none false (match s.settle.exportState with
      | .awaitingAccept => (s.withSettle s.settle.accept).exportLook
      | _ => s.withSettle { s.settle with
          counters := { s.settle.counters with unexpectedAccepts := inc32 s.settle.counters.unexpectedAccepts } }) := by
  split
  · exact (h.withSettle (SettlementQueue.accept_lawUpTo h.settle) rfl (List.drop_sublist _ _).length_le).exportLook
  · exact h.withSettle h.settle rfl le_rfl

theorem MidLaw.exportResume (h : MidLaw none none false s) :
    MidLaw none none false (match (s.withSettle { s.settle with halt := false }).settle.exportState with
      | .ready => (s.withSettle { s.settle with halt := false }).exportLook
      | .awaitingAccept => s.withSettle { s.settle with halt := false }
      | .stalled => (s.withSettle { s.settle with halt := false }).resendBatch) := by
  have hr := SettlementQueue.resumed_lawUpTo ((SettlementQueue.lawUpTo_false _).mp h.settle)
  have busy : s.settle.exportState ≠ .ready → MidLaw none none false (s.withSettle { s.settle with halt := false }) :=
    fun he => h.withSettle ((SettlementQueue.lawUpTo_false _).mpr (hr.law_of_busy he)) rfl le_rfl
  split
  · exact (h.withSettle hr rfl le_rfl).exportLook
  · rename_i he; exact busy (by rw [show s.settle.exportState = _ from he]; simp)
  · rename_i he
    have h1 := busy (by rw [show s.settle.exportState = _ from he]; simp)
    have hl := resendBatch_law ((SettlementQueue.lawUpTo_false _).mp h1.settle) he
    refine MidLaw.of_frame (s := (s.withSettle { s.settle with halt := false }).withSettle
      (s.withSettle { s.settle with halt := false }).resendBatch.settle) ?_ ?_
    · exact h1.withSettle ((SettlementQueue.lawUpTo_false _).mpr hl) rfl (markRepeats_length _ _).le
    · intro p hp; cases p <;> first | rfl | exact absurd (by decide) hp

/-! ### Ports (R162, R169) -/

theorem MidLaw.portError (h : MidLaw none none false s) (port : Port) (e : PortErr) :
    MidLaw none none false (s.portError port e) := by
  have h1 := h.withPort port (x := (s.port port).discard e) (h.port port)
  unfold State.portError
  extract_lets p s1
  split
  · exact h1
  · exact h1.notify _ _

theorem MidLaw.arrive (h : MidLaw none none false s) (port : Port) (f : Frame) : MidLaw none none false (s.arrive port f) := by
  unfold State.arrive
  extract_lets p
  split
  · exact h.portError _ _
  · rename_i hq
    split
    · exact h.portError _ _
    · rename_i he
      obtain ⟨h1, h2, h3⟩ := h.port port
      refine h.withPort port ⟨?_, ?_, ?_⟩
      · simp only [PortState.join, List.length_append, List.length_cons, List.length_nil]
        exact le_max_right _ _
      · simp only [PortState.join]
        change p.peak ≤ _ at h2
        omega
      · simp only [PortState.join, List.mem_append, List.mem_singleton]
        rintro g (hg | rfl)
        · exact h3 g hg
        · exact he

/-! ### Requests -/

theorem be_lt (bs : List Byte) : be bs < 256 ^ bs.length := by
  have key : ∀ (bs : List Byte) (a : Nat), bs.foldl (fun a b => a * 256 + b.toNat) a < (a + 1) * 256 ^ bs.length := by
    intro bs
    induction bs with
    | nil => simp
    | cons b bs ih =>
      intro a
      have hb : b.toNat < 256 := b.isLt
      rw [List.foldl_cons, List.length_cons, pow_succ']
      refine (ih _).trans_le ?_
      rw [← Nat.mul_assoc]
      exact Nat.mul_le_mul_right _ (by omega)
  simpa [be] using key bs 0

theorem field_lt (off len : Nat) (bs : List Byte) : field off len bs < 256 ^ len :=
  (be_lt _).trans_le (Nat.pow_le_pow_right (by norm_num) (List.length_take_le _ _))

theorem MidLaw.setExchangeTime (h : MidLaw none none false s) (p : List Byte) :
    MidLaw none none false (setExchangeTime (field 0 2 p) (field 2 4 p) s).state := by
  unfold Machine.setExchangeTime
  split
  · exact h
  · have hd := field_lt 0 2 p
    exact h.withTime ⟨Nat.le_of_lt_succ hd, by simp only; omega, h.time.2.2⟩

theorem MidLaw.setGlobalParameters (h : MidLaw none none false s) (g : GlobalParams) :
    MidLaw none none false (setGlobalParameters g s).state := by
  unfold Machine.setGlobalParameters
  split
  · rename_i hv
    extract_lets old src s1
    simp only [Answer.ok]
    split
    · rename_i hw
      refine { h with params := hv, ctx := (ContextTable.law_iff _ _).mpr ⟨h.ctx.map, ?_⟩ }
      have ho := h.ctx.offer
      exact ⟨fun hx => hw.1 ▸ ho.1 hx, fun hx => hw.2 ▸ ho.2 hx⟩
    · generalize s.time.now = now
      have hc := compareBoth_ctxLaw (s := s1) h.ctx.map hv now
      have hf := compareBoth_frame s1 now
      have hm : (s1.compareBoth now).mgmt = s1.mgmt := hf .mgmt (by decide)
      have hctx : ∀ i, (s1.compareBoth now).context i = s.context i := fun i => by
        rw [State.context, compareBoth_contexts]; rfl
      have hset : (s1.compareBoth now).settle = s.settle := hf .settle (by decide)
      have htime : (s1.compareBoth now).time = s.time := hf .time (by decide)
      have hfwd : (s1.compareBoth now).fwd = s.fwd := hf .fwd (by decide)
      have hbwd : (s1.compareBoth now).bwd = s.bwd := hf .bwd (by decide)
      have hcirc : (s1.compareBoth now).circ = s.circ := hf .circ (by decide)
      have hroutes : (s1.compareBoth now).routes = s.routes := hf .routes (by decide)
      have htariffs : (s1.compareBoth now).tariffs = s.tariffs := hf .tariffs (by decide)
      exact {
        time := htime ▸ h.time, fwd := hfwd ▸ h.fwd, bwd := hbwd ▸ h.bwd, params := hm ▸ hv, ctx := hm ▸ hc
        contexts := fun i c hi hx => h.contexts i c hi (hctx i ▸ hx)
        loose := by simp
        circ := hcirc ▸ h.circ, routes := hroutes ▸ h.routes, tariffs := htariffs ▸ h.tariffs, settle := hset ▸ h.settle
        owners := fun i g k => by
          rw [hctx, hf.circuit_eq (by decide)]; exact h.owners i g k
        slots := by
          rw [hset, State.slotHolders, compareBoth_contexts]; exact h.slots
        carriers := fun g x hx => by
          rw [hf.carrier_eq (by decide)]
          exact h.carriers g x (hf.group_eq (by decide) g ▸ hx) }
  · exact h

theorem MidLaw.loadDestination (h : MidLaw none none false s) (r : LoadDestReq) :
    MidLaw none none false (loadDestination r s).state := by
  unfold Machine.loadDestination
  split
  · exact h
  · split
    · exact h
    · rename_i hf; exact h.withRoutes (putDest_routeLaw h.routes hf)

theorem MidLaw.deleteDestination (h : MidLaw none none false s) (d : DigitString) :
    MidLaw none none false (deleteDestination d s).state := by
  unfold Machine.deleteDestination
  split
  · exact h.withRoutes (filterDests_law h.routes _)
  · exact h

theorem MidLaw.loadRouteList (h : MidLaw none none false s) (p : List Byte) :
    MidLaw none none false (loadRouteList (loadListOf p) s).state := by
  unfold Machine.loadRouteList
  split
  · rename_i hv; exact MidLaw.updList h _ (f := fun x => x.reload (loadListOf p)) fun _ => RouteList.reload_lawful _ hv
  · exact h

theorem MidLaw.restartGap (h : MidLaw none none false s) (l : Nat) : MidLaw none none false (restartGap l s).state := by
  unfold Machine.restartGap
  split
  · exact h
  · split
    · exact h.updList _ fun hl => hl.restartGap
    · exact h

theorem MidLaw.loadThresholdSet (h : MidLaw none none false s) (n : Nat) (t : ThresholdSet) :
    MidLaw none none false (loadThresholdSet n t s).state := by
  unfold Machine.loadThresholdSet
  split
  · exact h.withMon _
  · exact h

theorem LoadGroupReq.size_pos {r : LoadGroupReq} {g : GroupConfig} (h : r.config = some g) : 1 ≤ g.size := by
  unfold LoadGroupReq.config at h
  split at h
  · rename_i hc; cases h; exact hc.2.2.2.1
  · simp at h

/-- The load of a group that R47 accepts. -/
theorem MidLaw.equip (h : MidLaw none none false s) {id : Nat} {g : GroupConfig} (hs : 1 ≤ g.size)
    (ho : overlapsOther id g s.circ.circuits = false) (hc : ¬ (g.owner ≠ 0 ∧ (s.carrier g.owner).isNone = true))
    (hr : Reloadable id (s.group id) s.circ.circuits) : MidLaw none none false (s.equip id g) := by
  refine h.withCirc (equip_circLaw h.circ hs ho hr) (fun i j k => exists_congr fun c => ?_) fun j x hx => ?_
  · rw [find_redraw id g h.circ.circuitsForm]
    constructor
    · rintro ⟨⟨hk, -⟩ | ⟨-, -, rfl⟩, hi, hg⟩
      · exact ⟨hk, hi, hg⟩
      · simp [Circuit.new] at hi
    · rintro ⟨hk, hi, hg⟩
      refine ⟨.inl ⟨hk, .inl fun e => ?_⟩, hi, hg⟩
      rw [hr.idle k c hk e] at hi
      cases hi
  · rw [Table.find_put] at hx
    split at hx
    · cases hx
      change g.owner = 0 ∨ (s.carrier g.owner).isSome = true
      cases ho' : s.carrier g.owner with
      | none => left; by_contra hne; exact hc ⟨hne, by simp [ho']⟩
      | some d => exact .inr rfl
    · exact h.carriers j x hx

theorem MidLaw.loadTrunkGroup (h : MidLaw none none false s) (r : LoadGroupReq) :
    MidLaw none none false (loadTrunkGroup r s).state := by
  unfold Machine.loadTrunkGroup
  split
  · exact h
  · rename_i g hg
    have hs := LoadGroupReq.size_pos hg
    split
    · exact h
    · rename_i ho
      simp only [Bool.not_eq_true] at ho
      split
      · exact h
      · rename_i hc
        split
        · rename_i hn
          exact h.equip hs ho hc (by rw [hn]; exact reloadable_none h.circ hn)
        · rename_i old hold
          split
          · rename_i hi
            exact h.equip hs ho hc (by rw [hold]; exact reloadable_some h.circ hold hi)
          · exact h

theorem MidLaw.removeTrunkGroup (h : MidLaw none none false s) (id : Nat) :
    MidLaw none none false (removeTrunkGroup id s).state := by
  unfold Machine.removeTrunkGroup
  split
  · exact h
  · rename_i r hr
    split
    · rename_i hi
      simp only [Group.idleOut, Bool.and_eq_true] at hi
      refine h.withCirc (unequip_circLaw h.circ id) (fun i j k => exists_congr fun c => ?_) fun j x hx => ?_
      · simp only [Table.find_filter h.circ.circuitsForm, Option.filter_eq_some_iff, decide_eq_true_eq]
        refine ⟨fun ⟨⟨hk, _⟩, hx⟩ => ⟨hk, hx⟩, fun ⟨hk, hc, hg⟩ => ⟨⟨hk, fun e => ?_⟩, hc, hg⟩⟩
        rw [idle_of_allIdle hi.2 hk e] at hc
        cases hc
      · rw [Table.find_del] at hx
        split at hx
        · simp at hx
        · exact h.carriers j x hx
    · exact h

theorem MidLaw.setGroupState (h : MidLaw none none false s) (id adminByte : Nat) :
    MidLaw none none false (setGroupState id adminByte s).state := by
  have admin : ∀ a, MidLaw none none false (s.updGroup id fun r => { r with admin := a }) := fun a =>
    h.updGroup (fun _ _ hl => hl.congr rfl rfl rfl rfl rfl hl.monitor) fun _ => rfl
  unfold Machine.setGroupState
  split
  · exact h
  · exact h
  · exact h
  · dsimp only [Answer.ok]
    split
    · exact h
    · unfold State.changeAdmin
      split
      · refine MidLaw.drainCheck ?_ _ _
        exact h.updGroup (fun _ _ hl => hl.congr rfl rfl rfl rfl rfl hl.monitor) fun _ => rfl
      · exact admin _

theorem MidLaw.localBlock (h : MidLaw none none false s) (c : Nat) (b : Bool) :
    MidLaw none none false (localBlock c b s).state := by
  unfold Machine.localBlock
  split
  · exact h
  · split
    · exact h
    · exact h.setFlag c (fun _ => rfl) fun _ => rfl

theorem MidLaw.declareCarrier (h : MidLaw none none false s) (id : Nat) (body : Option Tariff) :
    MidLaw none none false (declareCarrier id body s).state := by
  unfold Machine.declareCarrier
  split
  · rename_i b hid hb
    split
    · exact h
    · refine h.withTariffs (putCarrier_tariffLaw h.tariffs hid (Carrier.declared_law (validBody_some hb))) fun g y _ hs => ?_
      rw [Table.find_put]
      split
      · rfl
      · exact hs
  · exact h

theorem MidLaw.removeCarrier (h : MidLaw none none false s) (id : Nat) :
    MidLaw none none false (removeCarrier id s).state := by
  unfold Machine.removeCarrier
  split
  · exact h
  · split
    · exact h
    · split
      · exact h
      · rename_i ho
        refine h.withTariffs ⟨Table.wf_del _ h.tariffs.1, fun p hp => h.tariffs.2 p (Table.mem_del.mp hp).1⟩ fun g y hy hs => ?_
        have hne : id ≠ y.cfg.owner := fun e => by
          simp only [State.ownsGroup, Bool.not_eq_true, List.any_eq_false, decide_eq_true_eq] at ho
          exact ho _ (Table.mem_of_find hy) e.symm
        rw [Table.find_del, if_neg hne]
        exact hs

theorem MidLaw.loadTariff (h : MidLaw none none false s) (r : LoadTariffReq) :
    MidLaw none none false (loadTariff r s).state := by
  unfold Machine.loadTariff
  split
  · rename_i b hf hb
    split
    · exact h
    · exact h.updCarrier _ fun _ _ hl => Carrier.load_law hl hf (validBody_some hb)
  · exact h

theorem MidLaw.pinCarrier (h : MidLaw none none false s) (id : Nat) : MidLaw none none false (pinCarrier id s).state := by
  unfold Machine.pinCarrier
  split
  · exact h
  · split
    · exact h
    · exact h.updCarrier _ fun _ _ hl => Carrier.pin_law hl

theorem MidLaw.unpinCarrier (h : MidLaw none none false s) (id : Nat) : MidLaw none none false (unpinCarrier id s).state := by
  unfold Machine.unpinCarrier
  split
  · exact h
  · split
    · exact h
    · exact h.updCarrier _ fun _ _ hl => Carrier.unpin_law hl

theorem MidLaw.latchCounters (h : MidLaw none none false s) (kindByte id : Nat) :
    MidLaw none none false (latchCounters kindByte id s).state := by
  unfold Machine.latchCounters
  split
  · exact h
  · split
    · exact h
    · split
      · exact h
      · exact h.withMon _

end Sys2Proof.Machine
end

