-- ==== Sys2Proof/Proofs/EveryLaw.lean ====
section
/-! SUPPORT. Every command, and so every step, keeps the laws of the device; the reset meets them. -/
namespace Sys2Proof.Machine

variable {s t : State}

/-! ### Requests that read change nothing (R177) -/

theorem lookupDestination_state (d : DigitString) (s : State) : (lookupDestination d s).state = s := by
  unfold lookupDestination; split <;> (try split) <;> rfl

theorem readGroup_state (id : Nat) (s : State) : (readGroup id s).state = s := by unfold readGroup; split <;> rfl

theorem readCircuit_state (k : Nat) (s : State) : (readCircuit k s).state = s := by
  unfold readCircuit; split <;> (try split) <;> rfl

theorem readContext_state (r : Nat) (s : State) : (readContext r s).state = s := by
  unfold readContext; split <;> (try split) <;> rfl

theorem readRouteList_state (l : Nat) (s : State) : (readRouteList l s).state = s := by
  unfold readRouteList; split <;> rfl

theorem readCarrier_state (id : Nat) (s : State) : (readCarrier id s).state = s := by
  unfold readCarrier; split <;> (try split) <;> rfl

theorem readLatched_state (s : State) : (readLatched s).state = s := by unfold readLatched; split <;> rfl

/-- A request that changes nothing keeps the laws. -/
theorem MidLaw.read (h : MidLaw none none false s) (code : Nat) {act : List Byte → State → Answer}
    (ha : ∀ p s, (act p s).state = s) : MidLaw none none false (Machine.takeRequest code act s) :=
  h.takeRequest code fun p s hs => (ha p s).symm ▸ hs

/-! ### Circuit-keyed messages (R36) -/

theorem MidLaw.farProgress (h : MidLaw none none false s) (c : Circuit) :
    MidLaw none none false (match c.cond with
      | .seized i => s.contextProgress i
      | _ => s.countCirc fun k => { k with strayProgress := inc32 k.strayProgress }) := by
  split
  · exact h.contextProgress _
  · exact h.countCirc _

theorem MidLaw.farAnswer (h : MidLaw none none false s) (c : Circuit) :
    MidLaw none none false (match c.cond with
      | .seized i => s.contextAnswer i
      | _ => s.countCirc fun k => { k with strayAnswer := inc32 k.strayAnswer }) := by
  split
  · exact h.contextAnswer _
  · exact h.countCirc _

theorem MidLaw.farRelease (h : MidLaw none none false s) {k : Nat} {c : Circuit} (hk : s.circuit k = some c) (cause : Nat) :
    MidLaw none none false (match c.cond with
      | .seized i => s.contextRelease i cause
      | .releasing _ => (s.emitFwd (.releaseConfirm k)).enterGuard s.time.now k
      | _ => (s.countCirc fun n => { n with unexpectedRelease := inc32 n.unexpectedRelease }).emitFwd (.releaseConfirm k)) := by
  split
  · exact h.contextRelease _ _
  · rename_i hc; exact (h.emitFwd _).enterGuard (s := s.emitFwd _) hk (by simp [hc]) _
  · exact (h.countCirc _).emitFwd _

theorem MidLaw.farReleaseConfirm (h : MidLaw none none false s) {k : Nat} {c : Circuit} (hk : s.circuit k = some c) :
    MidLaw none none false (match c.cond with
      | .seized _ => s.protoReleaseConfirm
      | .releasing _ => s.enterGuard s.time.now k
      | _ => s.countCirc fun n => { n with strayReleaseConfirm := inc32 n.strayReleaseConfirm }) := by
  split
  · exact h.countCtx _
  · rename_i hc; exact h.enterGuard hk (by simp [hc]) _
  · exact h.countCirc _

theorem MidLaw.farClear (h : MidLaw none none false s) {k : Nat} {c : Circuit} (hk : s.circuit k = some c) :
    MidLaw none none false (match c.cond with
      | .farSeized => s.enterGuard s.time.now k
      | _ => s.countCirc fun n => { n with clearDiscarded := inc32 n.clearDiscarded }) := by
  split
  · rename_i hc; exact h.enterGuard hk (by simp [hc]) _
  · exact h.countCirc _

/-! ### Every command -/

/-- Every command keeps the laws of the device. -/
theorem exec_keeps_law (c : Instr) (h : MidLaw none none false s) (he : exec c s = .next t) : MidLaw none none false t := by
  cases c
  case hardReset => exact hardReset_law he
  all_goals cases he
  case resetRelease =>
    split
    · exact MidLaw.of_frame h (by intro p hp; cases p <;> first | rfl | exact absurd (by decide) hp)
    · exact h
  case referenceTick =>
    split
    · exact h
    · exact h.settleExpiries.advance
  case messageArrival p f =>
    split
    · exact h
    · exact h.arrive p f
  case passThrough p =>
    refine h.takeHead _ _ fun f u hu => ?_
    cases p
    · exact (hu.withPort .forward (x := u.fwd.countPassed) hu.fwd).emitFwd _
    · exact (hu.withPort .backward (x := u.bwd.countPassed) hu.bwd).emitBwd _
  case setup => exact h.takeHead _ _ fun f u hu => hu.takeSetup _
  case originRelease =>
    refine h.takeHead _ _ fun f u hu => ?_
    split
    · exact hu.originRelease _ _
    · exact (hu.countCtx _).emitBwd _
  case originReleaseConfirm =>
    refine h.takeHead _ _ fun f u hu => ?_
    split
    · exact hu.countCtx _
    · split
      · exact hu
      · rename_i i _ c hc
        split
        · rename_i hp; exact hu.freeClearing hc hp _
        · exact hu.countCtx _
  case progress => exact h.takeHead _ _ fun f u hu => hu.onCircuit f fun _ c _ _ hv => hv.farProgress c
  case answer => exact h.takeHead _ _ fun f u hu => hu.onCircuit f fun _ c _ _ hv => hv.farAnswer c
  case farRelease => exact h.takeHead _ _ fun f u hu => hu.onCircuit f fun _ _ _ hk hv => hv.farRelease hk _
  case farReleaseConfirm => exact h.takeHead _ _ fun f u hu => hu.onCircuit f fun _ _ _ hk hv => hv.farReleaseConfirm hk
  case block =>
    exact h.takeHead _ _ fun f u hu => hu.onCircuit f fun _ _ _ _ hv =>
      (hv.setFlag _ (f := fun x => { x with remote := true }) (fun _ => rfl) fun _ => rfl).emitFwd _
  case unblock =>
    exact h.takeHead _ _ fun f u hu => hu.onCircuit f fun _ _ _ _ hv =>
      (hv.setFlag _ (f := fun x => { x with remote := false }) (fun _ => rfl) fun _ => rfl).emitFwd _
  case farSeize => exact h.takeHead _ _ fun f u hu => hu.onCircuit f fun _ _ _ hk hv => hv.farSeize hk
  case farClear => exact h.takeHead _ _ fun f u hu => hu.onCircuit f fun _ _ _ hk hv => hv.farClear hk
  case tariffOffer => exact h.takeHead _ _ fun f u hu => hu.takeOffer _
  case batchAccept => exact h.takeHead _ _ fun f u hu => hu.batchAccept
  case exportHalt =>
    exact h.takeHead _ _ fun f u hu => hu.withSettle ((SettlementQueue.lawUpTo_false _).mpr
      (SettlementQueue.halted_law ((SettlementQueue.lawUpTo_false _).mp hu.settle))) rfl le_rfl
  case exportResume => exact h.takeHead _ _ fun f u hu => hu.exportResume
  case tProceedExpiry n => exact h.expireProceed n
  case tClearExpiry n => exact h.expireClear n
  case guardExpiry g => exact h.expireGuard g
  case clearingExpiry k => exact h.expireClearing k
  case probeTimerExpiry g => exact h.expireProbe g
  case gapTimerExpiry l => exact h.expireGap l
  case acceptTimerExpiry => exact h.expireAccept
  case sampleExpiry => exact h.expireSample
  case unknownRequest => exact h.takeHead _ _ fun f u hu => hu.emitBwd _
  case enterService =>
    refine h.takeRequest _ fun p u hu => ?_
    unfold enterService
    split
    · exact hu
    · exact hu.setDevice _
  case quiesce => exact h.takeRequest _ fun p u hu => hu.setDevice _
  case restart =>
    refine h.takeRequest _ fun p u hu => ?_
    unfold restartRequest
    split
    · exact hu
    · exact hu.restart
  case readDeviceStatus => exact h.read _ fun _ _ => rfl
  case clearErrorFlags =>
    exact h.takeRequest _ fun p u hu => { hu with fwd := hu.fwd, bwd := hu.bwd }
  case setExchangeTime => exact h.takeRequest _ fun p u hu => hu.setExchangeTime p
  case setGlobalParameters => exact h.takeRequest _ fun p u hu => hu.setGlobalParameters _
  case loadDestination => exact h.takeRequest _ fun p u hu => hu.loadDestination _
  case deleteDestination => exact h.takeRequest _ fun p u hu => hu.deleteDestination _
  case lookupDestination => exact h.read _ fun _ _ => lookupDestination_state _ _
  case loadRouteList => exact h.takeRequest _ fun p u hu => hu.loadRouteList p
  case restartGap => exact h.takeRequest _ fun p u hu => hu.restartGap _
  case loadThresholdSet => exact h.takeRequest _ fun p u hu => hu.loadThresholdSet _ _
  case loadTrunkGroup => exact h.takeRequest _ fun p u hu => hu.loadTrunkGroup _
  case removeTrunkGroup => exact h.takeRequest _ fun p u hu => hu.removeTrunkGroup _
  case setGroupState => exact h.takeRequest _ fun p u hu => hu.setGroupState _ _
  case blockCircuit => exact h.takeRequest _ fun p u hu => hu.localBlock _ _
  case unblockCircuit => exact h.takeRequest _ fun p u hu => hu.localBlock _ _
  case declareCarrier => exact h.takeRequest _ fun p u hu => hu.declareCarrier _ _
  case removeCarrier => exact h.takeRequest _ fun p u hu => hu.removeCarrier _
  case loadTariff => exact h.takeRequest _ fun p u hu => hu.loadTariff _
  case pinCarrier => exact h.takeRequest _ fun p u hu => hu.pinCarrier _
  case unpinCarrier => exact h.takeRequest _ fun p u hu => hu.unpinCarrier _
  case readGroup => exact h.read _ fun _ _ => readGroup_state _ _
  case readCircuit => exact h.read _ fun _ _ => readCircuit_state _ _
  case readContext => exact h.read _ fun _ _ => readContext_state _ _
  case readRouteList => exact h.read _ fun _ _ => readRouteList_state _ _
  case readCarrier => exact h.read _ fun _ _ => readCarrier_state _ _
  case latchCounters => exact h.takeRequest _ fun p u hu => hu.latchCounters _ _
  case readLatched => exact h.read _ fun _ _ => readLatched_state _

/-! ### The obligations -/

/-- Settles O59: the laws of every moment are those of `MidLaw` with no context between circuits and no batch due, and each
command keeps them. -/
theorem stepKeepsEveryLaw : Obligations.StepKeepsEveryLaw := by
  intro s t hs he
  have h := (midLaw_iff s).mpr hs
  refine (midLaw_iff t).mp ?_
  unfold step at he
  split at he
  · cases he; exact h
  · exact exec_keeps_law _ (h.withPending _) he

/-- Settles O55. -/
theorem resetMeetsEveryLaw : Obligations.ResetMeetsEveryLaw := reset_law

end Sys2Proof.Machine
end

