-- ==== Sys2Proof/Proofs/GroupRules.lean ====
section
/-! SUPPORT. What the operations on one group and one circuit leave: reports of the Occupancy Monitor, the end of a probe, a
circuit that comes to rest, the look of R46. -/
namespace Sys2Proof.Machine

/-! ### One group -/

/-- Group `g` is `x'`; no other group, no circuit and no counter of the Circuit Map has changed. -/
structure GroupSet (g : Nat) (x' : Group) (s t : State) : Prop where
  group : t.group g = some x'
  others : ∀ h, h ≠ g → t.group h = s.group h
  circuits : ∀ k, t.circuit k = s.circuit k
  counters : t.circ.counters = s.circ.counters

variable {s t u : State} {g : Nat} {x x' x'' : Group}

theorem GroupSet.refl (h : s.group g = some x) : GroupSet g x s s := ⟨h, fun _ _ => rfl, fun _ => rfl, rfl⟩

theorem GroupSet.trans (h : GroupSet g x' s t) (h' : GroupSet g x'' t u) : GroupSet g x'' s u :=
  ⟨h'.group, fun j hj => (h'.others j hj).trans (h.others j hj), fun k => (h'.circuits k).trans (h.circuits k),
    h'.counters.trans h.counters⟩

/-- What stands in the Circuit Map alone decides whether a group is set. -/
theorem GroupSet.congr {s' t' : State} (h : GroupSet g x' s t) (hs : s'.circ = s.circ) (ht : t'.circ = t.circ) :
    GroupSet g x' s' t' := by
  obtain ⟨h1, h2, h3, h4⟩ := h
  simp only [State.circuit, State.group] at h1 h2 h3
  exact ⟨by simp [State.group, ht, h1], fun j hj => by simp [State.group, ht, hs, h2 j hj],
    fun k => by simp [State.circuit, ht, hs, h3 k], by simp [ht, hs, h4]⟩

/-- A change of the circuit's group after its move. -/
theorem CircuitMoved.groupSet {k : Nat} {c c' : Circuit} (h : CircuitMoved k c c' x' s t)
    (h' : GroupSet c.group x'' t u) : CircuitMoved k c c' x'' s u :=
  ⟨(h'.circuits k).trans h.circuit, fun j hj => (h'.circuits j).trans (h.others j hj), h'.group,
    fun j hj => (h'.others j hj).trans (h.groups j hj), h'.counters.trans h.counters⟩

theorem GroupSet.moved {k : Nat} {c : Circuit} (hk : s.circuit k = some c) (h : GroupSet c.group x' s t) :
    CircuitMoved k c c x' s t :=
  ⟨(h.circuits k).trans hk, fun j _ => h.circuits j, h.group, h.others, h.counters⟩

theorem updGroup_groupSet (h : s.group g = some x) (f : Group → Group) : GroupSet g (f x) s (s.updGroup g f) := by
  refine ⟨?_, fun j hj => ?_, fun _ => rfl, rfl⟩
  · rw [State.updGroup_group]; simp [h]
  · rw [State.updGroup_group, if_neg (Ne.symm hj)]

theorem updMonitor_groupSet (h : s.group g = some x) (f : GroupMonitor → GroupMonitor) :
    GroupSet g { x with mon := f x.mon } s (s.updMonitor g f) :=
  updGroup_groupSet h fun r => { r with mon := f r.mon }

theorem updTraffic_groupSet (h : s.group g = some x) (f : Traffic → Traffic) :
    GroupSet g { x with mon := { x.mon with traffic := f x.mon.traffic } } s (s.updTraffic g f) :=
  updMonitor_groupSet h fun m => { m with traffic := f m.traffic }

/-! ### Reports (R85, R86, R88) -/

theorem GroupMonitor.success_eq (m : GroupMonitor) : m.success = healthy m := by
  cases h : m.health <;> simp [GroupMonitor.success, healthy, h]

theorem GroupMonitor.fail_eq (m : GroupMonitor) (theta : Nat) : m.fail theta = failing theta m := by
  have h1 : 1 ≤ min (m.failCount + 1) 15 := by omega
  have ht : m.turnsSuspect theta = true ↔ m.health = .normal ∧ theta ≤ min (m.failCount + 1) 15 := by
    simp [GroupMonitor.turnsSuspect, satAdd]
  by_cases hc : m.health = .normal ∧ theta ≤ min (m.failCount + 1) 15
  · simp only [GroupMonitor.fail, failing, if_pos hc, if_pos (ht.mpr hc)]; rfl
  · simp only [GroupMonitor.fail, failing, if_neg hc, if_neg (fun e => hc (ht.mp e))]; rfl

theorem GroupMonitor.turnsSuspect_iff (m : GroupMonitor) (theta : Nat) :
    m.turnsSuspect theta = true ↔ m.health = .normal ∧ theta ≤ min (m.failCount + 1) 15 := by
  simp [GroupMonitor.turnsSuspect, satAdd]

/-- A health success (R85). -/
theorem healthSuccess_of (h : s.group g = some x) (now : ExTime) :
    GroupSet g { x with mon := healthy x.mon } s (s.healthSuccess now g)
      ∧ (s.healthSuccess now g).bwdOut = s.bwdOut ++ healthReport x g now := by
  have hu := updMonitor_groupSet h GroupMonitor.success
  rw [GroupMonitor.success_eq] at hu
  simp only [State.healthSuccess, h, healthReport]
  split
  · exact ⟨hu.congr rfl rfl, rfl⟩
  · exact ⟨hu, (List.append_nil _).symm⟩

/-- A health failure (R86). -/
theorem healthFailure_of (h : s.group g = some x) (now : ExTime) :
    GroupSet g { x with mon := failing x.cfg.theta x.mon } s (s.healthFailure now g)
      ∧ (s.healthFailure now g).bwdOut = s.bwdOut ++ failReport x g now := by
  have hu := updMonitor_groupSet h fun m => m.fail x.cfg.theta
  simp only [GroupMonitor.fail_eq] at hu
  by_cases hc : x.mon.health = .normal ∧ x.cfg.theta ≤ min (x.mon.failCount + 1) 15
  · have ht := (x.mon.turnsSuspect_iff x.cfg.theta).mpr hc
    simp only [State.healthFailure, h, if_pos ht, failReport, if_pos hc, GroupMonitor.fail_eq]
    exact ⟨hu.congr rfl rfl, rfl⟩
  · have ht : ¬ x.mon.turnsSuspect x.cfg.theta = true := fun e => hc ((x.mon.turnsSuspect_iff _).mp e)
    simp only [State.healthFailure, h, if_neg ht, failReport, if_neg hc, GroupMonitor.fail_eq]
    exact ⟨hu, (List.append_nil _).symm⟩

theorem GroupMonitor.probeFailed_eq (m : GroupMonitor) (due : Nat) : m.probeFailed (some due) = probeLost true due m := by
  cases h : m.health <;> simp [GroupMonitor.probeFailed, probeLost, h]

theorem probeUnsuccessful_of (h : s.group g = some x) :
    GroupSet g { x with mon := probeLost true (s.time.ticks + x.cfg.probeInterval * 100) x.mon } s
      (s.probeUnsuccessful g) := by
  have hu := updMonitor_groupSet h fun m => m.probeFailed (s.timerOf (x.cfg.probeInterval * 100))
  simp only [State.timerOf, GroupMonitor.probeFailed_eq] at hu
  simpa only [State.probeUnsuccessful, h, State.timerOf, GroupMonitor.probeFailed_eq] using hu

/-- The end of a seizure in Proceeding: a probe is unsuccessful, and the probe flag is cleared (R9). -/
theorem endProbe_of {i : Nat} {c : Context} (hc : s.context i = some c) (h : s.group g = some x) :
    GroupSet g { x with mon := probeLost c.probe (s.time.ticks + x.cfg.probeInterval * 100) x.mon } s (s.endProbe i g)
      ∧ s.endProbe i g = (if c.probe then s.probeUnsuccessful g else s).updContext i fun x => { x with probe := false } := by
  have he : s.endProbe i g =
      (if c.probe then s.probeUnsuccessful g else s).updContext i fun x => { x with probe := false } := by
    simp only [State.endProbe, hc]
  refine ⟨?_, he⟩
  rw [he]
  cases hp : c.probe
  · exact (GroupSet.refl (by simpa [probeLost] using h)).congr rfl rfl
  · exact (probeUnsuccessful_of h).congr rfl rfl

theorem endProbe_ctx {i : Nat} {c : Context} (hc : s.context i = some c) (g : Nat) :
    (s.endProbe i g).ctx = { s.ctx with contexts := Table.adjust i (fun x => { x with probe := false }) s.ctx.contexts } := by
  have hf : (if c.probe then s.probeUnsuccessful g else s).ctx = s.ctx := by
    split
    · exact probeUnsuccessful_frame s g .ctx (by decide)
    · rfl
  simp only [State.endProbe, hc, State.updContext, State.withCtx_ctx, hf]

/-! ### The look of R46 -/

theorem Group.drainDue_eq (x : Group) : x.drainDue = x.reportsDrained := by
  simp only [Group.drainDue, Group.reportsDrained, Counts.draining]
  cases x.drainedSent <;> by_cases ha : x.admin = .draining <;> simp [ha]

/-- The look of R46 marks the group and gives its notice. -/
theorem drainCheck_of (h : s.group g = some x) (now : ExTime) :
    GroupSet g x.reported s (s.drainCheck now g) ∧ (s.drainCheck now g).bwdOut = s.bwdOut ++ x.drainReport g now := by
  rw [drainCheck_eq]
  have hm : (if x.drainDue then { x with drainedSent := true } else x) = x.reported := by
    simp only [Group.reported, Group.drainDue_eq]
    cases hr : x.reportsDrained <;> simp
  have hu := updGroup_groupSet h fun r : Group => if r.drainDue then { r with drainedSent := true } else r
  rw [hm] at hu
  refine ⟨hu.congr rfl rfl, ?_⟩
  simp only [State.drainNotices, h, Group.drainReport, Group.drainDue_eq]
  split <;> rfl

/-! ### A circuit comes to rest (R31) -/

theorem Group.restedClass (x : Group) (r : Circuit) (ticks : Nat) :
    ({ r with cond := x.restCondition ticks } : Circuit).cls =
      if x.cfg.guardTime = 0 then (if r.remote || r.localBlock then .blocked else .free) else .guard := by
  by_cases hz : x.cfg.guardTime = 0 <;> simp [Group.restCondition, Circuit.cls, hz]

theorem Group.rested_eq (x : Group) (k : Nat) {r : Circuit} (hr : r.cls = .seized ∨ r.cls = .farSeized ∨ r.cls = .releasing)
    (ticks : Nat) : x.reclass k r.cls ({ r with cond := x.restCondition ticks } : Circuit).cls =
      x.rested k (r.remote || r.localBlock) (x.counts.upd r.cls (· - 1)) := by
  rw [Group.restedClass, Group.rested]
  generalize r.cls = old at hr
  by_cases hz : x.cfg.guardTime = 0
  · cases hb : (r.remote || r.localBlock) <;> rcases hr with rfl | rfl | rfl <;>
      simp [hz, Group.reclass, Counts.move, Counts.upd, requeue]
  · rcases hr with rfl | rfl | rfl <;> simp [hz, Group.reclass, Counts.move, Counts.upd, requeue]

/-- A circuit comes to rest, and its group is looked at (R31, R46). -/
theorem enterGuard_of {k : Nat} {r : Circuit} (hk : s.circuit k = some r) (hx : s.group r.group = some x)
    (hr : r.cls = .seized ∨ r.cls = .farSeized ∨ r.cls = .releasing) (now : ExTime) :
    let x' := x.rested k (r.remote || r.localBlock) (x.counts.upd r.cls (· - 1))
    CircuitMoved k r { r with cond := x.restCondition s.time.ticks } x'.reported s (s.enterGuard now k)
      ∧ (s.enterGuard now k).bwdOut = s.bwdOut ++ x'.drainReport r.group now := by
  have hm := recast_moved (fun c => { c with cond := x.restCondition s.time.ticks }) hk hx
  have hb := recast_frame s k fun c => { c with cond := x.restCondition s.time.ticks }
  rw [Group.rested_eq x k hr] at hm
  obtain ⟨hd, hout⟩ := drainCheck_of hm.group now
  rw [enterGuard_eq hk hx]
  exact ⟨hm.groupSet hd, hout.trans (congrArg (· ++ _) (hb .bwdOut (by decide)))⟩

theorem Circuit.cls_of_seized {r : Circuit} {i : Nat} (h : r.cond = .seized i) : r.cls = .seized := by simp [Circuit.cls, h]

theorem Circuit.cls_of_releasing {r : Circuit} {d : Nat} (h : r.cond = .releasing d) : r.cls = .releasing := by
  simp [Circuit.cls, h]

end Sys2Proof.Machine
end

