-- ==== Sys2Proof/Proofs/ContextRules.lean ====
section
/-! SUPPORT. What the operations on one context leave, and what a command that takes a message leaves of its port. -/
namespace Sys2Proof.Machine

variable {s t u : State} {i : Nat} {c c' c'' : Context}

/-! ### The message that is taken (R162) -/

/-- The device without the message at the head of a port's queue. -/
abbrev State.took (s : State) (p : Port) (rest : List Frame) : State := s.withPort p { s.port p with queue := rest }

theorem took_forward {parts : List Part} {rest : List Frame} (h : OnlyChanges parts (s.took .forward rest) t)
    (hp : Part.fwd ∉ parts) : TookHead .forward rest s t ∧ OnlyChanges (.fwd :: parts) s t :=
  ⟨h .fwd hp, ((withPort_forward_frame s _).mono (by simp)).trans (h.mono (List.subset_cons_self _ _))⟩

theorem took_backward {parts : List Part} {rest : List Frame} (h : OnlyChanges parts (s.took .backward rest) t)
    (hp : Part.bwd ∉ parts) : TookHead .backward rest s t ∧ OnlyChanges (.bwd :: parts) s t :=
  ⟨h .bwd hp, ((withPort_backward_frame s _).mono (by simp)).trans (h.mono (List.subset_cons_self _ _))⟩

/-- A circuit-keyed message reaches its equipped circuit. -/
theorem onCircuit_of {act : Nat → Circuit → State → State} {f : Frame} {k : Nat} {r : Circuit} (hf : keyOf f % 16384 = k)
    (hk : s.circuit k = some r) : onCircuit act f s = act k r s := by
  simp only [onCircuit, circuitOf, hf, hk]

theorem onCircuit_none {act : Nat → Circuit → State → State} {f : Frame} (hk : s.circuit (keyOf f % 16384) = none) :
    onCircuit act f s = s.countCirc fun k => { k with unequipped := inc32 k.unequipped } := by
  simp only [onCircuit, circuitOf, hk]

/-! ### One context -/

theorem updContext_set (h : s.context i = some c) (f : Context → Context) : ContextSet i (f c) s (s.updContext i f) := by
  refine ⟨?_, fun j hj => ?_, rfl⟩
  · rw [State.updContext_context]; simp [h]
  · rw [State.updContext_context, if_neg (Ne.symm hj)]

theorem ContextSet.refl (h : s.context i = some c) : ContextSet i c s s := ⟨h, fun _ _ => rfl, rfl⟩

theorem ContextSet.trans (h : ContextSet i c' s t) (h' : ContextSet i c'' t u) : ContextSet i c'' s u := by
  obtain ⟨-, h2, h3⟩ := h
  obtain ⟨k1, k2, k3⟩ := h'
  exact ⟨k1, fun j hj => (k2 j hj).trans (h2 j hj), by rw [k3, h3]⟩

theorem ContextSet.congr {s' t' : State} (h : ContextSet i c s t) (hs : s'.ctx = s.ctx) (ht : t'.ctx = t.ctx) :
    ContextSet i c s' t' := by
  obtain ⟨h1, h2, h3⟩ := h
  simp only [State.context] at h1 h2
  exact ⟨by simp [State.context, ht, h1], fun j hj => by simp [State.context, hs, ht, h2 j hj], by rw [ht, hs]; exact h3⟩

theorem ContextFreed.congr {s' t' : State} (h : ContextFreed i c s t) (hs : s'.ctx = s.ctx) (hm : s'.mgmt = s.mgmt)
    (ht : t'.ctx = t.ctx) : ContextFreed i c s' t' := by
  obtain ⟨h1, h2, h3, h4, h5, h6, h7⟩ := h
  simp only [State.context, State.lookupRef] at h1 h2 h3 h4
  exact ⟨by simp [State.context, ht, h1], fun j hj => by simp [State.context, hs, ht, h2 j hj],
    by simp [State.lookupRef, ht, h3], fun r hr => by simp [State.lookupRef, hs, ht, h4 r hr], by rw [ht, hs, h5],
    by rw [ht, hs, h6], by rw [ht, hs, hm, h7]⟩

/-- The freeing of a context after changes of it that keep its call reference. -/
theorem ContextSet.freed (h : ContextSet i c' s t) (hr : c'.callRef = c.callRef) (hm : t.mgmt = s.mgmt)
    (h' : ContextFreed i c' t u) : ContextFreed i c s u := by
  obtain ⟨-, h2, h3⟩ := h
  obtain ⟨k1, k2, k3, k4, k5, k6, k7⟩ := h'
  have hrefs : ∀ r, t.lookupRef r = s.lookupRef r := fun r => by rw [State.lookupRef, h3]; rfl
  exact ⟨k1, fun j hj => (k2 j hj).trans (h2 j hj), hr ▸ k3, fun r hne => (k4 r (hr ▸ hne)).trans (hrefs r),
    by rw [k5, h3], by rw [k6, h3], by rw [k7, h3, hm]⟩

theorem ContextSet.counters (h : ContextSet i c s t) : t.ctx.counters = s.ctx.counters := by rw [h.2.2]

theorem ContextSet.resumeReport (h : ContextSet i c s t) (hm : t.mgmt = s.mgmt) (now : ExTime) :
    t.resumeReport now = s.resumeReport now := by rw [State.resumeReport, h.2.2, hm]; rfl

theorem endProbe_set (h : s.context i = some c) (g : Nat) : ContextSet i { c with probe := false } s (s.endProbe i g) := by
  have := updContext_set h fun x => { x with probe := false }
  exact this.congr rfl (endProbe_ctx h g)

theorem dispose_set (h : s.context i = some c) (now : ExTime) :
    ContextSet i { c with quote := none, slot := false } s (s.dispose now i) := by
  have := updContext_set h fun x => { x with quote := none, slot := false }
  refine this.congr rfl ?_
  simp only [State.dispose, h]
  split
  · rfl
  · split <;> rfl

theorem startClearing_set (h : s.context i = some c) :
    ContextSet i { c with
      phase := .clearing, circuit := none, probe := false
      timer := some (s.time.ticks + interval s.mgmt.params.tClear) } s (s.startClearing i) := updContext_set h _

theorem startProceeding_set (h : s.context i = some c) :
    ContextSet i { c with phase := .proceeding, timer := some (s.time.ticks + interval s.mgmt.params.tProceed) } s
      (s.startProceeding i) := updContext_set h _

/-! ### Disposal of an unrated seizure (R10, R140) -/

theorem Context.record_none (h : c.quote = none ∨ c.phase ≠ .connected) (now : ExTime) : c.record now = none := by
  unfold Context.record
  split
  · rename_i hq _ _
    rcases h with h | h
    · simp [h] at hq
    · rw [if_neg h]
  · rfl

theorem Context.rated_false (h : c.quote = none ∨ c.phase ≠ .connected) : c.rated = false := by
  rcases h with h | h <;> simp [Context.rated, h]

/-- An unrated seizure gives back its slot and changes nothing else outside its context. -/
theorem dispose_unrated_settle (h : s.context i = some c) (hn : c.quote = none ∨ c.phase ≠ .connected) (now : ExTime) :
    (s.dispose now i).settle = { s.settle with reservations := s.settle.reservations - (if c.slot then 1 else 0) }
      ∧ OnlyChanges [.ctx, .settle] s (s.dispose now i) := by
  rw [dispose_unrated h (Context.record_none hn now)]
  exact ⟨rfl, ((withSettle_frame _ _).mono (by decide)).trans ((updContext_frame _ _ _).mono (by decide))⟩

end Sys2Proof.Machine
end

