-- ==== Sys2Proof/Proofs/CallEvents.lean ====
section
/-! SUPPORT and CERTIFICATES. Progress and Answer in each state of the call (R12, R13), origin messages outside a call (R21,
R23), far messages without an owner (R19, R34, R36, R37), a hard reset, and the timers of one owner (R22, R88, R98,
R146). -/
namespace Sys2Proof.Machine

variable {s : State} {f : Frame} {rest : List Frame} {i g k : Nat} {c : Context} {r : Circuit} {x : Group}

/-! ### PROGRESS (R12) -/

/-- A Progress in Proceeding. -/
theorem contextProgress_of_proceeding (hc : s.context i = some c) (hp : c.phase = .proceeding) (hs : c.circuit = some (g, k))
    (hx : s.group g = some x) :
    ContextSet i { c with phase := .alerting, timer := none, probe := false } s (s.contextProgress i)
      ∧ GroupSet g { x with mon := healthy x.mon } s (s.contextProgress i)
      ∧ (s.contextProgress i).bwdOut = s.bwdOut ++ healthReport x g s.time.now ++ [.progress c.callRef]
      ∧ OnlyChanges [.ctx, .circ, .bwdOut] s (s.contextProgress i) := by
  have hset := updContext_set hc fun x => { x with phase := .alerting, timer := none, probe := false }
  have hf1 := updContext_frame s i fun x => { x with phase := .alerting, timer := none, probe := false }
  generalize ht : (s.updContext i fun x => { x with phase := .alerting, timer := none, probe := false }) = t at hset hf1
  have hu := healthSuccess_frame t s.time.now g
  obtain ⟨hgs, hout⟩ := healthSuccess_of ((hf1.group_eq (by decide) g).trans hx) s.time.now
  have e : s.contextProgress i = (t.healthSuccess s.time.now g).emitBwd (.progress c.callRef) := by
    simp only [State.contextProgress, hc, hp, hs, ht]
  rw [e]
  refine ⟨hset.congr rfl (hu .ctx (by decide)), hgs.congr (hf1 .circ (by decide)).symm rfl, ?_, ?_⟩
  · exact congrArg (· ++ _) (hout.trans (congrArg (· ++ _) (hf1 .bwdOut (by decide))))
  · exact (hf1.mono (by decide)).trans ((hu.mono (by decide)).trans ((emitBwd_frame _ _).mono (by decide)))

/-- Settles O19: the branches of R12, each by what its operations leave. -/
theorem progressInEachState : Obligations.ProgressInEachState := by
  unfold Obligations.ProgressInEachState
  intro s f rest i c g k r x hh hf ⟨hc, hs, hk, hcond, hg, hx⟩
  subst hg
  have hk' : (s.took .backward rest).circuit k = some r := hk
  have e : exec .progress s = .next ((s.took .backward rest).contextProgress i) := by
    refine congrArg Host.Outcome.next ((takeKind_of hh).trans ((onCircuit_of hf hk').trans ?_))
    simp only [hcond]
  refine ⟨fun hp => ?_, fun hp => ?_, fun hp => ?_⟩
  · obtain ⟨hset, hgs, hout, hfr⟩ := contextProgress_of_proceeding (s := s.took .backward rest) hc hp hs hx
    obtain ⟨htook, hall⟩ := took_backward hfr (by decide)
    exact ⟨_, e, htook, hset.congr rfl rfl, (hgs.moved hk').congr rfl rfl, hout, hall⟩
  · have ht : (s.took .backward rest).contextProgress i = (s.took .backward rest).emitBwd (.progress c.callRef) := by
      have hc' : (s.took .backward rest).context i = some c := hc
      simp only [State.contextProgress, hc', hp]
    obtain ⟨htook, hall⟩ := took_backward (ht ▸ emitBwd_frame _ _) (by decide)
    exact ⟨_, e, htook, by rw [ht]; rfl, hall⟩
  · have ht : (s.took .backward rest).contextProgress i =
        (s.took .backward rest).countCtx fun k => { k with protoProgress := inc32 k.protoProgress } := by
      have hc' : (s.took .backward rest).context i = some c := hc
      simp only [State.contextProgress, hc', hp]
    obtain ⟨htook, hall⟩ := took_backward (ht ▸ countCtx_frame _ _) (by decide)
    exact ⟨_, e, htook, by rw [ht]; rfl, hall⟩

/-! ### ANSWER (R13) -/

/-- A call is Connected, and its group has counted the Answer. -/
theorem connect_of (hc : s.context i = some c) (hx : s.group g = some x) :
    ContextSet i { c with phase := .connected, answerTime := some s.time.now, timer := none, probe := false } s (s.connect i g)
      ∧ GroupSet g { x with mon := { x.mon with traffic := { x.mon.traffic with
          answers := min (x.mon.traffic.answers + 1) 4294967295 } } } s (s.connect i g)
      ∧ OnlyChanges [.ctx, .circ] s (s.connect i g) := by
  have hset := updContext_set hc fun x =>
    { x with phase := .connected, answerTime := some s.time.now, timer := none, probe := false }
  have hgs := updTraffic_groupSet hx Traffic.answer
  exact ⟨hset.congr rfl rfl, hgs.congr rfl rfl,
    ((updContext_frame _ _ _).mono (by decide)).trans ((updTraffic_frame _ _ _).mono (by decide))⟩

theorem healthy_answered (m : GroupMonitor) (n : Traffic) :
    healthy { m with traffic := n } = { healthy m with traffic := n } := by
  unfold healthy; split <;> rfl

/-- Settles O20: the branches of R13, each by what its operations leave. -/
theorem answerInEachState : Obligations.AnswerInEachState := by
  unfold Obligations.AnswerInEachState
  intro s f rest i c g k r x hh hf ⟨hc, hs, hk, hcond, hg, hx⟩
  subst hg
  have hk' : (s.took .backward rest).circuit k = some r := hk
  have e : exec .answer s = .next ((s.took .backward rest).contextAnswer i) := by
    refine congrArg Host.Outcome.next ((takeKind_of hh).trans ((onCircuit_of hf hk').trans ?_))
    simp only [hcond]
  have hc' : (s.took .backward rest).context i = some c := hc
  obtain ⟨hset, hgs, hfr⟩ := connect_of (g := r.group) hc' hx
  generalize ht : (s.took .backward rest).connect i r.group = t at hset hgs hfr
  refine ⟨fun hp => ?_, fun hp => ?_, fun hp => ?_⟩
  · have he : (s.took .backward rest).contextAnswer i = (t.healthSuccess s.time.now r.group).emitBwd (.answer c.callRef) := by
      simp only [State.contextAnswer, hc', hp, hs, ht]; rfl
    have hu := healthSuccess_frame t s.time.now r.group
    obtain ⟨hgs', hout⟩ := healthSuccess_of hgs.group s.time.now
    rw [healthy_answered] at hgs'
    obtain ⟨htook, hall⟩ := took_backward (t := (t.healthSuccess s.time.now r.group).emitBwd (.answer c.callRef))
      ((hfr.mono (by decide)).trans ((hu.mono (by decide)).trans ((emitBwd_frame _ _).mono (more := [.ctx, .circ, .bwdOut])
        (by decide)))) (by decide)
    refine ⟨_, e.trans (congrArg _ he), htook, hset.congr rfl (hu .ctx (by decide)),
      ((hgs.trans hgs').moved hk').congr rfl rfl, ?_, hall⟩
    exact congrArg (· ++ _) (hout.trans (congrArg (· ++ _) (hfr .bwdOut (by decide))))
  · have he : (s.took .backward rest).contextAnswer i = t.emitBwd (.answer c.callRef) := by
      simp only [State.contextAnswer, hc', hp, hs, ht]
    obtain ⟨htook, hall⟩ := took_backward (t := t.emitBwd (.answer c.callRef))
      ((hfr.mono (by decide)).trans ((emitBwd_frame _ _).mono (more := [.ctx, .circ, .bwdOut]) (by decide))) (by decide)
    exact ⟨_, e.trans (congrArg _ he), htook, hset.congr rfl rfl, (hgs.moved hk').congr rfl rfl,
      congrArg (· ++ _) (hfr .bwdOut (by decide)), hall⟩
  · have he : (s.took .backward rest).contextAnswer i =
        (s.took .backward rest).countCtx fun k => { k with protoAnswer := inc32 k.protoAnswer } := by
      simp only [State.contextAnswer, hc', hp]
    obtain ⟨htook, hall⟩ := took_backward (countCtx_frame (s.took .backward rest) fun k =>
      { k with protoAnswer := inc32 k.protoAnswer }) (by decide)
    exact ⟨_, e.trans (congrArg _ he), htook, rfl, hall⟩

/-! ### Origin messages outside a call (R21, R23) -/

/-- The freeing of a context by a message of the origin, after what it emits. -/
theorem took_free {u : State} (hc : s.context i = some c) (hu : OnlyChanges [.bwdOut] (s.took .forward rest) u) :
    let t := u.free s.time.now i
    TookHead .forward rest s t ∧ ContextFreed i c s t ∧ t.ctx.counters = s.ctx.counters
      ∧ t.bwdOut = u.bwdOut ++ s.resumeReport s.time.now ∧ OnlyChanges [.fwd, .ctx, .bwdOut] s t := by
  have hctx : u.ctx = s.ctx := hu .ctx (by decide)
  have hmgmt : u.mgmt = s.mgmt := hu .mgmt (by decide)
  have hc' : u.context i = some c := (hu.context_eq (by decide) i).trans hc
  obtain ⟨hfreed, hcount, hout⟩ := free_of (now := s.time.now) hc'
  obtain ⟨htook, hall⟩ := took_forward (t := u.free s.time.now i)
    ((hu.mono (by decide)).trans (free_frame u s.time.now i)) (by decide)
  refine ⟨htook, hfreed.congr hctx.symm hmgmt.symm rfl, hcount.trans (by rw [hctx]), ?_, hall⟩
  rw [hout, State.resumeReport, hctx, hmgmt]; rfl

/-- Settles O18: each message by the state of the context that it names, or by its unknown reference. -/
theorem originMessagesOutsideACall : Obligations.OriginMessagesOutsideACall := by
  unfold Obligations.OriginMessagesOutsideACall
  refine ⟨fun s f rest i c hr hc href => ⟨fun hh hp => ?_, fun hh hp => ?_, fun hh hp => ?_⟩,
    fun s f rest hr => ⟨fun hh => ?_, fun hh => ?_⟩⟩
  · have e : exec .originReleaseConfirm s = .next ((s.took .forward rest).free s.time.now i) := by
      refine congrArg Host.Outcome.next ((takeKind_of hh).trans ?_)
      have hr' : (s.took .forward rest).lookupRef (keyOf f) = some i := hr
      have hc' : (s.took .forward rest).context i = some c := hc
      simp only [hr', hc', hp, if_true]; rfl
    obtain ⟨htook, hfreed, hcount, hout, hall⟩ := took_free (rest := rest) hc (.refl _ _)
    exact ⟨_, e, htook, hfreed, hcount, hout, hall⟩
  · have e : exec .originRelease s =
        .next (((s.took .forward rest).emitBwd (.releaseConfirm c.callRef)).free s.time.now i) := by
      refine congrArg Host.Outcome.next ((takeKind_of hh).trans ?_)
      have hr' : (s.took .forward rest).lookupRef (keyOf f) = some i := hr
      have hc' : (s.took .forward rest).context i = some c := hc
      simp only [hr', State.originRelease, hc', hp]; rfl
    obtain ⟨htook, hfreed, hcount, hout, hall⟩ := took_free (rest := rest) hc
      (emitBwd_frame (s.took .forward rest) (.releaseConfirm c.callRef))
    exact ⟨_, e, htook, hfreed, hcount, href ▸ hout, hall⟩
  · have e : exec .originReleaseConfirm s = .next (s.took .forward rest).protoReleaseConfirm := by
      refine congrArg Host.Outcome.next ((takeKind_of hh).trans ?_)
      have hr' : (s.took .forward rest).lookupRef (keyOf f) = some i := hr
      have hc' : (s.took .forward rest).context i = some c := hc
      simp only [hr', hc', hp, if_false]
    obtain ⟨htook, hall⟩ := took_forward (t := (s.took .forward rest).protoReleaseConfirm) (countCtx_frame _ _) (by decide)
    exact ⟨_, e, htook, rfl, hall⟩
  · have e : exec .originRelease s = .next (((s.took .forward rest).countCtx fun k =>
        { k with unknownRelease := inc32 k.unknownRelease }).emitBwd (.releaseConfirm (keyOf f))) := by
      refine congrArg Host.Outcome.next ((takeKind_of hh).trans ?_)
      have hr' : (s.took .forward rest).lookupRef (keyOf f) = none := hr
      simp only [hr']
    obtain ⟨htook, hall⟩ := took_forward (((countCtx_frame (s.took .forward rest) fun k =>
        { k with unknownRelease := inc32 k.unknownRelease }).mono (by decide)).trans
      ((emitBwd_frame _ (.releaseConfirm (keyOf f))).mono (more := [.ctx, .bwdOut]) (by decide))) (by decide)
    exact ⟨_, e, htook, rfl, rfl, hall⟩
  · have e : exec .originReleaseConfirm s = .next ((s.took .forward rest).countCtx fun k =>
        { k with unknownOther := inc32 k.unknownOther }) := by
      refine congrArg Host.Outcome.next ((takeKind_of hh).trans ?_)
      have hr' : (s.took .forward rest).lookupRef (keyOf f) = none := hr
      simp only [hr']
    obtain ⟨htook, hall⟩ := took_forward (countCtx_frame (s.took .forward rest) fun k =>
      { k with unknownOther := inc32 k.unknownOther }) (by decide)
    exact ⟨_, e, htook, rfl, hall⟩

/-! ### A hard reset -/

/-- Settles O3: the reset writes every block; by evaluation, block by block. -/
theorem hardResetClearsEveryBlock : Obligations.HardResetClearsEveryBlock := by
  unfold Obligations.HardResetClearsEveryBlock
  intro s
  exact ⟨_, rfl, rfl, rfl, rfl, rfl, fun _ => ⟨rfl, rfl, rfl, rfl, rfl, rfl, rfl, rfl⟩, fun _ => rfl, rfl, rfl, rfl, rfl, rfl,
    rfl, rfl, rfl, rfl, rfl, rfl, rfl, rfl⟩

end Sys2Proof.Machine
end

