-- ==== Sys2Proof/Proofs/FarEvents.lean ====
section
/-! SUPPORT and CERTIFICATES. Far messages on circuits without an owning call and on Unequipped circuits (R19, R34, R36,
R37), and the timers of one owner (R22, R88, R98, R146). -/
namespace Sys2Proof.Machine

variable {s : State} {f : Frame} {rest : List Frame} {i g k : Nat} {c : Context} {r : Circuit} {x : Group}

/-! ### Far messages without an owner -/

/-- A far message on an Unequipped circuit is counted and no more (R37). -/
theorem unequipped_of {cmd : Instr} {kind : Nat} {act : Frame → State → State} (hh : s.headed .backward kind f rest)
    (hx : exec cmd s = .next (takeKind .backward kind act s))
    (ha : ∀ u : State, u.circuit (keyOf f % 16384) = none →
      act f u = u.countCirc fun n => { n with unequipped := inc32 n.unequipped })
    (hk : s.circuit (keyOf f % 16384) = none) :
    ∃ t, exec cmd s = .next t ∧ TookHead .backward rest s t
      ∧ t.circ = { s.circ with counters := { s.circ.counters with
          unequipped := min (s.circ.counters.unequipped + 1) 4294967295 } }
      ∧ OnlyChanges [.bwd, .circ] s t := by
  have e : exec cmd s = .next ((s.took .backward rest).countCirc fun n => { n with unequipped := inc32 n.unequipped }) :=
    hx.trans (congrArg _ ((takeKind_of hh).trans (ha _ hk)))
  obtain ⟨htook, hall⟩ := took_backward (countCirc_frame (s.took .backward rest) fun n =>
    { n with unequipped := inc32 n.unequipped }) (by decide)
  exact ⟨_, e, htook, rfl, hall⟩

/-- A Releasing circuit comes to rest (R31, R34). -/
theorem enterGuard_of_releasing {d : Nat} (hk : s.circuit k = some r) (hx : s.group r.group = some x)
    (hr : r.cond = .releasing d) (now : ExTime) :
    let x' := x.rested k (r.remote || r.localBlock) { x.counts with releasing := x.counts.releasing - 1 }
    CircuitMoved k r { r with cond := x.restCondition s.time.ticks } x'.reported s (s.enterGuard now k)
      ∧ (s.enterGuard now k).bwdOut = s.bwdOut ++ x'.drainReport r.group now := by
  have h := enterGuard_of hk hx (.inr (.inr (Circuit.cls_of_releasing hr))) now
  rw [Circuit.cls_of_releasing hr] at h
  exact h

/-- A Seized circuit comes to rest (R31, R16). -/
theorem enterGuard_of_seized (hk : s.circuit k = some r) (hx : s.group r.group = some x)
    (hr : r.cond = .seized i) (now : ExTime) :
    let x' := x.rested k (r.remote || r.localBlock) { x.counts with seized := x.counts.seized - 1 }
    CircuitMoved k r { r with cond := x.restCondition s.time.ticks } x'.reported s (s.enterGuard now k)
      ∧ (s.enterGuard now k).bwdOut = s.bwdOut ++ x'.drainReport r.group now := by
  have h := enterGuard_of hk hx (.inl (Circuit.cls_of_seized hr)) now
  rw [Circuit.cls_of_seized hr] at h
  exact h

/-- A message on a circuit that no call holds is counted as stray. -/
theorem stray_of {cmd : Instr} {u : State} (n : CircuitCounters → CircuitCounters)
    (e : exec cmd s = .next u) (hu : u = (s.took .backward rest).countCirc n) :
    ∃ t, exec cmd s = .next t ∧ TookHead .backward rest s t
      ∧ t.circ = { s.circ with counters := n s.circ.counters } ∧ OnlyChanges [.bwd, .circ] s t := by
  obtain ⟨htook, hall⟩ := took_backward (countCirc_frame (s.took .backward rest) n) (by decide)
  exact ⟨_, e.trans (congrArg _ hu), htook, rfl, hall⟩

/-- Settles O24: each message by the condition of its circuit (R36), and the Unequipped circuit (R37). -/
theorem farMessagesWithoutOwner : Obligations.FarMessagesWithoutOwner := by
  unfold Obligations.FarMessagesWithoutOwner
  refine ⟨fun s f rest k r x hf hk hx => ?_, fun s f rest c kind hc hh hk => ?_⟩
  · have hk' : (s.took .backward rest).circuit k = some r := hk
    have hx' : (s.took .backward rest).group r.group = some x := hx
    refine ⟨fun hn => ⟨fun hh => ?_, fun hh => ?_⟩, fun hn hd => ⟨fun hh => ?_, fun hh => ?_⟩,
      fun d hd => ⟨fun hh => ?_, fun hh => ?_⟩, fun i hi hh => ?_⟩
    · refine stray_of (fun n => { n with strayProgress := inc32 n.strayProgress })
        (congrArg Host.Outcome.next ((takeKind_of hh).trans (onCircuit_of hf hk'))) ?_
      split
      · rename_i i hi; exact absurd hi (hn i)
      · rfl
    · refine stray_of (fun n => { n with strayAnswer := inc32 n.strayAnswer })
        (congrArg Host.Outcome.next ((takeKind_of hh).trans (onCircuit_of hf hk'))) ?_
      split
      · rename_i i hi; exact absurd hi (hn i)
      · rfl
    · have e : exec .farRelease s = .next (((s.took .backward rest).countCirc fun n =>
          { n with unexpectedRelease := inc32 n.unexpectedRelease }).emitFwd (.releaseConfirm k)) := by
        refine congrArg Host.Outcome.next ((takeKind_of hh).trans ((onCircuit_of hf hk').trans ?_))
        split
        · rename_i i hi; exact absurd hi (hn i)
        · rename_i d hi; exact absurd hi (hd d)
        · rfl
      obtain ⟨htook, hall⟩ := took_backward (((countCirc_frame (s.took .backward rest) fun n =>
          { n with unexpectedRelease := inc32 n.unexpectedRelease }).mono (by decide)).trans
        ((emitFwd_frame _ (.releaseConfirm k)).mono (more := [.circ, .fwdOut]) (by decide))) (by decide)
      exact ⟨_, e, htook, rfl, rfl, hall⟩
    · refine stray_of (fun n => { n with strayReleaseConfirm := inc32 n.strayReleaseConfirm })
        (congrArg Host.Outcome.next ((takeKind_of hh).trans (onCircuit_of hf hk'))) ?_
      split
      · rename_i i hi; exact absurd hi (hn i)
      · rename_i d hi; exact absurd hi (hd d)
      · rfl
    · have e : exec .farRelease s =
          .next (((s.took .backward rest).emitFwd (.releaseConfirm k)).enterGuard s.time.now k) := by
        refine congrArg Host.Outcome.next ((takeKind_of hh).trans ((onCircuit_of hf hk').trans ?_))
        simp only [hd]; rfl
      obtain ⟨hmoved, hout⟩ := enterGuard_of_releasing (s := (s.took .backward rest).emitFwd (.releaseConfirm k))
        hk hx hd s.time.now
      have hfr := enterGuard_frame ((s.took .backward rest).emitFwd (.releaseConfirm k)) s.time.now k
      obtain ⟨htook, hall⟩ := took_backward (((emitFwd_frame (s.took .backward rest) (.releaseConfirm k)).mono (by decide)).trans
        (hfr.mono (more := [.circ, .fwdOut, .bwdOut]) (by decide))) (by decide)
      exact ⟨_, e, htook, hmoved.congr rfl rfl, hfr .fwdOut (by decide), hout, hall⟩
    · have e : exec .farReleaseConfirm s = .next ((s.took .backward rest).enterGuard s.time.now k) := by
        refine congrArg Host.Outcome.next ((takeKind_of hh).trans ((onCircuit_of hf hk').trans ?_))
        simp only [hd]; rfl
      obtain ⟨hmoved, hout⟩ := enterGuard_of_releasing hk' hx' hd s.time.now
      obtain ⟨htook, hall⟩ := took_backward (enterGuard_frame (s.took .backward rest) s.time.now k) (by decide)
      exact ⟨_, e, htook, hmoved.congr rfl rfl, hout, hall⟩
    · have e : exec .farReleaseConfirm s = .next (s.took .backward rest).protoReleaseConfirm := by
        refine congrArg Host.Outcome.next ((takeKind_of hh).trans ((onCircuit_of hf hk').trans ?_))
        simp only [hi]
      obtain ⟨htook, hall⟩ := took_backward (t := (s.took .backward rest).protoReleaseConfirm) (countCtx_frame _ _) (by decide)
      exact ⟨_, e, htook, rfl, hall⟩
  · simp only [List.mem_cons, Prod.mk.injEq, List.not_mem_nil, or_false] at hc
    rcases hc with ⟨rfl, rfl⟩ | ⟨rfl, rfl⟩ | ⟨rfl, rfl⟩ | ⟨rfl, rfl⟩ | ⟨rfl, rfl⟩ | ⟨rfl, rfl⟩ | ⟨rfl, rfl⟩ | ⟨rfl, rfl⟩ <;>
      exact unequipped_of hh rfl (fun u hu => onCircuit_none hu) hk

/-! ### The timers of one owner (R22, R88, R98, R146) -/

/-- The expiry of T-clear (R22). -/
theorem expireClear_of {d : Nat} (hc : s.context i = some c) (hp : c.phase = .clearing) (ht : c.timer = some d)
    (hd : d ≤ s.time.ticks) :
    let t := s.expireClear i
    ContextFreed i c s t
      ∧ t.ctx.counters = { s.ctx.counters with
          clearingTimeouts := min (s.ctx.counters.clearingTimeouts + 1) 4294967295 }
      ∧ t.bwdOut = s.bwdOut ++ s.resumeReport s.time.tickTime ++ [.notice s.time.tickTime (.clearingTimeout c.callRef)]
      ∧ OnlyChanges [.ctx, .bwdOut] s t := by
  have e : s.expireClear i = ((s.free s.time.tickTime i).notify s.time.tickTime (.clearingTimeout c.callRef)).countCtx
      fun k => { k with clearingTimeouts := inc32 k.clearingTimeouts } := by
    simp only [State.expireClear, hc, hp, ht, timerDue, hd, decide_true]
  obtain ⟨⟨h1, h2, h3, h4, h5, h6, h7⟩, hcount, hout⟩ := free_of (now := s.time.tickTime) hc
  dsimp only
  rw [e]
  refine ⟨⟨h1, h2, h3, h4, h5, h6, h7⟩, ?_, congrArg (· ++ _) hout, ?_⟩
  · change ({ (s.free s.time.tickTime i).ctx.counters with
      clearingTimeouts := inc32 (s.free s.time.tickTime i).ctx.counters.clearingTimeouts } : ContextCounters) = _
    rw [hcount]; rfl
  · exact (free_frame _ _ _).trans (((notify_frame _ _ _).mono (by decide)).trans ((countCtx_frame _ _).mono (by decide)))

/-- The expiry of the accept timer (R146). -/
theorem expireAccept_of {d : Nat} {first : SettlementRecord} {others : List SettlementRecord}
    (hs : s.settle.exportState = .awaitingAccept) (ht : s.settle.acceptTimer = some d) (hd : d ≤ s.time.ticks)
    (hq : s.settle.queued = first :: others) :
    let t := s.expireAccept
    t.settle = { s.settle with
        exportState := .stalled, acceptTimer := none
        counters := { s.settle.counters with stalls := min (s.settle.counters.stalls + 1) 4294967295 } }
      ∧ t.bwdOut = s.bwdOut ++ [.notice s.time.tickTime
          (.exportStalled first.seq s.settle.outstanding (others.length + 1))]
      ∧ OnlyChanges [.settle, .bwdOut] s t := by
  have e : s.expireAccept = (s.withSettle { s.settle with
      exportState := .stalled, acceptTimer := none
      counters := { s.settle.counters with stalls := inc32 s.settle.counters.stalls } }).notify s.time.tickTime
        (.exportStalled first.seq s.settle.outstanding (others.length + 1)) := by
    have hf : s.settle.firstSeq = first.seq := by simp [SettlementQueue.firstSeq, hq]
    have hl : s.settle.queued.length = others.length + 1 := by simp [hq]
    simp only [State.expireAccept, ht, timerDue, hd, decide_true, hs, and_self, if_true, hf, hl]
  dsimp only
  rw [e]
  exact ⟨rfl, rfl, ((withSettle_frame _ _).mono (by decide)).trans ((notify_frame _ _ _).mono (by decide))⟩

theorem GroupMonitor.probeExpired_eq (m : GroupMonitor) :
    m.probeExpired = { m with gate := if m.health = .suspect then .opened else m.gate, probeTimer := none } := by
  cases h : m.health <;> simp [GroupMonitor.probeExpired, h]

/-- Settles O30: the expiry of each timer, by its owner. -/
theorem timersOfOneOwnerExpire : Obligations.TimersOfOneOwnerExpire := by
  unfold Obligations.TimersOfOneOwnerExpire
  refine ⟨fun s i d c hc hp ht hd => ?_, fun s d first others hs ht hd hq => ?_,
    fun s d hd => ⟨fun g x hx ht => ?_, fun l ht => ?_⟩⟩
  · obtain ⟨hfreed, hcount, hout, hall⟩ := expireClear_of hc hp ht hd
    exact ⟨_, rfl, hfreed, hcount, hout, hall⟩
  · obtain ⟨hsettle, hout, hall⟩ := expireAccept_of hs ht hd hq
    exact ⟨_, rfl, hsettle, hout, hall⟩
  · have e : exec (.probeTimerExpiry g) s = .next (s.updMonitor g GroupMonitor.probeExpired) := by
      refine congrArg Host.Outcome.next ?_
      simp only [State.expireProbe, hx, ht, timerDue, hd, decide_true, if_true]
    obtain ⟨hgroup, hothers, -, -⟩ := updMonitor_groupSet hx GroupMonitor.probeExpired
    rw [GroupMonitor.probeExpired_eq] at hgroup
    exact ⟨_, e, hgroup, hothers, rfl, updMonitor_frame _ _ _⟩
  · have e : exec (.gapTimerExpiry l) s =
        .next (s.updList l fun r => { r with gate := .opened, gapTimer := none }) := by
      refine congrArg Host.Outcome.next ?_
      simp only [State.expireGap, ht, timerDue, hd, decide_true, if_true]
    refine ⟨_, e, ?_, fun n hn => ?_, rfl, updList_frame _ _ _⟩
    · rw [State.updList_routeList, if_pos rfl]
    · rw [State.updList_routeList, if_neg (Ne.symm hn)]

end Sys2Proof.Machine
end

