-- ==== Sys2Proof/Proofs/CallEnds.lean ====
section
/-! SUPPORT and CERTIFICATES. The end of a call by a Release of either side (R16, R20), unrated and rated (R132 to R136, R141,
R143). -/
namespace Sys2Proof.Machine

variable {s t u : State} {f : Frame} {rest : List Frame} {i g k : Nat} {c c' : Context} {r : Circuit} {x : Group}
  {q : Quote} {a now : ExTime} {car : Carrier} {record : SettlementRecord}

/-! ### The circuit and the probe of a call that the origin ends (R9, R20, R33) -/

/-- The device once the origin's Release has been confirmed and sent forward, before the seizure is disposed of. -/
def State.originLetsGo (s : State) (i g k cause : Nat) (c : Context) : State :=
  let s1 := ((s.emitBwd (.releaseConfirm c.callRef)).emitFwd (.release k cause)).enterReleasing k
  if c.phase = .proceeding then s1.endProbe i g else s1

theorem originEnds_eq (s : State) (i g k cause : Nat) (c : Context) :
    s.originEnds i g k cause c =
      ((((s.originLetsGo i g k cause c).dispose s.time.now i).free s.time.now i).exportIf c.rated) := rfl

theorem originLetsGo_of (hc : s.context i = some c) (hk : s.circuit k = some r) (hcond : r.cond = .seized i)
    (hx : s.group r.group = some x) (cause : Nat) :
    let t := s.originLetsGo i r.group k cause c
    ContextSet i { c with probe := if c.phase = .proceeding then false else c.probe } s t
      ∧ CircuitMoved k r { r with cond := .releasing (s.time.ticks + interval s.mgmt.params.tClear) }
          { x with
            counts := { x.counts with seized := x.counts.seized - 1, releasing := x.counts.releasing + 1 }
            mon := if c.phase = .proceeding then
              probeLost c.probe (s.time.ticks + x.cfg.probeInterval * 100) x.mon else x.mon } s t
      ∧ t.fwdOut = s.fwdOut ++ [.release k cause] ∧ t.bwdOut = s.bwdOut ++ [.releaseConfirm c.callRef]
      ∧ OnlyChanges [.ctx, .circ, .fwdOut, .bwdOut] s t := by
  let s0 := (s.emitBwd (.releaseConfirm c.callRef)).emitFwd (.release k cause)
  have h0 : OnlyChanges [.ctx, .circ, .fwdOut, .bwdOut] s s0 :=
    ((emitBwd_frame _ _).mono (by decide)).trans ((emitFwd_frame _ _).mono (by decide))
  have hmoved := enterReleasing_moved (s := s0) hk hcond hx
  have h1 := enterReleasing_frame s0 k
  have hc1 : (s0.enterReleasing k).context i = some c := (h1.context_eq (by decide) i).trans hc
  dsimp only
  by_cases hp : c.phase = .proceeding
  · have e : s.originLetsGo i r.group k cause c = (s0.enterReleasing k).endProbe i r.group := if_pos hp
    have h2 := endProbe_frame (s0.enterReleasing k) i r.group
    have hset := endProbe_set hc1 r.group
    have hgs := (endProbe_of hc1 hmoved.group).1
    have htime : (s0.enterReleasing k).time = s.time := h1 .time (by decide)
    rw [htime] at hgs
    simp only [e, if_pos hp]
    exact ⟨hset.congr (h1 .ctx (by decide)).symm rfl, (hmoved.groupSet hgs).congr rfl rfl,
      (h2 .fwdOut (by decide)).trans (h1 .fwdOut (by decide)), (h2 .bwdOut (by decide)).trans (h1 .bwdOut (by decide)),
      h0.trans ((h1.mono (by decide)).trans (h2.mono (by decide)))⟩
  · have e : s.originLetsGo i r.group k cause c = s0.enterReleasing k := if_neg hp
    simp only [e, if_neg hp]
    exact ⟨(ContextSet.refl hc1).congr (h1 .ctx (by decide)).symm rfl, hmoved.congr rfl rfl, h1 .fwdOut (by decide),
      h1 .bwdOut (by decide), h0.trans (h1.mono (by decide))⟩

/-! ### Disposal and freeing (R3, R10) -/

/-- A seizure is disposed of, and its context is freed. -/
theorem dispose_free_of {parts : List Part} (hset : ContextSet i c' s u) (href : c'.callRef = c.callRef)
    (hu : OnlyChanges parts s u) (hm : Part.mgmt ∉ parts) (now : ExTime) :
    let t := (u.dispose now i).free now i
    ContextFreed i c s t ∧ t.ctx.counters = s.ctx.counters ∧ t.bwdOut = u.bwdOut ++ s.resumeReport now
      ∧ OnlyChanges [.ctx, .bwdOut] (u.dispose now i) t := by
  have hd := dispose_frame u now i
  have hmgmt : (u.dispose now i).mgmt = s.mgmt := (hd .mgmt (by decide)).trans (hu .mgmt hm)
  have hset' := hset.trans (dispose_set hset.1 now)
  obtain ⟨hfreed, hcount, hout⟩ := free_of (now := now) hset'.1
  refine ⟨hset'.freed href hmgmt hfreed, hcount.trans hset'.counters, ?_, free_frame _ _ _⟩
  rw [hout, hset'.resumeReport hmgmt]
  exact congrArg (· ++ _) (hd .bwdOut (by decide))

/-- A Release of the origin ends a call that holds a circuit (R20). -/
theorem originRelease_of (hc : s.context i = some c) (hp : c.phase ≠ .clearing) (hs : c.circuit = some (g, k)) (cause : Nat) :
    s.originRelease i cause = s.originEnds i g k cause c := by
  simp only [State.originRelease, hc, hs]

/-- Settles O16: the circuit is let go, the seizure disposed of and the context freed. -/
theorem originReleaseEndsUnratedCall : Obligations.OriginReleaseEndsUnratedCall := by
  unfold Obligations.OriginReleaseEndsUnratedCall
  intro s f rest i c g k r x hh href hc hcr hp hs hn hk hg hcond hx
  subst hg
  have hc0 : (s.took .forward rest).context i = some c := hc
  have e : exec .originRelease s = .next ((s.took .forward rest).originEnds i r.group k (kindByteOf f) c) := by
    refine congrArg Host.Outcome.next ((takeKind_of hh).trans ?_)
    have hr' : (s.took .forward rest).lookupRef (keyOf f) = some i := href
    simp only [hr']
    exact originRelease_of hc0 hp hs _
  have hrated : c.rated = false := Context.rated_false hn
  rw [originEnds_eq, hrated] at e
  obtain ⟨hset, hmoved, hfwd, hbwd, hfr⟩ := originLetsGo_of (s := s.took .forward rest) hc hk hcond hx (kindByteOf f)
  generalize (s.took .forward rest).originLetsGo i r.group k (kindByteOf f) c = u at *
  obtain ⟨hfreed, hcount, hout, hfree⟩ := dispose_free_of (c := c) hset rfl hfr (by decide) s.time.now
  obtain ⟨hsettle, hdisp⟩ := dispose_unrated_settle hset.1 hn s.time.now
  have hset0 : u.settle = s.settle := hfr .settle (by decide)
  rw [hset0] at hsettle
  obtain ⟨htook, hall⟩ := took_forward (t := (u.dispose s.time.now i).free s.time.now i)
    ((hfr.mono (by decide)).trans ((hdisp.mono (by decide)).trans
      (hfree.mono (more := [.ctx, .circ, .settle, .fwdOut, .bwdOut]) (by decide)))) (by decide)
  refine ⟨_, e, htook, ?_, ?_, ?_, ?_, hfreed.congr rfl rfl rfl, hcount, hall⟩
  · exact (hfree .fwdOut (by decide)).trans ((hdisp .fwdOut (by decide)).trans hfwd)
  · exact hout.trans (by rw [hbwd, hcr]; rfl)
  · have hmon : (if c.phase = .proceeding ∧ c.probe = true ∧ x.mon.health = .suspect then
          { x.mon with gate := .closed, probeTimer := some (s.time.ticks + x.cfg.probeInterval * 100) }
        else x.mon) = if c.phase = .proceeding then
          probeLost c.probe (s.time.ticks + x.cfg.probeInterval * 100) x.mon else x.mon := by
      by_cases hph : c.phase = .proceeding <;> simp [hph, probeLost]
    rw [hmon]
    exact hmoved.congr rfl ((hfree .circ (by decide)).trans (hdisp .circ (by decide)))
  · exact (hfree .settle (by decide)).trans hsettle

/-! ### A rating (R132 to R136, R141, R143) -/

/-- The record that the Settlement Queue appends is the one of R132 to R135. -/
theorem recordAt_eq (s : State) (c : Context) (g k : Nat) (q : Quote) (a now : ExTime) :
    recordAt s c g k q a now = { recordOf q c.callRef g k a now with seq := s.settle.nextSeq, resent := false } := by
  have he : ((now.day : Int) * 8640000 + now.cs) - ((a.day : Int) * 8640000 + a.cs) = elapsed a now := by
    simp [elapsed, ExTime.absolute, Config.dayLength]
  have hd : (max (elapsed a now) 0).toNat / 100 = duration a now := by
    rw [duration]; congr 1; omega
  simp only [recordAt, he, hd, recordOf, durationClamped, Bool.decide_or]
  rfl

/-- The disposal of an answered handover call rates it. -/
theorem dispose_rated (hc : s.context i = some c) (hp : c.phase = .connected) (hq : c.quote = some q)
    (ha : c.answerTime = some a) (hs : c.circuit = some (g, k)) (now : ExTime) :
    s.dispose now i = (s.rateRecord (recordOf q c.callRef g k a now)).updContext i fun x =>
      { x with quote := none, slot := false } := by
  have hr : c.record now = some (recordOf q c.callRef g k a now) := by simp only [Context.record, hq, ha, hs, hp, if_true]
  simp only [State.dispose, hc, hr]

/-- What the look of R143 leaves after a rating, by whether a batch is already out. -/
theorem exportLook_rated {r : SettlementRecord} (hv : u.settle = s.settle.append r) (hm : u.mgmt = s.mgmt)
    (ht : u.time = s.time) :
    let record := { r with seq := s.settle.nextSeq, resent := false }
    let b := min s.mgmt.params.batchSize (s.settle.queued.length + 1)
    (u.exportLook.settle =
      if s.settle.exportState = .ready ∧ s.settle.halt = false then
        { s.settle.append r with
          outstanding := b, exportState := .awaitingAccept
          acceptTimer := some (s.time.ticks + interval s.mgmt.params.tAccept)
          counters := { s.settle.counters with
            batchesSent := min (s.settle.counters.batchesSent + 1) 4294967295
            recordsSent := min (s.settle.counters.recordsSent + b) 4294967295 } }
      else s.settle.append r)
    ∧ u.exportLook.bwdOut = u.bwdOut ++ s.ratingRun record := by
  have hne : (s.settle.append r).queued ≠ [] := by simp [SettlementQueue.append]
  have hlen : (s.settle.append r).queued.length = s.settle.queued.length + 1 := by simp [SettlementQueue.append]
  by_cases hi : s.settle.exportState = .ready ∧ s.settle.halt = false
  · have hcond : u.settle.exportState = .ready ∧ u.settle.halt = false ∧ u.settle.queued ≠ [] := by
      rw [hv]; exact ⟨hi.1, hi.2, hne⟩
    have e : u.exportLook = u.sendBatch := if_pos hcond
    simp only [e, if_pos hi, State.ratingRun, State.sendBatch, State.emitBatch, State.withSettle, State.timerOf, hv, hm, ht,
      hlen]
    refine ⟨rfl, ?_⟩
    rw [List.append_assoc]; rfl
  · have hcond : ¬ (u.settle.exportState = .ready ∧ u.settle.halt = false ∧ u.settle.queued ≠ []) := by
      rw [hv]; exact fun h => hi ⟨h.1, h.2.1⟩
    have e : u.exportLook = u := if_neg hcond
    simp only [e, if_neg hi, State.ratingRun]
    exact ⟨hv, (List.append_nil _).symm⟩

/-- A rating followed by the look of R143. -/
theorem ratedInto_of {r : SettlementRecord} (hcar : s.carrier r.carrier = some car) (hseq : s.settle.nextSeq ≤ 4294967295)
    (hv : OnlyChanges [.fwd, .bwd, .ctx, .circ, .fwdOut, .bwdOut] (s.rateRecord r) u) :
    RatedInto { r with seq := s.settle.nextSeq, resent := false } car s u.exportLook := by
  obtain ⟨hsettle, -⟩ := exportLook_rated (s := s) (hv .settle (by decide)) (hv .mgmt (by decide)) (hv .time (by decide))
  have hf := exportLook_frame u
  have htariffs : u.exportLook.tariffs = (s.rateRecord r).tariffs := (hf .tariffs (by decide)).trans (hv .tariffs (by decide))
  have hrating : u.exportLook.rating = s.rating.rate r := (hf .rating (by decide)).trans (hv .rating (by decide))
  have hcarrier : ∀ n, u.exportLook.carrier n = if r.carrier = n then (s.carrier n).map fun c => c.settle r.charge
      else s.carrier n := by
    intro n
    have h := State.updCarrier_carrier (s := (s.withRating (s.rating.rate r)).withSettle (s.settle.append r)) r.carrier
      (fun c => c.settle r.charge) n
    rw [State.carrier, htariffs]
    exact h
  have hnext : nextSeqAfter s.settle.nextSeq = if s.settle.nextSeq = 4294967295 then 1 else s.settle.nextSeq + 1 := by
    exact if_congr (by simp only [Config.max32]; omega) rfl rfl
  have hidle : s.settle.idle ↔ s.settle.exportState = .ready ∧ s.settle.halt = false := Iff.rfl
  exact {
    queued := by rw [hsettle]; split <;> rfl
    reservations := by rw [hsettle]; split <;> rfl
    nextSeq := by rw [hsettle, ← hnext]; split <;> rfl
    halt := by rw [hsettle]; split <;> rfl
    sends := fun hi => by rw [hsettle, if_pos (hidle.mp hi)]; exact ⟨rfl, rfl, rfl, rfl⟩
    waits := fun hi => by rw [hsettle, if_neg (fun e => hi (hidle.mpr e))]; exact ⟨rfl, rfl, rfl, rfl⟩
    carrier := by rw [hcarrier, if_pos rfl, hcar]; rfl
    carriers := fun n hn => by rw [hcarrier, if_neg (Ne.symm hn)]
    unknown := by rw [htariffs]; rfl
    rating := hrating }

theorem RatedInto.of_frame (h : RatedInto record car u t) (hs : u.settle = s.settle) (hm : u.mgmt = s.mgmt)
    (ht : u.time = s.time) (hr : u.rating = s.rating) (hx : u.tariffs = s.tariffs) : RatedInto record car s t := by
  have hcar : ∀ n, u.carrier n = s.carrier n := fun n => by rw [State.carrier, hx]; rfl
  obtain ⟨h1, h2, h3, h4, h5, h6, h7, h8, h9, h10⟩ := h
  simp only [hs, hm, ht, hr, hx, hcar] at *
  exact ⟨h1, h2, h3, h4, h5, h6, h7, h8, h9, h10⟩

/-! ### A circuit that the far side releases (R9, R16, R31) -/

@[simp] theorem Group.rested_mon (x : Group) (k : Nat) (flagged : Bool) (n : Counts) : (x.rested k flagged n).mon = x.mon := by
  unfold Group.rested; split
  · split <;> rfl
  · rfl

@[simp] theorem Group.rested_cfg (x : Group) (k : Nat) (flagged : Bool) (n : Counts) : (x.rested k flagged n).cfg = x.cfg := by
  unfold Group.rested; split
  · split <;> rfl
  · rfl

@[simp] theorem Group.reported_mon (x : Group) : x.reported.mon = x.mon := rfl
@[simp] theorem Group.reported_cfg (x : Group) : x.reported.cfg = x.cfg := rfl

theorem failReport_congr {y : Group} (hm : y.mon = x.mon) (hc : y.cfg = x.cfg) (g : Nat) (now : ExTime) :
    failReport y g now = failReport x g now := by rw [failReport, failReport, hm, hc]

/-- The reports at the end of a seizure in Proceeding: a health failure, if any, and the end of a probe (R9). -/
theorem endReports_of (failed : Prop) [Decidable failed] (hc : s.context i = some c) (hx : s.group g = some x) (now : ExTime) :
    let t := (if failed then s.healthFailure now g else s).endProbe i g
    ContextSet i { c with probe := false } s t
      ∧ GroupSet g { x with
          mon := probeLost c.probe (s.time.ticks + x.cfg.probeInterval * 100)
            (if failed then failing x.cfg.theta x.mon else x.mon) } s t
      ∧ t.bwdOut = s.bwdOut ++ (if failed then failReport x g now else [])
      ∧ OnlyChanges [.ctx, .circ, .bwdOut] s t := by
  by_cases hf : failed
  · simp only [if_pos hf]
    have h1 := healthFailure_frame s now g
    obtain ⟨hgs, hout⟩ := healthFailure_of hx now
    have hc1 : (s.healthFailure now g).context i = some c := (h1.context_eq (by decide) i).trans hc
    have htime : (s.healthFailure now g).time = s.time := h1 .time (by decide)
    have h2 := endProbe_frame (s.healthFailure now g) i g
    have hgs' := (endProbe_of hc1 hgs.group).1
    rw [htime] at hgs'
    exact ⟨(endProbe_set hc1 g).congr (h1 .ctx (by decide)).symm rfl, hgs.trans hgs', (h2 .bwdOut (by decide)).trans hout,
      (h1.mono (by decide)).trans (h2.mono (by decide))⟩
  · simp only [if_neg hf, List.append_nil]
    exact ⟨endProbe_set hc g, (endProbe_of hc hx).1, endProbe_frame s i g .bwdOut (by decide),
      (endProbe_frame s i g).mono (by decide)⟩

/-- The device once the far side's Release has been confirmed and its reports made, before the seizure is disposed of. -/
def State.farLetsGo (s : State) (i g k cause : Nat) (c : Context) : State :=
  let s1 := (s.emitFwd (.releaseConfirm k)).enterGuard s.time.now k
  if c.phase = .proceeding then
    (if cause = Cause.circuitFailure.value then s1.healthFailure s.time.now g else s1).endProbe i g
  else s1

theorem farEnds_eq (s : State) (i g k cause : Nat) (c : Context) :
    s.farEnds i g k cause c =
      ((((s.farLetsGo i g k cause c).dispose s.time.now i).emitBwd (.release c.callRef cause)).startClearing i).exportIf
        c.rated := rfl

theorem farLetsGo_of (hc : s.context i = some c) (hk : s.circuit k = some r) (hcond : r.cond = .seized i)
    (hx : s.group r.group = some x) (cause : Nat) :
    let t := s.farLetsGo i r.group k cause c
    let x' := x.rested k (r.remote || r.localBlock) { x.counts with seized := x.counts.seized - 1 }
    let failed := c.phase = .proceeding ∧ cause = 19
    let mon := if failed then failing x.cfg.theta x.mon else x.mon
    ContextSet i { c with probe := if c.phase = .proceeding then false else c.probe } s t
      ∧ CircuitMoved k r { r with cond := x.restCondition s.time.ticks }
          { x'.reported with
            mon := if c.phase = .proceeding then probeLost c.probe (s.time.ticks + x.cfg.probeInterval * 100) mon
              else mon } s t
      ∧ t.fwdOut = s.fwdOut ++ [.releaseConfirm k]
      ∧ t.bwdOut = s.bwdOut ++ x'.drainReport r.group s.time.now ++ (if failed then failReport x r.group s.time.now else [])
      ∧ OnlyChanges [.ctx, .circ, .fwdOut, .bwdOut] s t := by
  let s0 := s.emitFwd (.releaseConfirm k)
  have h0 : OnlyChanges [.ctx, .circ, .fwdOut, .bwdOut] s s0 := (emitFwd_frame _ _).mono (by decide)
  obtain ⟨hmoved, hout⟩ := enterGuard_of_seized (s := s0) hk hx hcond s.time.now
  have h1 := enterGuard_frame s0 s.time.now k
  have hc1 : (s0.enterGuard s.time.now k).context i = some c := (h1.context_eq (by decide) i).trans hc
  have htime : (s0.enterGuard s.time.now k).time = s.time := h1 .time (by decide)
  have hcfg := x.rested_cfg k (r.remote || r.localBlock) { x.counts with seized := x.counts.seized - 1 }
  have hmon := x.rested_mon k (r.remote || r.localBlock) { x.counts with seized := x.counts.seized - 1 }
  dsimp only at hmoved hout ⊢
  generalize x.rested k (r.remote || r.localBlock) { x.counts with seized := x.counts.seized - 1 } = x' at *
  by_cases hp : c.phase = .proceeding
  · have e : s.farLetsGo i r.group k cause c =
        (if cause = 19 then (s0.enterGuard s.time.now k).healthFailure s.time.now r.group
          else s0.enterGuard s.time.now k).endProbe i r.group := if_pos hp
    have hfd : (c.phase = .proceeding ∧ cause = 19) ↔ cause = 19 := and_iff_right hp
    obtain ⟨hset, hgs, hrep, h2⟩ := endReports_of (cause = 19) hc1 hmoved.group s.time.now
    rw [failReport_congr (y := x'.reported) hmon hcfg] at hrep
    simp only [Group.reported_cfg, Group.reported_mon, hcfg, hmon, htime] at hgs
    simp only [e, if_pos hp, hfd, Group.reported_cfg, hcfg]
    exact ⟨hset.congr (h1 .ctx (by decide)).symm rfl, (hmoved.groupSet hgs).congr rfl rfl,
      (h2 .fwdOut (by decide)).trans (h1 .fwdOut (by decide)), hrep.trans (congrArg (· ++ _) hout),
      h0.trans ((h1.mono (by decide)).trans (h2.mono (by decide)))⟩
  · have e : s.farLetsGo i r.group k cause c = s0.enterGuard s.time.now k := if_neg hp
    have hsame : ({ x'.reported with mon := x.mon } : Group) = x'.reported := by rw [← hmon]; rfl
    simp only [e, hp, if_false, false_and, hsame, List.append_nil]
    exact ⟨(ContextSet.refl hc1).congr (h1 .ctx (by decide)).symm rfl, hmoved.congr rfl rfl, h1 .fwdOut (by decide), hout,
      h0.trans (h1.mono (by decide))⟩

/-- A seizure is disposed of, the Release is relayed, and the context is Clearing (R2, R10, R16). -/
theorem dispose_clear_of {parts : List Part} (hset : ContextSet i c' s u) (hu : OnlyChanges parts s u)
    (hm : Part.mgmt ∉ parts) (ht : Part.time ∉ parts) (now : ExTime) (m : OutMsg) :
    let t := ((u.dispose now i).emitBwd m).startClearing i
    ContextSet i { c' with
      quote := none, slot := false, phase := .clearing, circuit := none, probe := false
      timer := some (s.time.ticks + interval s.mgmt.params.tClear) } s t
      ∧ t.bwdOut = u.bwdOut ++ [m] ∧ OnlyChanges [.ctx, .bwdOut] (u.dispose now i) t := by
  have hd := dispose_frame u now i
  have hmgmt : (u.dispose now i).mgmt = s.mgmt := (hd .mgmt (by decide)).trans (hu .mgmt hm)
  have htime : (u.dispose now i).time = s.time := (hd .time (by decide)).trans (hu .time ht)
  have hset' := hset.trans (dispose_set hset.1 now)
  have hclear := startClearing_set (s := (u.dispose now i).emitBwd m) hset'.1
  have hticks : ((u.dispose now i).emitBwd m).time = s.time := htime
  have hparams : ((u.dispose now i).emitBwd m).mgmt = s.mgmt := hmgmt
  rw [hticks, hparams] at hclear
  exact ⟨hset'.trans (hclear.congr rfl rfl), congrArg (· ++ _) (hd .bwdOut (by decide)),
    ((emitBwd_frame _ _).mono (by decide)).trans ((startClearing_frame _ _).mono (by decide))⟩

/-- A Release of the far side that is no crankback ends the call (R16). -/
theorem contextRelease_of (hc : s.context i = some c) (hs : c.circuit = some (g, k)) {cause : Nat}
    (hn : c.phase = .proceeding → cause ∉ [4, 17]) : s.contextRelease i cause = s.farEnds i g k cause c := by
  simp only [State.contextRelease, hc, hs]
  by_cases hp : c.phase = .proceeding
  · have hcb : crankbackCause cause = none := by
      have := hn hp
      simp only [List.mem_cons, List.not_mem_nil, or_false, not_or] at this
      simp only [crankbackCause, Cause.value, this.1, this.2, if_false]
    simp only [hcb, hp]
  · split
    · contradiction
    · rfl

/-- Settles O21: the circuit is let go, the seizure disposed of, the Release relayed. -/
theorem farReleaseEndsUnratedCall : Obligations.FarReleaseEndsUnratedCall := by
  unfold Obligations.FarReleaseEndsUnratedCall
  intro s f rest i c g k r x hh hf ⟨hc, hs, hk, hcond, hg, hx⟩ hcase
  subst hg
  have hk0 : (s.took .backward rest).circuit k = some r := hk
  have hcb : c.phase = .proceeding → kindByteOf f ∉ [4, 17] := by
    rcases hcase with h | h | h
    · exact fun _ => h.2
    · simp [h]
    · simp [h.1]
  have hn : c.quote = none ∨ c.phase ≠ .connected := by
    rcases hcase with h | h | h
    · exact .inr (by simp [h.1])
    · exact .inr (by simp [h])
    · exact .inl h.2
  have hrated : c.rated = false := Context.rated_false hn
  have e : exec .farRelease s = .next ((s.took .backward rest).farEnds i r.group k (kindByteOf f) c) := by
    refine congrArg Host.Outcome.next ((takeKind_of hh).trans ((onCircuit_of hf hk0).trans ?_))
    simp only [hcond]
    exact contextRelease_of (s := s.took .backward rest) hc hs hcb
  rw [farEnds_eq, hrated] at e
  obtain ⟨hset, hmoved, hfwd, hbwd, hfr⟩ := farLetsGo_of (s := s.took .backward rest) hc hk hcond hx (kindByteOf f)
  generalize (s.took .backward rest).farLetsGo i r.group k (kindByteOf f) c = u at *
  obtain ⟨hset', hout, hclear⟩ :=
    dispose_clear_of hset hfr (by decide) (by decide) s.time.now (.release c.callRef (kindByteOf f))
  obtain ⟨hsettle, hdisp⟩ := dispose_unrated_settle hset.1 hn s.time.now
  have hset0 : u.settle = s.settle := hfr .settle (by decide)
  rw [hset0] at hsettle
  obtain ⟨htook, hall⟩ := took_backward
    (t := ((u.dispose s.time.now i).emitBwd (.release c.callRef (kindByteOf f))).startClearing i)
    ((hfr.mono (by decide)).trans ((hdisp.mono (by decide)).trans
      (hclear.mono (more := [.ctx, .circ, .settle, .fwdOut, .bwdOut]) (by decide)))) (by decide)
  refine ⟨_, e, htook, ?_, hset'.congr rfl rfl, ?_, ?_, ?_, hall⟩
  · exact hmoved.congr rfl ((hclear .circ (by decide)).trans (hdisp .circ (by decide)))
  · exact (hclear .settle (by decide)).trans hsettle
  · exact (hclear .fwdOut (by decide)).trans ((hdisp .fwdOut (by decide)).trans hfwd)
  · exact hout.trans (congrArg (· ++ _) hbwd)

/-! ### The release of an answered handover call -/

/-- The rating of an answered handover call, at the end of its release (R132 to R136, R141, R143). -/
theorem rated_end {v : State} (hset : ContextSet i c' s u) (hfr : OnlyChanges [.ctx, .circ, .fwdOut, .bwdOut] s u)
    (hp : c'.phase = .connected) (hq : c'.quote = some q) (ha : c'.answerTime = some a) (hs : c'.circuit = some (g, k))
    (hcar : s.carrier q.carrier = some car) (hseq : s.settle.nextSeq ≤ 4294967295)
    (hv : OnlyChanges [.ctx, .bwdOut] (u.dispose now i) v) :
    let record := recordAt s c' g k q a now
    RatedInto record car s v.exportLook ∧ v.exportLook.bwdOut = v.bwdOut ++ s.ratingRun record
      ∧ OnlyChanges [.ctx, .tariffs, .rating, .settle, .bwdOut] u v.exportLook := by
  have hsettle : u.settle = s.settle := hfr .settle (by decide)
  have hmgmt : u.mgmt = s.mgmt := hfr .mgmt (by decide)
  have htime : u.time = s.time := hfr .time (by decide)
  have hv' : OnlyChanges [.fwd, .bwd, .ctx, .circ, .fwdOut, .bwdOut] (u.rateRecord (recordOf q c'.callRef g k a now)) v := by
    rw [dispose_rated hset.1 hp hq ha hs] at hv
    exact ((updContext_frame _ _ _).mono (by decide)).trans (hv.mono (by decide))
  have hrated := ratedInto_of ((hfr.carrier_eq (by decide) _).trans hcar) (hsettle ▸ hseq) hv'
  have hlook := (exportLook_rated (s := u) (hv' .settle (by decide)) (hv' .mgmt (by decide)) (hv' .time (by decide))).2
  have hrun : ∀ r, u.ratingRun r = s.ratingRun r := fun r => by rw [State.ratingRun, hsettle, hmgmt]; rfl
  dsimp only
  rw [recordAt_eq, ← hsettle]
  refine ⟨hrated.of_frame hsettle hmgmt htime (hfr .rating (by decide)) (hfr .tariffs (by decide)), ?_, ?_⟩
  · rw [hlook, hrun]
  · exact ((dispose_frame u now i).mono (by decide)).trans
      ((hv.mono (by decide)).trans ((exportLook_frame v).mono (by decide)))

/-- Settles O17: either side's release lets the circuit go, rates the call into one record, and looks for a batch to send last. -/
theorem releaseRatesAnsweredCall : Obligations.ReleaseRatesAnsweredCall := by
  unfold Obligations.ReleaseRatesAnsweredCall
  intro s f rest i c g k r x q a car ⟨hc, hs, hk, hcond, hg, hx⟩ hp hq ha hcar hseq
  subst hg
  have hrated : c.rated = true := by simp [Context.rated, hp, hq]
  have hnp : c.phase ≠ .proceeding := by simp [hp]
  refine ⟨fun hh href hcr => ?_, fun hh hf => ?_⟩
  · have hc0 : (s.took .forward rest).context i = some c := hc
    have e : exec .originRelease s = .next ((s.took .forward rest).originEnds i r.group k (kindByteOf f) c) := by
      refine congrArg Host.Outcome.next ((takeKind_of hh).trans ?_)
      have hr' : (s.took .forward rest).lookupRef (keyOf f) = some i := href
      simp only [hr']
      exact originRelease_of hc0 (by simp [hp]) hs _
    rw [originEnds_eq, hrated] at e
    obtain ⟨hset, hmoved, hfwd, hbwd, hfr⟩ := originLetsGo_of (s := s.took .forward rest) hc hk hcond hx (kindByteOf f)
    simp only [if_neg hnp] at hset hmoved
    generalize (s.took .forward rest).originLetsGo i r.group k (kindByteOf f) c = u at *
    obtain ⟨hfreed, hcount, hout, hfree⟩ := dispose_free_of (c := c) hset rfl hfr (by decide) s.time.now
    have hlook := exportLook_frame ((u.dispose s.time.now i).free s.time.now i)
    obtain ⟨hinto, hrun, hlast⟩ := rated_end hset hfr hp hq ha hs hcar hseq hfree
    obtain ⟨htook, hall⟩ := took_forward ((hfr.mono (by decide)).trans
      (hlast.mono (more := [.ctx, .circ, .tariffs, .rating, .settle, .fwdOut, .bwdOut]) (by decide))) (by decide)
    have hctx := hlook .ctx (by decide)
    refine ⟨_, e, htook, hinto.of_frame rfl rfl rfl rfl rfl, (hlast .fwdOut (by decide)).trans hfwd, ?_,
      hmoved.congr rfl (hlast .circ (by decide)), hfreed.congr rfl rfl hctx, (congrArg ContextTable.counters hctx).trans hcount,
      hall⟩
    refine hrun.trans (congrArg (· ++ _) (hout.trans ?_))
    rw [hbwd, hcr]; rfl
  · have hk0 : (s.took .backward rest).circuit k = some r := hk
    have e : exec .farRelease s = .next ((s.took .backward rest).farEnds i r.group k (kindByteOf f) c) := by
      refine congrArg Host.Outcome.next ((takeKind_of hh).trans ((onCircuit_of hf hk0).trans ?_))
      simp only [hcond]
      exact contextRelease_of (s := s.took .backward rest) hc hs (fun h => absurd h hnp)
    rw [farEnds_eq, hrated] at e
    obtain ⟨hset, hmoved, hfwd, hbwd, hfr⟩ := farLetsGo_of (s := s.took .backward rest) hc hk hcond hx (kindByteOf f)
    simp only [hnp, if_false, false_and, List.append_nil] at hset hmoved hbwd
    generalize (s.took .backward rest).farLetsGo i r.group k (kindByteOf f) c = u at *
    obtain ⟨hset', hout, hclear⟩ :=
      dispose_clear_of hset hfr (by decide) (by decide) s.time.now (.release c.callRef (kindByteOf f))
    obtain ⟨hinto, hrun, hlast⟩ := rated_end hset hfr hp hq ha hs hcar hseq hclear
    have hlook := exportLook_frame (((u.dispose s.time.now i).emitBwd (.release c.callRef (kindByteOf f))).startClearing i)
    obtain ⟨htook, hall⟩ := took_backward ((hfr.mono (by decide)).trans
      (hlast.mono (more := [.ctx, .circ, .tariffs, .rating, .settle, .fwdOut, .bwdOut]) (by decide))) (by decide)
    have hsame : ({ (x.rested k (r.remote || r.localBlock)
        { x.counts with seized := x.counts.seized - 1 }).reported with mon := x.mon } : Group) =
        (x.rested k (r.remote || r.localBlock) { x.counts with seized := x.counts.seized - 1 }).reported := by
      rw [← Group.rested_mon x k (r.remote || r.localBlock) { x.counts with seized := x.counts.seized - 1 }]; rfl
    rw [hsame] at hmoved
    exact ⟨_, e, htook, hinto.of_frame rfl rfl rfl rfl rfl, (hlast .fwdOut (by decide)).trans hfwd,
      hrun.trans (congrArg (· ++ _) (hout.trans (congrArg (· ++ _) hbwd))), hmoved.congr rfl (hlast .circ (by decide)),
      hset'.congr rfl (hlook .ctx (by decide)), hall⟩

end Sys2Proof.Machine
end

