-- ==== Sys2Proof/Proofs/SetupRefusals.lean ====
section
/-! SUPPORT and CERTIFICATES. A Setup that is refused: by the checks of R6, and for want of a route (R7, R55, R61). -/
namespace Sys2Proof.Machine

variable {s t u : State} {f : Frame} {rest : List Frame} {i g k : Nat} {c c' : Context} {m : SetupMsg} {now : ExTime}

/-! ### The lowest-numbered Idle context (R3) -/

theorem lowestFree_none {used : List Nat} {lo n : Nat} : lowestFree used lo n = none ↔ ∀ j, lo ≤ j → j < lo + n → j ∈ used := by
  induction n generalizing lo with
  | zero => simpa [lowestFree] using fun j h1 h2 => absurd h2 (by omega)
  | succ n ih =>
    rw [lowestFree]
    by_cases h : lo ∈ used
    · rw [if_pos h, ih]
      refine ⟨fun hall j h1 h2 => ?_, fun hall j h1 h2 => hall j (by omega) (by omega)⟩
      by_cases e : j = lo
      · exact e ▸ h
      · exact hall j (by omega) (by omega)
    · rw [if_neg h]
      exact iff_of_false (by simp) fun hall => h (hall lo (le_refl _) (by omega))

theorem lowestFree_eq {used : List Nat} {lo n k : Nat} (h1 : lo ≤ k) (h2 : k < lo + n) (h3 : k ∉ used)
    (h4 : ∀ j, lo ≤ j → j < k → j ∈ used) : lowestFree used lo n = some k := by
  cases h : lowestFree used lo n with
  | none => exact absurd (lowestFree_none.mp h k h1 h2) h3
  | some j =>
    obtain ⟨g1, g2, -, g4⟩ := lowestFree_spec h
    rcases Nat.lt_trichotomy j k with e | e | e
    · exact absurd (h4 j g2 e) g1
    · rw [e]
    · exact absurd (g4 k h1 e) h3

theorem State.mem_keys_contexts (s : State) (j : Nat) : j ∈ Table.keys s.ctx.contexts ↔ (s.context j).isSome := by
  rw [← not_iff_not, ← Table.find_eq_none, State.context]; simp

theorem State.idleContext_none (h : ¬ ∃ i < 8192, s.context i = none) : s.idleContext = none := by
  refine lowestFree_none.mpr fun j _ hj => (s.mem_keys_contexts j).mpr ?_
  rw [Option.isSome_iff_ne_none]
  exact fun e => h ⟨j, by simpa [Config.contextCount] using hj, e⟩

theorem State.idleContext_of (h1 : i < 8192) (h2 : s.context i = none) (h3 : ∀ j < i, (s.context j).isSome) :
    s.idleContext = some i := by
  refine lowestFree_eq (Nat.zero_le _) (by simpa [Config.contextCount] using h1) ?_ fun j _ hj =>
    (s.mem_keys_contexts j).mpr (h3 j hj)
  rw [State.mem_keys_contexts, h2]; simp

theorem State.idleContext_isSome (h : ∃ i < 8192, s.context i = none) : ∃ i, s.idleContext = some i := by
  obtain ⟨i, hi, hn⟩ := h
  cases e : s.idleContext with
  | some j => exact ⟨j, rfl⟩
  | none =>
    have := lowestFree_none.mp e i (Nat.zero_le _) (by simpa [Config.contextCount] using hi)
    rw [State.mem_keys_contexts, hn] at this
    simp at this

/-! ### The checks of R6 -/

/-- The device with one more Setup taken (R24). -/
def State.setupCounted (s : State) : State := s.countCtx fun k => { k with setupsTaken := inc32 k.setupsTaken }

theorem setupCounted_frame (s : State) : OnlyChanges [.ctx] s s.setupCounted := countCtx_frame _ _

/-- Which check of R6 a Setup fails first, if any. -/
def State.earlyRefusal (s : State) (m : SetupMsg) (c : Cause) : Prop :=
  let served := s.mgmt.device = .inService
  let fresh := s.lookupRef m.callRef = none
  let room := ∃ i < 8192, s.context i = none
  (¬ served ∧ c = .notInService) ∨ (served ∧ ¬ fresh ∧ c = .duplicateReference)
    ∨ (served ∧ fresh ∧ ¬ room ∧ c = .resourceExhausted)
    ∨ (served ∧ fresh ∧ room ∧ (m.count = 0 ∨ 20 < m.count) ∧ c = .invalidNumber)

/-- The checks of R6 read the device as it was before the count. -/
theorem takeSetup_eq (s : State) (m : SetupMsg) :
    s.takeSetup m =
      if s.mgmt.device ≠ .inService then s.setupCounted.refuseEarly m .notInService
      else if (s.lookupRef m.callRef).isSome then s.setupCounted.refuseEarly m .duplicateReference
      else s.idleContext.elim (s.setupCounted.refuseEarly m .resourceExhausted) fun i =>
        if m.count = 0 ∨ 20 < m.count then s.setupCounted.refuseEarly m .invalidNumber
        else (s.setupCounted.allocate s.time.now i (m.context s.time.now)).route s.time.now i m := by
  have hidle : s.setupCounted.idleContext = s.idleContext := rfl
  rw [← hidle]
  cases h : s.setupCounted.idleContext with
  | none =>
    simp only [Option.elim]
    simp only [State.setupCounted] at h
    simp only [State.takeSetup, h]; rfl
  | some i =>
    simp only [Option.elim]
    simp only [State.setupCounted] at h
    simp only [State.takeSetup, h]; rfl

theorem takeSetup_refused {cause : Cause} (h : s.earlyRefusal m cause) : s.takeSetup m = s.setupCounted.refuseEarly m cause := by
  rw [takeSetup_eq]
  rcases h with ⟨h1, rfl⟩ | ⟨h1, h2, rfl⟩ | ⟨h1, h2, h3, rfl⟩ | ⟨h1, h2, h3, h4, rfl⟩
  · rw [if_pos h1]
  · rw [if_neg (not_not.mpr h1), if_pos (Option.isSome_iff_ne_none.mpr h2)]
  · simp [h1, h2, State.idleContext_none h3]
  · obtain ⟨i, hi⟩ := State.idleContext_isSome h3
    simp [h1, h2, hi, h4]

/-- A Setup that passes the checks of R6 gets the lowest-numbered Idle context, and is routed. -/
theorem takeSetup_routed (hdev : s.mgmt.device = .inService) (href : s.lookupRef m.callRef = none) (hi : i < 8192)
    (hn : s.context i = none) (hlow : ∀ j < i, (s.context j).isSome) (h1 : 1 ≤ m.count) (h20 : m.count ≤ 20) :
    s.takeSetup m = (s.setupCounted.allocate s.time.now i (m.context s.time.now)).route s.time.now i m := by
  have hcount : ¬ (m.count = 0 ∨ 20 < m.count) := by omega
  simp [takeSetup_eq, hdev, href, State.idleContext_of hi hn hlow, hcount]

/-- Settles O11: the checks of R6 in their order, and the one refusal they share. -/
theorem setupRefusedBeforeRouting : Obligations.SetupRefusedBeforeRouting := by
  unfold Obligations.SetupRefusedBeforeRouting
  intro s f rest hh m served fresh room cause hcause
  have e : exec .setup s = .next ((s.took .forward rest).setupCounted.refuseEarly m cause) :=
    congrArg Host.Outcome.next ((takeKind_of hh).trans (takeSetup_refused (s := s.took .forward rest) hcause))
  obtain ⟨htook, hall⟩ := took_forward (t := (s.took .forward rest).setupCounted.refuseEarly m cause)
    (((setupCounted_frame _).mono (by decide)).trans (((countCtx_frame _ _).mono (by decide)).trans
      ((emitBwd_frame _ _).mono (more := [.ctx, .bwdOut]) (by decide)))) (by decide)
  exact ⟨_, e, htook, rfl, rfl, hall⟩

/-! ### A refusal in routing (R3, R7, R105) -/

/-- The device once context `i` stands for a Setup. -/
def State.admitted (s : State) (i : Nat) (m : SetupMsg) : State :=
  s.setupCounted.allocate s.time.now i (m.context s.time.now)

theorem admitted_frame (s : State) (i : Nat) (m : SetupMsg) : OnlyChanges [.ctx, .bwdOut] s (s.admitted i m) :=
  ((setupCounted_frame s).mono (by decide)).trans (allocate_frame _ _ _ _)

/-- The number of contexts in use and the offer state while the Setup stands are those of R3 and R105; its refusal undoes
the allocation. -/
theorem refuseRouted_of (hn : s.context i = none) (href : s.lookupRef m.callRef = none)
    (hset : ContextSet i c' (s.admitted i m) u) (hc : c'.callRef = m.callRef) (hm : u.mgmt = s.mgmt)
    (ho : u.bwdOut = (s.admitted i m).bwdOut) (cause : Cause) :
    let t := u.refuseRouted s.time.now i m cause
    RefusedInRouting s t ∧ t.bwdOut = s.bwdOut ++ s.refusalRun m cause ∧ OnlyChanges [.ctx, .bwdOut] u t := by
  obtain ⟨acontext, aref, aUse, apeak, aoffer, acount, aout⟩ :=
    allocate_of (now := s.time.now) s.setupCounted i (m.context s.time.now)
  have hset1 : ContextSet i c' (s.admitted i m) (u.emitBwd (.refuse m.callRef m.inCircuit cause)) := hset.congr rfl rfl
  obtain ⟨hfreed, hcount, hout⟩ := free_of (now := s.time.now) hset1.1
  obtain ⟨-, hothers, hctx⟩ := hset
  have hUse : u.ctx.inUse = s.ctx.inUse + 1 := by rw [hctx]; exact aUse
  have hpeak : u.ctx.peak = max s.ctx.peak (s.ctx.inUse + 1) := by rw [hctx]; exact apeak
  have hoffer : u.ctx.offer = if s.ctx.offer = .held ∨ s.mgmt.params.highWater ≤ s.ctx.inUse + 1 then .held else .opened := by
    rw [hctx]; exact aoffer
  have hcounters : u.ctx.counters = s.setupCounted.ctx.counters := by rw [hctx]; exact acount
  have hrefs : ∀ r, u.lookupRef r = if m.callRef = r then some i else s.lookupRef r := fun r => by
    rw [State.lookupRef, hctx]; exact aref r
  dsimp only
  refine ⟨⟨fun j => ?_, fun r => ?_, ?_⟩, ?_, ((emitBwd_frame _ _).mono (by decide)).trans (free_frame _ _ _)⟩
  · by_cases hj : j = i
    · subst hj; exact hfreed.context.trans hn.symm
    · refine (hfreed.others j hj).trans ((hothers j hj).trans ((acontext j).trans ?_))
      rw [if_neg (Ne.symm hj)]; rfl
  · by_cases hr : r = m.callRef
    · subst hr; exact (hc ▸ hfreed.ref).trans href.symm
    · refine (hfreed.refs r (hc ▸ hr)).trans ((hrefs r).trans ?_)
      rw [if_neg (Ne.symm hr)]
  · have key : ∀ x : ContextTable, x.inUse = s.ctx.inUse → x.peak = max s.ctx.peak (s.ctx.inUse + 1) →
        x.offer = (if s.ctx.offer = .held ∨ s.mgmt.params.highWater ≤ s.ctx.inUse + 1 then
          (if s.ctx.inUse ≤ s.mgmt.params.lowWater then .opened else .held) else .opened) →
        x.counters = { s.ctx.counters with setupsTaken := min (s.ctx.counters.setupsTaken + 1) 4294967295 } →
        x = { s.ctx with
          contexts := x.contexts, refMap := x.refMap, peak := max s.ctx.peak (s.ctx.inUse + 1)
          offer :=
            if s.ctx.offer = .held ∨ s.mgmt.params.highWater ≤ s.ctx.inUse + 1 then
              (if s.ctx.inUse ≤ s.mgmt.params.lowWater then .opened else .held)
            else .opened
          counters := { s.ctx.counters with setupsTaken := min (s.ctx.counters.setupsTaken + 1) 4294967295 } } := by
      rintro ⟨⟩ rfl rfl rfl rfl; rfl
    refine key _ ?_ (hfreed.peak.trans hpeak) ?_ (hcount.trans hcounters)
    · exact hfreed.inUse.trans (congrArg (· - 1) hUse)
    · refine hfreed.offer.trans ?_
      simp only [State.emitBwd_ctx, State.emitBwd_mgmt, hUse, hoffer, hm, Nat.add_sub_cancel]
      by_cases h1 : s.ctx.offer = .held ∨ s.mgmt.params.highWater ≤ s.ctx.inUse + 1
      · simp only [if_pos h1, true_and]
      · simp [if_neg h1]
  · have hresume : (u.emitBwd (.refuse m.callRef m.inCircuit cause)).resumeReport s.time.now =
        if (s.ctx.offer = .held ∨ s.holdReport s.time.now ≠ []) ∧ s.ctx.inUse ≤ s.mgmt.params.lowWater then
          [.notice s.time.now (.resumeOffer s.ctx.inUse s.mgmt.params.lowWater)] else [] := by
      simp only [State.resumeReport, State.emitBwd_ctx, State.emitBwd_mgmt, hUse, hoffer, hm, Nat.add_sub_cancel]
      cases hs : s.ctx.offer <;> simp [State.holdReport, hs]
    rw [State.refuseRouted, hout, hresume, State.emitBwd_bwdOut, ho, State.refusalRun]
    simp only [State.admitted, aout, List.append_assoc]
    rfl

/-- A Setup for which the match of R55 names no list is refused with No Route. -/
theorem route_refused {r : MatchResult} (hr : judgeMatch m.category (destMatch s.routes.dests m.number) = r)
    (hl : ∀ l, r ≠ .toList l) :
    s.route now i m = (s.withRoutes (s.routes.countMatch r)).refuseRouted now i m .noRoute := by
  simp only [State.route, hr]
  cases r with
  | toList l => exact absurd rfl (hl l)
  | unmatched | barred | classExcluded => rfl

/-- Settles O12: the three ways to find no route, and the one refusal they share. -/
theorem setupWithoutRouteIsRefused : Obligations.SetupWithoutRouteIsRefused := by
  unfold Obligations.SetupWithoutRouteIsRefused
  intro s f rest i hh m hdev href hi hn hlow h1 h20 cause routes hcase
  obtain ⟨r, hr, hl, hroutes, hcause⟩ : ∃ r, judgeMatch m.category (destMatch s.routes.dests m.number) = r
      ∧ (∀ l, r ≠ .toList l) ∧ routes = s.routes.countMatch r ∧ cause = .noRoute := by
    rcases hcase with ⟨hd, hc, hx⟩ | ⟨p, hd, hc, hx⟩ | ⟨p, l, mask, hd, hmask, hc, hx⟩
    · exact ⟨_, rfl, by simp [hd, judgeMatch], by rw [hd]; exact hx, hc⟩
    · exact ⟨_, rfl, by simp [hd, judgeMatch], by rw [hd]; exact hx, hc⟩
    · refine ⟨.classExcluded, by simp [hd, judgeMatch, hmask], by simp, hx, hc⟩
  subst hroutes hcause
  let s0 := s.took .forward rest
  have hfr := admitted_frame s0 i m
  have hroutes0 : (s0.admitted i m).routes = s.routes := hfr .routes (by decide)
  have e : exec .setup s =
      .next (((s0.admitted i m).withRoutes (s.routes.countMatch r)).refuseRouted s.time.now i m .noRoute) := by
    refine congrArg Host.Outcome.next ((takeKind_of hh).trans
      ((takeSetup_routed (s := s0) hdev href hi hn hlow h1 h20).trans ?_))
    refine (route_refused (r := r) (s := s0.admitted i m) (by rw [hroutes0]; exact hr) hl).trans ?_
    rw [hroutes0]; rfl
  have hcontext : (s0.admitted i m).context i = some (m.context s.time.now) := by
    have h := (allocate_of (now := s.time.now) s0.setupCounted i (m.context s.time.now)).1 i
    rw [if_pos rfl] at h; exact h
  obtain ⟨hrefused, hout, hlast⟩ := refuseRouted_of (s := s0) (u := (s0.admitted i m).withRoutes (s.routes.countMatch r)) hn href
    ((ContextSet.refl hcontext).congr rfl rfl) rfl (hfr .mgmt (by decide)) rfl .noRoute
  obtain ⟨htook, hall⟩ := took_forward ((hfr.mono (by decide)).trans (((withRoutes_frame _ _).mono (by decide)).trans
    (hlast.mono (more := [.ctx, .routes, .bwdOut]) (by decide)))) (by decide)
  obtain ⟨hcontexts, hrefs, hrest⟩ := hrefused
  exact ⟨_, e, htook, hlast .routes (by decide), ⟨hcontexts, hrefs, hrest⟩, hout, hall⟩

end Sys2Proof.Machine
end

