-- ==== Sys2Proof/Proofs/RestartEvent.lean ====
section
/-! SUPPORT and CERTIFICATE. A Restart, block by block (R179, R180). -/
namespace Sys2Proof.Machine

variable {s t : State} {f : Frame} {rest : List Frame} {g : Nat} {x : Group}

/-! ### The circuits of a group, all Idle (R52) -/

/-- The circuits of group `g` in circuit-number order, as they stand before a Restart. -/
theorem membersOf_idle (g : Nat) (t : Table Circuit) :
    membersOf g (idleCircuits t) =
      (t.filter fun e => decide (e.2.group = g)).map fun e => (e.1, { e.2 with cond := .idle }) := by
  simp only [membersOf, idleCircuits, Table.mapAll, List.filter_map, Function.comp_def]

theorem Circuit.cls_idle (c : Circuit) : ({ c with cond := .idle } : Circuit).cls =
    if c.remote || c.localBlock then .blocked else .free := rfl

theorem Circuit.cls_idle_free (c : Circuit) :
    decide (({ c with cond := .idle } : Circuit).cls = .free) = !(c.remote || c.localBlock) := by
  rw [Circuit.cls_idle]; cases c.remote || c.localBlock <;> rfl

/-- Idle circuits are Free or Blocked (R28). -/
theorem countClasses_idle (cs : List Circuit) :
    let free := cs.countP fun c => !(c.remote || c.localBlock)
    countClasses (cs.map fun c => { c with cond := .idle }) = ⟨free, cs.length - free, 0, 0, 0, 0⟩ := by
  induction cs with
  | nil => rfl
  | cons c cs ih =>
    have hle := List.countP_le_length (p := fun c : Circuit => !(c.remote || c.localBlock)) (l := cs)
    dsimp only at ih ⊢
    rw [List.map_cons, countClasses_cons, ih, Circuit.cls_idle, List.countP_cons, List.length_cons]
    generalize cs.countP (fun c => !(c.remote || c.localBlock)) = n at hle ⊢
    cases c.remote || c.localBlock <;> simp [Counts.upd]
    omega

/-- A group after a Restart, before the look of R46, in terms of the flags of its circuits (R52, R95). -/
theorem Group.restarted_eq (x : Group) (g : Nat) (t : Table Circuit) :
    let mine := t.filter fun e => decide (e.2.group = g)
    let free := (mine.filter fun e => !(e.2.remote || e.2.localBlock)).map (·.1)
    x.restarted (membersOf g (idleCircuits t)) = { x with
      counts := ⟨free.length, mine.length - free.length, 0, 0, 0, 0⟩, freeQueue := free, guardList := []
      mon := ⟨0, .clear, .normal, 0, .opened, none, ⟨0, 0, 0, 0, 0, 0, 0⟩⟩ } := by
  dsimp only
  rw [membersOf_idle]
  generalize t.filter (fun e => decide (e.2.group = g)) = mine
  have hcounts := countClasses_idle (mine.map (·.2))
  rw [List.map_map, List.countP_map, List.length_map, List.countP_eq_length_filter] at hcounts
  simp only [Group.restarted, Group.recount, List.map_map, List.filter_map, Function.comp_def, Circuit.cls_idle_free,
    List.length_map] at hcounts ⊢
  rw [hcounts]
  rfl

/-- After a Restart the look of R46 finds no circuit that holds the notice back. -/
theorem Group.restarted_drainDue (x : Group) (g : Nat) (t : Table Circuit) :
    (x.restarted (membersOf g (idleCircuits t))).drainDue = decide (x.admin = .draining ∧ x.drainedSent = false) := by
  rw [Group.restarted_eq]
  cases x.drainedSent <;> simp [Group.drainDue, Counts.draining]

/-! ### The blocks -/

theorem restart_group (s : State) (g : Nat) : Table.find g s.circ.restart.groups = (s.group g).map fun x =>
    let mine := s.circ.circuits.filter fun e => decide (e.2.group = g)
    let free := (mine.filter fun e => !(e.2.remote || e.2.localBlock)).map (·.1)
    { x with
      drainedSent := x.drainedSent || decide (x.admin = .draining)
      counts := ⟨free.length, mine.length - free.length, 0, 0, 0, 0⟩, freeQueue := free, guardList := []
      mon := ⟨0, .clear, .normal, 0, .opened, none, ⟨0, 0, 0, 0, 0, 0, 0⟩⟩ } := by
  simp only [CircuitMap.restart, Table.find_mapAll, Group.restarted_drainDue]
  refine congrArg (fun h => Option.map h (s.group g)) (funext fun x => ?_)
  rw [Group.restarted_eq]
  by_cases ha : x.admin = .draining <;> cases x.drainedSent <;> simp [ha]

theorem restart_notices (m : CircuitMap) : m.restartNotices = m.groups.flatMap fun e =>
    if e.2.admin = .draining ∧ e.2.drainedSent = false then [.groupDrained e.1] else [] := by
  simp only [CircuitMap.restartNotices, Group.restarted_drainDue, decide_eq_true_eq]

/-- The table lists no list that is as an unloaded one is; each list reads as its restart. -/
theorem restart_routeList (hw : Table.wf s.routes.lists = true) (l : Nat) :
    (Table.find l s.routes.restart.lists).getD RouteList.unloaded = (s.routeList l).restart := by
  simp only [RouteSelector.restart, Table.find_filter (Table.wf_mapAll _ hw), Table.find_mapAll, State.routeList]
  cases Table.find l s.routes.lists with
  | none => rfl
  | some y =>
    by_cases hy : y.restart = RouteList.unloaded <;> simp [Option.filter, hy]

/-- The restarted device before the notices leave. -/
def State.cleared (s : State) : State :=
  ((((s.withCtx s.ctx.restart).withCirc s.circ.restart).withRoutes s.routes.restart).withSettle
    s.settle.restart).setDevice .quiesced

theorem restart_eq (s : State) : s.restart = s.cleared.notifyAll s.time.now s.circ.restartNotices := rfl

theorem cleared_frame (s : State) : OnlyChanges [.ctx, .circ, .routes, .settle, .mgmt] s s.cleared := by
  intro p hp; cases p <;> simp at hp <;> rfl

theorem available_restart (h : s.mgmt.device ≠ .unconfigured) : available 0x03 s.mgmt.device = true := by
  cases hd : s.mgmt.device with
  | unconfigured => exact absurd hd h
  | inService | quiesced => rfl

/-- Settles O35: Busy while calls stand and force is not set, else every block by its reset rule. -/
theorem restartClearsCalls : Obligations.RestartClearsCalls := by
  unfold Obligations.RestartClearsCalls
  intro s f rest hreq hdev hw force standing
  have hcode : requestCode f = 0x03 := hreq.2.1
  let s0 := s.took .forward rest
  have e : exec .restart s = .next ((restartRequest (flagAt 0 (paramsOf f)) s0).send f) :=
    congrArg Host.Outcome.next (takeRequest_of hreq (available_restart hdev))
  refine ⟨fun hf hs => ?_, fun hdone => ?_⟩
  · have hbusy : restartRequest (flagAt 0 (paramsOf f)) s0 = Answer.refuse s0 .busy :=
      if_pos ⟨by simpa [flagAt, force] using hf, hs⟩
    rw [hbusy] at e
    obtain ⟨htook, hall⟩ := took_forward (t := (Answer.refuse s0 .busy).send f) (emitBwd_frame s0 _) (by decide)
    exact ⟨_, e, ⟨htook, rfl⟩, hall⟩
  · have hok : restartRequest (flagAt 0 (paramsOf f)) s0 = Answer.ok s0.restart s0.restartNumbers := by
      refine if_neg fun ⟨hf, hs⟩ => ?_
      rcases hdone with h | h
      · exact h (by simpa [flagAt] using hf)
      · exact h hs
    rw [hok, restart_eq] at e
    let reply := OutMsg.reply (kindByteOf f) (requestCode f) .done s0.restartNumbers
    have hn := notifyAll_frame s0.cleared s0.time.now s0.circ.restartNotices
    generalize hu : s0.cleared.notifyAll s0.time.now s0.circ.restartNotices = u at e hn
    obtain ⟨ns, hout, hperm⟩ := notifyAll_bwdOut s0.cleared s0.time.now s0.circ.restartNotices
    rw [hu] at hout
    obtain ⟨htook, hall⟩ := took_forward (t := u.emitBwd reply) (((cleared_frame s0).mono (by decide)).trans
      ((hn.mono (by decide)).trans ((emitBwd_frame u reply).mono
        (more := [.ctx, .circ, .routes, .settle, .mgmt, .bwdOut, .draws]) (by decide)))) (by decide)
    have hcirc : u.circ = s.circ.restart := hn .circ (by decide)
    have hroutes : u.routes = s.routes.restart := hn .routes (by decide)
    refine ⟨_, e, htook, hn .ctx (by decide), fun k => ?_, ?_, fun g => ?_, ?_, ?_, ?_, ?_, fun l => ?_,
      hn .settle (by decide), hn .mgmt (by decide), ⟨ns, ?_, ?_⟩, hall⟩
    · change Table.find k u.circ.circuits = _
      rw [hcirc]; exact find_idleCircuits _ _
    · change u.circ.counters = _
      rw [hcirc]; rfl
    · change Table.find g u.circ.groups = _
      rw [hcirc]; exact restart_group s g
    · change u.routes.dests = _
      rw [hroutes]; rfl
    · change u.routes.unmatched = _
      rw [hroutes]; rfl
    · change u.routes.barred = _
      rw [hroutes]; rfl
    · change u.routes.classExcluded = _
      rw [hroutes]; rfl
    · change (Table.find l u.routes.lists).getD RouteList.unloaded = _
      rw [hroutes]; exact restart_routeList hw l
    · rw [← hcode]
      exact congrArg (· ++ [reply]) hout
    · exact restart_notices s.circ ▸ hperm

end Sys2Proof.Machine
end

