-- ==== Sys2Proof/Proofs/ExamineRules.lean ====
section
/-! SUPPORT. The examination of one choice (R62 to R66): what each of its six checks reads, what its verdict is, and what it
leaves. -/
namespace Sys2Proof.Machine

variable {s t : State} {now : ExTime} {priority : Bool} {n slots : Nat} {ch : Choice} {x : Group} {q : Option Quote}
  {reason : Reason}

/-! ### The checks -/

theorem freeEnough_iff (n : Nat) (priority : Bool) (x : Group) : freeEnough n priority x = true ↔ x.spares n priority := by
  unfold freeEnough Group.spares; split <;> simp

theorem groupReason_unusable (h : ¬ x.usable) : groupReason n priority (some x) = some .unavailable := by
  unfold Group.usable at h
  simp only [groupReason]
  by_cases ha : x.admin = .inService
  · have hs : x.mon.health = .suspect ∧ x.mon.gate = .closed := by
      by_contra hs; exact h ⟨ha, hs⟩
    rw [if_neg (not_not.mpr ha), if_pos hs]
  · rw [if_pos ha]

theorem groupReason_usable (h : x.usable) : groupReason n priority (some x) =
    if n ≠ 0 ∧ priority = false ∧ x.mon.band = .critical then some .bandCritical
    else if freeEnough n priority x then none else some .noCircuit := by
  obtain ⟨h1, h2⟩ := h
  simp only [groupReason]
  rw [if_neg (not_not.mpr h1), if_neg h2]

theorem groupReason_busy (hu : x.usable) (hb : x.tooBusy n priority) :
    groupReason n priority (some x) = some .bandCritical := by
  have hb' : n ≠ 0 ∧ priority = false ∧ x.mon.band = .critical := hb
  rw [groupReason_usable hu, if_pos hb']

theorem groupReason_none (hu : x.usable) (hb : ¬ x.tooBusy n priority) (hf : x.spares n priority) :
    groupReason n priority (some x) = none := by
  have hb' : ¬ (n ≠ 0 ∧ priority = false ∧ x.mon.band = .critical) := hb
  rw [groupReason_usable hu, if_neg hb', if_pos ((freeEnough_iff n priority x).mpr hf)]

theorem groupReason_full (hu : x.usable) (hb : ¬ x.tooBusy n priority) (hf : ¬ x.spares n priority) :
    groupReason n priority (some x) = some .noCircuit := by
  have hb' : ¬ (n ≠ 0 ∧ priority = false ∧ x.mon.band = .critical) := hb
  rw [groupReason_usable hu, if_neg hb', if_neg (fun e => hf ((freeEnough_iff n priority x).mp e))]

theorem overCeiling_iff (ch : Choice) (priority : Bool) (rate : Nat) :
    overCeiling priority ch.ceiling rate = true ↔ ¬ ch.affords priority rate := by
  cases priority <;> simp [overCeiling, Choice.affords]

theorem slotFree_iff (priority : Bool) (x : SettlementQueue) : slotFree priority x = true ↔ x.slotSum < slotLimit priority := by
  cases priority <;> simp [slotFree, slotLimit, Config.slotMax, Config.slotMaxOrdinary]

/-- What the checks read is the group, the carriers and the slot sum. -/
theorem FailsBy.congr (h : FailsBy s now slots priority n ch reason) (hg : t.group ch.group = s.group ch.group)
    (hc : ∀ id, t.carrier id = s.carrier id) : FailsBy t now slots priority n ch reason := by
  cases reason <;> simp only [FailsBy, hg, hc] at h ⊢ <;> exact h

theorem Passes.congr (h : Passes s now slots priority n ch x q) (hg : t.group ch.group = s.group ch.group)
    (hc : ∀ id, t.carrier id = s.carrier id) : Passes t now slots priority n ch x q := by
  obtain ⟨h1, h2, h3, h4, h5⟩ := h
  exact ⟨hg.trans h1, h2, h3, h4, by simpa only [hc] using h5⟩

/-- Pricing reads the group and its carrier. -/
theorem priced_congr {g : Nat} (hg : t.group g = s.group g) (hc : ∀ id, t.carrier id = s.carrier id) (k : RatingCounters) :
    t.priced now g k = s.priced now g k := by simp only [State.priced, hg, hc]

/-! ### The counters of an examined group -/

/-- A group once choice `n` on it has been examined: an attempt, and the overflow of a primary without a circuit (R62,
R64). -/
def Group.examinedAs (x : Group) (n : Nat) (overflow : Prop) [Decidable overflow] : Group :=
  { x with mon := { x.mon with traffic := { x.mon.traffic with
    attempts := min (x.mon.traffic.attempts + 1) 4294967295
    overflows := if n = 0 ∧ overflow then min (x.mon.traffic.overflows + 1) 4294967295 else x.mon.traffic.overflows } } }

theorem Group.examinedAs_false (x : Group) (n : Nat) :
    x.examinedAs n False = { x with mon := { x.mon with traffic := x.mon.traffic.attempt } } := by
  simp only [Group.examinedAs, and_false, if_false]; rfl

/-- What an examination leaves: the counters of its group, and the Rating Unit's. -/
structure ExaminedOne (now : ExTime) (n g : Nat) (overflow quoted : Prop) [Decidable overflow] [Decidable quoted]
    (s t : State) : Prop where
  group : t.group g = (s.group g).map fun x => x.examinedAs n overflow
  others : ∀ h, h ≠ g → t.group h = s.group h
  circuits : ∀ k, t.circuit k = s.circuit k
  counters : t.circ.counters = s.circ.counters
  rating : t.rating = if quoted then s.priced now g s.rating else s.rating
  frame : OnlyChanges [.circ, .rating] s t

/-- The attempt (R62). -/
theorem attempt_examinedOne (s : State) (now : ExTime) (n g : Nat) :
    ExaminedOne now n g False False s (s.updTraffic g Traffic.attempt) where
  group := by
    simp only [Group.examinedAs_false]
    exact (State.updMonitor_group _ _ _ _).trans (if_pos rfl)
  others := fun _ hg => (State.updMonitor_group _ _ _ _).trans (if_neg (Ne.symm hg))
  circuits := fun _ => rfl
  counters := rfl
  rating := by simp
  frame := (updTraffic_frame _ _ _).mono (by decide)

/-- The attempt and the overflow of a primary without a circuit (R62, R64). -/
theorem overflow_examinedOne (s : State) (now : ExTime) (n g : Nat) :
    ExaminedOne now n g True False s
      (if n = 0 then (s.updTraffic g Traffic.attempt).updTraffic g Traffic.overflow else s.updTraffic g Traffic.attempt) := by
  obtain ⟨h1, h2, h3, h4, h5, h6⟩ := attempt_examinedOne s now n g
  by_cases hn : n = 0
  · subst hn
    rw [if_pos rfl]
    refine ⟨?_, fun j hj => ?_, h3, h4, h5, h6.trans ((updTraffic_frame _ _ _).mono (by decide))⟩
    · refine ((State.updMonitor_group _ _ _ _).trans (if_pos rfl)).trans ?_
      rw [h1]
      cases s.group g <;> simp [Group.examinedAs, Traffic.overflow, inc32, satAdd, Config.max32]
    · exact ((State.updMonitor_group _ _ _ _).trans (if_neg (Ne.symm hj))).trans (h2 j hj)
  · rw [if_neg hn]
    refine ⟨h1.trans ?_, h2, h3, h4, h5, h6⟩
    simp only [Group.examinedAs, hn, false_and, if_false]

/-- The quote of an examined handover choice (R125, R129). -/
theorem quoted_examinedOne {car : Carrier} (hx : s.group ch.group = some x) (ho : x.cfg.owner ≠ 0)
    (hc : s.carrier x.cfg.owner = some car) (n : Nat) :
    ExaminedOne now n ch.group False True s ((s.updTraffic ch.group Traffic.attempt).withRating
      (s.rating.quoted car.current (car.current.rawRate now.minute x.mon.band x.mon.s))) := by
  obtain ⟨h1, h2, h3, h4, -, h6⟩ := attempt_examinedOne s now n ch.group
  refine ⟨h1, h2, h3, h4, ?_, h6.trans ((withRating_frame _ _).mono (by decide))⟩
  simp only [if_true, State.priced, hx, ho, if_false, hc, State.withRating_rating, RatingCounters.quoted, not_lt]
  rfl

/-! ### The verdicts -/

theorem examine_groupReason (hr : groupReason n priority (s.group ch.group) = some reason) :
    s.examine now n priority ch =
      (if reason = .noCircuit ∧ n = 0 then (s.updTraffic ch.group Traffic.attempt).updTraffic ch.group Traffic.overflow
        else s.updTraffic ch.group Traffic.attempt, .fail reason) := by
  simp only [State.examine, hr]
  cases reason <;> simp

theorem examine_own (hx : s.group ch.group = some x) (hr : groupReason n priority (some x) = none) (ho : x.cfg.owner = 0) :
    s.examine now n priority ch = (s.updTraffic ch.group Traffic.attempt, .pass none) := by
  simp only [State.examine, hx, hr, ho, if_true]

/-- Checks 5 and 6 of a handover choice (R65, R66). -/
theorem examine_handover {car : Carrier} (hx : s.group ch.group = some x) (hr : groupReason n priority (some x) = none)
    (ho : x.cfg.owner ≠ 0) (hc : s.carrier x.cfg.owner = some car) :
    s.examine now n priority ch =
      ((s.updTraffic ch.group Traffic.attempt).withRating
        (s.rating.quoted car.current (car.current.rawRate now.minute x.mon.band x.mon.s)),
      if overCeiling priority ch.ceiling (car.quoteOn x now).rate then .fail .pricedOut
      else if slotFree priority s.settle then .pass (some (car.quoteOn x now)) else .fail .settlementFull) := by
  have hc' : (s.updTraffic ch.group Traffic.attempt).carrier x.cfg.owner = some car := hc
  have hq : car.quote x.cfg.owner x.mon now = car.quoteOn x now := rfl
  have hs : (s.updTraffic ch.group Traffic.attempt).settle = s.settle := rfl
  simp only [State.examine, hx, hr, ho, if_false, State.priceCheck, hc', hq, hs]
  split
  · rfl
  · split <;> rfl

/-- A choice that fails its checks (R62 to R66). -/
theorem examine_fails (h : FailsBy s now s.settle.slotSum priority n ch reason) :
    ∃ e, s.examine now n priority ch = (e, .fail reason)
      ∧ ExaminedOne now n ch.group (reason = .noCircuit) (reason.quoted = true) s e := by
  have plain : ∀ {r : Reason}, r ≠ .noCircuit → r.quoted = false →
      ExaminedOne now n ch.group (r = .noCircuit) (r.quoted = true) s (s.updTraffic ch.group Traffic.attempt) := by
    intro r h1 h2
    simpa only [h1, h2, Bool.false_eq_true] using attempt_examinedOne s now n ch.group
  cases reason with
  | unavailable =>
    have hr : groupReason n priority (s.group ch.group) = some .unavailable := by
      cases hx : s.group ch.group with
      | none => rfl
      | some x => exact groupReason_unusable (h x hx)
    exact ⟨_, examine_groupReason hr, plain (by simp) rfl⟩
  | bandCritical =>
    obtain ⟨x, hx, hu, hb⟩ := h
    have hr : groupReason n priority (s.group ch.group) = some .bandCritical := by
      rw [hx, groupReason_busy hu hb]
    exact ⟨_, examine_groupReason hr, plain (by simp) rfl⟩
  | noCircuit =>
    obtain ⟨x, hx, hu, hb, hf⟩ := h
    have hr : groupReason n priority (s.group ch.group) = some .noCircuit := by
      rw [hx, groupReason_full hu hb hf]
    refine ⟨_, examine_groupReason hr, ?_⟩
    have := overflow_examinedOne s now n ch.group
    simpa only [true_and, Reason.quoted, reduceCtorEq, or_self, decide_false, Bool.false_eq_true] using this
  | pricedOut =>
    obtain ⟨x, car, hx, hu, hb, hf, ho, hc, ha⟩ := h
    refine ⟨_, (examine_handover hx (groupReason_none hu hb hf) ho hc).trans (by rw [if_pos ((overCeiling_iff _ _ _).mpr ha)]), ?_⟩
    simpa [Reason.quoted] using quoted_examinedOne (now := now) hx ho hc n
  | settlementFull =>
    obtain ⟨x, car, hx, hu, hb, hf, ho, hc, ha, hs⟩ := h
    refine ⟨_, (examine_handover hx (groupReason_none hu hb hf) ho hc).trans
      (by
        rw [if_neg (fun e => (overCeiling_iff _ _ _).mp e ha), if_neg (fun e => Nat.not_lt.mpr hs ((slotFree_iff _ _).mp e))]), ?_⟩
    simpa [Reason.quoted] using quoted_examinedOne (now := now) hx ho hc n

/-- A choice that passes its checks (R63 to R66, R69). -/
theorem examine_passes (h : Passes s now s.settle.slotSum priority n ch x q) :
    ∃ e, s.examine now n priority ch = (e, .pass q) ∧ ExaminedOne now n ch.group False True s e := by
  obtain ⟨hx, hu, hb, hf, ⟨ho, rfl⟩ | ⟨ho, hs, car, hc, rfl, ha⟩⟩ := h
  · refine ⟨_, examine_own hx (groupReason_none hu hb hf) ho, ?_⟩
    obtain ⟨h1, h2, h3, h4, h5, h6⟩ := attempt_examinedOne s now n ch.group
    exact ⟨h1, h2, h3, h4, by simp [State.priced, hx, ho], h6⟩
  · exact ⟨_, (examine_handover hx (groupReason_none hu hb hf) ho hc).trans
      (by rw [if_neg (fun e => (overCeiling_iff _ _ _).mp e ha), if_pos ((slotFree_iff _ _).mpr hs)]), quoted_examinedOne hx ho hc n⟩

end Sys2Proof.Machine
end

