-- ==== Sys2Proof/Proofs/PassOrder.lean ====
section
/-! SUPPORT. Which choices a selection pass examines, and in which order (R62, R71): the ones on untried groups, the alternates
among them within the budget. -/
namespace Sys2Proof.Machine

variable {tried tried' : List Nat} {budget e n : Nat} {ps zs alts before rest : List (Choice × Nat)} {p : Choice × Nat}

/-! ### The choices that a pass examines -/

/-- Of the choices still in the order of a pass, the ones that it would examine with these groups tried and `e` alternates
examined before. -/
def eligible (tried : List Nat) (budget : Nat) : Nat → List (Choice × Nat) → List (Choice × Nat)
  | _, [] => []
  | e, p :: ps =>
    if p.1.group ∈ tried ∨ (p.2 ≠ 0 ∧ budget ≤ e) then eligible tried budget e ps
    else p :: eligible tried budget (if p.2 = 0 then e else e + 1) ps

theorem eligible_skip (h : p.1.group ∈ tried ∨ (p.2 ≠ 0 ∧ budget ≤ e)) :
    eligible tried budget e (p :: ps) = eligible tried budget e ps := if_pos h

theorem eligible_take (h : ¬ (p.1.group ∈ tried ∨ (p.2 ≠ 0 ∧ budget ≤ e))) :
    eligible tried budget e (p :: ps) = p :: eligible tried budget (if p.2 = 0 then e else e + 1) ps := if_neg h

/-- Which groups are tried matters only for the groups in the order. -/
theorem eligible_congr (h : ∀ p ∈ ps, p.1.group ∈ tried ↔ p.1.group ∈ tried') (e : Nat) :
    eligible tried budget e ps = eligible tried' budget e ps := by
  induction ps generalizing e with
  | nil => rfl
  | cons p ps ih =>
    have ih' := fun e => ih (fun q hq => h q (List.mem_cons_of_mem _ hq)) e
    simp only [eligible, h p (by simp), ih']

/-- Among the alternates the first ones within the budget. -/
theorem eligible_alternates (ha : ∀ p ∈ alts, p.2 ≠ 0) (e : Nat) :
    eligible tried budget e alts = (alts.filter fun p => decide (p.1.group ∉ tried)).take (budget - e) := by
  induction alts generalizing e with
  | nil => simp [eligible]
  | cons p alts ih =>
    have ih' := fun e => ih (fun q hq => ha q (List.mem_cons_of_mem _ hq)) e
    have hp : p.2 ≠ 0 := ha p (by simp)
    by_cases ht : p.1.group ∈ tried
    · rw [eligible_skip (.inl ht), ih', List.filter_cons_of_neg (by simpa using ht)]
    · rw [List.filter_cons_of_pos (by simpa using ht)]
      by_cases hb : budget ≤ e
      · rw [eligible_skip (.inr ⟨hp, hb⟩), ih', Nat.sub_eq_zero_of_le hb, List.take_zero, List.take_zero]
      · rw [eligible_take (by simp [ht, hp, Nat.lt_of_not_le hb]), if_neg hp, ih',
          show budget - e = (budget - (e + 1)) + 1 by omega, List.take_succ_cons]

/-- The primary if it is untried, then the untried alternates within the budget. -/
theorem eligible_primary (hz : ∀ p ∈ zs, p.2 = 0) (ha : ∀ p ∈ alts, p.2 ≠ 0) (e : Nat) :
    eligible tried budget e (zs ++ alts) = (zs.filter fun p => decide (p.1.group ∉ tried)) ++
      (alts.filter fun p => decide (p.1.group ∉ tried)).take (budget - e) := by
  induction zs with
  | nil => exact eligible_alternates ha e
  | cons p zs ih =>
    have ih' := ih fun q hq => hz q (List.mem_cons_of_mem _ hq)
    have hp : p.2 = 0 := hz p (by simp)
    rw [List.cons_append]
    by_cases ht : p.1.group ∈ tried
    · rw [eligible_skip (.inl ht), ih', List.filter_cons_of_neg (by simpa using ht)]
    · rw [eligible_take (by simp [ht, hp]), if_pos hp, ih', List.filter_cons_of_pos (by simpa using ht), List.cons_append]

/-! ### The order of a list -/

/-- The choices at these indexes, with their indexes. -/
def choicesAt (choices : List Choice) (ks : List Nat) : List (Choice × Nat) :=
  ks.filterMap fun k => choices[k]?.map fun ch => (ch, k)

theorem choicesAt_append (choices : List Choice) (ks ls : List Nat) :
    choicesAt choices (ks ++ ls) = choicesAt choices ks ++ choicesAt choices ls := List.filterMap_append

theorem choicesAt_of_lt {choices : List Choice} {ks : List Nat} (h : ∀ k ∈ ks, k < choices.length) :
    (choicesAt choices ks).map some = ks.map fun k => choices[k]?.map fun ch => (ch, k) := by
  induction ks with
  | nil => rfl
  | cons k ks ih =>
    have hk : k < choices.length := h k (by simp)
    have ih' := ih fun j hj => h j (List.mem_cons_of_mem _ hj)
    simp only [choicesAt] at ih' ⊢
    rw [List.filterMap_cons]
    simp [hk, ih']

/-- The choices at a run of indexes are that run of the choices. -/
theorem choicesAt_zipIdx {choices : List Choice} {ks : List Nat} {l : List (Choice × Nat)}
    (hk : ∀ k ∈ ks, k < choices.length) (hl : ks.map (fun k => choices[k]?.map fun ch => (ch, k)) = l.map some) :
    choicesAt choices ks = l := by
  have := (choicesAt_of_lt hk).trans hl
  exact (List.map_injective_iff.mpr (Option.some_injective _)) this

theorem zipIdx_some (choices : List Choice) :
    (List.range choices.length).map (fun k => choices[k]?.map fun ch => (ch, k)) = choices.zipIdx.map some := by
  refine List.ext_getElem (by simp) fun k h1 h2 => ?_
  have hk : k < choices.length := by simpa using h1
  simp [hk]

theorem choicesAt_drop_range (choices : List Choice) (j : Nat) :
    choicesAt choices ((List.range choices.length).drop j) = choices.zipIdx.drop j := by
  refine choicesAt_zipIdx (fun k hk => List.mem_range.mp (List.mem_of_mem_drop hk)) ?_
  rw [List.map_drop, List.map_drop, zipIdx_some]

theorem choicesAt_take_drop_range (choices : List Choice) (i j : Nat) :
    choicesAt choices (((List.range choices.length).take i).drop j) = (choices.zipIdx.take i).drop j := by
  refine choicesAt_zipIdx (fun k hk => List.mem_range.mp (List.mem_of_mem_take (List.mem_of_mem_drop hk))) ?_
  rw [List.map_drop, List.map_take, List.map_drop, List.map_take, zipIdx_some]

/-- The order of a pass is the one of R62, where the pointer is at an alternate; a pointer at the primary would name it
twice. -/
theorem choicesAt_passOrder (r : RouteList) : choicesAt r.choices (passOrder r.choices.length r.pointer) =
    (if r.pointer = 0 then r.choices.zipIdx.take 1 else []) ++ r.inTurn := by
  cases hc : r.choices with
  | nil => simp [RouteList.inTurn, hc, choicesAt]
  | cons a as =>
    have hzero : choicesAt (a :: as) [0] = (a :: as).zipIdx.take 1 := rfl
    have horder : passOrder (a :: as).length r.pointer =
        [0] ++ ((List.range (a :: as).length).drop r.pointer ++ ((List.range (a :: as).length).take r.pointer).drop 1) := rfl
    rw [horder, choicesAt_append, choicesAt_append, choicesAt_drop_range, choicesAt_take_drop_range, hzero, RouteList.inTurn, hc]
    by_cases hp : r.pointer = 0
    · simp [hp]
    · obtain ⟨j, hj⟩ := Nat.exists_eq_succ_of_ne_zero hp
      rw [if_neg hp, hj, List.nil_append, Nat.succ_sub_one, List.drop_drop, List.append_assoc, Nat.add_comm 1 j,
        List.drop_take]
      rfl

/-- The order of R62: the primary, if any, and then alternates. -/
theorem RouteList.inTurn_split (r : RouteList) : ∃ alts, r.inTurn = r.choices.zipIdx.take 1 ++ alts
    ∧ (∀ p ∈ r.choices.zipIdx.take 1, p.2 = 0) ∧ (∀ p ∈ alts, p.2 ≠ 0) := by
  refine ⟨(r.choices.zipIdx.drop 1).drop (r.pointer - 1) ++ (r.choices.zipIdx.drop 1).take (r.pointer - 1),
    by rw [RouteList.inTurn, List.append_assoc], fun p hp => ?_, fun p hp => ?_⟩
  · cases hc : r.choices <;> simp [hc] at hp
    simp [hp]
  · have hmem : p ∈ r.choices.zipIdx.drop 1 := by
      rcases List.mem_append.mp hp with h | h
      · exact List.mem_of_mem_drop h
      · exact List.mem_of_mem_take h
    cases hc : r.choices with
    | nil => simp [hc] at hmem
    | cons a as =>
      rw [hc, List.zipIdx_cons, List.drop_succ_cons, List.drop_zero] at hmem
      have := List.le_snd_of_mem_zipIdx hmem
      omega

theorem RouteList.inTurn_perm (r : RouteList) : r.inTurn.Perm r.choices.zipIdx := by
  unfold RouteList.inTurn
  rw [List.append_assoc]
  refine ((List.perm_append_comm (l₁ := (r.choices.zipIdx.drop 1).drop (r.pointer - 1))).append_left _).trans ?_
  rw [List.take_append_drop, List.take_append_drop]

theorem RouteList.inTurn_groups (r : RouteList) (h : (r.choices.map (·.group)).Nodup) :
    (r.inTurn.map (·.1.group)).Nodup := by
  have : (r.choices.zipIdx.map (·.1.group)) = r.choices.map (·.group) := by
    rw [← Function.comp_def (fun c : Choice => c.group) Prod.fst, ← List.map_map, List.zipIdx_map_fst]
  exact ((r.inTurn_perm.map _).nodup_iff).mpr (this ▸ h)

/-- The first choice of a pass does not depend on where the pointer is; all of them follow R62 where it is at an alternate. -/
theorem eligible_passOrder {r : RouteList} (hlaw : before ≠ [] → r.choiceLaw)
    (h : eligible tried budget e r.inTurn = before ++ rest) :
    ∃ rest', eligible tried budget e (choicesAt r.choices (passOrder r.choices.length r.pointer)) = before ++ rest'
      ∧ rest'.head? = rest.head? := by
  by_cases hp : r.pointer = 0
  · have hb : before = [] := by
      by_contra hb
      have := (hlaw hb).2.2.2.1
      omega
    subst hb
    obtain ⟨alts, hin, hz, -⟩ := r.inTurn_split
    refine ⟨_, rfl, ?_⟩
    rw [choicesAt_passOrder, if_pos hp]
    have hrest : rest = eligible tried budget e r.inTurn := h.symm
    rw [hrest, hin]
    cases hzs : r.choices.zipIdx.take 1 with
    | nil => rfl
    | cons z zs =>
      have h0 : z.2 = 0 := hz z (by simp [hzs])
      by_cases ht : z.1.group ∈ tried
      · have hlen : zs = [] := by
          have := List.length_take_le 1 r.choices.zipIdx
          rw [hzs] at this
          exact List.length_eq_zero_iff.mp (by simpa using this)
        subst hlen
        rw [List.singleton_append, List.singleton_append, eligible_skip (.inl ht)]
      · rw [List.cons_append, List.cons_append, eligible_take (by simp [ht, h0]), eligible_take (by simp [ht, h0])]
        rfl
  · exact ⟨rest, by rw [choicesAt_passOrder, if_neg hp]; exact h, rfl⟩

end Sys2Proof.Machine
end

