-- ==== Sys2Proof/Proofs/PassRules.lean ====
section
/-! SUPPORT. What a selection pass leaves: after the choices that it has examined in vain (R67), and after the one on which it
seizes (R68). -/
namespace Sys2Proof.Machine

variable {s t u : State} {i l n k : Nat} {c cc : Context} {now : ExTime} {ch : Choice} {x : Group} {q : Option Quote}
  {r : Circuit} {ps done before : List (Choice × Nat)} {p : Choice × Nat} {reason : Nat → Reason} {rs : List Reason}

/-! ### The tried set (R1) -/

theorem Context.afterTrying_eq (c : Context) (gs : List Nat) : c.afterTrying gs = gs.foldl Context.addTried c := by
  refine congrArg (fun f => gs.foldl f c) (funext fun c => funext fun g => ?_)
  unfold Context.addTried Config.triedMax
  split
  · rfl
  · split <;> split <;> first | rfl | omega

theorem Context.afterTrying_concat (c : Context) (gs : List Nat) (g : Nat) :
    c.afterTrying (gs ++ [g]) = (c.afterTrying gs).addTried g := by
  simp only [Context.afterTrying_eq, List.foldl_append, List.foldl_cons, List.foldl_nil]

theorem Context.afterTrying_cons (c : Context) (g : Nat) (gs : List Nat) :
    c.afterTrying (g :: gs) = (c.addTried g).afterTrying gs := by simp only [Context.afterTrying_eq, List.foldl_cons]

/-- A change of other fields than the tried set and the mark goes past them. -/
theorem Context.addTried_comm {f : Context → Context}
    (hf : ∀ c t b, f { c with tried := t, noFurther := b } = { f c with tried := t, noFurther := b }) (c : Context) (g : Nat) :
    (f c).addTried g = f (c.addTried g) := by
  have he : f c = { f c with tried := c.tried, noFurther := c.noFurther } := hf c c.tried c.noFurther
  have ht : (f c).tried = c.tried := (congrArg Context.tried he).trans rfl
  have hn : (f c).noFurther = c.noFurther := (congrArg Context.noFurther he).trans rfl
  unfold Context.addTried
  rw [ht]
  split
  · rfl
  · split
    · exact (hf c c.tried true).symm
    · exact (congrArg (fun b => { f c with tried := c.tried ++ [g], noFurther := b }) hn).trans
        (hf c (c.tried ++ [g]) c.noFurther).symm

theorem Context.afterTrying_comm {f : Context → Context}
    (hf : ∀ c t b, f { c with tried := t, noFurther := b } = { f c with tried := t, noFurther := b }) (c : Context)
    (gs : List Nat) : (f c).afterTrying gs = f (c.afterTrying gs) := by
  induction gs generalizing c with
  | nil => rfl
  | cons g gs ih => rw [Context.afterTrying_cons, Context.afterTrying_cons, Context.addTried_comm hf, ih]

theorem Context.mem_addTried_of_ne (c : Context) {g h : Nat} (hne : h ≠ g) : h ∈ (c.addTried g).tried ↔ h ∈ c.tried := by
  unfold Context.addTried
  split
  · rfl
  · split
    · rfl
    · simp [hne]

theorem Context.addTried_examined (c : Context) (g : Nat) : (c.addTried g).examined = c.examined := by
  unfold Context.addTried; split
  · rfl
  · split <;> rfl

theorem Context.addTried_priority (c : Context) (g : Nat) : (c.addTried g).priority = c.priority := by
  unfold Context.addTried; split
  · rfl
  · split <;> rfl

/-! ### Skipped choices -/

theorem choicesAt_cons_none {choices : List Choice} {ks : List Nat} (h : choices[k]? = none) :
    choicesAt choices (k :: ks) = choicesAt choices ks := by
  rw [choicesAt, List.filterMap_cons_none]
  · rfl
  · rw [h]; rfl

theorem choicesAt_cons_some {choices : List Choice} {ks : List Nat} (h : choices[k]? = some ch) :
    choicesAt choices (k :: ks) = (ch, k) :: choicesAt choices ks := by
  rw [choicesAt, List.filterMap_cons_some (b := (ch, k))]
  · rfl
  · rw [h]; rfl

theorem passLoop_absent (h : (t.routeList l).choices[k]? = none) (ks : List Nat) :
    passLoop now i l (k :: ks) rs t = passLoop now i l ks rs t := by
  simp only [passLoop, h]
  cases t.context i <;> rfl

theorem passLoop_skip (hc : t.context i = some cc) (hk : (t.routeList l).choices[k]? = some ch)
    (hs : ch.group ∈ cc.tried ∨ (k ≠ 0 ∧ (t.routeList l).budget ≤ cc.examined)) (ks : List Nat) :
    passLoop now i l (k :: ks) rs t = passLoop now i l ks rs t := by
  simp only [passLoop, hc, hk]
  rcases hs with h | h
  · rw [if_pos h]
  · rw [if_pos h, ite_self]

/-- A pass that may examine nothing more has failed. -/
theorem passLoop_spent (hc : t.context i = some cc) {ks : List Nat}
    (h : eligible cc.tried (t.routeList l).budget cc.examined (choicesAt (t.routeList l).choices ks) = []) :
    passLoop now i l ks rs t = (t, .failed rs) := by
  induction ks with
  | nil => rfl
  | cons k ks ih =>
    cases hk : (t.routeList l).choices[k]? with
    | none => rw [choicesAt_cons_none hk] at h; rw [passLoop_absent hk]; exact ih h
    | some ch =>
      rw [choicesAt_cons_some hk] at h
      by_cases hs : ch.group ∈ cc.tried ∨ (k ≠ 0 ∧ (t.routeList l).budget ≤ cc.examined)
      · rw [eligible_skip hs] at h; rw [passLoop_skip hc hk hs]; exact ih h
      · rw [eligible_take hs] at h; simp at h

/-- A pass goes to the next choice that it may examine. -/
theorem passLoop_next (hc : t.context i = some cc) {ks : List Nat} {more : List (Choice × Nat)}
    (h : eligible cc.tried (t.routeList l).budget cc.examined (choicesAt (t.routeList l).choices ks) = p :: more) :
    ∃ ks', passLoop now i l ks rs t = passLoop now i l (p.2 :: ks') rs t ∧ (t.routeList l).choices[p.2]? = some p.1
      ∧ ¬ (p.1.group ∈ cc.tried ∨ (p.2 ≠ 0 ∧ (t.routeList l).budget ≤ cc.examined))
      ∧ eligible cc.tried (t.routeList l).budget (if p.2 = 0 then cc.examined else cc.examined + 1)
          (choicesAt (t.routeList l).choices ks') = more
      ∧ (p :: choicesAt (t.routeList l).choices ks') <:+ choicesAt (t.routeList l).choices ks := by
  induction ks with
  | nil => simp [choicesAt, eligible] at h
  | cons k ks ih =>
    cases hk : (t.routeList l).choices[k]? with
    | none =>
      rw [choicesAt_cons_none hk] at h ⊢
      rw [passLoop_absent hk]
      exact ih h
    | some ch =>
      rw [choicesAt_cons_some hk] at h ⊢
      by_cases hs : ch.group ∈ cc.tried ∨ (k ≠ 0 ∧ (t.routeList l).budget ≤ cc.examined)
      · rw [eligible_skip hs] at h
        rw [passLoop_skip hc hk hs]
        obtain ⟨ks', h1, h2, h3, h4, h5⟩ := ih h
        exact ⟨ks', h1, h2, h3, h4, h5.trans (List.suffix_cons _ _)⟩
      · rw [eligible_take hs] at h
        obtain ⟨rfl, hrest⟩ := List.cons.inj h
        exact ⟨ks, rfl, hk, hs, hrest, List.suffix_refl _⟩

/-! ### A choice that fails (R67) -/

/-- The context when choice `n` is examined: an alternate counts against the budget (R62). -/
def Context.examining (c : Context) (n : Nat) : Context :=
  { c with examined := if n = 0 then c.examined else c.examined + 1 }

/-- The device when the pass turns to choice `n`. -/
def State.turnedTo (s : State) (i n : Nat) : State :=
  if n = 0 then s else s.updContext i fun x => { x with examined := x.examined + 1 }

theorem turnedTo_set (hc : s.context i = some c) (n : Nat) : ContextSet i (c.examining n) s (s.turnedTo i n) := by
  by_cases hn : n = 0
  · simp only [State.turnedTo, Context.examining, if_pos hn]; exact ContextSet.refl hc
  · simp only [State.turnedTo, Context.examining, if_neg hn]; exact updContext_set hc _

theorem turnedTo_frame (s : State) (i n : Nat) : OnlyChanges [.ctx] s (s.turnedTo i n) := by
  unfold State.turnedTo; split
  · exact .refl _ _
  · exact updContext_frame _ _ _

/-- What one choice that fails leaves. -/
structure FailedOne (now : ExTime) (i l : Nat) (c : Context) (ch : Choice) (n : Nat) (reason : Reason) (s t : State) : Prop where
  context : ContextSet i ((c.examining n).addTried ch.group) s t
  group : t.group ch.group = (s.group ch.group).map fun x => x.examinedAs n (reason = .noCircuit)
  others : ∀ h, h ≠ ch.group → t.group h = s.group h
  circuits : ∀ k, t.circuit k = s.circuit k
  counters : t.circ.counters = s.circ.counters
  list : t.routeList l = { s.routeList l with
    pointer := if n = 0 then (s.routeList l).pointer else afterAlternate (s.routeList l).choices.length n }
  lists : ∀ j, j ≠ l → t.routeList j = s.routeList j
  routing : t.routes = { s.routes with lists := t.routes.lists }
  rating : t.rating = if reason.quoted = true then s.priced now ch.group s.rating else s.rating
  frame : OnlyChanges [.ctx, .circ, .routes, .rating] s t

theorem choiceFailed_of (hc : s.context i = some c) (l n g : Nat) :
    let t := s.choiceFailed i l n g
    ContextSet i (c.addTried g) s t
      ∧ t.routeList l = { s.routeList l with
          pointer := if n = 0 then (s.routeList l).pointer else afterAlternate (s.routeList l).choices.length n }
      ∧ (∀ j, j ≠ l → t.routeList j = s.routeList j) ∧ t.routes = { s.routes with lists := t.routes.lists } := by
  have hset := updContext_set hc fun c => c.addTried g
  by_cases hn : n = 0
  · simp only [State.choiceFailed, if_pos hn]
    exact ⟨hset, rfl, fun _ _ => rfl, rfl⟩
  · simp only [State.choiceFailed, if_neg hn]
    refine ⟨hset.congr rfl rfl, ?_, fun j hj => ?_, rfl⟩
    · rw [State.updList_routeList, if_pos rfl]; rfl
    · rw [State.updList_routeList, if_neg (Ne.symm hj)]; rfl

/-- The pass examines a choice in vain. -/
theorem passLoop_fail {rn : Reason} (hc : t.context i = some cc) (hk : (t.routeList l).choices[n]? = some ch)
    (hs : ¬ (ch.group ∈ cc.tried ∨ (n ≠ 0 ∧ (t.routeList l).budget ≤ cc.examined)))
    (hf : FailsBy t now t.settle.slotSum cc.priority n ch rn) (ks : List Nat) :
    ∃ t', passLoop now i l (n :: ks) rs t = passLoop now i l ks (rs ++ [rn]) t' ∧ FailedOne now i l cc ch n rn t t' := by
  have h1 := turnedTo_frame t i n
  have hset := turnedTo_set hc n
  have hcar : ∀ id, (t.turnedTo i n).carrier id = t.carrier id := h1.carrier_eq (by decide)
  have hgrp : ∀ g, (t.turnedTo i n).group g = t.group g := h1.group_eq (by decide)
  have hslots : (t.turnedTo i n).settle = t.settle := h1 .settle (by decide)
  obtain ⟨e, he, hex⟩ := examine_fails (s := t.turnedTo i n) (by rw [hslots]; exact hf.congr (hgrp _) hcar)
  have hce : e.context i = some (cc.examining n) := (hex.frame.context_eq (by decide) i).trans hset.1
  have hfail := choiceFailed_frame e i l n ch.group
  obtain ⟨hset', hlist, hlists, hrouting⟩ := choiceFailed_of hce l n ch.group
  have hrl : ∀ j, e.routeList j = t.routeList j := fun j =>
    (hex.frame.routeList_eq (by decide) j).trans (h1.routeList_eq (by decide) j)
  have hroutes : e.routes = t.routes := (hex.frame .routes (by decide)).trans (h1 .routes (by decide))
  simp only [hrl] at hlist hlists
  rw [hroutes] at hrouting
  refine ⟨e.choiceFailed i l n ch.group, ?_, ?_⟩
  · have hloop : passLoop now i l (n :: ks) rs t =
        match (t.turnedTo i n).examine now n cc.priority ch with
        | (s2, .fail r) => passLoop now i l ks (rs ++ [r]) (s2.choiceFailed i l n ch.group)
        | (s2, .pass q) =>
          match (s2.group ch.group).bind Group.hunt with
          | some circuit => (s2.seizeCircuit now i l n ch.group circuit q, .seized ch.group circuit)
          | none => passLoop now i l ks (rs ++ [.noCircuit]) (s2.choiceFailed i l n ch.group) := by
      rw [not_or] at hs
      simp only [passLoop, hc, hk, if_neg hs.1, if_neg hs.2]; rfl
    rw [hloop, he]
  · refine ⟨hset.trans (hset'.congr (hex.frame .ctx (by decide)).symm rfl), ?_, fun h hh => ?_, fun j => ?_, ?_, hlist, hlists,
      hrouting, ?_, ?_⟩
    · exact (hfail.group_eq (by decide) _).trans (hex.group.trans (by rw [hgrp]))
    · exact (hfail.group_eq (by decide) _).trans ((hex.others h hh).trans (hgrp h))
    · exact (hfail.circuit_eq (by decide) j).trans ((hex.circuits j).trans (h1.circuit_eq (by decide) j))
    · have h2 : (e.choiceFailed i l n ch.group).circ = e.circ := hfail .circ (by decide)
      have h3 : (t.turnedTo i n).circ = t.circ := h1 .circ (by decide)
      rw [h2, hex.counters, h3]
    · have h2 : (e.choiceFailed i l n ch.group).rating = e.rating := hfail .rating (by decide)
      have h3 : (t.turnedTo i n).rating = t.rating := h1 .rating (by decide)
      rw [h2, hex.rating, h3, priced_congr (hgrp _) hcar]
    · exact (h1.mono (by decide)).trans ((hex.frame.mono (by decide)).trans (hfail.mono (by decide)))

/-! ### The choices examined in vain -/

/-- What the choices examined in vain have left since the start of the pass. -/
structure Examined (now : ExTime) (i l : Nat) (c : Context) (done : List (Choice × Nat)) (reason : Nat → Reason)
    (s t : State) : Prop where
  context : ContextSet i { c.afterTrying (done.map (·.1.group)) with examined := c.examined + alternatesOf done } s t
  groups : ∀ g, t.group g = s.afterFailures done reason g
  circuits : ∀ k, t.circuit k = s.circuit k
  counters : t.circ.counters = s.circ.counters
  list : t.routeList l = { s.routeList l with pointer := (s.routeList l).pointerPast done }
  lists : ∀ j, j ≠ l → t.routeList j = s.routeList j
  routing : t.routes = { s.routes with lists := t.routes.lists }
  rating : t.rating = s.afterQuotes now (done.filter fun p => (reason p.2).quoted)
  frame : OnlyChanges [.ctx, .circ, .routes, .rating] s t

theorem afterFailures_of_notMem {g : Nat} (h : g ∉ done.map (·.1.group)) : s.afterFailures done reason g = s.group g := by
  simp only [State.afterFailures, if_neg h]; exact Option.map_id'

theorem Examined.nil (hc : s.context i = some c) : Examined now i l c [] reason s s where
  context := ContextSet.refl hc
  groups := fun g => (afterFailures_of_notMem (by simp)).symm
  circuits := fun _ => rfl
  counters := rfl
  list := rfl
  lists := fun _ _ => rfl
  routing := rfl
  rating := rfl
  frame := .refl _ _

theorem Examined.group_of_notMem {g : Nat} (h : Examined now i l c done reason s t) (hg : g ∉ done.map (·.1.group)) :
    t.group g = s.group g := (h.groups g).trans (afterFailures_of_notMem hg)

theorem pointerPast_concat (r : RouteList) (done : List (Choice × Nat)) (ch : Choice) (n : Nat) :
    r.pointerPast (done ++ [(ch, n)]) = if n = 0 then r.pointerPast done else afterAlternate r.choices.length n := by
  by_cases hn : n = 0
  · simp [RouteList.pointerPast, hn]
  · simp [RouteList.pointerPast, hn, afterAlternate]

theorem alternatesOf_concat (done : List (Choice × Nat)) (ch : Choice) (n : Nat) :
    alternatesOf (done ++ [(ch, n)]) = if n = 0 then alternatesOf done else alternatesOf done + 1 := by
  by_cases hn : n = 0 <;> simp [alternatesOf, hn]

theorem afterFailures_concat (hg : ch.group ∉ done.map (·.1.group)) (g : Nat) :
    s.afterFailures (done ++ [(ch, n)]) reason g =
      if g = ch.group then (s.group g).map fun x => x.examinedAs n (reason n = .noCircuit)
      else s.afterFailures done reason g := by
  by_cases h : g = ch.group
  · subst h
    have hpair : (ch.group, 0) ∉ done.map fun p => (p.1.group, p.2) := fun hm => by
      obtain ⟨p, hp, e⟩ := List.mem_map.mp hm
      exact hg (List.mem_map.mpr ⟨p, hp, congrArg Prod.fst e⟩)
    rw [if_pos rfl]
    simp only [State.afterFailures, List.map_append, List.map_cons, List.map_nil, List.mem_append, List.mem_singleton, or_true,
      if_true, hpair, false_or, Prod.mk.injEq, true_and, Group.examinedAs]
    refine congrArg (fun f => Option.map f (s.group ch.group)) (funext fun x => ?_)
    by_cases hn : n = 0
    · subst hn; simp
    · simp [hn, Ne.symm hn]
  · rw [if_neg h]
    simp only [State.afterFailures, List.map_append, List.map_cons, List.map_nil, List.mem_append, List.mem_singleton, h,
      or_false, Prod.mk.injEq, false_and]

/-- One more choice fails. -/
theorem Examined.fail (h : Examined now i l c done reason s t)
    (hf : FailedOne now i l { c.afterTrying (done.map (·.1.group)) with examined := c.examined + alternatesOf done } ch n
      (reason n) t u) (hg : ch.group ∉ done.map (·.1.group)) :
    Examined now i l c (done ++ [(ch, n)]) reason s u where
  context := by
    have := h.context.trans hf.context
    rw [List.map_append, List.map_cons, List.map_nil, Context.afterTrying_concat, alternatesOf_concat]
    have he : c.examined + (if n = 0 then alternatesOf done else alternatesOf done + 1) =
        if n = 0 then c.examined + alternatesOf done else c.examined + alternatesOf done + 1 := by split <;> rfl
    rw [he]
    refine Eq.mp (congrArg (fun d => ContextSet i d s u) ?_) this
    exact Context.addTried_comm (f := fun d : Context => { d with
      examined := if n = 0 then c.examined + alternatesOf done else c.examined + alternatesOf done + 1 }) (fun _ _ _ => rfl)
      (c.afterTrying (done.map (·.1.group))) ch.group
  groups := fun g => by
    rw [afterFailures_concat hg]
    by_cases e : g = ch.group
    · subst e; rw [if_pos rfl, hf.group, h.group_of_notMem hg]
    · rw [if_neg e, hf.others g e, h.groups]
  circuits := fun k => (hf.circuits k).trans (h.circuits k)
  counters := hf.counters.trans h.counters
  list := by rw [hf.list, h.list, pointerPast_concat]
  lists := fun j hj => (hf.lists j hj).trans (h.lists j hj)
  routing := by rw [hf.routing, h.routing]
  rating := by
    rw [hf.rating, h.rating, priced_congr (h.group_of_notMem hg) (h.frame.carrier_eq (by decide)), List.filter_append]
    by_cases hq : (reason n).quoted = true
    · simp [hq, State.afterQuotes, List.foldl_append]
    · simp [hq]
  frame := h.frame.trans hf.frame

theorem Examined.choices (h : Examined now i l c done reason s t) : (t.routeList l).choices = (s.routeList l).choices := by
  rw [h.list]

theorem Examined.budget (h : Examined now i l c done reason s t) : (t.routeList l).budget = (s.routeList l).budget := by
  rw [h.list]

/-- The pass examines several choices in vain, one after the other. -/
theorem passLoop_examines {more : List (Choice × Nat)} (before : List (Choice × Nat)) :
    ∀ (done : List (Choice × Nat)) (t : State) (ks : List Nat) (rs : List Reason) (cc : Context),
      Examined now i l c done reason s t → t.context i = some cc → cc.priority = c.priority →
      eligible cc.tried (s.routeList l).budget cc.examined (choicesAt (s.routeList l).choices ks) = before ++ more →
      (∀ p ∈ before, FailsBy s now s.settle.slotSum c.priority p.2 p.1 (reason p.2)) →
      (done ++ before ≠ [] → ((done ++ choicesAt (s.routeList l).choices ks).map (·.1.group)).Nodup) →
      ∃ t' ks' cc', passLoop now i l ks rs t = passLoop now i l ks' (rs ++ before.map fun p => reason p.2) t'
        ∧ Examined now i l c (done ++ before) reason s t' ∧ t'.context i = some cc' ∧ cc'.priority = c.priority
        ∧ eligible cc'.tried (s.routeList l).budget cc'.examined (choicesAt (s.routeList l).choices ks') = more
        ∧ (done ++ before ≠ [] → (((done ++ before) ++ choicesAt (s.routeList l).choices ks').map (·.1.group)).Nodup) := by
  induction before with
  | nil =>
    intro done t ks rs cc hex hc hpr hel _ hnodup
    rw [List.append_nil] at hnodup ⊢
    exact ⟨t, ks, cc, by rw [List.map_nil, List.append_nil], hex, hc, hpr, hel, hnodup⟩
  | cons p before ih =>
    intro done t ks rs cc hex hc hpr hel hfails hnodup
    obtain ⟨ch, n⟩ := p
    have hnd := hnodup (by simp)
    rw [← hex.budget, ← hex.choices, List.cons_append] at hel
    obtain ⟨ks', hloop, hk, hskip, hrest, hsuff⟩ := passLoop_next (now := now) (rs := rs) hc hel
    have hcc : cc = { c.afterTrying (done.map (·.1.group)) with examined := c.examined + alternatesOf done } :=
      Option.some.inj (hc.symm.trans hex.context.1)
    rw [hex.choices] at hsuff
    have hnd' : ((done ++ (ch, n) :: choicesAt (s.routeList l).choices ks').map (·.1.group)).Nodup :=
      hnd.sublist ((hsuff.sublist.append_left done).map _)
    have hnotin : ch.group ∉ done.map (·.1.group) := by
      rw [List.map_append, List.map_cons, List.nodup_middle, List.nodup_cons] at hnd'
      exact fun hm => hnd'.1 (List.mem_append_left _ hm)
    have hnotlater : ∀ q ∈ choicesAt (s.routeList l).choices ks', q.1.group ≠ ch.group := by
      rw [List.map_append, List.map_cons, List.nodup_middle, List.nodup_cons] at hnd'
      exact fun q hq e => hnd'.1 (List.mem_append_right _ (List.mem_map.mpr ⟨q, hq, e⟩))
    have hsettle : t.settle = s.settle := hex.frame .settle (by decide)
    have hf : FailsBy t now t.settle.slotSum cc.priority n ch (reason n) := by
      rw [hsettle, hpr]
      exact (hfails (ch, n) (by simp)).congr (hex.group_of_notMem hnotin) (hex.frame.carrier_eq (by decide))
    obtain ⟨t', hstep, hone⟩ := passLoop_fail (now := now) (rs := rs) hc hk hskip hf ks'
    have hex' := hex.fail (hcc ▸ hone) hnotin
    obtain ⟨u, ks'', cc', hloop', hex'', hc', hpr', hel', hnodup'⟩ := ih (done ++ [(ch, n)]) t' ks' (rs ++ [reason n])
      ((cc.examining n).addTried ch.group) hex' hone.context.1 (by rw [Context.addTried_priority]; exact hpr)
      (by
        rw [hex.choices, hex.budget] at hrest
        rw [Context.addTried_examined, ← hrest]
        exact eligible_congr (fun q hq => Context.mem_addTried_of_ne _ (hnotlater q hq)) _)
      (fun q hq => hfails q (List.mem_cons_of_mem _ hq))
      (fun _ => by rwa [List.append_assoc, List.singleton_append])
    rw [List.append_assoc, List.singleton_append] at hex'' hnodup'
    refine ⟨u, ks'', cc', ?_, hex'', hc', hpr', hel', hnodup'⟩
    rw [hloop, hstep, hloop', List.map_cons, List.append_assoc, List.singleton_append]

end Sys2Proof.Machine
end

