-- ==== Sys2Proof/Proofs/SeizureRules.lean ====
section
/-! SUPPORT. What a selection pass that seizes leaves, and the two ends of a pass (R62, R67, R68). -/
namespace Sys2Proof.Machine

variable {s t u : State} {i l n k g : Nat} {c cc : Context} {now : ExTime} {ch : Choice} {x y : Group} {q : Option Quote}
  {r : Circuit} {before later examined : List (Choice × Nat)} {reason : Nat → Reason}

/-! ### The seizure (R8, R30, R68) -/

/-- A group whose circuit `k` is seized: its counts and its free queue, the seizure, and a Closed gate behind a probe. -/
def Group.seizing (x : Group) (k : Nat) : Group :=
  { x with
    counts := { x.counts with free := x.counts.free - 1, seized := x.counts.seized + 1 }
    freeQueue := x.freeQueue.filter fun j => decide (j ≠ k)
    mon := { x.mon with
      gate := if x.mon.health = .suspect then .closed else x.mon.gate
      traffic := { x.mon.traffic with seizures := min (x.mon.traffic.seizures + 1) 4294967295 } } }

/-- A seizure after its attempt. -/
theorem Group.seizing_examinedAs (x : Group) (n k : Nat) : (x.examinedAs n False).seizing k = x.seizedAt k := by
  simp only [Group.examinedAs, and_false, if_false]; rfl

/-- A circuit of a group is taken from the free queue (R27, R29). -/
theorem recast_seized (hk : s.circuit k = some r) (hr : r.cls = .free) (hx : s.group r.group = some x) (i : Nat) :
    CircuitMoved k r { r with cond := .seized i }
      { x with
        counts := { x.counts with free := x.counts.free - 1, seized := x.counts.seized + 1 }
        freeQueue := x.freeQueue.filter fun j => decide (j ≠ k) } s
      (s.recast k fun c => { c with cond := .seized i }) := by
  have h := recast_moved (fun c => { c with cond := .seized i }) hk hx
  rw [hr] at h
  exact h

/-- The seizure of a circuit (R8, R68). -/
theorem seizeCircuit_of (hc : s.context i = some c) (hk : s.circuit k = some r) (hr : r.cls = .free)
    (hx : s.group r.group = some x) (now : ExTime) (l n : Nat) (q : Option Quote) :
    let t := s.seizeCircuit now i l n r.group k q
    ContextSet i { c with
      circuit := some (r.group, k), seizeTime := now, quote := q, slot := q.isSome
      probe := decide (x.mon.health = .suspect) } s t
      ∧ CircuitMoved k r { r with cond := .seized i } (x.seizing k) s t
      ∧ t.routeList l = { s.routeList l with pointer := if n = 0 then (s.routeList l).pointer else n }
      ∧ (∀ j, j ≠ l → t.routeList j = s.routeList j) ∧ t.routes = { s.routes with lists := t.routes.lists }
      ∧ t.settle = { s.settle with reservations := s.settle.reservations + (if q.isSome then 1 else 0) }
      ∧ OnlyChanges [.ctx, .circ, .routes, .settle] s t := by
  dsimp only
  rw [seizeCircuit_eq]
  have hsuspect : decide ((s.group r.group).map (·.mon.health) = some .suspect) = decide (x.mon.health = .suspect) := by
    rw [hx]; simp
  simp only [hsuspect]
  have hmoved := recast_seized hk hr hx i
  have f1 := recast_frame s k fun c => { c with cond := .seized i }
  generalize (s.recast k fun c => { c with cond := .seized i }) = s0 at hmoved f1
  have hm1 := hmoved.groupSet (updTraffic_groupSet hmoved.group Traffic.seize)
  have f2 := f1.trans (updTraffic_frame s0 r.group Traffic.seize)
  generalize s0.updTraffic r.group Traffic.seize = s1 at hm1 f2
  obtain ⟨s2, hs2, hm2, f3⟩ : ∃ s2, (if decide (x.mon.health = .suspect) = true then
      s1.updMonitor r.group fun m => { m with gate := .closed } else s1) = s2
      ∧ CircuitMoved k r { r with cond := .seized i } (x.seizing k) s s2 ∧ OnlyChanges [.circ] s s2 := by
    refine ⟨_, rfl, ?_⟩
    by_cases hh : x.mon.health = .suspect
    · simp only [hh, decide_true, if_true]
      refine ⟨?_, f2.trans (updMonitor_frame _ _ _)⟩
      have := hm1.groupSet (updMonitor_groupSet hm1.group fun m => { m with gate := .closed })
      simp only [Group.seizing, if_pos hh]
      exact this
    · simp only [hh, decide_false, Bool.false_eq_true, if_false]
      refine ⟨?_, f2⟩
      simp only [Group.seizing, if_neg hh]
      exact hm1
  rw [hs2]
  have hc2 : s2.context i = some c := (f3.context_eq (by decide) i).trans hc
  have hrl : ∀ j, s2.routeList j = s.routeList j := f3.routeList_eq (by decide)
  have hroutes : s2.routes = s.routes := f3 .routes (by decide)
  have hsettle : s2.settle = s.settle := f3 .settle (by decide)
  have hctx : s2.ctx = s.ctx := f3 .ctx (by decide)
  obtain ⟨s3, hs3, hlist, hlists, hrouting, f4⟩ : ∃ s3, (if n = 0 then s2 else s2.updList l fun r => { r with pointer := n }) = s3
      ∧ s3.routeList l = { s.routeList l with pointer := if n = 0 then (s.routeList l).pointer else n }
      ∧ (∀ j, j ≠ l → s3.routeList j = s.routeList j) ∧ s3.routes = { s.routes with lists := s3.routes.lists }
      ∧ OnlyChanges [.routes] s2 s3 := by
    refine ⟨_, rfl, ?_⟩
    by_cases hn : n = 0
    · simp only [if_pos hn]
      exact ⟨hrl l, fun j _ => hrl j, by rw [hroutes], .refl _ _⟩
    · simp only [if_neg hn]
      refine ⟨?_, fun j hj => ?_, by rw [← hroutes]; rfl, updList_frame _ _ _⟩
      · rw [State.updList_routeList, if_pos rfl, hrl]
      · rw [State.updList_routeList, if_neg (Ne.symm hj), hrl]
  rw [hs3]
  have hc3 : s3.context i = some c := (f4.context_eq (by decide) i).trans hc2
  have hcirc : s3.circ = s2.circ := f4 .circ (by decide)
  have hset3 : s3.settle = s.settle := (f4 .settle (by decide)).trans hsettle
  have hset := updContext_set (s := s3.withSettle (if q.isSome then s3.settle.reserve else s3.settle)) hc3 fun x' =>
    { x' with circuit := some (r.group, k), seizeTime := now, quote := q, slot := q.isSome
              probe := decide (x.mon.health = .suspect) }
  refine ⟨hset.congr (s' := s) ((f4 .ctx (by decide)).trans hctx).symm rfl, hm2.congr rfl hcirc, hlist, hlists, hrouting, ?_, ?_⟩
  · change (if q.isSome then s3.settle.reserve else s3.settle) = _
    rw [hset3]
    cases q <;> rfl
  · exact (f3.mono (by decide)).trans ((f4.mono (by decide)).trans (((withSettle_frame _ _).mono (by decide)).trans
      ((updContext_frame _ _ _).mono (by decide))))

/-! ### A pass that seizes -/

/-- What a pass leaves that has examined the choices `before` in vain and has seized circuit `k`, which was `r`, on choice
`n`, on a group that was `y`. -/
structure SeatedOn (now : ExTime) (i l : Nat) (c : Context) (before : List (Choice × Nat)) (reason : Nat → Reason) (n : Nat)
    (ch : Choice) (k : Nat) (r : Circuit) (y : Group) (q : Option Quote) (s t : State) : Prop where
  context : ContextSet i { c.afterTrying (before.map (·.1.group)) with
    examined := c.examined + alternatesOf (before ++ [(ch, n)]), circuit := some (ch.group, k)
    probe := decide (y.mon.health = .suspect), quote := q, slot := q.isSome, seizeTime := now } s t
  circuit : t.circuit k = some { r with cond := .seized i }
  circuits : ∀ j, j ≠ k → t.circuit j = s.circuit j
  group : t.group ch.group = some (y.seizedAt k)
  groups : ∀ g, g ≠ ch.group → t.group g = s.afterFailures before reason g
  counters : t.circ.counters = s.circ.counters
  list : t.routeList l = { s.routeList l with pointer := if n = 0 then (s.routeList l).pointerPast before else n }
  lists : ∀ j, j ≠ l → t.routeList j = s.routeList j
  routing : t.routes = { s.routes with lists := t.routes.lists }
  settle : t.settle = { s.settle with reservations := s.settle.reservations + (if q.isSome then 1 else 0) }
  rating : t.rating = s.afterQuotes now (before.filter (fun p => (reason p.2).quoted) ++ [(ch, n)])
  frame : OnlyChanges [.ctx, .circ, .routes, .rating, .settle] s t

/-- A choice passes its checks and is seized. -/
theorem passLoop_seize {rs : List Reason} (hex : Examined now i l c before reason s t) (hc : t.context i = some cc)
    (hpr : cc.priority = c.priority) (hch : (t.routeList l).choices[n]? = some ch)
    (hs : ¬ (ch.group ∈ cc.tried ∨ (n ≠ 0 ∧ (t.routeList l).budget ≤ cc.examined)))
    (hnot : ch.group ∉ before.map (·.1.group)) (hp : Passes s now s.settle.slotSum c.priority n ch y q)
    (hhunt : y.hunt = some k) (hk : s.circuit k = some r) (hg : r.group = ch.group) (hr : r.cls = .free) (ks : List Nat) :
    ∃ u, passLoop now i l (n :: ks) rs t = (u, .seized ch.group k) ∧ SeatedOn now i l c before reason n ch k r y q s u := by
  have hcc : cc = { c.afterTrying (before.map (·.1.group)) with examined := c.examined + alternatesOf before } :=
    Option.some.inj (hc.symm.trans hex.context.1)
  have h1 := turnedTo_frame t i n
  have hset := turnedTo_set hc n
  have hgrp : (t.turnedTo i n).group ch.group = s.group ch.group :=
    (h1.group_eq (by decide) _).trans (hex.group_of_notMem hnot)
  have hcar : ∀ id, (t.turnedTo i n).carrier id = s.carrier id := fun id =>
    (h1.carrier_eq (by decide) id).trans (hex.frame.carrier_eq (by decide) id)
  have hsettle : (t.turnedTo i n).settle = s.settle := (h1 .settle (by decide)).trans (hex.frame .settle (by decide))
  have hp' : Passes (t.turnedTo i n) now (t.turnedTo i n).settle.slotSum cc.priority n ch y q := by
    rw [hsettle, hpr]; exact hp.congr hgrp hcar
  obtain ⟨e, he, hone⟩ := examine_passes hp'
  have hye : e.group r.group = some (y.examinedAs n False) := by rw [hg, hone.group, hp'.group]; rfl
  have hke : e.circuit k = some r :=
    (hone.circuits k).trans ((h1.circuit_eq (by decide) k).trans ((hex.circuits k).trans hk))
  have hce : e.context i = some (cc.examining n) := (hone.frame.context_eq (by decide) i).trans hset.1
  obtain ⟨zset, zmoved, zlist, zlists, zrouting, zsettle, zframe⟩ := seizeCircuit_of hce hke hr hye now l n q
  rw [hg] at zset zmoved zlist zlists zrouting zsettle zframe
  rw [Group.seizing_examinedAs] at zmoved
  have hrl : ∀ j, e.routeList j = t.routeList j := fun j =>
    (hone.frame.routeList_eq (by decide) j).trans (h1.routeList_eq (by decide) j)
  have hroutes : e.routes = t.routes := (hone.frame .routes (by decide)).trans (h1 .routes (by decide))
  have hse : e.settle = s.settle := (hone.frame .settle (by decide)).trans hsettle
  refine ⟨e.seizeCircuit now i l n ch.group k q, ?_, ?_⟩
  · have hloop : passLoop now i l (n :: ks) rs t =
        match (t.turnedTo i n).examine now n cc.priority ch with
        | (s2, .fail r) => passLoop now i l ks (rs ++ [r]) (s2.choiceFailed i l n ch.group)
        | (s2, .pass q) =>
          match (s2.group ch.group).bind Group.hunt with
          | some circuit => (s2.seizeCircuit now i l n ch.group circuit q, .seized ch.group circuit)
          | none => passLoop now i l ks (rs ++ [.noCircuit]) (s2.choiceFailed i l n ch.group) := by
      rw [not_or] at hs
      simp only [passLoop, hc, hch, if_neg hs.1, if_neg hs.2]; rfl
    have hhe : (e.group ch.group).bind Group.hunt = some k := by
      rw [← hg, hye]; exact hhunt
    rw [hloop, he]
    simp only [hhe]
  · refine ⟨?_, by rw [hg]; exact zmoved.circuit, fun j hj => ?_, hg ▸ zmoved.group, fun g hne => ?_, ?_, ?_, fun j hj => ?_, ?_, ?_, ?_, ?_⟩
    · have hall := hex.context.trans (hset.trans (zset.congr (hone.frame .ctx (by decide)).symm rfl))
      rw [alternatesOf_concat]
      refine Eq.mp (congrArg (fun d => ContextSet i d s _) ?_) hall
      subst hcc
      by_cases hn : n = 0
      · simp only [Context.examining, if_pos hn]; rfl
      · simp only [Context.examining, if_neg hn]; rfl
    · exact (zmoved.others j hj).trans ((hone.circuits j).trans ((h1.circuit_eq (by decide) j).trans (hex.circuits j)))
    · refine (zmoved.groups g (hg ▸ hne)).trans ((hone.others g hne).trans ((h1.group_eq (by decide) g).trans (hex.groups g)))
    · have h3 : (t.turnedTo i n).circ = t.circ := h1 .circ (by decide)
      rw [zmoved.counters, hone.counters, h3, hex.counters]
    · rw [zlist, hrl, hex.list]
    · rw [zlists j hj, hrl, hex.lists j hj]
    · rw [zrouting, hroutes, hex.routing]
    · rw [zsettle, hse]
    · have h2 : (e.seizeCircuit now i l n ch.group k q).rating = e.rating := zframe .rating (by decide)
      have h3 : (t.turnedTo i n).rating = t.rating := h1 .rating (by decide)
      rw [h2, hone.rating, if_pos trivial, h3, hex.rating, priced_congr hgrp hcar, State.afterQuotes, State.afterQuotes,
        List.foldl_append]
      rfl
    · exact (hex.frame.mono (by decide)).trans ((h1.mono (by decide)).trans ((hone.frame.mono (by decide)).trans
        (zframe.mono (by decide))))

/-! ### The two ends of a pass -/

/-- Where choices fail the list keeps its law, and its groups are distinct. -/
theorem passOrder_groups {list : RouteList} (h : list.choiceLaw) :
    ((choicesAt list.choices (passOrder list.choices.length list.pointer)).map (·.1.group)).Nodup := by
  obtain ⟨-, -, hnd, hptr, -⟩ := h
  rw [choicesAt_passOrder, if_neg (by omega), List.nil_append]
  exact list.inTurn_groups hnd

/-- A pass in which every choice that it may examine fails. -/
theorem selectionPass_fails (hc : s.context i = some c) (hm : c.noFurther = false)
    (hlaw : examined ≠ [] → (s.routeList l).choiceLaw)
    (hel : eligible c.tried (s.routeList l).budget c.examined (s.routeList l).inTurn = examined)
    (hf : ∀ p ∈ examined, FailsBy s now s.settle.slotSum c.priority p.2 p.1 (reason p.2)) :
    ∃ t, s.selectionPass now i l = (t, .failed (examined.map fun p => reason p.2))
      ∧ Examined now i l c examined reason s t := by
  obtain ⟨rest, hel', hrest⟩ := eligible_passOrder (rest := []) hlaw (by rw [hel, List.append_nil])
  have hnil : rest = [] := List.head?_eq_none_iff.mp hrest
  subst hnil
  obtain ⟨t, ks, cc, hloop, hex, hct, -, hspent, -⟩ := passLoop_examines (now := now) (i := i) (l := l) examined [] s _ [] c
    (Examined.nil hc) hc rfl hel' hf fun h => passOrder_groups (hlaw (by simpa using h))
  have he : s.selectionPass now i l =
      passLoop now i l (passOrder (s.routeList l).choices.length (s.routeList l).pointer) [] s := by
    simp [State.selectionPass, hc, hm]
  rw [List.nil_append] at hex
  refine ⟨t, ?_, hex⟩
  rw [he, hloop, List.nil_append]
  exact passLoop_spent hct (by rw [hex.budget, hex.choices]; exact hspent)

/-- A marked context examines nothing (R1). -/
theorem selectionPass_marked (hc : s.context i = some c) (hm : c.noFurther = true) (reason : Nat → Reason) :
    s.selectionPass now i l = (s, .failed []) ∧ Examined now i l c [] reason s s :=
  ⟨by simp [State.selectionPass, hc, hm], Examined.nil hc⟩

/-- A pass that finds a usable choice. -/
theorem selectionPass_seizes (hc : s.context i = some c) (hm : c.noFurther = false)
    (hlaw : before ≠ [] → (s.routeList l).choiceLaw)
    (hel : eligible c.tried (s.routeList l).budget c.examined (s.routeList l).inTurn = before ++ (ch, n) :: later)
    (hf : ∀ p ∈ before, FailsBy s now s.settle.slotSum c.priority p.2 p.1 (reason p.2))
    (hp : Passes s now s.settle.slotSum c.priority n ch y q) (hhunt : y.hunt = some k) (hk : s.circuit k = some r)
    (hg : r.group = ch.group) (hr : r.cls = .free) :
    ∃ t, s.selectionPass now i l = (t, .seized ch.group k) ∧ SeatedOn now i l c before reason n ch k r y q s t := by
  obtain ⟨rest, hel', hrest⟩ := eligible_passOrder hlaw hel
  obtain ⟨more, hmore⟩ : ∃ more, rest = (ch, n) :: more := by
    cases rest with
    | nil => simp at hrest
    | cons p more => simp only [List.head?_cons, Option.some.injEq] at hrest; exact ⟨more, by rw [hrest]⟩
  subst hmore
  obtain ⟨t, ks, cc, hloop, hex, hct, hpr, hnext, hnodup⟩ := passLoop_examines (now := now) (i := i) (l := l) before [] s _ [] c
    (Examined.nil hc) hc rfl hel' hf fun h => passOrder_groups (hlaw (by simpa using h))
  rw [List.nil_append] at hex hnodup
  rw [← hex.budget, ← hex.choices] at hnext
  obtain ⟨ks', hloop', hch, hskip, -, hsuff⟩ :=
    passLoop_next (now := now) (rs := [] ++ before.map fun p => reason p.2) hct hnext
  have hnot : ch.group ∉ before.map (·.1.group) := by
    by_cases hb : before = []
    · simp [hb]
    · have hnd := hnodup hb
      rw [hex.choices] at hsuff
      have hnd' : ((before ++ (ch, n) :: choicesAt (s.routeList l).choices ks').map (·.1.group)).Nodup :=
        hnd.sublist ((hsuff.sublist.append_left before).map _)
      rw [List.map_append, List.map_cons, List.nodup_middle, List.nodup_cons] at hnd'
      exact fun hm => hnd'.1 (List.mem_append_left _ hm)
  obtain ⟨u, hseize, hseated⟩ := passLoop_seize (rs := [] ++ before.map fun p => reason p.2) hex hct hpr hch hskip hnot hp hhunt hk
    hg hr ks'
  have he : s.selectionPass now i l =
      passLoop now i l (passOrder (s.routeList l).choices.length (s.routeList l).pointer) [] s := by
    simp [State.selectionPass, hc, hm]
  exact ⟨u, by rw [he, hloop, hloop', hseize], hseated⟩

end Sys2Proof.Machine
end

