-- ==== Sys2Proof/Proofs/SetupSeizes.lean ====
section
/-! SUPPORT and CERTIFICATE. A Setup that is routed over a list and seizes (R7, R8, R61 to R68, R97). -/
namespace Sys2Proof.Machine

variable {s t u : State} {f : Frame} {rest : List Frame} {i l n k g : Nat} {c : Context} {m : SetupMsg} {now : ExTime} {ch : Choice}
  {before later : List (Choice × Nat)} {reason : Nat → Reason} {ps : List (Choice × Nat)}

/-! ### What the rules of a pass read -/

theorem afterFailures_congr (h : t.group g = s.group g) : t.afterFailures ps reason g = s.afterFailures ps reason g := by
  simp only [State.afterFailures, h]

theorem afterQuotes_congr (hr : t.rating = s.rating) (hg : ∀ p ∈ ps, t.group p.1.group = s.group p.1.group)
    (hc : ∀ id, t.carrier id = s.carrier id) : t.afterQuotes now ps = s.afterQuotes now ps := by
  rw [State.afterQuotes, State.afterQuotes, hr]
  exact List.foldl_ext _ _ _ fun n p hp => priced_congr (hg p hp) hc n

/-! ### The order of a first pass (R62, R71) -/

theorem RouteList.inTurn_congr {r r' : RouteList} (hc : r'.choices = r.choices) (hp : r'.pointer = r.pointer) :
    r'.inTurn = r.inTurn := by rw [RouteList.inTurn, hc, hp]; rfl

/-- The primary comes first. -/
theorem primary_first {zs alts : List (Choice × Nat)} (hz : zs.length ≤ 1) (ha : ∀ p ∈ alts, p.2 ≠ 0)
    (h : zs ++ alts = before ++ (ch, 0) :: later) : before = [] := by
  cases before with
  | nil => rfl
  | cons b before =>
    exfalso
    have hmem : (ch, 0) ∈ alts := by
      cases zs with
      | nil => rw [List.nil_append] at h; rw [h]; simp
      | cons z zs =>
        have hzs : zs = [] := List.length_eq_zero_iff.mp (by simpa using hz)
        subst hzs
        rw [List.singleton_append, List.cons_append] at h
        rw [(List.cons.inj h).2]; simp
    exact ha _ hmem rfl

theorem RouteList.inTurn_primary (r : RouteList) (h : r.inTurn = before ++ (ch, 0) :: later) : before = [] := by
  obtain ⟨alts, hin, -, ha⟩ := r.inTurn_split
  exact primary_first (List.length_take_le 1 _) ha (hin ▸ h)

/-- A fresh call may examine the choices of the order as far as the budget goes. -/
theorem eligible_fresh {r : RouteList} {budget : Nat} (h : r.inTurn = before ++ (ch, n) :: later) (hb : before.length ≤ budget) :
    ∃ later', eligible [] budget 0 r.inTurn = before ++ (ch, n) :: later' := by
  obtain ⟨alts, hin, hz, ha⟩ := r.inTurn_split
  have hlen := List.length_take_le 1 r.choices.zipIdx
  have he : eligible [] budget 0 r.inTurn = r.choices.zipIdx.take 1 ++ alts.take budget := by
    rw [hin, eligible_primary hz ha]; simp
  rw [he]
  rw [hin] at h
  cases hzs : r.choices.zipIdx.take 1 with
  | nil =>
    have hnil : r.choices.zipIdx = [] := by
      cases hc : r.choices.zipIdx with
      | nil => rfl
      | cons a as => rw [hc] at hzs; simp at hzs
    have : r.inTurn = [] := by simp [RouteList.inTurn, hnil]
    rw [← hin, this] at h
    simp at h
  | cons z zs =>
    rw [hzs] at h hlen
    have hnil : zs = [] := List.length_eq_zero_iff.mp (by simpa using hlen)
    subst hnil
    rw [List.singleton_append] at h ⊢
    cases before with
    | nil =>
      obtain ⟨rfl, -⟩ := List.cons.inj h
      exact ⟨_, rfl⟩
    | cons b before =>
      obtain ⟨rfl, htail⟩ := List.cons.inj h
      refine ⟨later.take (budget - before.length - 1), ?_⟩
      have hlt : before.length < budget := hb
      change alts = before ++ (ch, n) :: later at htail
      rw [htail, List.take_append, List.take_of_length_le hlt.le, List.cons_append,
        show budget - before.length = (budget - before.length - 1) + 1 by omega, List.take_succ_cons]
      simp

/-- All the choices of an order but the primary are alternates. -/
theorem alternatesOf_inTurn {r : RouteList} (h : r.inTurn = before ++ (ch, n) :: later) :
    alternatesOf (before ++ [(ch, n)]) = before.length := by
  obtain ⟨alts, hin, hz, ha⟩ := r.inTurn_split
  have hlen := List.length_take_le 1 r.choices.zipIdx
  have hpre : (before ++ [(ch, n)]) <+: r.choices.zipIdx.take 1 ++ alts := by
    rw [← hin, h]; exact ⟨later, by simp⟩
  cases hzs : r.choices.zipIdx.take 1 with
  | nil =>
    have hnil : r.choices.zipIdx = [] := by
      cases hc : r.choices.zipIdx with
      | nil => rfl
      | cons a as => rw [hc] at hzs; simp at hzs
    have : r.inTurn = [] := by simp [RouteList.inTurn, hnil]
    rw [this] at h
    simp at h
  | cons z zs =>
    rw [hzs] at hpre hlen
    have hnil : zs = [] := List.length_eq_zero_iff.mp (by simpa using hlen)
    subst hnil
    have hz0 : z.2 = 0 := hz z (by simp [hzs])
    have hall : ∀ ps : List (Choice × Nat), (∀ p ∈ ps, p ∈ alts) → alternatesOf ps = ps.length := fun ps hps =>
      List.countP_eq_length.mpr fun p hp => decide_eq_true (ha p (hps p hp))
    obtain ⟨tail, htail⟩ := hpre
    cases before with
    | nil =>
      obtain ⟨rfl, -⟩ := List.cons.inj htail
      simpa [alternatesOf] using hz0
    | cons b before =>
      obtain ⟨rfl, hrest⟩ := List.cons.inj htail
      change before ++ [(ch, n)] ++ tail = alts at hrest
      have hsub := hall (before ++ [(ch, n)]) fun p hp => hrest ▸ List.mem_append_left _ hp
      rw [List.cons_append, alternatesOf, List.countP_cons, ← alternatesOf, hsub]
      simp [hz0]

/-- A fresh call keeps up to 8 distinct groups (R1). -/
theorem Context.afterTrying_fresh (c : Context) (gs : List Nat) (hnd : (c.tried ++ gs).Nodup) (hlen : (c.tried ++ gs).length ≤ 8) :
    c.afterTrying gs = { c with tried := c.tried ++ gs } := by
  induction gs generalizing c with
  | nil => simp [Context.afterTrying]
  | cons g gs ih =>
    have hnot : g ∉ c.tried := by
      rw [List.nodup_middle, List.nodup_cons] at hnd
      exact fun h => hnd.1 (List.mem_append_left _ h)
    have hl : ¬ Config.triedMax ≤ c.tried.length := by simp [Config.triedMax] at hlen ⊢; omega
    have hadd : c.addTried g = { c with tried := c.tried ++ [g] } := by
      simp only [Context.addTried, if_neg hnot, if_neg hl]
    rw [Context.afterTrying_cons, hadd, ih _ (by simpa using hnd) (by simpa using hlen)]
    simp

/-! ### The gate (R97, R98) -/

theorem RouteList.admits_iff (r : RouteList) (priority : Bool) : r.admits priority = true ↔ r.letsIn priority := by
  unfold RouteList.admits RouteList.letsIn
  cases r.gapState <;> cases r.gate <;> simp

theorem RouteList.judge_eq (r : RouteList) (priority : Bool) (ticks : Nat) :
    r.judge priority (fun n => some (ticks + n)) = r.passed priority ticks := by
  unfold RouteList.judge RouteList.passed
  cases r.gapState <;> cases r.gate <;> cases priority <;> simp

/-! ### Routing over a list (R61) -/

/-- The device at the start of the pass of a Setup that the gate has let in. -/
def State.enteredList (s : State) (i l : Nat) (m : SetupMsg) : State :=
  let s1 := (s.updContext i fun c => { c with list := l }).countList l fun k => { k with offered := inc32 k.offered }
  s1.updList l fun r => r.judge m.priority s1.timerOf

theorem routeOver_admitted (h : (s.routeList l).letsIn m.priority) :
    s.routeOver now i l m = (s.enteredList i l m).routePass now i l m := by
  have hadmit : (((s.updContext i fun c => { c with list := l }).countList l fun k =>
      { k with offered := inc32 k.offered }).routeList l).admits m.priority = true := by
    rw [RouteList.admits_iff]
    change ((State.updList _ l _).routeList l).letsIn m.priority
    rw [State.updList_routeList, if_pos rfl]
    exact h
  simp only [State.routeOver, hadmit, if_true]
  rfl

theorem enteredList_of (hc : s.context i = some c) (l : Nat) (m : SetupMsg) :
    let t := s.enteredList i l m
    ContextSet i { c with list := l } s t
      ∧ t.routeList l = { (s.routeList l).passed m.priority s.time.ticks with
          counters := { (s.routeList l).counters with offered := min ((s.routeList l).counters.offered + 1) 4294967295 } }
      ∧ (∀ j, j ≠ l → t.routeList j = s.routeList j) ∧ t.routes = { s.routes with lists := t.routes.lists }
      ∧ OnlyChanges [.ctx, .routes] s t := by
  have hset := updContext_set hc fun c => { c with list := l }
  refine ⟨hset.congr rfl rfl, ?_, fun j hj => ?_, rfl, ?_⟩
  · refine (State.updList_routeList _ _ _ _).trans ((if_pos rfl).trans ?_)
    have h1 : ((s.updContext i fun c => { c with list := l }).countList l fun k =>
        { k with offered := inc32 k.offered }).routeList l =
        { s.routeList l with counters := { (s.routeList l).counters with
          offered := min ((s.routeList l).counters.offered + 1) 4294967295 } } :=
      (State.updList_routeList _ _ _ _).trans (if_pos rfl)
    rw [h1]
    refine (RouteList.judge_eq _ _ s.time.ticks).trans ?_
    unfold RouteList.passed
    dsimp only
    split <;> rfl
  · refine (State.updList_routeList _ _ _ _).trans ((if_neg (Ne.symm hj)).trans ?_)
    exact (State.updList_routeList _ _ _ _).trans (if_neg (Ne.symm hj))
  · exact ((updContext_frame _ _ _).mono (by decide)).trans (((countList_frame _ _ _).mono (by decide)).trans
      ((updList_frame _ _ _).mono (by decide)))

theorem RouteList.passed_same (r : RouteList) (priority : Bool) (ticks : Nat) :
    (r.passed priority ticks).choices = r.choices ∧ (r.passed priority ticks).pointer = r.pointer
      ∧ (r.passed priority ticks).budget = r.budget ∧ (r.passed priority ticks).loaded = r.loaded := by
  unfold RouteList.passed; split <;> exact ⟨rfl, rfl, rfl, rfl⟩

theorem RouteList.choiceLaw_congr {r r' : RouteList} (h : r.choiceLaw) (hc : r'.choices = r.choices)
    (hp : r'.pointer = r.pointer) (hl : r'.loaded = r.loaded) : r'.choiceLaw := by
  unfold RouteList.choiceLaw at h ⊢
  rwa [hc, hp, hl]

/-- A seized context proceeds, and its Setup goes forward (R5, R7). -/
theorem proceed_of (hc : s.context i = some c) (g k : Nat) :
    let t := s.proceed i g k
    ContextSet i { c with phase := .proceeding, timer := some (s.time.ticks + interval s.mgmt.params.tProceed) } s t
      ∧ t.fwdOut = s.fwdOut ++ [.setup k g c.inCircuit c.category c.priority c.number]
      ∧ OnlyChanges [.ctx, .fwdOut] s t := by
  have e : s.proceed i g k = (s.startProceeding i).emitFwd (c.forwardSetup g k) := by simp only [State.proceed, hc]
  dsimp only
  rw [e]
  exact ⟨(startProceeding_set hc).congr rfl rfl, rfl,
    ((startProceeding_frame _ _).mono (by decide)).trans ((emitFwd_frame _ _).mono (by decide))⟩

theorem judgeMatch_route {p : List Digit} {mask : Option Byte} {d : Option DestEntry} (hd : d = some ⟨p, .route l mask⟩)
    {category : Nat} (hm : ∀ b, mask = some b → b.getLsbD category = true) : judgeMatch category d = .toList l := by
  subst hd
  cases mask with
  | none => rfl
  | some b => simp [judgeMatch, hm b rfl]

/-- A Setup that is matched to a list is routed over it. -/
theorem route_toList (h : judgeMatch m.category (destMatch s.routes.dests m.number) = .toList l) :
    s.route now i m = s.routeOver now i l m := by
  simp only [State.route, h]; rfl

/-- The Setup takes its context, and is let in to its list. -/
theorem setup_entered (h : s.headed .forward 0x01 f rest) (hdev : s.mgmt.device = .inService)
    (href : s.lookupRef (setupOf f).callRef = none) (hi : i < 8192) (hn : s.context i = none)
    (hlow : ∀ j < i, (s.context j).isSome) (h1 : 1 ≤ (setupOf f).count) (h20 : (setupOf f).count ≤ 20)
    (hjudge : judgeMatch (setupOf f).category (destMatch s.routes.dests (setupOf f).number) = .toList l)
    (hlet : (s.routeList l).letsIn (setupOf f).priority) :
    exec .setup s = .next ((((s.took .forward rest).admitted i (setupOf f)).enteredList i l (setupOf f)).routePass s.time.now i l
      (setupOf f)) := by
  have hfr := admitted_frame (s.took .forward rest) i (setupOf f)
  have hroutes : ((s.took .forward rest).admitted i (setupOf f)).routes = s.routes := hfr .routes (by decide)
  have hlist : ((s.took .forward rest).admitted i (setupOf f)).routeList l = s.routeList l :=
    hfr.routeList_eq (by decide) l
  refine congrArg Host.Outcome.next ((takeKind_of h).trans
    ((takeSetup_routed (s := s.took .forward rest) hdev href hi hn hlow h1 h20).trans ?_))
  refine (route_toList (s := (s.took .forward rest).admitted i (setupOf f)) (by rw [hroutes]; exact hjudge)).trans ?_
  exact routeOver_admitted (by rw [hlist]; exact hlet)

/-- Settles O14: the Setup takes its context, the gate lets it in, and its pass seizes on the first usable choice. -/
theorem setupSeizesOnFirstUsableChoice : Obligations.SetupSeizesOnFirstUsableChoice := by
  unfold Obligations.SetupSeizesOnFirstUsableChoice
  intro s f rest i l before later ch n reason x k r q ⟨hh, hdev, href, hi, hn, hlow, h1, h20, p, mask, hd, hmask⟩ m now list hlet
    hlaw horder hbudget hfails hpass hhunt hk hg hr
  have e := setup_entered hh hdev href hi hn hlow h1 h20 (judgeMatch_route hd hmask) hlet
  obtain ⟨acontext, aref, aUse, apeak, aoffer, acount, aout⟩ :=
    allocate_of (now := now) (s.took .forward rest).setupCounted i (m.context now)
  have hfa := admitted_frame (s.took .forward rest) i m
  have hca : ((s.took .forward rest).admitted i m).context i = some (m.context now) := by
    have h := acontext i
    rw [if_pos rfl] at h; exact h
  obtain ⟨pset, plist, plists, prouting, pframe⟩ := enteredList_of hca l m
  have hfp : OnlyChanges [.ctx, .routes, .bwdOut] (s.took .forward rest) (((s.took .forward rest).admitted i m).enteredList i l m) :=
    (hfa.mono (by decide)).trans (pframe.mono (by decide))
  have halist : ∀ j, ((s.took .forward rest).admitted i m).routeList j = s.routeList j := hfa.routeList_eq (by decide)
  have haroutes : ((s.took .forward rest).admitted i m).routes = s.routes := hfa .routes (by decide)
  have hatime : ((s.took .forward rest).admitted i m).time = s.time := hfa .time (by decide)
  have hbwd0 : ((s.took .forward rest).admitted i m).bwdOut = s.bwdOut ++ s.holdReport now := aout
  have hcontexts0 : ∀ j, ((s.took .forward rest).admitted i m).context j = if i = j then some (m.context now) else s.context j :=
    acontext
  have hrefs0 : ∀ j, ((s.took .forward rest).admitted i m).lookupRef j = if m.callRef = j then some i else s.lookupRef j := aref
  have hUse0 : ((s.took .forward rest).admitted i m).ctx.inUse = s.ctx.inUse + 1 := aUse
  have hpeak0 : ((s.took .forward rest).admitted i m).ctx.peak = max s.ctx.peak (s.ctx.inUse + 1) := apeak
  have hoffer0 : ((s.took .forward rest).admitted i m).ctx.offer =
      if s.ctx.offer = .held ∨ s.mgmt.params.highWater ≤ s.ctx.inUse + 1 then .held else .opened := aoffer
  have hcount0 : ((s.took .forward rest).admitted i m).ctx.counters =
      { s.ctx.counters with setupsTaken := min (s.ctx.counters.setupsTaken + 1) 4294967295 } := acount
  rw [halist, hatime] at plist
  simp only [halist] at plists
  rw [haroutes] at prouting
  have hbwd1 := pframe .bwdOut (by decide)
  generalize (s.took .forward rest).admitted i m = a at *
  change exec .setup s = .next ((a.enteredList i l m).routePass now i l m) at e
  generalize a.enteredList i l m = sp at *
  obtain ⟨hch, hptr, hbud, hload⟩ := list.passed_same m.priority s.time.ticks
  have spch : (sp.routeList l).choices = list.choices := by rw [plist]; exact hch
  have spptr : (sp.routeList l).pointer = list.pointer := by rw [plist]; exact hptr
  have hgrp : ∀ g, sp.group g = s.group g := hfp.group_eq (by decide)
  have hcar : ∀ id, sp.carrier id = s.carrier id := hfp.carrier_eq (by decide)
  have hsettle : sp.settle = s.settle := hfp .settle (by decide)
  have horder' : (sp.routeList l).inTurn = before ++ (ch, n) :: later := (RouteList.inTurn_congr spch spptr).trans horder
  obtain ⟨later', hel⟩ := eligible_fresh (budget := (sp.routeList l).budget) horder'
    (by rw [plist]; exact hbud.symm ▸ hbudget)
  obtain ⟨u, hpassed, useat⟩ := selectionPass_seizes (now := now) (c := { m.context now with list := l }) (reason := reason)
    (q := q) (y := x) pset.1 rfl
    (fun hb => RouteList.choiceLaw_congr (hlaw hb) spch spptr (by rw [plist]; exact hload)) hel
    (fun p hp => by rw [hsettle]; exact (hfails p hp).congr (hgrp _) hcar)
    (by rw [hsettle]; exact hpass.congr (hgrp _) hcar) hhunt ((hfp.circuit_eq (by decide) k).trans hk) hg hr
  obtain ⟨tset, tfwd, tframe⟩ := proceed_of useat.context.1 ch.group k
  have he : sp.routePass now i l m = u.proceed i ch.group k := by simp only [State.routePass, hpassed]
  rw [he] at e
  have hset := pset.trans (useat.context.trans tset)
  have hticks : u.time = s.time := (useat.frame .time (by decide)).trans (hfp .time (by decide))
  have hparams : u.mgmt = s.mgmt := (useat.frame .mgmt (by decide)).trans (hfp .mgmt (by decide))
  have hfresh : ({ m.context now with list := l } : Context).afterTrying (before.map (·.1.group)) =
      { m.context now with list := l, tried := before.map (·.1.group) } := by
    by_cases hb : before = []
    · subst hb; rfl
    · obtain ⟨hlen, -, hnd, -⟩ := hlaw hb
      have hsub : (before.map (·.1.group)).Sublist (list.inTurn.map (·.1.group)) := by
        rw [horder]; exact (List.sublist_append_left _ _).map _
      have hlen' : (before.map (·.1.group)).length ≤ 8 := by
        have h := hsub.length_le
        rw [List.length_map (as := list.inTurn), list.inTurn_perm.length_eq, List.length_zipIdx] at h
        exact h.trans hlen
      exact Context.afterTrying_fresh { m.context now with list := l } _ ((list.inTurn_groups hnd).sublist hsub) hlen'
  obtain ⟨htook, hall⟩ := took_forward (t := u.proceed i ch.group k) ((hfp.mono (by decide)).trans ((useat.frame.mono (by decide)).trans
    (tframe.mono (more := [.ctx, .circ, .routes, .rating, .settle, .fwdOut, .bwdOut]) (by decide)))) (by decide)
  obtain ⟨hcontext, hothers, hctx⟩ := hset
  have hlistt : ∀ j, (u.proceed i ch.group k).routeList j = u.routeList j := tframe.routeList_eq (by decide)
  have hroutest : (u.proceed i ch.group k).routes = u.routes := tframe .routes (by decide)
  have hcirct : (u.proceed i ch.group k).circ = u.circ := tframe .circ (by decide)
  have hcounterst : sp.circ = s.circ := hfp .circ (by decide)
  have hptrs : (if n = 0 then (sp.routeList l).pointerPast before else n) = if n = 0 then list.pointer else n := by
    refine ite_congr rfl (fun hn0 => ?_) fun _ => rfl
    subst hn0
    have hb := list.inTurn_primary horder
    subst hb
    exact spptr
  refine ⟨_, e, htook, ?_, fun j hj => ?_, ?_, fun j hj => ?_, ?_, ?_, ?_, fun j hj => ?_, ?_, fun g hne => ?_, ?_, ?_, ?_,
    fun j hj => ?_, ?_, ?_, ?_, ?_, ?_, ?_, hall⟩
  · rw [hcontext, hfresh, hticks, hparams, alternatesOf_inTurn horder]
    simp [SetupMsg.context]
  · rw [hothers j hj, hcontexts0, if_neg (Ne.symm hj)]
  · rw [State.lookupRef, hctx]
    exact (hrefs0 _).trans (if_pos rfl)
  · rw [State.lookupRef, hctx]
    exact (hrefs0 _).trans (if_neg (Ne.symm hj))
  · rw [hctx]; exact hUse0
  · rw [hctx]; exact hpeak0
  · exact (tframe.circuit_eq (by decide) k).trans useat.circuit
  · exact (tframe.circuit_eq (by decide) j).trans ((useat.circuits j hj).trans (hfp.circuit_eq (by decide) j))
  · exact (tframe.group_eq (by decide) _).trans useat.group
  · exact (tframe.group_eq (by decide) g).trans ((useat.groups g hne).trans (afterFailures_congr (hgrp g)))
  · rw [hcirct, useat.counters, hcounterst]
  · rw [← hsettle]; exact (tframe .settle (by decide)).trans useat.settle
  · rw [hlistt, useat.list, hptrs, plist]
  · rw [hlistt, useat.lists j hj, plists j hj]
  · rw [hroutest, useat.routing, prouting]
  · have hr1 : (u.proceed i ch.group k).rating = u.rating := tframe .rating (by decide)
    rw [hr1, useat.rating, afterQuotes_congr (s := s) (hfp .rating (by decide)) (fun p _ => hgrp _) hcar]
  · rw [tfwd]
    have hf1 : u.fwdOut = s.fwdOut := (useat.frame .fwdOut (by decide)).trans (hfp .fwdOut (by decide))
    rw [hf1, hfresh]
    rfl
  · rw [hctx]; exact hcount0
  · rw [hctx]; exact hoffer0
  · exact (tframe .bwdOut (by decide)).trans ((useat.frame .bwdOut (by decide)).trans (hbwd1.trans hbwd0))

end Sys2Proof.Machine
end

