-- ==== Sys2Proof/Proofs/Reselection.lean ====
section
/-! SUPPORT. The loss of a circuit in Proceeding (R9, R15, R17, R18, R72), and the reselection after it (R14, R71). -/
namespace Sys2Proof.Machine

variable {s t u v : State} {i l n k g : Nat} {c : Context} {now : ExTime} {ch : Choice} {y : Group} {q : Option Quote}
  {r : Circuit} {before later : List (Choice × Nat)} {reason : Nat → Reason} {cause : Cause}

/-! ### The pointer past a lost group (R58, R72) -/

theorem findIdx_group (choices : List Choice) (g : Nat) :
    choices.findIdx? (fun c => decide (c.group = g)) =
      if (choices.map (·.group)).idxOf g < choices.length then some ((choices.map (·.group)).idxOf g) else none := by
  induction choices with
  | nil => rfl
  | cons a as ih =>
    by_cases h : a.group = g
    · simp [List.findIdx?_cons, h]
    · rw [List.findIdx?_cons, ih]
      simp only [List.map_cons, List.idxOf_cons, h, decide_false, beq_iff_eq, Bool.false_eq_true, if_false, List.length_cons,
        cond_eq_ite, Nat.add_lt_add_iff_right]
      split <;> rfl

theorem RouteList.pastLost_eq (r : RouteList) (g : Nat) : r.pastLost g = r.pastGroup g := by
  unfold RouteList.pastLost alternateIndex RouteList.pastGroup
  rw [findIdx_group]
  dsimp only
  generalize (r.choices.map (·.group)).idxOf g = j
  cases j with
  | zero => split <;> simp_all
  | succ j =>
    by_cases h : j + 1 < r.choices.length
    · simp [h, afterAlternate]
    · simp [h]

/-- Only the pointer moves. -/
theorem RouteList.pastGroup_eq (r : RouteList) (g : Nat) : r.pastGroup g = { r with pointer := (r.pastGroup g).pointer } := by
  unfold RouteList.pastGroup; dsimp only; split <;> rfl

theorem RouteList.pastGroup_choiceLaw {r : RouteList} (h : r.choiceLaw) (g : Nat) : (r.pastGroup g).choiceLaw := by
  obtain ⟨h1, h2, h3, h4, h5⟩ := h
  unfold RouteList.pastGroup
  dsimp only
  split
  · refine ⟨h1, h2, h3, ?_, ?_⟩ <;> dsimp only <;> split <;> omega
  · exact ⟨h1, h2, h3, h4, h5⟩

/-! ### The choices that a reselection may examine (R71) -/

theorem Context.addTried_noFurther (c : Context) (g : Nat) :
    (c.addTried g).noFurther = true ↔ c.noFurther = true ∨ (g ∉ c.tried ∧ 8 ≤ c.tried.length) := by
  unfold Context.addTried Config.triedMax
  split
  · simp_all
  · split <;> simp_all

theorem Context.mem_addTried (c : Context) (g : Nat) (h : ¬ (g ∉ c.tried ∧ 8 ≤ c.tried.length)) (j : Nat) :
    j ∈ (c.addTried g).tried ↔ j = g ∨ j ∈ c.tried := by
  unfold Context.addTried Config.triedMax
  by_cases hg : g ∈ c.tried
  · rw [if_pos hg]
    exact ⟨.inr, fun e => e.elim (fun e => e ▸ hg) id⟩
  · rw [if_neg hg, if_neg (fun hl => h ⟨hg, hl⟩)]
    simp [or_comm]

theorem leftFor_marked {r : RouteList} (h : (c.addTried g).noFurther = true) : r.leftFor c g = [] :=
  if_pos ((c.addTried_noFurther g).mp h)

theorem leftFor_unmarked {r : RouteList} (h : (c.addTried g).noFurther = false) :
    eligible (c.addTried g).tried r.budget c.examined (r.pastGroup g).inTurn = r.leftFor c g := by
  have hcond : ¬ (c.noFurther = true ∨ (g ∉ c.tried ∧ 8 ≤ c.tried.length)) := by
    rw [← Context.addTried_noFurther, h]; simp
  obtain ⟨alts, hin, hz, ha⟩ := (r.pastGroup g).inTurn_split
  have hpred : (fun p : Choice × Nat => decide (p.1.group ∉ (c.addTried g).tried)) =
      fun p => decide (p.1.group ≠ g ∧ p.1.group ∉ c.tried) := funext fun p => by
    simp only [Context.mem_addTried c g (fun e => hcond (.inr e)), not_or, ne_eq]
  rw [RouteList.leftFor, if_neg hcond, hin, eligible_primary hz ha, hpred, List.filter_append]
  generalize (fun p : Choice × Nat => decide (p.1.group ≠ g ∧ p.1.group ∉ c.tried)) = pred
  generalize (r.pastGroup g).choices.zipIdx.take 1 = zs at hz
  have hz0 : (zs.filter pred).filter (fun p => decide (p.2 = 0)) = zs.filter pred :=
    List.filter_eq_self.mpr fun p hp => decide_eq_true (hz p (List.mem_of_mem_filter hp))
  have hz1 : (zs.filter pred).filter (fun p => decide (p.2 ≠ 0)) = [] :=
    List.filter_eq_nil_iff.mpr fun p hp => by simp [hz p (List.mem_of_mem_filter hp)]
  have ha0 : (alts.filter pred).filter (fun p => decide (p.2 = 0)) = [] :=
    List.filter_eq_nil_iff.mpr fun p hp => by simp [ha p (List.mem_of_mem_filter hp)]
  have ha1 : (alts.filter pred).filter (fun p => decide (p.2 ≠ 0)) = alts.filter pred :=
    List.filter_eq_self.mpr fun p hp => decide_eq_true (ha p (List.mem_of_mem_filter hp))
  rw [List.filter_append, List.filter_append, hz0, hz1, ha0, ha1, List.append_nil, List.nil_append]

theorem leftFor_group {r : RouteList} {p : Choice × Nat} (h : p ∈ r.leftFor c g) : p.1.group ≠ g := by
  unfold RouteList.leftFor at h
  dsimp only at h
  split at h
  · simp at h
  · have : p ∈ (r.pastGroup g).inTurn.filter fun p => decide (p.1.group ≠ g ∧ p.1.group ∉ c.tried) := by
      rcases List.mem_append.mp h with h | h
      · exact List.mem_of_mem_filter h
      · exact List.mem_of_mem_filter (List.mem_of_mem_take h)
    exact (of_decide_eq_true (List.mem_filter.mp this).2).1

/-- The primary, if it may be examined, comes first. -/
theorem leftFor_primary {r : RouteList} (h : r.leftFor c g = before ++ (ch, 0) :: later) : before = [] := by
  obtain ⟨alts, hin, hz, ha⟩ := (r.pastGroup g).inTurn_split
  cases hm : (c.addTried g).noFurther with
  | true => rw [leftFor_marked hm] at h; simp at h
  | false =>
    rw [← leftFor_unmarked hm, hin, eligible_primary hz ha] at h
    refine primary_first ((List.length_filter_le _ _).trans (List.length_take_le 1 _)) (fun p hp => ?_) h
    exact ha p (List.mem_of_mem_filter (List.mem_of_mem_take hp))

/-! ### A lost circuit (R15, R17, R18, R72) -/

/-- The context that has lost its circuit on group `g`, before its reselection. -/
def Context.lost (c : Context) (g : Nat) (cause : Cause) : Context :=
  { c.addTried g with
    probe := false, quote := none, slot := false, lastCause := some cause, circuit := none, timer := none }

/-- Context `i`, which was `c` on circuit `k` of group `g`, has lost it, and the reselection is next. -/
structure Lost (i : Nat) (c : Context) (g k : Nat) (cause : Cause) (s u : State) : Prop where
  context : ContextSet i (c.lost g cause) s u
  circuits : ∀ j, j ≠ k → u.circuit j = s.circuit j
  groups : ∀ j, j ≠ g → u.group j = s.group j
  counters : u.circ.counters = s.circ.counters
  list : u.routeList c.list = (s.routeList c.list).pastGroup g
  lists : ∀ l, l ≠ c.list → u.routeList l = s.routeList l
  routing : u.routes = { s.routes with lists := u.routes.lists }
  settle : u.settle = { s.settle with reservations := s.settle.reservations - (if c.slot then 1 else 0) }
  frame : OnlyChanges [.bwd, .ctx, .circ, .routes, .settle, .fwdOut, .bwdOut] s u

theorem loseCircuit_of (hset : ContextSet i { c with probe := false } s v) (hp : c.phase = .proceeding)
    (hc : ∀ j, j ≠ k → v.circuit j = s.circuit j) (hg : ∀ j, j ≠ g → v.group j = s.group j)
    (hn : v.circ.counters = s.circ.counters) (hf : OnlyChanges [.bwd, .ctx, .circ, .fwdOut, .bwdOut] s v) (now : ExTime)
    (cause : Cause) :
    Lost i c g k cause s (v.loseCircuit now i c.list g cause)
      ∧ OnlyChanges [.ctx, .routes, .settle] v (v.loseCircuit now i c.list g cause) := by
  let s1 := (v.updContext i fun c => c.addTried g).updList c.list fun r => r.pastLost g
  have e : v.loseCircuit now i c.list g cause =
      (s1.dispose now i).updContext i fun c => { c with lastCause := some cause, circuit := none, timer := none } := rfl
  have f1 : OnlyChanges [.ctx, .routes] v s1 :=
    ((updContext_frame _ _ _).mono (by decide)).trans ((updList_frame _ _ _).mono (by decide))
  have hset1 : ContextSet i (({ c with probe := false } : Context).addTried g) s s1 :=
    (hset.trans (updContext_set hset.1 fun c => c.addTried g)).congr rfl rfl
  have hcomm : ({ c with probe := false } : Context).addTried g = { c.addTried g with probe := false } :=
    Context.addTried_comm (f := fun d => { d with probe := false }) (fun _ _ _ => rfl) c g
  rw [hcomm] at hset1
  have hph : (c.addTried g).phase = .proceeding := (c.addTried_same g).1.trans hp
  have hun : ({ c.addTried g with probe := false } : Context).quote = none
      ∨ ({ c.addTried g with probe := false } : Context).phase ≠ .connected := .inr (by simp [hph])
  obtain ⟨hsettle, f2⟩ := dispose_unrated_settle hset1.1 hun now
  have hset2 := hset1.trans (dispose_set hset1.1 now)
  have hset3 := hset2.trans (updContext_set hset2.1 fun c =>
    { c with lastCause := some cause, circuit := none, timer := none })
  have f3 := updContext_frame (s1.dispose now i) i fun c => { c with lastCause := some cause, circuit := none, timer := none }
  have hall : OnlyChanges [.ctx, .routes, .settle] v (v.loseCircuit now i c.list g cause) :=
    (f1.mono (by decide)).trans ((f2.mono (by decide)).trans (f3.mono (by decide)))
  have hroutes : (v.loseCircuit now i c.list g cause).routes = s1.routes :=
    (f3 .routes (by decide)).trans (f2 .routes (by decide))
  have hrl : ∀ l, (v.loseCircuit now i c.list g cause).routeList l = s1.routeList l := fun l => by
    rw [State.routeList, hroutes]; rfl
  have hvl : ∀ l, v.routeList l = s.routeList l := hf.routeList_eq (by decide)
  have hvr : v.routes = s.routes := hf .routes (by decide)
  have hvs : s1.settle = s.settle := (f1 .settle (by decide)).trans (hf .settle (by decide))
  refine ⟨⟨hset3, fun j hj => (hall.circuit_eq (by decide) j).trans (hc j hj), fun j hj =>
    (hall.group_eq (by decide) j).trans (hg j hj), ?_, ?_, fun l hl => ?_, ?_, ?_, (hf.mono (by decide)).trans
      (hall.mono (by decide))⟩, hall⟩
  · have hcirc : (v.loseCircuit now i c.list g cause).circ = v.circ := hall .circ (by decide)
    rw [hcirc, hn]
  · rw [hrl, ← RouteList.pastLost_eq, ← hvl]
    exact (State.updList_routeList _ _ _ _).trans (if_pos rfl)
  · rw [hrl, ← hvl]
    exact (State.updList_routeList _ _ _ _).trans (if_neg (Ne.symm hl))
  · rw [hroutes, ← hvr]; rfl
  · have h3 : (v.loseCircuit now i c.list g cause).settle = (s1.dispose now i).settle := f3 .settle (by decide)
    rw [h3, hsettle, hvs]
    have hslot : ({ c.addTried g with probe := false } : Context).slot = c.slot := c.addTried_slot g
    rw [hslot]

/-! ### The reselection (R14, R71) -/

/-- The device at the start of the pass of a reselection. -/
def State.reselecting (s : State) (l : Nat) : State := s.countList l fun k => { k with reselections := inc32 k.reselections }

theorem reselecting_list (s : State) (l : Nat) : (s.reselecting l).routeList l = { s.routeList l with
    counters := { (s.routeList l).counters with
      reselections := min ((s.routeList l).counters.reselections + 1) 4294967295 } } :=
  (State.updList_routeList _ _ _ _).trans (if_pos rfl)

theorem reselecting_lists (s : State) {l j : Nat} (h : j ≠ l) : (s.reselecting l).routeList j = s.routeList j :=
  (State.updList_routeList _ _ _ _).trans (if_neg (Ne.symm h))

theorem Context.lost_same (c : Context) (g : Nat) (cause : Cause) :
    (c.lost g cause).list = c.list ∧ (c.lost g cause).priority = c.priority ∧ (c.lost g cause).examined = c.examined
      ∧ (c.lost g cause).tried = (c.addTried g).tried ∧ (c.lost g cause).noFurther = (c.addTried g).noFurther
      ∧ (c.lost g cause).callRef = c.callRef := by
  refine ⟨?_, c.addTried_priority g, c.addTried_examined g, rfl, rfl, c.addTried_callRef g⟩
  simp only [Context.lost, Context.addTried]
  split
  · rfl
  · split <;> rfl

theorem reselect_eq (hc : s.context i = some c) (now : ExTime) (instead : Option Cause) :
    s.reselect now i instead =
      match (s.reselecting c.list).selectionPass now i c.list with
      | (s2, .seized g k) => s2.proceed i g k
      | (s2, .failed reasons) =>
        (s2.countList c.list fun k => { k with reselectionFailures := inc32 k.reselectionFailures }).failCall i
          (instead.getD (passCause reasons c.lastCause)) := by
  simp only [State.reselect, hc]; rfl

theorem failCall_of (hc : s.context i = some c) (cause : Cause) :
    let t := s.failCall i cause
    ContextSet i { c with
      phase := .clearing, circuit := none, probe := false
      timer := some (s.time.ticks + interval s.mgmt.params.tClear) } s t
      ∧ t.bwdOut = s.bwdOut ++ [.release c.callRef cause.value] ∧ OnlyChanges [.ctx, .bwdOut] s t := by
  have e : s.failCall i cause = (s.emitBwd (.release c.callRef cause.value)).startClearing i := by
    simp only [State.failCall, hc]
  dsimp only
  rw [e]
  exact ⟨(startClearing_set (s := s.emitBwd (.release c.callRef cause.value)) hc).congr rfl rfl, rfl,
    ((emitBwd_frame _ _).mono (by decide)).trans ((startClearing_frame _ _).mono (by decide))⟩

theorem passCause_eq (reasons : List Reason) (cause : Cause) :
    passCause reasons (some cause) = if reasons = [] then cause else causeOf reasons := by
  cases reasons with
  | nil => rfl
  | cons a as => simp [passCause, causeOf]

/-- What the pass of a reselection starts from. -/
structure PassStart (i : Nat) (c : Context) (g k : Nat) (cause : Cause) (s u : State) : Prop where
  context : ContextSet i (c.lost g cause) s (u.reselecting c.list)
  circuits : ∀ j, j ≠ k → (u.reselecting c.list).circuit j = s.circuit j
  groups : ∀ j, j ≠ g → (u.reselecting c.list).group j = s.group j
  counters : (u.reselecting c.list).circ.counters = s.circ.counters
  list : (u.reselecting c.list).routeList c.list = { s.routeList c.list with
    pointer := ((s.routeList c.list).pastGroup g).pointer
    counters := { (s.routeList c.list).counters with
      reselections := min ((s.routeList c.list).counters.reselections + 1) 4294967295 } }
  lists : ∀ l, l ≠ c.list → (u.reselecting c.list).routeList l = s.routeList l
  routing : (u.reselecting c.list).routes = { s.routes with lists := (u.reselecting c.list).routes.lists }
  settle : (u.reselecting c.list).settle =
    { s.settle with reservations := s.settle.reservations - (if c.slot then 1 else 0) }
  rating : (u.reselecting c.list).rating = s.rating
  carriers : ∀ id, (u.reselecting c.list).carrier id = s.carrier id
  time : (u.reselecting c.list).time = s.time
  mgmt : (u.reselecting c.list).mgmt = s.mgmt
  frame : OnlyChanges [.routes] u (u.reselecting c.list)

theorem Lost.passStart (h : Lost i c g k cause s u) : PassStart i c g k cause s u where
  context := h.context.congr rfl rfl
  circuits := h.circuits
  groups := h.groups
  counters := h.counters
  list := by rw [reselecting_list, h.list, RouteList.pastGroup_eq]
  lists := fun l hl => (reselecting_lists u hl).trans (h.lists l hl)
  routing := by
    have := h.routing
    change ({ u.routes with lists := _ } : RouteSelector) = _
    rw [this]; rfl
  settle := h.settle
  rating := h.frame .rating (by decide)
  carriers := h.frame.carrier_eq (by decide)
  time := h.frame .time (by decide)
  mgmt := h.frame .mgmt (by decide)
  frame := countList_frame _ _ _

theorem PassStart.slots (h : PassStart i c g k cause s u) : (u.reselecting c.list).settle.slotSum = s.slotsWithout c := by
  rw [h.settle]; rfl

theorem PassStart.inTurn (h : PassStart i c g k cause s u) :
    ((u.reselecting c.list).routeList c.list).inTurn = ((s.routeList c.list).pastGroup g).inTurn := by
  rw [h.list]
  refine RouteList.inTurn_congr ?_ rfl
  rw [RouteList.pastGroup_eq]

theorem PassStart.law (h : PassStart i c g k cause s u) (hl : (s.routeList c.list).choiceLaw) :
    ((u.reselecting c.list).routeList c.list).choiceLaw := by
  refine RouteList.choiceLaw_congr (RouteList.pastGroup_choiceLaw hl g) ?_ ?_ ?_ <;> rw [h.list]
  · rw [RouteList.pastGroup_eq]
  · rw [RouteList.pastGroup_eq]

theorem PassStart.eligible (h : PassStart i c g k cause s u) (hm : (c.addTried g).noFurther = false) :
    eligible (c.lost g cause).tried ((u.reselecting c.list).routeList c.list).budget (c.lost g cause).examined
      ((u.reselecting c.list).routeList c.list).inTurn = (s.routeList c.list).leftFor c g := by
  obtain ⟨-, -, hex, htr, -, -⟩ := c.lost_same g cause
  rw [h.inTurn, h.list, hex, htr]
  exact leftFor_unmarked (r := s.routeList c.list) hm

end Sys2Proof.Machine
end

