-- ==== Sys2Proof/Proofs/ReselectionEnds.lean ====
section
/-! SUPPORT. The two ends of a reselection: no usable choice, or the first usable one (R14, R58, R60, R67, R68, R71, R72). -/
namespace Sys2Proof.Machine

variable {s t u v : State} {i l n k k' g : Nat} {c : Context} {now : ExTime} {ch : Choice} {y : Group} {q : Option Quote}
  {r r' : Circuit} {before later examined : List (Choice × Nat)} {reason : Nat → Reason} {cause : Cause}

/-- The pass of a reselection that finds no usable choice. -/
theorem PassStart.fails (h : PassStart i c g k cause s u)
    (hlaw : (s.routeList c.list).leftFor c g ≠ [] → (s.routeList c.list).choiceLaw)
    (hf : ∀ p ∈ (s.routeList c.list).leftFor c g, FailsBy s now (s.slotsWithout c) c.priority p.2 p.1 (reason p.2)) :
    ∃ v, (u.reselecting c.list).selectionPass now i c.list =
        (v, .failed (((s.routeList c.list).leftFor c g).map fun p => reason p.2))
      ∧ Examined now i c.list (c.lost g cause) ((s.routeList c.list).leftFor c g) reason (u.reselecting c.list) v := by
  obtain ⟨-, hpr, -, -, hmark, -⟩ := c.lost_same g cause
  cases hm : (c.addTried g).noFurther with
  | true =>
    rw [leftFor_marked hm]
    obtain ⟨hpass, hex⟩ := selectionPass_marked (l := c.list) (now := now) h.context.1 (hmark.trans hm) reason
    exact ⟨_, hpass, hex⟩
  | false =>
    refine selectionPass_fails h.context.1 (hmark.trans hm) (fun hne => h.law (hlaw hne)) (h.eligible hm) fun p hp => ?_
    rw [h.slots, hpr]
    exact (hf p hp).congr (h.groups _ (leftFor_group hp)) h.carriers

/-- The context after the tried groups of a pass. -/
theorem Context.lost_afterTrying (c : Context) (g : Nat) (cause : Cause) (gs : List Nat) :
    (c.lost g cause).afterTrying gs = { c.afterTrying (g :: gs) with
      probe := false, quote := none, slot := false, lastCause := some cause, circuit := none, timer := none } := by
  rw [Context.afterTrying_cons]
  exact Context.afterTrying_comm (f := fun d : Context => { d with
    probe := false, quote := none, slot := false, lastCause := some cause, circuit := none, timer := none })
    (fun _ _ _ => rfl) (c.addTried g) gs

theorem Context.afterTrying_same (c : Context) (gs : List Nat) :
    (c.afterTrying gs).callRef = c.callRef ∧ (c.afterTrying gs).inCircuit = c.inCircuit
      ∧ (c.afterTrying gs).category = c.category ∧ (c.afterTrying gs).priority = c.priority
      ∧ (c.afterTrying gs).number = c.number ∧ (c.afterTrying gs).phase = c.phase := by
  induction gs generalizing c with
  | nil => exact ⟨rfl, rfl, rfl, rfl, rfl, rfl⟩
  | cons g gs ih =>
    rw [Context.afterTrying_cons]
    obtain ⟨h1, h2, h3, h4, h5, h6⟩ := ih (c.addTried g)
    have hadd : (c.addTried g).callRef = c.callRef ∧ (c.addTried g).inCircuit = c.inCircuit
        ∧ (c.addTried g).category = c.category ∧ (c.addTried g).priority = c.priority
        ∧ (c.addTried g).number = c.number ∧ (c.addTried g).phase = c.phase := by
      unfold Context.addTried
      split
      · exact ⟨rfl, rfl, rfl, rfl, rfl, rfl⟩
      · split <;> exact ⟨rfl, rfl, rfl, rfl, rfl, rfl⟩
    obtain ⟨a1, a2, a3, a4, a5, a6⟩ := hadd
    exact ⟨h1.trans a1, h2.trans a2, h3.trans a3, h4.trans a4, h5.trans a5, h6.trans a6⟩

/-- A reselection that finds no usable choice releases the call (R14). -/
theorem reselect_fails (hl : Lost i c g k cause s u)
    (hlaw : (s.routeList c.list).leftFor c g ≠ [] → (s.routeList c.list).choiceLaw)
    (hf : ∀ p ∈ (s.routeList c.list).leftFor c g, FailsBy s now (s.slotsWithout c) c.priority p.2 p.1 (reason p.2))
    (instead : Option Cause) :
    let examined := (s.routeList c.list).leftFor c g
    let t := u.reselect now i instead
    LeftWithoutChoice i c g k cause examined reason now s t ∧ t.circuit k = u.circuit k ∧ t.group g = u.group g
      ∧ t.bwdOut = u.bwdOut ++ [.release c.callRef
          (instead.getD (if examined = [] then cause else causeOf (examined.map fun p => reason p.2))).value]
      ∧ OnlyChanges [.ctx, .circ, .routes, .rating, .bwdOut] u t := by
  have h := hl.passStart
  obtain ⟨v, hpass, hex⟩ := h.fails hlaw hf
  obtain ⟨hlist, -, hexam, -, -, href⟩ := c.lost_same g cause
  have hleft : ∀ p ∈ (s.routeList c.list).leftFor c g, p.1.group ≠ g := fun p hp => leftFor_group hp
  have hnotin : g ∉ ((s.routeList c.list).leftFor c g).map (·.1.group) := fun hm => by
    obtain ⟨p, hp, e⟩ := List.mem_map.mp hm
    exact hleft p hp e
  dsimp only
  generalize (s.routeList c.list).leftFor c g = examined at hpass hex hleft hnotin ⊢
  let w := v.countList c.list fun k => { k with reselectionFailures := inc32 k.reselectionFailures }
  let final := instead.getD (passCause (examined.map fun p => reason p.2) (some cause))
  have e : u.reselect now i instead = w.failCall i final := by
    rw [reselect_eq hl.context.1, hlist, hpass]; rfl
  have hcw : w.context i = some { (c.lost g cause).afterTrying (examined.map (·.1.group)) with
      examined := (c.lost g cause).examined + alternatesOf examined } := hex.context.1
  obtain ⟨tset, tout, tframe⟩ := failCall_of hcw final
  have fw : OnlyChanges [.routes] v w := countList_frame _ _ _
  have fall : OnlyChanges [.ctx, .circ, .routes, .rating, .bwdOut] u (u.reselect now i instead) := by
    rw [e]
    exact (h.frame.mono (by decide)).trans ((hex.frame.mono (by decide)).trans ((fw.mono (by decide)).trans
      (tframe.mono (by decide))))
  have hgt : ∀ j, (u.reselect now i instead).group j = v.group j := fun j => by
    rw [e]; exact (tframe.group_eq (by decide) j).trans (fw.group_eq (by decide) j)
  have hct : ∀ j, (u.reselect now i instead).circuit j = u.circuit j := fun j => by
    rw [e]
    exact (tframe.circuit_eq (by decide) j).trans ((fw.circuit_eq (by decide) j).trans ((hex.circuits j).trans rfl))
  have hrt : ∀ j, (u.reselect now i instead).routeList j = w.routeList j := fun j => by
    rw [e]; exact tframe.routeList_eq (by decide) j
  refine ⟨⟨?_, fun j hj => (hct j).trans (hl.circuits j hj), fun j hj => ?_, ?_, ?_, fun j hj => ?_, ?_, ?_, ?_⟩, hct k, ?_, ?_,
    fall⟩
  · have hset := h.context.trans (hex.context.trans (tset.congr (s' := v) rfl rfl))
    have hticks : w.time = s.time := (fw .time (by decide)).trans ((hex.frame .time (by decide)).trans h.time)
    have hparams : w.mgmt = s.mgmt := (fw .mgmt (by decide)).trans ((hex.frame .mgmt (by decide)).trans h.mgmt)
    rw [hticks, hparams, hexam, Context.lost_afterTrying] at hset
    rw [e]
    exact hset
  · rw [hgt, hex.groups]
    exact afterFailures_congr (h.groups j hj)
  · have h1 : (u.reselect now i instead).circ = v.circ := by
      rw [e]; exact (tframe .circ (by decide)).trans (fw .circ (by decide))
    rw [h1, hex.counters, h.counters]
  · rw [hrt]
    refine (State.updList_routeList _ _ _ _).trans ((if_pos rfl).trans ?_)
    have hpast : ((s.routeList c.list).pastGroup g).choices = (s.routeList c.list).choices := by rw [RouteList.pastGroup_eq]
    have hptr : ((u.reselecting c.list).routeList c.list).pointerPast examined =
        ((s.routeList c.list).pastGroup g).pointerPast examined := by
      rw [h.list, RouteList.pointerPast, RouteList.pointerPast, hpast]
    rw [hex.list, hptr, h.list]
    rfl
  · rw [hrt]
    exact (State.updList_routeList _ _ _ _).trans ((if_neg (Ne.symm hj)).trans ((hex.lists j hj).trans (h.lists j hj)))
  · have h1 : (u.reselect now i instead).routes = w.routes := by rw [e]; exact tframe .routes (by decide)
    have h2 : w.routes = { v.routes with lists := w.routes.lists } := rfl
    rw [h1, h2, hex.routing, h.routing]
  · have h1 : (u.reselect now i instead).settle = u.settle := fall .settle (by decide)
    rw [h1, hl.settle]
  · have h1 : (u.reselect now i instead).rating = v.rating := by
      rw [e]; exact (tframe .rating (by decide)).trans (fw .rating (by decide))
    rw [h1, hex.rating]
    exact afterQuotes_congr h.rating (fun p hp => h.groups _ (hleft p (List.mem_of_mem_filter hp))) h.carriers
  · rw [hgt, hex.group_of_notMem hnotin]; rfl
  · have hb : w.bwdOut = u.bwdOut := (fw .bwdOut (by decide)).trans (hex.frame .bwdOut (by decide))
    have hcr : ({ (c.lost g cause).afterTrying (examined.map (·.1.group)) with
        examined := (c.lost g cause).examined + alternatesOf examined } : Context).callRef = c.callRef :=
      ((c.lost g cause).afterTrying_same _).1.trans href
    rw [e, tout, hb, hcr]
    simp only [final, passCause_eq, List.map_eq_nil_iff]

/-- A reselection that finds a usable choice seizes on it (R14, R68). -/
theorem reselect_seizes (hl : Lost i c g k cause s u) (hfree : ∀ r, s.circuit k = some r → r.cls ≠ .free)
    (hlaw : before ≠ [] → (s.routeList c.list).choiceLaw)
    (hleft : (s.routeList c.list).leftFor c g = before ++ (ch, n) :: later)
    (hf : ∀ p ∈ before, FailsBy s now (s.slotsWithout c) c.priority p.2 p.1 (reason p.2))
    (hp : Passes s now (s.slotsWithout c) c.priority n ch y q) (hph : c.phase = .proceeding)
    (hhunt : y.hunt = some k') (hk : s.circuit k' = some r') (hg : r'.group = ch.group) (hr : r'.cls = .free)
    (instead : Option Cause) :
    let t := u.reselect now i instead
    Reseized i c g k cause before reason n ch k' r' y q now s t ∧ t.circuit k = u.circuit k ∧ t.group g = u.group g
      ∧ t.fwdOut = u.fwdOut ++ [.setup k' ch.group c.inCircuit c.category c.priority c.number]
      ∧ OnlyChanges [.ctx, .circ, .routes, .rating, .settle, .fwdOut] u t := by
  have h := hl.passStart
  obtain ⟨hlist, hpr, hexam, -, hmark, -⟩ := c.lost_same g cause
  have hgroups : ∀ p ∈ before ++ (ch, n) :: later, p.1.group ≠ g := fun p hm => leftFor_group (hleft ▸ hm)
  have hch : ch.group ≠ g := hgroups (ch, n) (by simp)
  have hbefore : ∀ p ∈ before, p.1.group ≠ g := fun p hm => hgroups p (List.mem_append_left _ hm)
  have hne : k' ≠ k := fun e => hfree r' (e ▸ hk) hr
  have hm : (c.addTried g).noFurther = false := by
    cases hm : (c.addTried g).noFurther with
    | false => rfl
    | true => rw [leftFor_marked hm] at hleft; simp at hleft
  obtain ⟨v, hpass, hseat⟩ := selectionPass_seizes (now := now) (reason := reason) (q := q) (y := y) h.context.1 (hmark.trans hm)
    (fun hb => h.law (hlaw hb)) ((h.eligible hm).trans hleft)
    (fun p hp => by rw [h.slots, hpr]; exact (hf p hp).congr (h.groups _ (hbefore p hp)) h.carriers)
    (by rw [h.slots, hpr]; exact hp.congr (h.groups _ hch) h.carriers) hhunt ((h.circuits k' hne).trans hk) hg hr
  have e : u.reselect now i instead = v.proceed i ch.group k' := by
    rw [reselect_eq hl.context.1, hlist, hpass]
  obtain ⟨tset, tout, tframe⟩ := proceed_of hseat.context.1 ch.group k'
  dsimp only
  have hct : ∀ j, (u.reselect now i instead).circuit j = v.circuit j := fun j => by
    rw [e]; exact tframe.circuit_eq (by decide) j
  have hgt : ∀ j, (u.reselect now i instead).group j = v.group j := fun j => by
    rw [e]; exact tframe.group_eq (by decide) j
  have hrt : ∀ j, (u.reselect now i instead).routeList j = v.routeList j := fun j => by
    rw [e]; exact tframe.routeList_eq (by decide) j
  have fall : OnlyChanges [.ctx, .circ, .routes, .rating, .settle, .fwdOut] u (u.reselect now i instead) := by
    rw [e]
    exact (h.frame.mono (by decide)).trans ((hseat.frame.mono (by decide)).trans (tframe.mono (by decide)))
  refine ⟨⟨?_, (hct k').trans hseat.circuit, fun j hj hj' => ?_, (hgt _).trans hseat.group, fun j hj hj' => ?_, ?_, ?_,
    fun j hj => ?_, ?_, ?_, ?_⟩, ?_, ?_, ?_, fall⟩
  · have hset := h.context.trans (hseat.context.trans tset)
    have hticks : v.time = s.time := (hseat.frame .time (by decide)).trans h.time
    have hparams : v.mgmt = s.mgmt := (hseat.frame .mgmt (by decide)).trans h.mgmt
    rw [hticks, hparams, hexam, Context.lost_afterTrying] at hset
    rw [e]
    convert hset using 2
    exact (c.afterTrying_same _).2.2.2.2.2.trans hph
  · exact (hct j).trans ((hseat.circuits j hj').trans (h.circuits j hj))
  · exact (hgt j).trans ((hseat.groups j hj').trans (afterFailures_congr (h.groups j hj)))
  · have h1 : (u.reselect now i instead).circ = v.circ := by rw [e]; exact tframe .circ (by decide)
    rw [h1, hseat.counters, h.counters]
  · have hptr : (if n = 0 then ((u.reselecting c.list).routeList c.list).pointerPast before else n) =
        if n = 0 then ((s.routeList c.list).pastGroup g).pointer else n := by
      refine ite_congr rfl (fun hn0 => ?_) fun _ => rfl
      subst hn0
      have hb := leftFor_primary hleft
      subst hb
      rw [h.list]; rfl
    rw [hrt, hseat.list, hptr, h.list]
  · rw [hrt, hseat.lists j hj, h.lists j hj]
  · have h1 : (u.reselect now i instead).routes = v.routes := by rw [e]; exact tframe .routes (by decide)
    rw [h1, hseat.routing, h.routing]
  · have h1 : (u.reselect now i instead).settle = v.settle := by rw [e]; exact tframe .settle (by decide)
    rw [h1, hseat.settle, h.settle]
  · have h1 : (u.reselect now i instead).rating = v.rating := by rw [e]; exact tframe .rating (by decide)
    rw [h1, hseat.rating]
    refine afterQuotes_congr h.rating (fun p hp => h.groups _ ?_) h.carriers
    rcases List.mem_append.mp hp with hp | hp
    · exact hbefore p (List.mem_of_mem_filter hp)
    · rw [List.mem_singleton.mp hp]; exact hch
  · exact (hct k).trans (hseat.circuits k (Ne.symm hne))
  · rw [hgt, hseat.groups g (Ne.symm hch), afterFailures_of_notMem]
    · rfl
    · intro hmem
      obtain ⟨p, hp, e⟩ := List.mem_map.mp hmem
      exact hbefore p hp e
  · have hf1 : v.fwdOut = u.fwdOut := hseat.frame .fwdOut (by decide)
    obtain ⟨-, a2, a3, a4, a5, -⟩ := c.afterTrying_same (g :: before.map (·.1.group))
    rw [e, tout, hf1, Context.lost_afterTrying]
    dsimp only
    rw [a2, a3, a4, a5]

end Sys2Proof.Machine
end

