-- ==== Sys2Proof/Proofs/LossEvents.lean ====
section
/-! SUPPORT and CERTIFICATES. The three ways to lose a circuit in Proceeding (R15, R17, R18), each with the two ends of its
reselection (R14). -/
namespace Sys2Proof.Machine

variable {s t u v : State} {f : Frame} {rest : List Frame} {i l n k g : Nat} {c : Context} {now : ExTime} {x y : Group}
  {r : Circuit} {cause : Cause}

theorem failReport_of_fields (hh : y.mon.health = x.mon.health) (hf : y.mon.failCount = x.mon.failCount) (hc : y.cfg = x.cfg)
    (g : Nat) (now : ExTime) : failReport y g now = failReport x g now := by rw [failReport, failReport, hh, hf, hc]

/-- What the loss of a circuit leaves before the reselection: circuit and group as given, the messages as given. -/
structure LossLeaves (i : Nat) (c : Context) (g k : Nat) (cause : Cause) (r' : Circuit) (x' : Group)
    (forward backward : List OutMsg) (parts : List Part) (s u : State) : Prop where
  lost : Lost i c g k cause s u
  circuit : u.circuit k = some r'
  group : u.group g = some x'
  fwdOut : u.fwdOut = s.fwdOut ++ forward
  bwdOut : u.bwdOut = s.bwdOut ++ backward
  frame : OnlyChanges (.routes :: .settle :: parts) s u

/-- The loss after the moves of the circuit and the reports. -/
theorem lossLeaves_of {r' : Circuit} {x' : Group} {forward backward : List OutMsg} {parts : List Part}
    (hset : ContextSet i { c with probe := false } s v) (hp : c.phase = .proceeding)
    (hm : CircuitMoved k r r' x' s v) (hf : OnlyChanges parts s v)
    (hctx : Part.ctx ∈ parts) (hparts : parts ⊆ [.ctx, .circ, .fwdOut, .bwdOut])
    (hfwd : v.fwdOut = s.fwdOut ++ forward) (hbwd : v.bwdOut = s.bwdOut ++ backward) (now : ExTime) (cause : Cause) :
    LossLeaves i c r.group k cause r' x' forward backward parts s (v.loseCircuit now i c.list r.group cause) := by
  obtain ⟨hlost, hlf⟩ := loseCircuit_of (g := r.group) hset hp hm.others hm.groups hm.counters
    ((hf.mono hparts).mono (by decide)) now cause
  exact ⟨hlost, (hlf.circuit_eq (by decide) k).trans hm.circuit, (hlf.group_eq (by decide) _).trans hm.group,
    (hlf .fwdOut (by decide)).trans hfwd, (hlf .bwdOut (by decide)).trans hbwd,
    (hf.mono (by simp)).trans (hlf.mono (by simp [hctx]))⟩

/-- The taking of the message before the loss. -/
theorem LossLeaves.took {r' : Circuit} {x' : Group} {forward backward : List OutMsg} {parts : List Part}
    (h : LossLeaves i c g k cause r' x' forward backward parts (s.took .backward rest) u) : Lost i c g k cause s u where
  context := h.lost.context.congr rfl rfl
  circuits := h.lost.circuits
  groups := h.lost.groups
  counters := h.lost.counters
  list := h.lost.list
  lists := h.lost.lists
  routing := h.lost.routing
  settle := h.lost.settle
  frame := ((withPort_backward_frame s _).mono (by decide)).trans h.lost.frame

/-! ### A crankback (R15) -/

/-- The device after a crankback, before the reselection. -/
def State.crankedBack (s : State) (i g k : Nat) (cause : Cause) (c : Context) : State :=
  let s1 := ((s.emitFwd (.releaseConfirm k)).enterGuard s.time.now k).updTraffic g Traffic.overflow
  ((if cause = .circuitUnavailable then s1.healthFailure s.time.now g else s1).endProbe i g).loseCircuit s.time.now i c.list g
    cause

theorem crankedBack_of (hc : s.context i = some c) (hp : c.phase = .proceeding) (hk : s.circuit k = some r)
    (hcond : r.cond = .seized i) (hx : s.group r.group = some x) (cause : Cause) :
    let x' := x.rested k (r.remote || r.localBlock) { x.counts with seized := x.counts.seized - 1 }
    let lost := { x.mon with traffic := { x.mon.traffic with
      overflows := min (x.mon.traffic.overflows + 1) 4294967295 } }
    LossLeaves i c r.group k cause { r with cond := x.restCondition s.time.ticks }
      { x'.reported with
        mon := probeLost c.probe (s.time.ticks + x.cfg.probeInterval * 100)
          (if cause = .circuitUnavailable then failing x.cfg.theta lost else lost) }
      [.releaseConfirm k]
      (x'.drainReport r.group s.time.now
        ++ (if cause = .circuitUnavailable then failReport x r.group s.time.now else []))
      [.ctx, .circ, .fwdOut, .bwdOut] s (s.crankedBack i r.group k cause c) := by
  let s0 := s.emitFwd (.releaseConfirm k)
  obtain ⟨hmoved, hout⟩ := enterGuard_of_seized (s := s0) hk hx hcond s.time.now
  have h1 := enterGuard_frame s0 s.time.now k
  have hcfg := x.rested_cfg k (r.remote || r.localBlock) { x.counts with seized := x.counts.seized - 1 }
  have hmon := x.rested_mon k (r.remote || r.localBlock) { x.counts with seized := x.counts.seized - 1 }
  dsimp only at hmoved hout ⊢
  generalize x.rested k (r.remote || r.localBlock) { x.counts with seized := x.counts.seized - 1 } = x' at *
  have hmoved1 := hmoved.groupSet (updTraffic_groupSet hmoved.group Traffic.overflow)
  have h2 : OnlyChanges [.circ, .bwdOut] s0 ((s0.enterGuard s.time.now k).updTraffic r.group Traffic.overflow) :=
    h1.trans ((updTraffic_frame _ _ _).mono (by decide))
  have hb1 : ((s0.enterGuard s.time.now k).updTraffic r.group Traffic.overflow).bwdOut =
      s.bwdOut ++ x'.drainReport r.group s.time.now := hout
  have e : s.crankedBack i r.group k cause c =
      ((if cause = .circuitUnavailable then
          ((s0.enterGuard s.time.now k).updTraffic r.group Traffic.overflow).healthFailure s.time.now r.group
        else (s0.enterGuard s.time.now k).updTraffic r.group Traffic.overflow).endProbe i r.group).loseCircuit s.time.now i
          c.list r.group cause := rfl
  rw [e]
  generalize (s0.enterGuard s.time.now k).updTraffic r.group Traffic.overflow = s1 at *
  have hc1 : s1.context i = some c := (h2.context_eq (by decide) i).trans hc
  obtain ⟨hset, hgs, hrep, h3⟩ := endReports_of (cause = .circuitUnavailable) hc1 hmoved1.group s.time.now
  have htime : s1.time = s.time := h2 .time (by decide)
  have hreport : failReport { x'.reported with mon := { x'.reported.mon with traffic := x'.reported.mon.traffic.overflow } }
      r.group s.time.now = failReport x r.group s.time.now :=
    failReport_of_fields (by rw [← hmon]) (by rw [← hmon]) hcfg r.group s.time.now
  rw [hreport] at hrep
  simp only [Group.reported_cfg, Group.reported_mon, hcfg, hmon, htime] at hgs
  simp only [Group.reported_cfg, hcfg]
  refine lossLeaves_of (s := s) (parts := [.ctx, .circ, .fwdOut, .bwdOut]) (hset.congr (h2 .ctx (by decide)).symm rfl) hp ((hmoved1.groupSet hgs).congr rfl rfl) ?_ (by decide) (by decide) ?_ ?_ _ _
  · exact ((emitFwd_frame _ _).mono (by decide)).trans ((h2.mono (by decide)).trans (h3.mono (by decide)))
  · exact (h3 .fwdOut (by decide)).trans (h2 .fwdOut (by decide))
  · rw [hrep, hb1, List.append_assoc]

/-- FAR_RELEASE of a crankback cause in Proceeding. -/
theorem farRelease_crankback (hh : s.headed .backward 0x04 f rest) (hf : keyOf f % 16384 = k) (hc : s.context i = some c)
    (hp : c.phase = .proceeding) (hs : c.circuit = some (g, k)) (hk : s.circuit k = some r) (hcond : r.cond = .seized i)
    (hcause : (kindByteOf f = 4 ∧ cause = .congestion) ∨ (kindByteOf f = 17 ∧ cause = .circuitUnavailable)) :
    exec .farRelease s =
      .next (((s.took .backward rest).crankedBack i g k cause c).reselect s.time.now i none) := by
  have hk0 : (s.took .backward rest).circuit k = some r := hk
  have hc0 : (s.took .backward rest).context i = some c := hc
  refine congrArg Host.Outcome.next ((takeKind_of hh).trans ((onCircuit_of hf hk0).trans ?_))
  have hcb : crankbackCause (kindByteOf f) = some cause := by
    rcases hcause with ⟨h, rfl⟩ | ⟨h, rfl⟩ <;> rw [h] <;> rfl
  simp only [hcond, State.contextRelease]
  change (match (s.took .backward rest).context i with | none => _ | some c => _) = _
  simp only [hc0, hs, hp, hcb]
  rfl

/-! ### A glare loss (R18, R43) -/

/-- The device after a glare loss, before the reselection. -/
def State.glareGiven (s : State) (i g k : Nat) (c : Context) : State :=
  (((s.farTakes k).updTraffic g Traffic.glareLoss).endProbe i g).loseCircuit s.time.now i c.list g .congestion

theorem glareLost_eq (s : State) (i g k : Nat) (c : Context) :
    (s.farTakes k).glareLost i g c = (s.glareGiven i g k c).reselect s.time.now i (some .congestion) := by
  have htime : (s.farTakes k).time = s.time := recast_frame s k _ .time (by decide)
  simp only [State.glareLost, htime]; rfl

theorem farTakes_moved (hk : s.circuit k = some r) (hcond : r.cond = .seized i) (hx : s.group r.group = some x) :
    CircuitMoved k r { r with cond := .farSeized }
      { x with counts := { x.counts with seized := x.counts.seized - 1, farSeized := x.counts.farSeized + 1 } } s
      (s.farTakes k) := by
  have h := recast_moved (fun x => { x with cond := .farSeized }) hk hx
  rw [Circuit.cls_of_seized hcond] at h
  exact h

theorem glareGiven_of (hc : s.context i = some c) (hp : c.phase = .proceeding) (hk : s.circuit k = some r)
    (hcond : r.cond = .seized i) (hx : s.group r.group = some x) :
    LossLeaves i c r.group k .congestion { r with cond := .farSeized }
      { x with
        counts := { x.counts with seized := x.counts.seized - 1, farSeized := x.counts.farSeized + 1 }
        mon := probeLost c.probe (s.time.ticks + x.cfg.probeInterval * 100) { x.mon with traffic := { x.mon.traffic with
          glareLosses := min (x.mon.traffic.glareLosses + 1) 4294967295 } } }
      [] [] [.ctx, .circ] s (s.glareGiven i r.group k c) := by
  have hmoved := farTakes_moved hk hcond hx
  have hmoved1 := hmoved.groupSet (updTraffic_groupSet hmoved.group Traffic.glareLoss)
  have h1 : OnlyChanges [.circ] s ((s.farTakes k).updTraffic r.group Traffic.glareLoss) :=
    (recast_frame _ _ _).trans (updTraffic_frame _ _ _)
  have e : s.glareGiven i r.group k c = (((s.farTakes k).updTraffic r.group Traffic.glareLoss).endProbe i r.group).loseCircuit
      s.time.now i c.list r.group .congestion := rfl
  rw [e]
  generalize (s.farTakes k).updTraffic r.group Traffic.glareLoss = s1 at *
  have hc1 : s1.context i = some c := (h1.context_eq (by decide) i).trans hc
  have hset := endProbe_set hc1 r.group
  have hgs := (endProbe_of hc1 hmoved1.group).1
  have h2 := endProbe_frame s1 i r.group
  have htime : s1.time = s.time := h1 .time (by decide)
  rw [htime] at hgs
  refine lossLeaves_of (parts := [.ctx, .circ]) (hset.congr (h1 .ctx (by decide)).symm rfl) hp (hmoved1.groupSet hgs) ?_ (by decide)
    (by decide) ?_ ?_ _ _
  · exact (h1.mono (by decide)).trans h2
  · rw [List.append_nil]; exact (h2 .fwdOut (by decide)).trans (h1 .fwdOut (by decide))
  · rw [List.append_nil]; exact (h2 .bwdOut (by decide)).trans (h1 .bwdOut (by decide))

/-- FAR_SEIZE on a Seized circuit of a Yielding group. -/
theorem farSeize_glare (hh : s.headed .backward 0x0C f rest) (hf : keyOf f % 16384 = k) (hc : s.context i = some c)
    (hp : c.phase = .proceeding) (hk : s.circuit k = some r) (hcond : r.cond = .seized i) (hx : s.group r.group = some x)
    (hd : x.cfg.direction = .bothWay) (hy : x.cfg.glare = .yielding) :
    exec .farSeize s =
      .next (((s.took .backward rest).glareGiven i r.group k c).reselect s.time.now i (some .congestion)) := by
  have hk0 : (s.took .backward rest).circuit k = some r := hk
  have hc0 : (s.took .backward rest).context i = some c := hc
  have hx0 : (s.took .backward rest).group r.group = some x := hx
  refine congrArg Host.Outcome.next ((takeKind_of hh).trans ((onCircuit_of hf hk0).trans ?_))
  have hg : (s.took .backward rest).farSeize k r = (s.took .backward rest).glare i k x r.group := by
    simp only [State.farSeize, hx0, hd, hcond]
  refine hg.trans ?_
  simp only [State.glare, hc0, hp, if_true, hy]
  exact glareLost_eq _ i r.group k c

/-! ### A T-proceed expiry (R17) -/

/-- The device after a T-proceed expiry, before the reselection. -/
def State.unanswered (s : State) (i g k : Nat) (c : Context) : State :=
  ((((s.emitFwd (.release k Cause.noResponse.value)).enterReleasing k).healthFailure s.time.tickTime g).endProbe i
    g).loseCircuit s.time.tickTime i c.list g .noResponse

theorem unanswered_of (hc : s.context i = some c) (hp : c.phase = .proceeding) (hk : s.circuit k = some r)
    (hcond : r.cond = .seized i) (hx : s.group r.group = some x) :
    LossLeaves i c r.group k .noResponse { r with cond := .releasing (s.time.ticks + interval s.mgmt.params.tClear) }
      { x with
        counts := { x.counts with seized := x.counts.seized - 1, releasing := x.counts.releasing + 1 }
        mon := probeLost c.probe (s.time.ticks + x.cfg.probeInterval * 100) (failing x.cfg.theta x.mon) }
      [.release k 11] (failReport x r.group s.time.tickTime) [.ctx, .circ, .fwdOut, .bwdOut] s
      (s.unanswered i r.group k c) := by
  let s0 := s.emitFwd (.release k Cause.noResponse.value)
  have hmoved := enterReleasing_moved (s := s0) hk hcond hx
  have h1 := enterReleasing_frame s0 k
  have e : s.unanswered i r.group k c = (((s0.enterReleasing k).healthFailure s.time.tickTime r.group).endProbe i
      r.group).loseCircuit s.time.tickTime i c.list r.group .noResponse := rfl
  rw [e]
  generalize s0.enterReleasing k = s1 at *
  have hc1 : s1.context i = some c := (h1.context_eq (by decide) i).trans hc
  obtain ⟨hset, hgs, hrep, h2⟩ := endReports_of True hc1 hmoved.group s.time.tickTime
  simp only [if_true] at hset hgs hrep h2
  have htime : s1.time = s.time := h1 .time (by decide)
  rw [htime] at hgs
  have hrep' : _ = s1.bwdOut ++ failReport x r.group s.time.tickTime := hrep
  refine lossLeaves_of (s := s) (parts := [.ctx, .circ, .fwdOut, .bwdOut]) (hset.congr (h1 .ctx (by decide)).symm rfl) hp ((hmoved.groupSet hgs).congr rfl rfl) ?_ (by decide) (by decide) ?_ ?_ _ _
  · exact ((emitFwd_frame _ _).mono (by decide)).trans ((h1.mono (by decide)).trans (h2.mono (by decide)))
  · exact (h2 .fwdOut (by decide)).trans (h1 .fwdOut (by decide))
  · exact hrep'.trans (congrArg (· ++ _) (h1 .bwdOut (by decide)))

theorem tProceedExpiry_due {d : Nat} (hc : s.context i = some c) (hp : c.phase = .proceeding) (hs : c.circuit = some (g, k))
    (ht : c.timer = some d) (hd : d ≤ s.time.ticks) :
    exec (.tProceedExpiry i) s = .next ((s.unanswered i g k c).reselect s.time.tickTime i (some .noResponse)) := by
  refine congrArg Host.Outcome.next ?_
  simp only [State.expireProceed, hc, hp, hs, ht, timerDue, hd, decide_true]
  rfl

/-! ### The two statements -/

/-- Settles O22: each loss leaves its circuit and group, and the reselection that may use nothing releases the call. -/
theorem lossWithoutUsableChoiceReleasesCall : Obligations.LossWithoutUsableChoiceReleasesCall := by
  unfold Obligations.LossWithoutUsableChoiceReleasesCall
  intro s i c g k r x reason ⟨hc, hs, hk, hcond, hg, hx⟩ hp examined hlaw allFail due
  subst hg
  refine ⟨fun f rest cause hh hf hcause hall => ?_, fun f rest hh hf hd hy hall => ?_, fun d ht hd hall => ?_⟩
  · have e := farRelease_crankback hh hf hc hp hs hk hcond hcause
    have hloss := crankedBack_of (s := s.took .backward rest) hc hp hk hcond hx cause
    have h17 : kindByteOf f = 17 ↔ cause = .circuitUnavailable := by
      rcases hcause with ⟨h, rfl⟩ | ⟨h, rfl⟩ <;> simp [h]
    obtain ⟨hleft, hct, hgt, hbwd, hfr⟩ := reselect_fails hloss.took hlaw hall none
    obtain ⟨htook, hframe⟩ := took_backward ((hloss.frame.mono (by decide)).trans
      (hfr.mono (more := [.ctx, .circ, .routes, .rating, .settle, .fwdOut, .bwdOut]) (by decide))) (by decide)
    refine ⟨_, e, htook, hleft, hct.trans hloss.circuit, ?_, (hfr .fwdOut (by decide)).trans hloss.fwdOut, ?_, hframe⟩
    · simp only [h17]; exact hgt.trans hloss.group
    · simp only [h17]
      rw [hbwd, hloss.bwdOut, ← List.append_assoc]; rfl
  · have e := farSeize_glare hh hf hc hp hk hcond hx hd hy
    have hloss := glareGiven_of (s := s.took .backward rest) hc hp hk hcond hx
    obtain ⟨hleft, hct, hgt, hbwd, hfr⟩ := reselect_fails hloss.took hlaw hall (some .congestion)
    obtain ⟨htook, hframe⟩ := took_backward ((hloss.frame.mono (by decide)).trans
      (hfr.mono (more := [.ctx, .circ, .routes, .rating, .settle, .bwdOut]) (by decide))) (by decide)
    refine ⟨_, e, htook, hleft, hct.trans hloss.circuit, hgt.trans hloss.group, ?_, hframe⟩
    rw [hbwd, hloss.bwdOut, List.append_nil]; rfl
  · have e := tProceedExpiry_due hc hp hs ht hd
    have hloss := unanswered_of hc hp hk hcond hx
    obtain ⟨hleft, hct, hgt, hbwd, hfr⟩ := reselect_fails hloss.lost hlaw hall (some .noResponse)
    exact ⟨_, e, hleft, hct.trans hloss.circuit, hgt.trans hloss.group, (hfr .fwdOut (by decide)).trans hloss.fwdOut,
      hbwd.trans (congrArg (· ++ _) hloss.bwdOut), (hloss.frame.mono (by decide)).trans (hfr.mono (by decide))⟩

/-- Settles O23: each loss leaves its circuit and group, and the reselection seizes on the first usable choice. -/
theorem lossReseizesOnFirstUsableChoice : Obligations.LossReseizesOnFirstUsableChoice := by
  unfold Obligations.LossReseizesOnFirstUsableChoice
  intro s i c g k r x before later ch n reason y k' r' q ⟨hc, hs, hk, hcond, hg, hx⟩ hp hlaw hleft hhunt hk' hg' hr' slots passes
    onward due
  subst hg
  have hfree : ∀ r₁, s.circuit k = some r₁ → r₁.cls ≠ .free := fun r₁ h => by
    cases hk.symm.trans h
    simp [Circuit.cls_of_seized hcond]
  refine ⟨fun f rest cause hh hf hcause hpass => ?_, fun f rest hh hf hd hy hpass => ?_, fun d ht hd hpass => ?_⟩
  · have e := farRelease_crankback hh hf hc hp hs hk hcond hcause
    have hloss := crankedBack_of (s := s.took .backward rest) hc hp hk hcond hx cause
    have h17 : kindByteOf f = 17 ↔ cause = .circuitUnavailable := by
      rcases hcause with ⟨h, rfl⟩ | ⟨h, rfl⟩ <;> simp [h]
    obtain ⟨hre, hct, hgt, hfwd, hfr⟩ := reselect_seizes hloss.took hfree hlaw hleft hpass.1 hpass.2 hp hhunt hk' hg' hr' none
    obtain ⟨htook, hframe⟩ := took_backward ((hloss.frame.mono (by decide)).trans
      (hfr.mono (more := [.ctx, .circ, .routes, .rating, .settle, .fwdOut, .bwdOut]) (by decide))) (by decide)
    refine ⟨_, e, htook, hre, hct.trans hloss.circuit, ?_, ?_, ?_, hframe⟩
    · simp only [h17]; exact hgt.trans hloss.group
    · rw [hfwd, hloss.fwdOut, List.append_assoc]; rfl
    · simp only [h17]
      rw [List.append_assoc]
      exact (hfr .bwdOut (by decide)).trans hloss.bwdOut
  · have e := farSeize_glare hh hf hc hp hk hcond hx hd hy
    have hloss := glareGiven_of (s := s.took .backward rest) hc hp hk hcond hx
    obtain ⟨hre, hct, hgt, hfwd, hfr⟩ :=
      reselect_seizes hloss.took hfree hlaw hleft hpass.1 hpass.2 hp hhunt hk' hg' hr' (some .congestion)
    obtain ⟨htook, hframe⟩ := took_backward ((hloss.frame.mono (by decide)).trans
      (hfr.mono (more := [.ctx, .circ, .routes, .rating, .settle, .fwdOut]) (by decide))) (by decide)
    refine ⟨_, e, htook, hre, hct.trans hloss.circuit, hgt.trans hloss.group, ?_, hframe⟩
    rw [hfwd, hloss.fwdOut, List.append_nil]; rfl
  · have e := tProceedExpiry_due hc hp hs ht hd
    have hloss := unanswered_of hc hp hk hcond hx
    obtain ⟨hre, hct, hgt, hfwd, hfr⟩ :=
      reselect_seizes hloss.lost hfree hlaw hleft hpass.1 hpass.2 hp hhunt hk' hg' hr' (some .noResponse)
    refine ⟨_, e, hre, hct.trans hloss.circuit, hgt.trans hloss.group, ?_, (hfr .bwdOut (by decide)).trans hloss.bwdOut,
      (hloss.frame.mono (by decide)).trans (hfr.mono (by decide))⟩
    rw [hfwd, hloss.fwdOut, List.append_assoc]; rfl

end Sys2Proof.Machine
end

