-- ==== Sys2Proof/Proofs/StepCircuitLaw.lean ====
section
/-! SUPPORT and CERTIFICATES. Every command keeps the laws of the Circuit Map (R26, R27, R29, R31) on the strength of these
laws alone: what touches the map is a circuit's change, a report on a group, or the redrawing of whole tables. -/
namespace Sys2Proof.Machine

variable {s t : State}

/-! ### Shared operations -/

/-- An operation that leaves the Circuit Map alone keeps its law. -/
theorem OnlyChanges.circLaw {parts : List Part} (hf : OnlyChanges parts s t) (hp : Part.circ ∉ parts) (h : s.circ.Law) :
    t.circ.Law := by
  have e : t.circ = s.circ := hf .circ hp
  rwa [e]

theorem notifyAll_circLaw (h : s.circ.Law) (now : ExTime) (ns : List Notice) : (s.notifyAll now ns).circ.Law :=
  (notifyAll_frame s now ns).circLaw (by decide) h

theorem drainCheck_circLaw (h : s.circ.Law) (now : ExTime) (g : Nat) : (s.drainCheck now g).circ.Law :=
  notifyAll_circLaw (markDrained_circLaw h g) now _

theorem enterGuard_circLaw (h : s.circ.Law) (now : ExTime) (k : Nat) : (s.enterGuard now k).circ.Law := by
  unfold State.enterGuard
  split
  · exact h
  · split
    · exact h
    · refine drainCheck_circLaw ?_ now _
      exact recast_circLaw h k _ fun _ => rfl

theorem enterReleasing_circLaw (h : s.circ.Law) (k : Nat) : (s.enterReleasing k).circ.Law :=
  recast_circLaw h k _ fun _ => rfl

/-! ### Reports on a group (R85 to R88) -/

theorem healthSuccess_circLaw (h : s.circ.Law) (now : ExTime) (g : Nat) : (s.healthSuccess now g).circ.Law := by
  have h1 := updMonitor_circLaw h g fun _ => GroupMonitor.success_law
  unfold State.healthSuccess
  split
  · exact h
  · dsimp only
    split <;> exact h1

theorem healthFailure_circLaw (h : s.circ.Law) (now : ExTime) (g : Nat) : (s.healthFailure now g).circ.Law := by
  unfold State.healthFailure
  split
  · exact h
  · rename_i r _
    have h1 := updMonitor_circLaw h g (f := fun m => m.fail r.cfg.theta) fun _ hm => GroupMonitor.fail_law hm _
    dsimp only
    split <;> exact h1

theorem probeUnsuccessful_circLaw (h : s.circ.Law) (g : Nat) : (s.probeUnsuccessful g).circ.Law := by
  unfold State.probeUnsuccessful
  split
  · exact h
  · exact updMonitor_circLaw h g fun _ hm => GroupMonitor.probeFailed_law hm _

theorem endProbe_circLaw (h : s.circ.Law) (i g : Nat) : (s.endProbe i g).circ.Law := by
  unfold State.endProbe
  split
  · exact h
  · rename_i c _
    refine (updContext_frame _ _ _).circLaw (by decide) ?_
    split
    · exact probeUnsuccessful_circLaw h g
    · exact h

/-! ### The selection pass (R62 to R68) -/

theorem examine_circLaw (h : s.circ.Law) (now : ExTime) (k : Nat) (priority : Bool) (ch : Choice) :
    (s.examine now k priority ch).1.circ.Law := by
  have h1 := updTraffic_circLaw h ch.group Traffic.attempt
  unfold State.examine
  dsimp only
  split
  · split
    · exact updTraffic_circLaw h1 _ _
    · exact h1
  · exact h1
  · split
    · exact h1
    · split
      · exact h1
      · exact (priceCheck_frame _ _ _ _ _).circLaw (by decide) h1

theorem choiceFailed_circLaw (h : s.circ.Law) (i l k g : Nat) : (s.choiceFailed i l k g).circ.Law :=
  (choiceFailed_frame s i l k g).circLaw (by decide) h

/-- A circuit's change leaves the health of every group. -/
theorem recast_health (s : State) (k : Nat) (f : Circuit → Circuit) (g : Nat) :
    ((s.recast k f).group g).map (·.mon.health) = (s.group g).map (·.mon.health) := by
  unfold State.recast
  split
  · rfl
  · simp only [State.group, State.withCirc_circ, Table.find_adjust]
    split
    · rw [Option.map_map]; rfl
    · rfl

theorem updTraffic_health (s : State) (g : Nat) (f : Traffic → Traffic) (j : Nat) :
    ((s.updTraffic g f).group j).map (·.mon.health) = (s.group j).map (·.mon.health) := by
  rw [State.updTraffic, State.updMonitor_group]
  split
  · rw [Option.map_map]; rfl
  · rfl

/-- The gate of a Suspect group may close (R87). -/
theorem closeGate_circLaw (h : s.circ.Law) {g : Nat} (hg : (s.group g).map (·.mon.health) = some .suspect) :
    (s.updMonitor g fun m => { m with gate := .closed }).circ.Law := by
  refine updGroup_circLaw h fun x hx hl => hl.congr rfl rfl rfl rfl rfl ⟨hl.monitor.1, hl.monitor.2.1, fun hn => ?_⟩
  rw [hx, Option.map_some, Option.some.injEq] at hg
  exact absurd (hg.symm.trans hn) (by decide)

theorem seizeCircuit_circLaw (h : s.circ.Law) (now : ExTime) (i l k g n : Nat) (q : Option Quote) :
    (s.seizeCircuit now i l k g n q).circ.Law := by
  rw [seizeCircuit_eq]
  extract_lets suspect s1 s2 s3
  have h1 : s1.circ.Law :=
    updTraffic_circLaw (recast_circLaw h n (fun c => { c with cond := .seized i }) fun _ => rfl) g Traffic.seize
  have health : (s1.group g).map (·.mon.health) = (s.group g).map (·.mon.health) :=
    (updTraffic_health _ g _ g).trans (recast_health s n _ g)
  have h2 : s2.circ.Law := by
    by_cases hs : suspect = true
    · rw [show s2 = s1.updMonitor g _ from if_pos hs]
      exact closeGate_circLaw h1 (health.trans (of_decide_eq_true hs))
    · rw [show s2 = s1 from if_neg hs]; exact h1
  have h3 : s3.circ.Law := by
    by_cases hk : k = 0
    · rw [show s3 = s2 from if_pos hk]; exact h2
    · rw [show s3 = s2.updList l _ from if_neg hk]; exact h2
  exact h3

theorem passLoop_circLaw (now : ExTime) (i l : Nat) (ks : List Nat) (reasons : List Reason) (h : s.circ.Law) :
    (passLoop now i l ks reasons s).1.circ.Law := by
  induction ks generalizing reasons s with
  | nil => exact h
  | cons k ks ih =>
    unfold passLoop
    split
    · rename_i c ch _ _
      split
      · exact ih _ h
      · split
        · exact ih _ h
        · extract_lets s1
          have h1 : s1.circ.Law := by
            by_cases hk : k = 0
            · rw [show s1 = s from if_pos hk]; exact h
            · rw [show s1 = s.updContext i _ from if_neg hk]; exact h
          have h2 := examine_circLaw h1 now k c.priority ch
          split
          · rename_i he
            rw [he] at h2
            exact ih _ (choiceFailed_circLaw h2 _ _ _ _)
          · rename_i he
            rw [he] at h2
            split
            · exact seizeCircuit_circLaw h2 _ _ _ _ _ _ _
            · exact ih _ (choiceFailed_circLaw h2 _ _ _ _)
    · exact ih _ h

theorem selectionPass_circLaw (h : s.circ.Law) (now : ExTime) (i l : Nat) : (s.selectionPass now i l).1.circ.Law := by
  unfold State.selectionPass
  split
  · exact h
  · split
    · exact h
    · exact passLoop_circLaw now i l _ _ h

/-! ### Calls -/

theorem proceed_circLaw (h : s.circ.Law) (i g k : Nat) : (s.proceed i g k).circ.Law := by
  unfold State.proceed
  split <;> exact h

theorem failCall_circLaw (h : s.circ.Law) (i : Nat) (cause : Cause) : (s.failCall i cause).circ.Law := by
  unfold State.failCall
  split <;> exact h

theorem reselect_circLaw (h : s.circ.Law) (now : ExTime) (i : Nat) (instead : Option Cause) :
    (s.reselect now i instead).circ.Law := by
  unfold State.reselect
  split
  · exact h
  · rename_i c _
    extract_lets s1
    have h1 : (s1.selectionPass now i c.list).1.circ.Law := selectionPass_circLaw (s := s1) h now i c.list
    split
    · rename_i he
      rw [he] at h1
      exact proceed_circLaw h1 _ _ _
    · rename_i he
      rw [he] at h1
      exact failCall_circLaw (s := State.countList _ _ _) h1 _ _

theorem loseCircuit_circLaw (h : s.circ.Law) (now : ExTime) (i l g : Nat) (cause : Cause) :
    (s.loseCircuit now i l g cause).circ.Law :=
  (dispose_frame ((s.updContext i fun c => c.addTried g).updList l fun r => r.pastLost g) now i).circLaw (by decide) h

theorem crankback_circLaw (h : s.circ.Law) (i g k : Nat) (cause : Cause) (c : Context) :
    (s.crankback i g k cause c).circ.Law := by
  unfold State.crankback
  extract_lets now s1 s2
  have h1 : s1.circ.Law := updTraffic_circLaw (enterGuard_circLaw (s := s.emitFwd _) h now k) g _
  have h2 : s2.circ.Law := by
    by_cases hc : cause = .circuitUnavailable
    · rw [show s2 = s1.healthFailure now g from if_pos hc]; exact healthFailure_circLaw h1 now g
    · rw [show s2 = s1 from if_neg hc]; exact h1
  exact reselect_circLaw (loseCircuit_circLaw (endProbe_circLaw h2 i g) now i _ g cause) now i none

theorem noResponse_circLaw (h : s.circ.Law) (i g k : Nat) (c : Context) : (s.noResponse i g k c).circ.Law := by
  unfold State.noResponse
  extract_lets now s1
  have h1 : s1.circ.Law := enterReleasing_circLaw (s := s.emitFwd _) h k
  exact reselect_circLaw (loseCircuit_circLaw (endProbe_circLaw (healthFailure_circLaw h1 now g) i g) now i _ g _) now i _

theorem glareLost_circLaw (h : s.circ.Law) (i g : Nat) (c : Context) : (s.glareLost i g c).circ.Law :=
  reselect_circLaw (loseCircuit_circLaw (endProbe_circLaw (updTraffic_circLaw h g _) i g) _ i _ g _) _ i _

theorem exportIf_circLaw (h : s.circ.Law) (b : Bool) : (s.exportIf b).circ.Law := (exportIf_frame s b).circLaw (by decide) h

theorem farEnds_circLaw (h : s.circ.Law) (i g k cause : Nat) (c : Context) : (s.farEnds i g k cause c).circ.Law := by
  unfold State.farEnds
  extract_lets now s1 s2
  have h1 : s1.circ.Law := enterGuard_circLaw (s := s.emitFwd _) h now k
  have h2 : s2.circ.Law := by
    by_cases hp : c.phase = .proceeding
    · rw [show s2 = (if _ then s1.healthFailure now g else s1).endProbe i g from if_pos hp]
      refine endProbe_circLaw ?_ i g
      split
      · exact healthFailure_circLaw h1 now g
      · exact h1
    · rw [show s2 = s1 from if_neg hp]; exact h1
  refine exportIf_circLaw ?_ _
  exact (dispose_frame s2 now i).circLaw (by decide) h2

theorem originEnds_circLaw (h : s.circ.Law) (i g k cause : Nat) (c : Context) : (s.originEnds i g k cause c).circ.Law := by
  unfold State.originEnds
  extract_lets now s1 s2
  have h1 : s1.circ.Law := enterReleasing_circLaw (s := (s.emitBwd _).emitFwd _) h k
  have h2 : s2.circ.Law := by
    by_cases hp : c.phase = .proceeding
    · rw [show s2 = s1.endProbe i g from if_pos hp]; exact endProbe_circLaw h1 i g
    · rw [show s2 = s1 from if_neg hp]; exact h1
  refine exportIf_circLaw ((free_frame _ now i).circLaw (by decide) ?_) _
  exact (dispose_frame s2 now i).circLaw (by decide) h2

theorem originRelease_circLaw (h : s.circ.Law) (i cause : Nat) : (s.originRelease i cause).circ.Law := by
  unfold State.originRelease
  split
  · exact h
  · rename_i c _
    split
    · exact (free_frame (s.emitBwd (.releaseConfirm c.callRef)) _ i).circLaw (by decide) h
    · exact originEnds_circLaw h i _ _ cause c
    · exact h

/-! ### Setup (R6, R7, R61) -/

theorem refuseRouted_circLaw (h : s.circ.Law) (now : ExTime) (i : Nat) (m : SetupMsg) (cause : Cause) :
    (s.refuseRouted now i m cause).circ.Law :=
  (free_frame (s.emitBwd (.refuse m.callRef m.inCircuit cause)) now i).circLaw (by decide) h

theorem routePass_circLaw (h : s.circ.Law) (now : ExTime) (i l : Nat) (m : SetupMsg) :
    (s.routePass now i l m).circ.Law := by
  have h1 := selectionPass_circLaw h now i l
  unfold State.routePass
  split
  · rename_i he
    rw [he] at h1
    exact proceed_circLaw h1 _ _ _
  · rename_i he
    rw [he] at h1
    exact refuseRouted_circLaw (s := State.countList _ _ _) h1 _ _ _ _

theorem routeOver_circLaw (h : s.circ.Law) (now : ExTime) (i l : Nat) (m : SetupMsg) :
    (s.routeOver now i l m).circ.Law := by
  unfold State.routeOver
  extract_lets s1
  have h1 : s1.circ.Law := h
  split
  · exact routePass_circLaw (s := s1.updList l _) h1 now i l m
  · exact refuseRouted_circLaw (s := s1.countList l _) h1 now i m _

theorem route_circLaw (h : s.circ.Law) (now : ExTime) (i : Nat) (m : SetupMsg) : (s.route now i m).circ.Law := by
  unfold State.route
  extract_lets r s1
  have h1 : s1.circ.Law := h
  cases r
  case toList l => exact routeOver_circLaw h1 now i l m
  all_goals exact refuseRouted_circLaw h1 now i m _

theorem takeSetup_circLaw (h : s.circ.Law) (m : SetupMsg) : (s.takeSetup m).circ.Law := by
  unfold State.takeSetup
  extract_lets now s1
  have h1 : s1.circ.Law := h
  have refused : ∀ cause, (s1.refuseEarly m cause).circ.Law := fun _ => h1
  split
  · exact refused _
  · split
    · exact refused _
    · split
      · exact refused _
      · rename_i i _
        split
        · exact refused _
        · exact route_circLaw ((allocate_frame s1 now i _).circLaw (by decide) h1) now i m

/-! ### Far side -/

theorem contextProgress_circLaw (h : s.circ.Law) (i : Nat) : (s.contextProgress i).circ.Law := by
  unfold State.contextProgress
  split
  · exact h
  · split
    · exact healthSuccess_circLaw (s := s.updContext i _) h _ _
    · exact h
    · exact h

theorem connect_circLaw (h : s.circ.Law) (i g : Nat) : (s.connect i g).circ.Law :=
  updTraffic_circLaw (s := s.updContext i _) h g Traffic.answer

theorem contextAnswer_circLaw (h : s.circ.Law) (i : Nat) : (s.contextAnswer i).circ.Law := by
  unfold State.contextAnswer
  split
  · exact h
  · split
    · exact healthSuccess_circLaw (connect_circLaw h i _) _ _
    · exact connect_circLaw h i _
    · exact h

theorem contextRelease_circLaw (h : s.circ.Law) (i cause : Nat) : (s.contextRelease i cause).circ.Law := by
  unfold State.contextRelease
  split
  · exact h
  · split
    · exact h
    · split
      · exact crankback_circLaw h i _ _ _ _
      · exact farEnds_circLaw h i _ _ _ _

theorem farTakes_circLaw (h : s.circ.Law) (k : Nat) : (s.farTakes k).circ.Law := recast_circLaw h k _ fun _ => rfl

theorem glare_circLaw (h : s.circ.Law) (i k : Nat) (r : Group) (g : Nat) : (s.glare i k r g).circ.Law := by
  have counted := countCirc_circLaw h
  unfold State.glare
  split
  · exact counted _
  · split
    · split
      · exact counted _
      · exact glareLost_circLaw (farTakes_circLaw h k) i g _
    · exact counted _

theorem farSeize_circLaw (h : s.circ.Law) (k : Nat) (c : Circuit) : (s.farSeize k c).circ.Law := by
  have counted := countCirc_circLaw h
  unfold State.farSeize
  split
  · exact counted _
  · split
    · exact counted _
    · split
      · exact counted _
      · exact farTakes_circLaw h k
    · exact farTakes_circLaw h k
    · exact glare_circLaw h _ k _ _
    · exact counted _
    · exact counted _

theorem rejectOffer_circ (s : State) (m : OfferMsg) (owner : Nat) (reason : OfferReason) :
    (s.rejectOffer m owner reason).circ = s.circ := by
  unfold State.rejectOffer
  dsimp only
  split <;> rfl

theorem judgeOffer_circ (s : State) (m : OfferMsg) (owner : Nat) (c : Carrier) : (s.judgeOffer m owner c).circ = s.circ := by
  unfold State.judgeOffer
  split
  · rfl
  · split
    · exact rejectOffer_circ _ _ _ _
    · split
      · exact rejectOffer_circ _ _ _ _
      · rfl

theorem takeOffer_circLaw (h : s.circ.Law) (m : OfferMsg) : (s.takeOffer m).circ.Law := by
  unfold State.takeOffer
  extract_lets owner s1
  have h1 : s1.circ.Law := by
    cases hc : s.circuit m.circuit
    · simp only [s1, hc]; exact countCirc_circLaw h _
    · simp only [s1, hc]; exact h
  split
  · rwa [rejectOffer_circ]
  · split
    · rwa [judgeOffer_circ]
    · rwa [rejectOffer_circ]

/-! ### Expiries -/

theorem expireProceed_circLaw (h : s.circ.Law) (i : Nat) : (s.expireProceed i).circ.Law := by
  unfold State.expireProceed
  split
  · exact h
  · split
    · exact noResponse_circLaw h i _ _ _
    · exact h

theorem expireClear_circLaw (h : s.circ.Law) (i : Nat) : (s.expireClear i).circ.Law := by
  unfold State.expireClear
  split
  · exact h
  · split
    · exact (free_frame s _ i).circLaw (by decide) h
    · exact h

theorem expireGuard_circLaw (h : s.circ.Law) (g : Nat) : (s.expireGuard g).circ.Law := by
  unfold State.expireGuard
  split
  · exact h
  · split
    · exact h
    · split
      · split
        · exact recast_circLaw h _ _ fun _ => rfl
        · exact h
      · exact h

theorem maintenanceBlock_circLaw (h : s.circ.Law) (g k : Nat) : (s.maintenanceBlock g k).circ.Law := by
  have h1 := recast_circLaw h k (fun c => { c with cond := .idle, localBlock := true }) fun _ => rfl
  exact countCirc_circLaw (notifyAll_circLaw (markDrained_circLaw h1 g) _ _) _

theorem expireClearing_circLaw (h : s.circ.Law) (k : Nat) : (s.expireClearing k).circ.Law := by
  unfold State.expireClearing
  split
  · exact h
  · split
    · split
      · exact maintenanceBlock_circLaw h _ k
      · exact h
    · exact h

theorem expireProbe_circLaw (h : s.circ.Law) (g : Nat) : (s.expireProbe g).circ.Law := by
  unfold State.expireProbe
  split
  · exact h
  · split
    · exact updMonitor_circLaw h g fun _ => GroupMonitor.probeExpired_law
    · exact h

theorem expireGap_circLaw (h : s.circ.Law) (l : Nat) : (s.expireGap l).circ.Law := by
  unfold State.expireGap
  split <;> exact h

theorem expireAccept_circLaw (h : s.circ.Law) : s.expireAccept.circ.Law := by
  unfold State.expireAccept
  dsimp only
  split <;> exact h

theorem evaluateGroup_circLaw (h : s.circ.Law) (g : Nat) : (s.evaluateGroup g).circ.Law := by
  unfold State.evaluateGroup
  split
  · exact h
  · rename_i r hr
    split
    · refine updGroup_circLaw h fun x hx hl => ?_
      rw [hr] at hx; cases hx
      exact hl.evaluate h.circuitsForm _
    · exact h

theorem evaluateGroups_circLaw (gs : List Nat) (h : s.circ.Law) : (gs.foldl State.evaluateGroup s).circ.Law := by
  induction gs generalizing s with
  | nil => exact h
  | cons g gs ih => exact ih (evaluateGroup_circLaw h g)

theorem expireSample_circLaw (h : s.circ.Law) : s.expireSample.circ.Law := by
  unfold State.expireSample
  split
  · exact notifyAll_circLaw (s := State.restartSample _) (evaluateGroups_circLaw _ h) _ _
  · exact h

theorem expire_circLaw (h : s.circ.Law) (id : TimerId) : (s.expire id).circ.Law := by
  cases id with
  | supervision i => exact expireClear_circLaw (expireProceed_circLaw h i) i
  | guard g => exact expireGuard_circLaw h g
  | clearing k => exact expireClearing_circLaw h k
  | probe g => exact expireProbe_circLaw h g
  | gap l => exact expireGap_circLaw h l
  | accept => exact expireAccept_circLaw h
  | sample => exact expireSample_circLaw h

theorem expireAll_circLaw (ids : List TimerId) (h : s.circ.Law) : (s.expireAll ids).circ.Law := by
  induction ids generalizing s with
  | nil => exact h
  | cons id ids ih => exact ih (expire_circLaw h id)

/-! ### The tick (R152 to R158) -/

theorem settleExpiries_circLaw (h : s.circ.Law) : s.settleExpiries.circ.Law := by
  unfold State.settleExpiries
  split
  · exact h
  · exact expire_circLaw h _
  · exact expireAll_circLaw (s := { s with draws := s.draws + 1 }) _ h

theorem wholeSecond_circLaw (h : s.circ.Law) (now : ExTime) : (s.wholeSecond now).circ.Law := by
  unfold State.wholeSecond
  split
  · refine notifyAll_circLaw ?_ _ _
    exact h
  · exact h

theorem advance_circLaw (h : s.circ.Law) : s.advance.circ.Law := by
  unfold State.advance
  extract_lets s1
  have h1 : s1.circ.Law := h
  split
  · unfold State.secondEvent
    split
    · exact wholeSecond_circLaw h1 _
    · exact wholeSecond_circLaw (expireAll_circLaw (s := { s1 with draws := s1.draws + 1 }) _ h1) _
  · exact h1

/-! ### Ports (R162, R169) -/

theorem portError_circ (s : State) (port : Port) (e : PortErr) : (s.portError port e).circ = s.circ := by
  unfold State.portError
  cases port <;> (dsimp only; split <;> rfl)

theorem arrive_circ (s : State) (port : Port) (f : Frame) : (s.arrive port f).circ = s.circ := by
  unfold State.arrive
  dsimp only
  split
  · exact portError_circ s port .overrun
  · split
    · exact portError_circ s port _
    · cases port <;> rfl

/-! ### Requests on groups and circuits (R41, R45 to R49) -/

theorem loadTrunkGroup_circLaw (h : s.circ.Law) (r : LoadGroupReq) : (loadTrunkGroup r s).state.circ.Law := by
  unfold loadTrunkGroup
  split
  · exact h
  · rename_i g hg
    have hs := LoadGroupReq.size_pos hg
    split
    · exact h
    · rename_i ho
      rw [Bool.not_eq_true] at ho
      split
      · exact h
      · split
        · rename_i hn
          exact equip_circLaw h hs ho (by rw [hn]; exact reloadable_none h hn)
        · rename_i old hold
          split
          · rename_i hi
            exact equip_circLaw h hs ho (by rw [hold]; exact reloadable_some h hold hi)
          · exact h

theorem removeTrunkGroup_circLaw (h : s.circ.Law) (id : Nat) : (removeTrunkGroup id s).state.circ.Law := by
  unfold removeTrunkGroup
  split
  · exact h
  · split
    · exact unequip_circLaw h id
    · exact h

theorem changeAdmin_circLaw (h : s.circ.Law) (id : Nat) (a : AdminState) : (s.changeAdmin id a).circ.Law := by
  unfold State.changeAdmin
  split
  · refine drainCheck_circLaw ?_ _ _
    exact updGroup_circLaw h fun _ _ hl => hl.congr rfl rfl rfl rfl rfl hl.monitor
  · exact updGroup_circLaw h fun _ _ hl => hl.congr rfl rfl rfl rfl rfl hl.monitor

theorem setGroupState_circLaw (h : s.circ.Law) (id adminByte : Nat) : (setGroupState id adminByte s).state.circ.Law := by
  unfold setGroupState
  split
  · exact h
  · exact h
  · exact h
  · dsimp only [Answer.ok]
    split
    · exact h
    · exact changeAdmin_circLaw h id _

theorem localBlock_circLaw (h : s.circ.Law) (c : Nat) (b : Bool) : (localBlock c b s).state.circ.Law := by
  unfold localBlock
  split
  · exact h
  · split
    · exact h
    · exact recast_circLaw h c _ fun _ => rfl

theorem restartRequest_circLaw (h : s.circ.Law) (force : Bool) : (restartRequest force s).state.circ.Law := by
  unfold restartRequest
  split
  · exact h
  · exact notifyAll_circLaw (s := s.cleared) h.restart _ _

/-! ### Requests that leave the Circuit Map alone -/

theorem enterService_circ (s : State) : (enterService s).state.circ = s.circ := by
  unfold enterService; split <;> rfl

theorem setExchangeTime_circ (day cs : Nat) (s : State) : (setExchangeTime day cs s).state.circ = s.circ := by
  unfold setExchangeTime; split <;> rfl

theorem setGlobalParameters_circ (g : GlobalParams) (s : State) : (setGlobalParameters g s).state.circ = s.circ := by
  unfold setGlobalParameters
  split
  · dsimp only [Answer.ok]
    split
    · rfl
    · exact compareBoth_frame (s.withMgmt { s.mgmt with params := g }) _ .circ (by decide)
  · rfl

theorem loadDestination_circ (r : LoadDestReq) (s : State) : (loadDestination r s).state.circ = s.circ := by
  unfold loadDestination; split <;> (try split) <;> rfl

theorem deleteDestination_circ (d : DigitString) (s : State) : (deleteDestination d s).state.circ = s.circ := by
  unfold deleteDestination; split <;> rfl

theorem loadRouteList_circ (r : LoadListReq) (s : State) : (loadRouteList r s).state.circ = s.circ := by
  unfold loadRouteList; split <;> rfl

theorem restartGap_circ (l : Nat) (s : State) : (restartGap l s).state.circ = s.circ := by
  unfold restartGap; split <;> (try split) <;> rfl

theorem loadThresholdSet_circ (n : Nat) (x : ThresholdSet) (s : State) : (loadThresholdSet n x s).state.circ = s.circ := by
  unfold loadThresholdSet; split <;> rfl

theorem declareCarrier_circ (id : Nat) (body : Option Tariff) (s : State) : (declareCarrier id body s).state.circ = s.circ := by
  unfold declareCarrier; split <;> (try split) <;> rfl

theorem removeCarrier_circ (id : Nat) (s : State) : (removeCarrier id s).state.circ = s.circ := by
  unfold removeCarrier; split <;> (try split) <;> (try split) <;> rfl

theorem loadTariff_circ (r : LoadTariffReq) (s : State) : (loadTariff r s).state.circ = s.circ := by
  unfold loadTariff; split <;> (try split) <;> rfl

theorem pinCarrier_circ (id : Nat) (s : State) : (pinCarrier id s).state.circ = s.circ := by
  unfold pinCarrier; split <;> (try split) <;> rfl

theorem unpinCarrier_circ (id : Nat) (s : State) : (unpinCarrier id s).state.circ = s.circ := by
  unfold unpinCarrier; split <;> (try split) <;> rfl

theorem latchCounters_circ (kindByte id : Nat) (s : State) : (latchCounters kindByte id s).state.circ = s.circ := by
  unfold latchCounters; split <;> (try split) <;> (try split) <;> rfl

/-! ### Taking a message -/

theorem takeHead_circLaw (h : s.circ.Law) (port : Port) (p : Frame → Bool) {act : Frame → State → State}
    (hact : ∀ f u, u.circ.Law → (act f u).circ.Law) : (takeHead port p act s).circ.Law := by
  unfold takeHead
  split
  · exact h
  · split
    · exact hact _ _ (by cases port <;> exact h)
    · exact h

theorem takeRequest_circLaw (h : s.circ.Law) (code : Nat) {act : List Byte → State → Answer}
    (hact : ∀ p u, u.circ.Law → (act p u).state.circ.Law) : (takeRequest code act s).circ.Law := by
  refine takeHead_circLaw h _ _ fun f u hu => ?_
  change (Answer.state _).circ.Law
  split
  · exact hact _ _ hu
  · exact hu

/-- A request that leaves the Circuit Map alone. -/
theorem takeRequest_circ (h : s.circ.Law) (code : Nat) {act : List Byte → State → Answer}
    (hact : ∀ p u, (act p u).state.circ = u.circ) : (takeRequest code act s).circ.Law :=
  takeRequest_circLaw h code fun p u hu => (hact p u).symm ▸ hu

/-- A request that reads. -/
theorem readRequest_circ (h : s.circ.Law) (code : Nat) {act : List Byte → State → Answer}
    (hact : ∀ p u, (act p u).state = u) : (takeRequest code act s).circ.Law :=
  takeRequest_circ h code fun p u => by rw [hact p u]

theorem onCircuit_circLaw (h : s.circ.Law) {act : Nat → Circuit → State → State} (f : Frame)
    (hact : ∀ k c, (act k c s).circ.Law) : (onCircuit act f s).circ.Law := by
  unfold onCircuit
  split
  · exact countCirc_circLaw h _
  · exact hact _ _

/-! ### Every command -/

/-- Every command keeps the law of the Circuit Map. -/
theorem exec_circLaw (c : Instr) (h : s.circ.Law) (he : exec c s = .next t) : t.circ.Law := by
  cases c <;> cases he
  case hardReset => exact reset_law.circ
  case resetRelease => split <;> exact h
  case referenceTick =>
    split
    · exact h
    · exact advance_circLaw (settleExpiries_circLaw h)
  case messageArrival p f =>
    split
    · exact h
    · rwa [arrive_circ]
  case passThrough p => exact takeHead_circLaw h _ _ fun f u hu => by cases p <;> exact hu
  case setup => exact takeHead_circLaw h _ _ fun f u hu => takeSetup_circLaw hu _
  case originRelease =>
    refine takeHead_circLaw h _ _ fun f u hu => ?_
    split
    · exact originRelease_circLaw hu _ _
    · exact hu
  case originReleaseConfirm =>
    refine takeHead_circLaw h _ _ fun f u hu => ?_
    split
    · exact hu
    · split
      · exact hu
      · split
        · exact (free_frame u _ _).circLaw (by decide) hu
        · exact hu
  case progress =>
    refine takeHead_circLaw h _ _ fun f u hu => onCircuit_circLaw hu f fun k c => ?_
    split
    · exact contextProgress_circLaw hu _
    · exact countCirc_circLaw hu _
  case answer =>
    refine takeHead_circLaw h _ _ fun f u hu => onCircuit_circLaw hu f fun k c => ?_
    split
    · exact contextAnswer_circLaw hu _
    · exact countCirc_circLaw hu _
  case farRelease =>
    refine takeHead_circLaw h _ _ fun f u hu => onCircuit_circLaw hu f fun k c => ?_
    split
    · exact contextRelease_circLaw hu _ _
    · exact enterGuard_circLaw (s := u.emitFwd _) hu _ k
    · exact (emitFwd_frame _ _).circLaw (by decide) (countCirc_circLaw hu _)
  case farReleaseConfirm =>
    refine takeHead_circLaw h _ _ fun f u hu => onCircuit_circLaw hu f fun k c => ?_
    split
    · exact hu
    · exact enterGuard_circLaw hu _ k
    · exact countCirc_circLaw hu _
  case block => exact takeHead_circLaw h _ _ fun f u hu => onCircuit_circLaw hu f fun k _ => recast_circLaw hu k _ fun _ => rfl
  case unblock => exact takeHead_circLaw h _ _ fun f u hu => onCircuit_circLaw hu f fun k _ => recast_circLaw hu k _ fun _ => rfl
  case farSeize => exact takeHead_circLaw h _ _ fun f u hu => onCircuit_circLaw hu f fun k c => farSeize_circLaw hu k c
  case farClear =>
    refine takeHead_circLaw h _ _ fun f u hu => onCircuit_circLaw hu f fun k c => ?_
    split
    · exact enterGuard_circLaw hu _ k
    · exact countCirc_circLaw hu _
  case tariffOffer => exact takeHead_circLaw h _ _ fun f u hu => takeOffer_circLaw hu _
  case batchAccept =>
    refine takeHead_circLaw h _ _ fun f u hu => ?_
    split
    · exact (exportLook_frame (u.withSettle u.settle.accept)).circLaw (by decide) hu
    · exact hu
  case exportHalt => exact takeHead_circLaw h _ _ fun f u hu => hu
  case exportResume =>
    refine takeHead_circLaw h _ _ fun f u hu => ?_
    dsimp only
    split
    · exact (exportLook_frame (u.withSettle { u.settle with halt := false })).circLaw (by decide) hu
    · exact hu
    · exact hu
  case tProceedExpiry i => exact expireProceed_circLaw h i
  case tClearExpiry i => exact expireClear_circLaw h i
  case guardExpiry g => exact expireGuard_circLaw h g
  case clearingExpiry k => exact expireClearing_circLaw h k
  case probeTimerExpiry g => exact expireProbe_circLaw h g
  case gapTimerExpiry l => exact expireGap_circLaw h l
  case acceptTimerExpiry => exact expireAccept_circLaw h
  case sampleExpiry => exact expireSample_circLaw h
  case unknownRequest => exact takeHead_circLaw h _ _ fun f u hu => hu
  case enterService => exact takeRequest_circ h _ fun _ u => enterService_circ u
  case quiesce => exact takeRequest_circ h _ fun _ _ => rfl
  case restart => exact takeRequest_circLaw h _ fun p u hu => restartRequest_circLaw hu _
  case readDeviceStatus => exact readRequest_circ h _ fun _ _ => rfl
  case clearErrorFlags => exact takeRequest_circ h _ fun _ _ => rfl
  case setExchangeTime => exact takeRequest_circ h _ fun _ u => setExchangeTime_circ _ _ u
  case setGlobalParameters => exact takeRequest_circ h _ fun _ u => setGlobalParameters_circ _ u
  case loadDestination => exact takeRequest_circ h _ fun _ u => loadDestination_circ _ u
  case deleteDestination => exact takeRequest_circ h _ fun _ u => deleteDestination_circ _ u
  case lookupDestination => exact readRequest_circ h _ fun _ u => lookupDestination_state _ u
  case loadRouteList => exact takeRequest_circ h _ fun _ u => loadRouteList_circ _ u
  case restartGap => exact takeRequest_circ h _ fun _ u => restartGap_circ _ u
  case loadThresholdSet => exact takeRequest_circ h _ fun _ u => loadThresholdSet_circ _ _ u
  case loadTrunkGroup => exact takeRequest_circLaw h _ fun p u hu => loadTrunkGroup_circLaw hu _
  case removeTrunkGroup => exact takeRequest_circLaw h _ fun p u hu => removeTrunkGroup_circLaw hu _
  case setGroupState => exact takeRequest_circLaw h _ fun p u hu => setGroupState_circLaw hu _ _
  case blockCircuit => exact takeRequest_circLaw h _ fun p u hu => localBlock_circLaw hu _ _
  case unblockCircuit => exact takeRequest_circLaw h _ fun p u hu => localBlock_circLaw hu _ _
  case declareCarrier => exact takeRequest_circ h _ fun _ u => declareCarrier_circ _ _ u
  case removeCarrier => exact takeRequest_circ h _ fun _ u => removeCarrier_circ _ u
  case loadTariff => exact takeRequest_circ h _ fun _ u => loadTariff_circ _ u
  case pinCarrier => exact takeRequest_circ h _ fun _ u => pinCarrier_circ _ u
  case unpinCarrier => exact takeRequest_circ h _ fun _ u => unpinCarrier_circ _ u
  case readGroup => exact readRequest_circ h _ fun _ u => readGroup_state _ u
  case readCircuit => exact readRequest_circ h _ fun _ u => readCircuit_state _ u
  case readContext => exact readRequest_circ h _ fun _ u => readContext_state _ u
  case readRouteList => exact readRequest_circ h _ fun _ u => readRouteList_state _ u
  case readCarrier => exact readRequest_circ h _ fun _ u => readCarrier_state _ u
  case latchCounters => exact takeRequest_circ h _ fun _ u => latchCounters_circ _ _ u
  case readLatched => exact readRequest_circ h _ fun _ u => readLatched_state u

/-- Settles O56: a step is its front command, and each command keeps the law by what it does to the Circuit Map. -/
theorem stepKeepsCircuitLaw : Obligations.StepKeepsCircuitLaw := by
  unfold Obligations.StepKeepsCircuitLaw
  intro s t h he
  unfold step at he
  split at he
  · cases he; exact h
  · rename_i rest _
    exact exec_circLaw (s := { s with pending := rest }) _ h he

end Sys2Proof.Machine
end

