-- ==== Sys2Proof/Proofs/CircuitEvents.lean ====
section
/-! SUPPORT and CERTIFICATES. Requests that every device state takes, and the events of one circuit: its flags (R38, R40, R41),
a far seizure and its end (R42 to R44), and its two timers (R32, R35). -/
namespace Sys2Proof.Machine

variable {s : State} {f : Frame} {rest : List Frame} {k : Nat} {r r' : Circuit} {x : Group}

/-! ### Requests that every device state takes (R174) -/

/-- The codes above 3 are available in every device state (table of section 11.3). -/
theorem available_of_lt {code : Nat} (h : 3 < code) (d : DeviceState) : available code d = true := by
  cases d <;> simp only [available, decide_eq_true_eq] <;> omega

/-- Such a request is carried out on the device without it, and answered. -/
theorem request_runs {cmd : Instr} {code : Nat} {act : List Byte → State → Answer} (h : s.requested code f rest)
    (hc : 3 < code) (hx : exec cmd s = .next (takeRequest code act s)) :
    exec cmd s = .next ((act (paramsOf f) (s.took .forward rest)).send f) :=
  hx.trans (congrArg _ (takeRequest_of h (available_of_lt hc _)))

/-- Such a request that changes no more than the Circuit Map. -/
theorem request_answered {cmd : Instr} {code : Nat} {act : List Byte → State → Answer} {u : State} {rc : ReplyCode}
    {results : List Byte} (h : s.requested code f rest) (hc : 3 < code) (hx : exec cmd s = .next (takeRequest code act s))
    (ha : act (paramsOf f) (s.took .forward rest) = ⟨u, rc, results⟩) (hu : OnlyChanges [.circ] (s.took .forward rest) u) :
    ∃ t, exec cmd s = .next t ∧ t.circ = u.circ ∧ Replied f rest rc results s t
      ∧ OnlyChanges [.fwd, .circ, .bwdOut] s t := by
  have e := request_runs h hc hx
  rw [ha] at e
  obtain ⟨htook, hall⟩ := took_forward ((hu.mono (by decide)).trans
    ((emitBwd_frame u (.reply (kindByteOf f) (requestCode f) rc results)).mono (more := [.circ, .bwdOut]) (by decide)))
    (by decide)
  exact ⟨_, e, rfl, ⟨htook, congrArg (· ++ _) (hu .bwdOut (by decide))⟩, hall⟩

/-- Such a request that changes nothing. -/
theorem request_unchanged {cmd : Instr} {code : Nat} {act : List Byte → State → Answer} {rc : ReplyCode}
    {results : List Byte} (h : s.requested code f rest) (hc : 3 < code) (hx : exec cmd s = .next (takeRequest code act s))
    (ha : act (paramsOf f) (s.took .forward rest) = ⟨s.took .forward rest, rc, results⟩) :
    ∃ t, exec cmd s = .next t ∧ Replied f rest rc results s t ∧ OnlyChanges [.fwd, .bwdOut] s t := by
  have e := request_runs h hc hx
  rw [ha] at e
  obtain ⟨htook, hall⟩ :=
    took_forward (emitBwd_frame (s.took .forward rest) (.reply (kindByteOf f) (requestCode f) rc results)) (by decide)
  exact ⟨_, e, ⟨htook, rfl⟩, hall⟩

/-! ### Flags (R38, R40, R41) -/

/-- A change of flags alone passes an Idle circuit between Free and Blocked, and no other (R28). -/
theorem Group.reclass_reflagged (x : Group) (k : Nat) (h : r'.cond = r.cond) :
    x.reclass k r.cls r'.cls = x.reflagged k r r' := by
  by_cases hi : r.cond = .idle
  · cases hb : (r.remote || r.localBlock) <;> cases hb' : (r'.remote || r'.localBlock) <;>
      simp [Circuit.cls, Group.reflagged, Group.reclass, Counts.move, Counts.upd, requeue, h, hi, hb, hb']
  · have e : r'.cls = r.cls := by
      unfold Circuit.cls
      rw [h]
      cases hc : r.cond <;> first | exact absurd hc hi | rfl
    simp [e, Group.reflagged, hi, Group.reclass, Counts.move, requeue]

/-- A change of a circuit's flags (R38, R40). -/
theorem recast_reflagged (f : Circuit → Circuit) (hc : (f r).cond = r.cond) (hk : s.circuit k = some r)
    (hx : s.group r.group = some x) : CircuitMoved k r (f r) (x.reflagged k r (f r)) s (s.recast k f) := by
  have := recast_moved f hk hx
  rwa [Group.reclass_reflagged x k hc] at this

/-- BLOCK or UNBLOCK on an equipped circuit: its remote flag, and the confirmation (R38, R40). -/
theorem remoteFlag_confirmed {cmd : Instr} {b : Bool} {m : OutMsg} (hk : s.circuit k = some r)
    (hx : s.group r.group = some x)
    (e : exec cmd s = .next (((s.took .backward rest).setRemote k b).emitFwd m)) :
    ∃ t, exec cmd s = .next t ∧ TookHead .backward rest s t
      ∧ CircuitMoved k r { r with remote := b } (x.reflagged k r { r with remote := b }) s t
      ∧ t.fwdOut = s.fwdOut ++ [m] ∧ OnlyChanges [.bwd, .circ, .fwdOut] s t := by
  have hm := recast_reflagged (s := s.took .backward rest) (fun c => { c with remote := b }) rfl hk hx
  have hf := recast_frame (s.took .backward rest) k fun c => { c with remote := b }
  obtain ⟨htook, hall⟩ := took_backward ((hf.mono (by decide)).trans
    ((emitFwd_frame _ m).mono (more := [.circ, .fwdOut]) (by decide))) (by decide)
  exact ⟨_, e, htook, hm.congr rfl rfl, congrArg (· ++ _) (hf .fwdOut (by decide)), hall⟩

/-- BLOCK_CIRCUIT or UNBLOCK_CIRCUIT on an equipped circuit: its local flag (R41). -/
theorem localFlag_answered {cmd : Instr} {code : Nat} {b : Bool} (h : s.requested code f rest) (hc : 3 < code)
    (hx : exec cmd s = .next (takeRequest code (fun p => localBlock (field 0 2 p) b) s))
    (hf : field 0 2 (paramsOf f) = k) (hlt : k < 16384) (hk : s.circuit k = some r) (hg : s.group r.group = some x) :
    ∃ t, exec cmd s = .next t
      ∧ CircuitMoved k r { r with localBlock := b } (x.reflagged k r { r with localBlock := b }) s t
      ∧ Replied f rest .done [] s t ∧ OnlyChanges [.fwd, .circ, .bwdOut] s t := by
  have hk' : (s.took .forward rest).circuit k = some r := hk
  have hm := recast_reflagged (s := s.took .forward rest) (fun c => { c with localBlock := b }) rfl hk hg
  obtain ⟨t, e, hcirc, hrep, hall⟩ := request_answered (u := (s.took .forward rest).setLocal k b) (rc := .done)
    (results := []) h hc hx (by
      have hn : ¬ Config.circuitCount ≤ k := Nat.not_le.mpr hlt
      simp only [localBlock, hf, hn, if_false, hk', Option.isNone_some, Bool.false_eq_true]; rfl)
    (recast_frame _ _ _)
  exact ⟨t, e, hm.congr rfl hcirc, hrep, hall⟩

/-- A request about a circuit that is out of range or Unequipped (R41). -/
theorem localFlag_refused {cmd : Instr} {code : Nat} {b : Bool} (h : s.requested code f rest) (hc : 3 < code)
    (hx : exec cmd s = .next (takeRequest code (fun p => localBlock (field 0 2 p) b) s)) :
    let k := field 0 2 (paramsOf f)
    (16383 < k → ∃ t, exec cmd s = .next t ∧ Replied f rest .badParameter [] s t ∧ OnlyChanges [.fwd, .bwdOut] s t)
    ∧ (k ≤ 16383 → s.circuit k = none →
      ∃ t, exec cmd s = .next t ∧ Replied f rest .notFound [] s t ∧ OnlyChanges [.fwd, .bwdOut] s t) := by
  refine ⟨fun hlt => request_unchanged h hc hx ?_, fun hle hn => request_unchanged h hc hx ?_⟩
  · exact if_pos hlt
  · have hn' : (s.took .forward rest).circuit (field 0 2 (paramsOf f)) = none := hn
    have hle' : ¬ Config.circuitCount ≤ field 0 2 (paramsOf f) := Nat.not_le.mpr (Nat.lt_succ_of_le hle)
    simp only [localBlock, hle', if_false, hn', Option.isNone_none, if_true]; rfl

/-- Settles O25: each of the four changes one flag, and the circuit's class follows its flags. -/
theorem blocksMoveOneFlag : Obligations.BlocksMoveOneFlag := by
  unfold Obligations.BlocksMoveOneFlag
  refine ⟨fun s f rest k r x hk hx => ⟨fun hh hf => ?_, fun hh hf => ?_, fun hh hf hlt => ?_, fun hh hf hlt => ?_⟩,
    fun s f rest c code hc hh => ?_⟩
  · exact remoteFlag_confirmed hk hx (congrArg Host.Outcome.next ((takeKind_of hh).trans (onCircuit_of hf hk)))
  · exact remoteFlag_confirmed hk hx (congrArg Host.Outcome.next ((takeKind_of hh).trans (onCircuit_of hf hk)))
  · exact localFlag_answered hh (by decide) rfl hf hlt hk hx
  · exact localFlag_answered hh (by decide) rfl hf hlt hk hx
  · rcases hc with ⟨rfl, rfl⟩ | ⟨rfl, rfl⟩
    · exact localFlag_refused hh (by decide) rfl
    · exact localFlag_refused hh (by decide) rfl

/-! ### A far seizure (R42, R43) -/

theorem Circuit.cls_of_farSeized (h : r.cond = .farSeized) : r.cls = .farSeized := by simp [Circuit.cls, h]

theorem Circuit.cls_of_guard {d : Nat} (h : r.cond = .guard d) : r.cls = .guard := by simp [Circuit.cls, h]

theorem Circuit.cls_of_idle (h : r.cond = .idle) : r.cls = if (r.remote || r.localBlock) = true then .blocked else .free := by
  simp [Circuit.cls, h]

/-- FAR_SEIZE on an equipped circuit is judged on the device without the message. -/
theorem farSeize_runs (hh : s.headed .backward 0x0C f rest) (hf : keyOf f % 16384 = k) (hk : s.circuit k = some r) :
    exec .farSeize s = .next ((s.took .backward rest).farSeize k r) :=
  congrArg Host.Outcome.next ((takeKind_of hh).trans (onCircuit_of hf hk))

/-- A Far Seize that takes the circuit (R42). -/
theorem farSeize_takes (hh : s.headed .backward 0x0C f rest) (hf : keyOf f % 16384 = k) (hk : s.circuit k = some r)
    (hx : s.group r.group = some x) (ht : (s.took .backward rest).farSeize k r = (s.took .backward rest).farTakes k) :
    ∃ t, exec .farSeize s = .next t ∧ TookHead .backward rest s t
      ∧ CircuitMoved k r { r with cond := .farSeized } (x.reclass k r.cls .farSeized) s t ∧ OnlyChanges [.bwd, .circ] s t := by
  have hm := recast_moved (s := s.took .backward rest) (fun c => { c with cond := .farSeized }) hk hx
  obtain ⟨htook, hall⟩ := took_backward (t := (s.took .backward rest).farTakes k) (recast_frame _ _ _) (by decide)
  exact ⟨_, (farSeize_runs hh hf hk).trans (congrArg _ ht), htook, hm.congr rfl rfl, hall⟩

/-- A Far Seize that is discarded and counted (R42). -/
theorem farSeize_discards (hh : s.headed .backward 0x0C f rest) (hf : keyOf f % 16384 = k) (hk : s.circuit k = some r)
    (n : CircuitCounters → CircuitCounters)
    (ht : (s.took .backward rest).farSeize k r = (s.took .backward rest).countCirc n) :
    ∃ t, exec .farSeize s = .next t ∧ TookHead .backward rest s t
      ∧ t.circ = { s.circ with counters := n s.circ.counters } ∧ OnlyChanges [.bwd, .circ] s t :=
  stray_of n (farSeize_runs hh hf hk) ht

/-- Settles O26: the table of R42, row by row, and the glare that a Controlling group wins (R43). -/
theorem farSeizeByCondition : Obligations.FarSeizeByCondition := by
  unfold Obligations.FarSeizeByCondition
  intro s f rest k r x hh hf hk hx flagged takes discards error
  have hx' : (s.took .backward rest).group r.group = some x := hx
  have protocolError : (s.took .backward rest).farSeize k r = (s.took .backward rest).seizeProtocolError → error :=
    farSeize_discards hh hf hk fun n => { n with seizeProtocol := inc32 n.seizeProtocol }
  refine ⟨fun hd => ?_, fun hd hc hflag => ?_, fun hd hc hflag => ?_, fun d hd hc => ?_,
    fun i c hd hc hctx => ⟨fun hp hg => ?_, fun hp => ?_⟩, fun hd hc => ?_⟩
  · exact protocolError (by simp only [State.farSeize, hx', hd])
  · have hflag : (r.remote || r.localBlock) = false := hflag
    have hcls : r.cls = .free := by rw [Circuit.cls_of_idle hc, if_neg (by rw [hflag]; decide)]
    have := farSeize_takes hh hf hk hx (by simp only [State.farSeize, hx', hd, hc, hflag, Bool.false_eq_true, if_false])
    rwa [hcls] at this
  · have hflag : (r.remote || r.localBlock) = true := hflag
    exact farSeize_discards hh hf hk (fun n => { n with seizeOnBlocked := inc32 n.seizeOnBlocked })
      (by simp only [State.farSeize, hx', hd, hc, hflag, if_true])
  · have := farSeize_takes hh hf hk hx (by simp only [State.farSeize, hx', hd, hc])
    rwa [Circuit.cls_of_guard hc] at this
  · have hctx' : (s.took .backward rest).context i = some c := hctx
    exact farSeize_discards hh hf hk (fun n => { n with glareHeld := inc32 n.glareHeld })
      (by simp only [State.farSeize, hx', hd, hc, State.glare, hctx', hp, hg, if_true])
  · have hctx' : (s.took .backward rest).context i = some c := hctx
    exact protocolError (by simp only [State.farSeize, hx', hd, hc, State.glare, hctx', hp, if_false])
  · rcases hc with hc | ⟨d, hc⟩
    · exact protocolError (by simp only [State.farSeize, hx', hd, hc])
    · exact protocolError (by simp only [State.farSeize, hx', hd, hc])

/-! ### The end of a far seizure (R44) -/

/-- Settles O27: a Far-Seized circuit comes to rest (R31); every other condition, and the Unequipped circuit, is counted. -/
theorem farClearEndsFarSeizure : Obligations.FarClearEndsFarSeizure := by
  unfold Obligations.FarClearEndsFarSeizure
  intro s f rest k hh hf
  refine ⟨fun r x hk hx hc => ?_, fun r hk hc => ?_, fun hk => ?_⟩
  · have hk' : (s.took .backward rest).circuit k = some r := hk
    have e : exec .farClear s = .next ((s.took .backward rest).enterGuard s.time.now k) := by
      refine congrArg Host.Outcome.next ((takeKind_of hh).trans ((onCircuit_of hf hk').trans ?_))
      simp only [hc]; rfl
    have hrest := enterGuard_of (s := s.took .backward rest) hk hx (.inr (.inl (Circuit.cls_of_farSeized hc))) s.time.now
    rw [Circuit.cls_of_farSeized hc] at hrest
    obtain ⟨hmoved, hout⟩ := hrest
    obtain ⟨htook, hall⟩ := took_backward (enterGuard_frame (s.took .backward rest) s.time.now k) (by decide)
    exact ⟨_, e, htook, hmoved.congr rfl rfl, hout, hall⟩
  · refine stray_of (fun n => { n with clearDiscarded := inc32 n.clearDiscarded })
      (congrArg Host.Outcome.next ((takeKind_of hh).trans (onCircuit_of hf hk))) ?_
    split
    · rename_i hi; exact absurd hi hc
    · rfl
  · exact unequipped_of hh rfl (fun u hu => onCircuit_none hu) (hf.symm ▸ hk)

/-! ### The timers of a circuit (R32, R35) -/

/-- The guard expiry of the circuit at the head of its group's guard list (R32). -/
theorem expireGuard_due {d : Nat} (hk : s.circuit k = some r) (hx : s.group r.group = some x) (hc : r.cond = .guard d)
    (hd : d ≤ s.time.ticks) (hl : x.guardList.head? = some k) :
    s.expireGuard r.group = s.recast k fun c => { c with cond := .idle } := by
  simp only [State.expireGuard, hx, Option.bind_some, hl, hk, hc, hd, if_true]

/-- The clearing expiry of a Releasing circuit (R35). -/
theorem expireClearing_due {d : Nat} (hk : s.circuit k = some r) (hc : r.cond = .releasing d) (hd : d ≤ s.time.ticks) :
    s.expireClearing k = s.maintenanceBlock r.group k := by
  simp only [State.expireClearing, hk, hc, hd, if_true]

/-- A Releasing circuit that becomes Idle and locally blocked (R35). -/
theorem recast_maintenance {d : Nat} (hk : s.circuit k = some r) (hx : s.group r.group = some x) (hc : r.cond = .releasing d) :
    CircuitMoved k r { r with cond := .idle, localBlock := true }
      { x with counts := { x.counts with releasing := x.counts.releasing - 1, blocked := x.counts.blocked + 1 } } s
      (s.recast k fun c => { c with cond := .idle, localBlock := true }) := by
  have hm := recast_moved (fun c => { c with cond := .idle, localBlock := true }) hk hx
  rw [Circuit.cls_of_releasing hc, Circuit.cls_of_idle (r := { r with cond := .idle, localBlock := true }) rfl,
    Bool.or_true, if_pos rfl] at hm
  exact hm

/-- The notices that the look of R46 gives are those of its report. -/
theorem drainNotices_report {g : Nat} (hx : s.group g = some x) (now : ExTime) :
    (s.drainNotices g).map (OutMsg.notice now) = x.drainReport g now := by
  simp only [State.drainNotices, hx, Group.drainReport, Group.drainDue_eq]
  split <;> rfl

/-- What the clearing expiry does to its group and sends (R35, R46). -/
theorem maintenanceBlock_of {d : Nat} (hk : s.circuit k = some r) (hx : s.group r.group = some x) (hc : r.cond = .releasing d) :
    let x' := { x with counts := { x.counts with releasing := x.counts.releasing - 1, blocked := x.counts.blocked + 1 } }
    let t := s.maintenanceBlock r.group k
    CircuitMoved k r { r with cond := .idle, localBlock := true } x'.reported s
        { t with circ := { t.circ with counters := s.circ.counters } }
      ∧ t.circ.counters = { s.circ.counters with clearingExpiry := inc32 s.circ.counters.clearingExpiry }
      ∧ (∃ ns : List OutMsg, t.bwdOut = s.bwdOut ++ ns
        ∧ ns.Perm (.notice s.time.tickTime (.maintenanceBlock r.group k) :: x'.drainReport r.group s.time.tickTime))
      ∧ OnlyChanges [.circ, .bwdOut, .draws] s t := by
  intro x' t
  have hm := recast_maintenance hk hx hc
  have hf := recast_frame s k fun c => { c with cond := .idle, localBlock := true }
  unfold t State.maintenanceBlock
  dsimp only
  generalize (s.recast k fun c => { c with cond := .idle, localBlock := true }) = u at hm hf
  have hdrain := (drainCheck_of hm.group s.time.tickTime).1
  rw [drainCheck_eq] at hdrain
  have hmoved := hm.groupSet (hdrain.congr rfl (t' := u.markDrained r.group) rfl)
  have hn := notifyAll_frame (u.markDrained r.group) s.time.tickTime (.maintenanceBlock r.group k :: u.drainNotices r.group)
  obtain ⟨ms, hout, hperm⟩ :=
    notifyAll_bwdOut (u.markDrained r.group) s.time.tickTime (.maintenanceBlock r.group k :: u.drainNotices r.group)
  have hcirc : ((u.markDrained r.group).notifyAll s.time.tickTime (.maintenanceBlock r.group k :: u.drainNotices r.group)).circ
      = (u.markDrained r.group).circ := hn .circ (by decide)
  generalize (u.markDrained r.group).notifyAll s.time.tickTime (.maintenanceBlock r.group k :: u.drainNotices r.group) = v at *
  refine ⟨?_, ?_, ⟨ms.map (OutMsg.notice s.time.tickTime), ?_, ?_⟩, ?_⟩
  · refine hmoved.congr rfl ?_
    change ({ v.circ with counters := s.circ.counters } : CircuitMap) = _
    rw [hcirc, ← hmoved.counters]
  · change ({ v.circ.counters with clearingExpiry := inc32 v.circ.counters.clearingExpiry } : CircuitCounters) = _
    rw [hcirc, hmoved.counters]
  · exact hout.trans (congrArg (· ++ _) (hf .bwdOut (by decide)))
  · rw [← drainNotices_report hm.group]
    exact hperm.map _
  · exact (hf.mono (by decide)).trans (((updGroup_frame _ _ _).mono (by decide)).trans
      ((hn.mono (by decide)).trans ((countCirc_frame v _).mono (more := [.circ, .bwdOut, .draws]) (by decide))))

/-- Settles O31: each expiry by the circuit that it takes; the group is then that of the circuit's new class. -/
theorem circuitTimersExpire : Obligations.CircuitTimersExpire := by
  unfold Obligations.CircuitTimersExpire
  intro s k d r x hk hx hd
  refine ⟨fun hc hl => ?_, fun hc => ?_⟩
  · have hm := recast_moved (fun c => { c with cond := .idle }) hk hx
    rw [Circuit.cls_of_guard hc, Circuit.cls_of_idle (r := { r with cond := .idle }) rfl] at hm
    refine ⟨_, congrArg Host.Outcome.next (expireGuard_due hk hx hc hd hl), ?_, recast_frame _ _ _⟩
    split
    · rename_i hflag; rwa [if_pos hflag] at hm
    · rename_i hflag; rwa [if_neg hflag] at hm
  · obtain ⟨hmoved, hcount, hout, hall⟩ := maintenanceBlock_of hk hx hc
    exact ⟨_, congrArg Host.Outcome.next (expireClearing_due hk hc hd), hmoved, hcount, hout, hall⟩

end Sys2Proof.Machine
end

