-- ==== Sys2Proof/Proofs/GroupRequests.lean ====
section
/-! SUPPORT and CERTIFICATES. The requests on a whole group: its load (R47, R48, R94), its removal (R49) and its admin state
(R45, R46). -/
namespace Sys2Proof.Machine

variable {s : State} {f : Frame} {rest : List Frame} {g k : Nat} {x : Group}

/-! ### An idle group Out of Service (R47, R49) -/

theorem allIdle_iff (h : s.circ.Law) (g : Nat) : allIdle g s.circ.circuits = true ↔ s.restsWholly g := by
  refine ⟨fun hi k r hk hg => idle_of_allIdle hi hk hg, fun hr => List.all_eq_true.mpr fun p hp => ?_⟩
  obtain ⟨hm, hg⟩ := mem_membersOf.mp hp
  exact decide_eq_true (hr p.1 p.2 (Table.find_of_mem h.circuitsForm hm) hg)

theorem Group.idleOut_iff (h : s.circ.Law) (x : Group) (g : Nat) :
    x.idleOut g s.circ.circuits = true ↔ x.admin = .outOfService ∧ s.restsWholly g := by
  rw [Group.idleOut, Bool.and_eq_true, decide_eq_true_eq, allIdle_iff h]

/-! ### Removal (R49) -/

theorem removeTrunkGroup_none (hx : s.group g = none) : removeTrunkGroup g s = ⟨s, .notFound, []⟩ := by
  simp only [removeTrunkGroup, hx]; rfl

theorem removeTrunkGroup_busy (h : s.circ.Law) (hx : s.group g = some x)
    (hr : ¬ (x.admin = .outOfService ∧ s.restsWholly g)) :
    removeTrunkGroup g s = ⟨s, .busy, []⟩ := by
  simp only [removeTrunkGroup, hx, if_neg fun e => hr ((x.idleOut_iff h g).mp e)]; rfl

theorem removeTrunkGroup_done (h : s.circ.Law) (hx : s.group g = some x) (hr : x.admin = .outOfService ∧ s.restsWholly g) :
    removeTrunkGroup g s = ⟨s.unequip g, .done, []⟩ := by
  simp only [removeTrunkGroup, hx, if_pos ((x.idleOut_iff h g).mpr hr)]; rfl

theorem unequip_circuit (h : s.circ.Law) (g k : Nat) :
    (s.unequip g).circuit k = (s.circuit k).filter fun r => decide (r.group ≠ g) :=
  Table.find_filter h.circuitsForm _ k

/-! ### Admin state (R45, R46) -/

/-- The group in its new admin state, after the look of R46 where it enters Draining. -/
def Group.takesState (x : Group) (y : AdminState) : Group :=
  if x.admin = y then x
  else if y = .draining then ({ x with admin := y, drainedSent := false } : Group).reported
  else { x with admin := y }

/-- The Group Drained notice of an entry into Draining. -/
def Group.stateReport (x : Group) (y : AdminState) (g : Nat) (now : ExTime) : List OutMsg :=
  if x.admin ≠ .draining ∧ y = .draining then
    ({ x with admin := y, drainedSent := false } : Group).drainReport g now
  else []

/-- A change of admin state sets its group, and nothing else of the Circuit Map. -/
theorem changeAdmin_of (hx : s.group g = some x) {y : AdminState} (hne : x.admin ≠ y) :
    let t := s.changeAdmin g y
    GroupSet g (x.takesState y) s t ∧ t.circ = { s.circ with groups := t.circ.groups }
      ∧ t.bwdOut = s.bwdOut ++ x.stateReport y g s.time.now ∧ OnlyChanges [.circ, .bwdOut] s t := by
  have plain := updGroup_groupSet hx fun r => { r with admin := y }
  have frame := (updGroup_frame s g fun r => { r with admin := y }).mono (more := [.circ, .bwdOut]) (by decide)
  rw [Group.takesState, Group.stateReport, if_neg hne]
  cases y
  case draining =>
    have hset := updGroup_groupSet hx fun r => { r with admin := .draining, drainedSent := false }
    obtain ⟨hlook, hout⟩ := drainCheck_of hset.group s.time.now
    rw [if_pos rfl, if_pos ⟨hne, rfl⟩]
    refine ⟨hset.trans hlook, ?_, hout,
      ((updGroup_frame _ _ _).mono (by decide)).trans (drainCheck_frame _ s.time.now g)⟩
    simp only [State.changeAdmin, drainCheck_eq]; rfl
  all_goals
    rw [if_neg (by decide), if_neg (by simp), List.append_nil]
    exact ⟨plain, rfl, rfl, frame⟩

theorem setGroupState_set (hx : s.group g = some x) {a : Nat} {y : AdminState} (ha : adminOf a = some y) :
    setGroupState g a s = ⟨if x.admin = y then s else s.changeAdmin g y, .done, []⟩ := by
  simp only [setGroupState, hx, ha]; rfl

theorem setGroupState_absent (hx : s.group g = none) {a : Nat} {y : AdminState} (ha : adminOf a = some y) :
    setGroupState g a s = ⟨s, .notFound, []⟩ := by
  simp only [setGroupState, hx, ha]; rfl

theorem setGroupState_unknown (hx : s.group g = some x) {a : Nat} (ha : adminOf a = none) :
    setGroupState g a s = ⟨s, .badParameter, []⟩ := by
  simp only [setGroupState, hx, ha]; rfl

theorem setGroupState_both (hx : s.group g = none) {a : Nat} (ha : adminOf a = none) :
    setGroupState g a s = ⟨s, if Config.notFoundFirst g a then .notFound else .badParameter, []⟩ := by
  simp only [setGroupState, hx, ha]; rfl

/-- SET_GROUP_STATE with an equipped group and one of the three states. -/
theorem setGroupState_done (h : s.requested 0x23 f rest) (hg : field 0 1 (paramsOf f) = g) (hx : s.group g = some x)
    {y : AdminState} (ha : adminOf (field 1 1 (paramsOf f)) = some y) :
    ∃ t, exec .setGroupState s = .next t ∧ TookHead .forward rest s t ∧ t.group g = some (x.takesState y)
      ∧ (∀ n, n ≠ g → t.group n = s.group n) ∧ t.circ = { s.circ with groups := t.circ.groups }
      ∧ t.bwdOut = s.bwdOut ++ x.stateReport y g s.time.now ++ [.reply (kindByteOf f) 0x23 .done []]
      ∧ OnlyChanges [.fwd, .circ, .bwdOut] s t := by
  have e := request_runs h (by decide) (cmd := .setGroupState) rfl
  have hx' : (s.took .forward rest).group g = some x := hx
  rw [hg, setGroupState_set hx' ha] at e
  have hcode : requestCode f = 0x23 := h.2.1
  have reach : ∀ u, (if x.admin = y then s.took .forward rest else (s.took .forward rest).changeAdmin g y) = u →
      GroupSet g (x.takesState y) (s.took .forward rest) u
        ∧ u.circ = { s.circ with groups := u.circ.groups } ∧ u.bwdOut = s.bwdOut ++ x.stateReport y g s.time.now
        ∧ OnlyChanges [.circ, .bwdOut] (s.took .forward rest) u := by
    rintro u rfl
    by_cases hy : x.admin = y
    · have hn : ¬ (x.admin ≠ .draining ∧ y = .draining) := fun hn => hn.1 (hy.trans hn.2)
      rw [if_pos hy, Group.takesState, if_pos hy, Group.stateReport, if_neg hn, List.append_nil]
      exact ⟨.refl hx', rfl, rfl, .refl _ _⟩
    · rw [if_neg hy]
      exact changeAdmin_of hx' hy
  generalize (if x.admin = y then s.took .forward rest else (s.took .forward rest).changeAdmin g y) = u at e reach
  obtain ⟨hset, hcirc, hout, hfr⟩ := reach u rfl
  obtain ⟨htook, hall⟩ := took_forward (hfr.trans
    ((emitBwd_frame u (.reply (kindByteOf f) (requestCode f) .done [])).mono (by decide))) (by decide)
  refine ⟨_, e, htook, hset.group, hset.others, hcirc, ?_, hall⟩
  rw [← hcode, ← hout]; rfl

theorem adminOf_of_le {a : Nat} (h : a ≤ 2) : ∃ y, adminOf a = some y := by
  match a, h with
  | 0, _ => exact ⟨_, rfl⟩
  | 1, _ => exact ⟨_, rfl⟩
  | 2, _ => exact ⟨_, rfl⟩

theorem adminOf_of_lt {a : Nat} (h : 2 < a) : adminOf a = none := by
  match a, h with
  | n + 3, _ => rfl

/-- Settles O43: each answer by the check that gives it, and what a removal and a new admin state leave. -/
theorem trunkGroupRemovedOrSet : Obligations.TrunkGroupRemovedOrSet := by
  unfold Obligations.TrunkGroupRemovedOrSet
  intro s f rest hlaw g a refused
  refine ⟨fun hh => ⟨fun hx => ?_, fun x hx hr => ?_, fun x hx ha hr => ?_⟩,
    fun hh => ⟨fun hx ha => ?_, fun x hx ha => ?_, fun hx ha => ?_, fun x y hx hy => ?_⟩⟩
  · exact request_unchanged hh (by decide) rfl (removeTrunkGroup_none (s := s.took .forward rest) hx)
  · exact request_unchanged hh (by decide) rfl (removeTrunkGroup_busy (s := s.took .forward rest) hlaw hx hr)
  · obtain ⟨t, e, hcirc, hrep, hall⟩ := request_answered (cmd := .removeTrunkGroup)
      (act := fun p => removeTrunkGroup (field 0 1 p)) hh (by decide) rfl
      (removeTrunkGroup_done (s := s.took .forward rest) hlaw hx ⟨ha, hr⟩)
      (show OnlyChanges [.circ] (s.took .forward rest) ((s.took .forward rest).unequip g) from withCirc_frame _ _)
    refine ⟨t, e, hrep, ?_, fun n hn => ?_, fun k => ?_, by rw [hcirc]; rfl, hall⟩
    · rw [State.group, hcirc]; exact Table.find_del_self _ _
    · rw [State.group, hcirc]; exact Table.find_del_of_ne hn _
    · rw [State.circuit, hcirc]; exact unequip_circuit (s := s.took .forward rest) hlaw g k
  · obtain ⟨y, hy⟩ := adminOf_of_le ha
    exact request_unchanged hh (by decide) rfl (setGroupState_absent (s := s.took .forward rest) hx hy)
  · exact request_unchanged hh (by decide) rfl (setGroupState_unknown (s := s.took .forward rest) hx (adminOf_of_lt ha))
  · have either := setGroupState_both (s := s.took .forward rest) hx (adminOf_of_lt ha)
    split at either
    · exact .inl (request_unchanged hh (by decide) rfl either)
    · exact .inr (request_unchanged hh (by decide) rfl either)
  · have ha : adminOf a = some y := by
      simp only [List.mem_cons, Prod.mk.injEq, List.not_mem_nil, or_false] at hy
      rcases hy with ⟨h, rfl⟩ | ⟨h, rfl⟩ | ⟨h, rfl⟩ <;> rw [h] <;> rfl
    exact setGroupState_done hh rfl hx ha

/-! ### Load (R47, R48, R94) -/

/-- The configuration that a Load Trunk Group with fields in range gives. -/
def LoadGroupReq.cfg (q : LoadGroupReq) : GroupConfig :=
  { first := q.first, size := q.size, owner := q.owner
    direction := if q.direction = 0 then .outgoing else .bothWay
    glare := if q.glare = 0 then .controlling else .yielding
    hunt := if q.hunt = 0 then .oldestFree else .lowestNumber
    guardTime := q.guardTime, reservation := q.reservation, thrSet := q.thrSet, theta := q.theta
    probeInterval := q.probeInterval, bandReport := q.bandReport }

theorem LoadGroupReq.config_of_fits {q : LoadGroupReq} (h : q.Fits) : q.config = some q.cfg := by
  simp only [LoadGroupReq.Fits, and_assoc] at h
  exact if_pos h

theorem LoadGroupReq.config_of_not_fits {q : LoadGroupReq} (h : ¬ q.Fits) : q.config = none := by
  simp only [LoadGroupReq.Fits, and_assoc] at h
  exact if_neg h

theorem LoadGroupReq.gives_cfg {q : LoadGroupReq} (h : q.Fits) : q.Gives q.cfg := by
  obtain ⟨-, -, -, -, -, hd, hg, hh, -⟩ := h
  refine ⟨rfl, rfl, rfl, ?_, ?_, ?_, rfl, rfl, rfl, rfl, rfl, rfl⟩
  · simp only [LoadGroupReq.cfg]; split <;> simp <;> omega
  · simp only [LoadGroupReq.cfg]; split <;> simp <;> omega
  · simp only [LoadGroupReq.cfg]; split <;> simp <;> omega

theorem overlapsOther_iff (h : s.circ.Law) (id : Nat) (c : GroupConfig) :
    overlapsOther id c s.circ.circuits = true ↔
      ∃ k r, (c.first ≤ k ∧ k < c.first + c.size) ∧ s.circuit k = some r ∧ r.group ≠ id := by
  simp only [overlapsOther, List.any_eq_true, Bool.and_eq_true, GroupConfig.holds, decide_eq_true_eq, Prod.exists,
    Table.mem_iff_find h.circuitsForm]
  exact ⟨fun ⟨k, r, hk, hin, hg⟩ => ⟨k, r, hin, hk, hg⟩, fun ⟨k, r, hin, hk, hg⟩ => ⟨k, r, hk, hin, hg⟩⟩

/-- The checks of R47 after the first, on the configuration that the request gives. -/
theorem loadTrunkGroup_of_fits {q : LoadGroupReq} (hq : q.Fits) (s : State) : loadTrunkGroup q s =
    if overlapsOther q.id q.cfg s.circ.circuits = true then Answer.refuse s .badParameter
    else if q.owner ≠ 0 ∧ (s.carrier q.owner).isNone = true then Answer.refuse s .notFound
    else match s.group q.id with
      | none => Answer.ok (s.equip q.id q.cfg) []
      | some old =>
        if old.idleOut q.id s.circ.circuits = true then Answer.ok (s.equip q.id q.cfg) [] else Answer.refuse s .busy := by
  simp only [loadTrunkGroup, LoadGroupReq.config_of_fits hq] <;> rfl

/-- Does a group of this number let a load replace it: none, or one idle and Out of Service (R47)? -/
def State.loadable (s : State) (id : Nat) : Prop := ∀ x, s.group id = some x → x.admin = .outOfService ∧ s.restsWholly id

theorem loadTrunkGroup_overlap (h : s.circ.Law) {q : LoadGroupReq}
    (ho : ∃ k r, (q.first ≤ k ∧ k < q.first + q.size) ∧ s.circuit k = some r ∧ r.group ≠ q.id) (hq : q.Fits) :
    loadTrunkGroup q s = ⟨s, .badParameter, []⟩ := by
  rw [loadTrunkGroup_of_fits hq, if_pos ((overlapsOther_iff h _ _).mpr ho)]; rfl

theorem loadTrunkGroup_undeclared (h : s.circ.Law) {q : LoadGroupReq} (hq : q.Fits)
    (ho : ¬ ∃ k r, (q.first ≤ k ∧ k < q.first + q.size) ∧ s.circuit k = some r ∧ r.group ≠ q.id)
    (hu : q.owner ≠ 0 ∧ s.carrier q.owner = none) : loadTrunkGroup q s = ⟨s, .notFound, []⟩ := by
  rw [loadTrunkGroup_of_fits hq, if_neg fun e => ho ((overlapsOther_iff h _ _).mp e),
    if_pos ⟨hu.1, Option.isNone_iff_eq_none.mpr hu.2⟩]; rfl

section
variable {q : LoadGroupReq} (h : s.circ.Law) (hq : q.Fits)
  (ho : ¬ ∃ k r, (q.first ≤ k ∧ k < q.first + q.size) ∧ s.circuit k = some r ∧ r.group ≠ q.id)
  (hu : ¬ (q.owner ≠ 0 ∧ s.carrier q.owner = none))
include h hq ho hu

/-- The last check of R47. -/
theorem loadTrunkGroup_checked : loadTrunkGroup q s = match s.group q.id with
    | none => Answer.ok (s.equip q.id q.cfg) []
    | some old =>
      if old.idleOut q.id s.circ.circuits = true then Answer.ok (s.equip q.id q.cfg) [] else Answer.refuse s .busy := by
  rw [loadTrunkGroup_of_fits hq, if_neg fun e => ho ((overlapsOther_iff h _ _).mp e),
    if_neg fun e => hu ⟨e.1, Option.isNone_iff_eq_none.mp e.2⟩]

theorem loadTrunkGroup_busy (hx : s.group q.id = some x) (hr : ¬ (x.admin = .outOfService ∧ s.restsWholly q.id)) :
    loadTrunkGroup q s = ⟨s, .busy, []⟩ := by
  rw [loadTrunkGroup_checked h hq ho hu, hx]
  exact if_neg fun e => hr ((x.idleOut_iff h _).mp e)

theorem loadTrunkGroup_done (hl : s.loadable q.id) : loadTrunkGroup q s = ⟨s.equip q.id q.cfg, .done, []⟩ := by
  rw [loadTrunkGroup_checked h hq ho hu]
  cases hx : s.group q.id with
  | none => rfl
  | some x => exact if_pos ((x.idleOut_iff h _).mpr (hl x hx))

end

/-! #### What a load leaves -/

theorem reloadable_of_loadable (h : s.circ.Law) {id : Nat} (hl : s.loadable id) :
    Reloadable id (s.group id) s.circ.circuits := by
  cases hx : s.group id with
  | none => exact reloadable_none h hx
  | some x => exact reloadable_some h hx ((x.idleOut_iff h id).mpr (hl x hx))

/-- The circuits after a load: those of the range as they were or new, none of the group outside it, the others as they were
(R47, R48). -/
theorem equip_circuit (h : s.circ.Law) (id : Nat) (c : GroupConfig) (k : Nat) :
    (s.equip id c).circuit k = if c.holds k = true then some ((s.circuit k).getD (Circuit.new id))
      else (s.circuit k).filter fun r => decide (r.group ≠ id) := by
  ext r
  change Table.find k (redraw id c s.circ.circuits) = some r ↔ _
  rw [find_redraw id c h.circuitsForm]
  change s.circuit k = some r ∧ _ ∨ s.circuit k = none ∧ _ ↔ _
  by_cases hin : c.holds k = true
  · cases hk : s.circuit k <;> simp [hin, eq_comm]
  · cases hk : s.circuit k <;> simp [hin, Option.filter_eq_some_iff]

theorem equip_group (id : Nat) (c : GroupConfig) (s : State) :
    (s.equip id c).group id = some (loadedGroup id c (s.group id) s.circ.circuits) := Table.find_put_self _ _ _

/-- No circuit of a new group's range is equipped, but for those of other groups (R27). -/
theorem unequipped_of_new (h : s.circ.Law) {id : Nat} (hn : s.group id = none) {c : GroupConfig}
    (ho : overlapsOther id c s.circ.circuits = false) (hk : c.holds k = true) : s.circuit k = none := by
  cases hr : s.circuit k with
  | none => rfl
  | some r =>
    obtain ⟨x, hx⟩ := State.circuit_equipped h hr
    have hg : r.group = id := by
      have := List.any_eq_false.mp ho _ (Table.mem_of_find hr)
      simpa [hk] using this
    rw [hg, hn] at hx
    cases hx

theorem countClasses_free {cs : List Circuit} (h : ∀ c ∈ cs, c.cls = .free) :
    countClasses cs = ⟨cs.length, 0, 0, 0, 0, 0⟩ := by
  induction cs with
  | nil => rfl
  | cons c cs ih =>
    rw [countClasses_cons, ih fun d hd => h d (List.mem_cons_of_mem _ hd), h c List.mem_cons_self]
    rfl

/-- A new group: every circuit of its range Free, in circuit-number order (R47). -/
theorem loadedGroup_new (h : s.circ.Law) {id : Nat} (hn : s.group id = none) {c : GroupConfig} (hs : 1 ≤ c.size)
    (ho : overlapsOther id c s.circ.circuits = false) :
    let y := loadedGroup id c none s.circ.circuits
    y.freeQueue = c.range ∧ y.counts = ⟨c.size, 0, 0, 0, 0, 0⟩ := by
  intro y
  have hlaw : y.Law (redraw id c s.circ.circuits) id := loadedGroup_law h.circuitsForm hs ho (reloadable_none h hn)
  refine ⟨?_, ?_⟩
  · change newCircuits c s.circ.circuits = c.range
    refine List.filter_eq_self.mpr fun k hk => ?_
    have : s.circuit k = none := unequipped_of_new h hn ho ((c.mem_range k).mp hk)
    exact Option.isNone_iff_eq_none.mpr this
  · have hfree : ∀ r ∈ (membersOf id (redraw id c s.circ.circuits)).map (·.2), r.cls = .free := by
      intro r hr
      obtain ⟨p, hp, rfl⟩ := List.mem_map.mp hr
      obtain ⟨hm, hg⟩ := mem_membersOf.mp hp
      rcases (find_redraw id c h.circuitsForm _ _).mp (Table.find_of_mem (redraw_wf id c h.circuitsForm) hm) with
        ⟨hk, hne⟩ | ⟨-, -, e⟩
      · have := unequipped_of_new h hn ho (hne.resolve_left fun e => e hg)
        cases hk.symm.trans this
      · rw [e]; rfl
    have hcounts := countClasses_free hfree
    have htotal := hlaw.total (redraw_wf id c h.circuitsForm)
    rw [← hlaw.counts] at hcounts
    rw [hcounts] at htotal ⊢
    rw [← show _ = c.size from htotal]; rfl

/-- Settles O42: each check of R47 by what fails it, and the redrawn range by what its circuits were. -/
theorem trunkGroupLoaded : Obligations.TrunkGroupLoaded := by
  unfold Obligations.TrunkGroupLoaded
  intro s f rest h hh q inside overlaps undeclared refused
  refine ⟨fun hbad => ?_, fun hq ho hu => ?_, fun x hq ho hu hx hr => ?_, fun hq ho hu hl => ?_⟩
  · refine request_unchanged hh (by decide) rfl ?_
    by_cases hq : q.Fits
    · exact loadTrunkGroup_overlap (s := s.took .forward rest) h (hbad.resolve_left fun e => e hq) hq
    · simp only [loadTrunkGroup, show LoadGroupReq.config (loadGroupOf (paramsOf f)) = none from
        LoadGroupReq.config_of_not_fits hq]; rfl
  · exact request_unchanged hh (by decide) rfl (loadTrunkGroup_undeclared (s := s.took .forward rest) h hq ho hu)
  · exact request_unchanged hh (by decide) rfl (loadTrunkGroup_busy (s := s.took .forward rest) h hq ho hu hx hr)
  · obtain ⟨t, e, hcirc, hrep, hall⟩ := request_answered (cmd := .loadTrunkGroup)
      (act := fun p => loadTrunkGroup (loadGroupOf p)) hh (by decide) rfl
      (loadTrunkGroup_done (s := s.took .forward rest) h hq ho hu hl)
      (show OnlyChanges [.circ] (s.took .forward rest) ((s.took .forward rest).equip q.id q.cfg) from withCirc_frame _ _)
    have hover : overlapsOther q.id q.cfg s.circ.circuits = false :=
      Bool.eq_false_iff.mpr fun e => ho ((overlapsOther_iff h q.id q.cfg).mp e)
    have hsize : 1 ≤ q.cfg.size := LoadGroupReq.size_pos (LoadGroupReq.config_of_fits hq)
    have hgroup : ∀ g, t.group g = (s.equip q.id q.cfg).group g := fun g => by rw [State.group, hcirc]; rfl
    have hcircuit : ∀ k, t.circuit k = (s.equip q.id q.cfg).circuit k := fun k => by rw [State.circuit, hcirc]; rfl
    refine ⟨t, e, hrep, _, (hgroup q.id).trans (equip_group q.id q.cfg s), LoadGroupReq.gives_cfg hq, rfl, rfl, rfl,
      fun hn => ?_, fun x hx => ?_, fun g hg => ?_, fun k => ?_, by rw [hcirc]; rfl, ?_, hall⟩
    · rw [hn]
      exact ⟨rfl, loadedGroup_new h hn hsize hover⟩
    · rw [hx]
      exact ⟨rfl, rfl⟩
    · rw [hgroup]; exact Table.find_put_of_ne hg _ _
    · have hholds : q.cfg.holds k = true ↔ inside k := decide_eq_true_iff
      rw [hcircuit, equip_circuit h]
      by_cases hin : inside k
      · rw [if_pos hin, if_pos (hholds.mpr hin)]
        cases s.circuit k <;> rfl
      · rw [if_neg hin, if_neg (fun e => hin (hholds.mp e))]
        cases s.circuit k with
        | none => rfl
        | some r => by_cases hg : r.group = q.id <;> simp [hg]
    · rw [hcirc]
      exact equip_circLaw (s := s.took .forward rest) h hsize hover (reloadable_of_loadable (s := s.took .forward rest) h hl)

end Sys2Proof.Machine
end

