-- ==== Sys2Proof/Proofs/TariffOffers.lean ====
section
/-! SUPPORT and CERTIFICATES. Tariff bodies in range (R110) and the judgement of a Tariff Offer (R113 to R115). -/
namespace Sys2Proof.Machine

variable {s t : State} {c : Carrier} {m : OfferMsg}

/-! ### Valid bodies (R110) -/

theorem startsAscend_iff (ps : List Period) : startsAscend ps = true ↔ (ps.map (·.start)).Pairwise (· < ·) := by
  rw [← List.isChain_iff_pairwise]
  induction ps with
  | nil => simp [startsAscend]
  | cons p ps ih =>
    cases ps with
    | nil => simp [startsAscend]
    | cons q ps =>
      simp only [List.map_cons, List.isChain_cons_cons] at ih ⊢
      rw [startsAscend, Bool.and_eq_true, decide_eq_true_eq, ih]

/-- The checks of R110 are its ranges. -/
theorem Tariff.valid_iff (x : Tariff) : x.valid = true ↔ x.InRange := by
  simp only [Tariff.valid, Bool.and_eq_true, decide_eq_true_eq, List.all_eq_true, startsAscend_iff]
  constructor
  · rintro ⟨⟨⟨⟨⟨⟨⟨⟨⟨⟨⟨hp, hf⟩, hr⟩, he⟩, hfee⟩, hm⟩, hme⟩, hs⟩, hse⟩, hb⟩, hstep⟩, hmin⟩
    exact ⟨hp, hf, hr, he, hfee, ⟨hm, hme⟩, ⟨hs, hse⟩, hb, hstep, hmin⟩
  · rintro ⟨hp, hf, hr, he, hfee, ⟨hm, hme⟩, ⟨hs, hse⟩, hb, hstep, hmin⟩
    exact ⟨⟨⟨⟨⟨⟨⟨⟨⟨⟨⟨hp, hf⟩, hr⟩, he⟩, hfee⟩, hm⟩, hme⟩, hs⟩, hse⟩, hb⟩, hstep⟩, hmin⟩

theorem validBody_inRange {b : Tariff} (h : b.InRange) : validBody (some b) = some b :=
  Option.filter_eq_some_iff.mpr ⟨rfl, b.valid_iff.mpr h⟩

theorem inRange_of_validBody {body : Option Tariff} {b : Tariff} (h : validBody body = some b) :
    body = some b ∧ b.InRange := by
  obtain ⟨h1, h2⟩ := Option.filter_eq_some_iff.mp h
  exact ⟨h1, b.valid_iff.mp h2⟩

/-! ### One carrier -/

theorem updCarrier_set {id : Nat} (h : s.carrier id = some c) (f : Carrier → Carrier) :
    CarrierSet id (f c) s (s.updCarrier id f) := by
  refine ⟨?_, fun n hn => ?_, rfl⟩
  · rw [State.updCarrier_carrier, if_pos rfl, h]; rfl
  · rw [State.updCarrier_carrier, if_neg (Ne.symm hn)]

theorem CarrierSet.congr {id : Nat} {s' t' : State} (h : CarrierSet id c s t) (hs : s'.tariffs = s.tariffs)
    (ht : t'.tariffs = t.tariffs) : CarrierSet id c s' t' := by
  obtain ⟨h1, h2, h3⟩ := h
  simp only [State.carrier] at h1 h2
  exact ⟨by rw [State.carrier, ht, h1], fun n hn => by rw [State.carrier, State.carrier, hs, ht, h2 n hn], by rw [hs, ht, h3]⟩

theorem updCarrier_frame (s : State) (id : Nat) (f : Carrier → Carrier) : OnlyChanges [.tariffs] s (s.updCarrier id f) :=
  withTariffs_frame _ _

/-! ### A rejection (R113, R115) -/

theorem rejectOffer_frame (s : State) (m : OfferMsg) (owner : Nat) (reason : OfferReason) :
    OnlyChanges [.tariffs, .bwdOut] s (s.rejectOffer m owner reason) := by
  have noticed : ∀ {u : State}, OnlyChanges [.tariffs] s u → ∀ now n, OnlyChanges [.tariffs, .bwdOut] s (u.notify now n) :=
    fun hu now n => (hu.mono (by decide)).trans ((notify_frame _ now n).mono (by decide))
  unfold State.rejectOffer
  cases s.carrier m.claimed
  · exact noticed (withTariffs_frame _ _) _ _
  · exact noticed (updCarrier_frame _ _ _) _ _

theorem rejectOffer_notice (s : State) (m : OfferMsg) (owner : Nat) (reason : OfferReason) :
    (s.rejectOffer m owner reason).bwdOut =
      s.bwdOut ++ [.notice s.time.now (.offerRejected m.claimed m.circuit owner reason)] := by
  unfold State.rejectOffer
  cases s.carrier m.claimed <;> rfl

theorem rejectOffer_declared (hc : s.carrier m.claimed = some c) (owner : Nat) (reason : OfferReason) :
    CarrierSet m.claimed { c with counters := { c.counters with rejected := inc32 c.counters.rejected } } s
      (s.rejectOffer m owner reason) := by
  have hset := updCarrier_set hc fun c => c.count fun k => { k with rejected := inc32 k.rejected }
  simp only [State.rejectOffer, hc]
  exact hset.congr rfl rfl

theorem rejectOffer_undeclared (hc : s.carrier m.claimed = none) (owner : Nat) (reason : OfferReason) :
    (s.rejectOffer m owner reason).tariffs =
      { s.tariffs with unknownRejected := inc32 s.tariffs.unknownRejected } := by
  simp only [State.rejectOffer, hc]; rfl

/-! ### Pin and validity (R114, R115) -/

theorem judgeOffer_pinned (hp : c.pinned = true) (owner : Nat) : s.judgeOffer m owner c =
    s.updCarrier m.claimed fun x => x.count fun k => { k with ignored := inc32 k.ignored } := if_pos hp

theorem judgeOffer_invalid (hp : c.pinned = false) (hb : ¬ ((∃ b, m.body = some b ∧ b.InRange) ∧ m.minute ≤ 1439))
    (owner : Nat) : s.judgeOffer m owner c = s.rejectOffer m owner .invalid := by
  rw [State.judgeOffer, hp, if_neg Bool.false_ne_true]
  split
  · rfl
  · rename_i b hv
    exact if_pos (Nat.lt_of_not_le fun hm => hb ⟨⟨b, inRange_of_validBody hv⟩, hm⟩)

theorem judgeOffer_valid {b : Tariff} (hp : c.pinned = false) (hb : m.body = some b) (hr : b.InRange)
    (hm : m.minute ≤ 1439) (owner : Nat) : s.judgeOffer m owner c =
      s.updCarrier m.claimed fun x =>
        { (x.count fun k => { k with accepted := inc32 k.accepted }) with pending := some ⟨b, m.day, m.minute, .offered⟩ } := by
  simp only [State.judgeOffer, hp, Bool.false_eq_true, if_false, hb, validBody_inRange hr, Nat.not_lt.mpr hm]

theorem judgeOffer_frame (s : State) (m : OfferMsg) (owner : Nat) (c : Carrier) :
    OnlyChanges [.tariffs, .bwdOut] s (s.judgeOffer m owner c) := by
  have counted : ∀ f, OnlyChanges [.tariffs, .bwdOut] s (s.updCarrier m.claimed f) :=
    fun f => (updCarrier_frame s _ f).mono (by decide)
  unfold State.judgeOffer
  split
  · exact counted _
  · split
    · exact rejectOffer_frame _ _ _ _
    · split
      · exact rejectOffer_frame _ _ _ _
      · exact counted _

/-! ### Authorisation (R113) -/

/-- The carrier that owns the group of the circuit an offer came on, 0 without one. -/
theorem ownerOf_eq {k owner : Nat} (h : (s.circuit k = none ∧ owner = 0)
    ∨ ∃ r x, s.circuit k = some r ∧ s.group r.group = some x ∧ owner = x.cfg.owner) : s.ownerOf k = owner := by
  rcases h with ⟨hk, rfl⟩ | ⟨r, x, hk, hx, rfl⟩
  · simp [State.ownerOf, hk]
  · simp [State.ownerOf, hk, hx]

/-- The device with an offer on an Unequipped circuit counted (R37, log entry 26). -/
def State.offerArrived (s : State) (k : Nat) : State :=
  if s.circuit k = none then s.countCirc fun n => { n with unequipped := inc32 n.unequipped } else s

theorem offerArrived_frame (s : State) (k : Nat) : OnlyChanges [.circ] s (s.offerArrived k) := by
  unfold State.offerArrived
  split
  · exact countCirc_frame _ _
  · exact .refl _ _

theorem offerArrived_circ (s : State) (k : Nat) : (s.offerArrived k).circ =
    if s.circuit k = none then { s.circ with counters := { s.circ.counters with
      unequipped := min (s.circ.counters.unequipped + 1) 4294967295 } } else s.circ := by
  unfold State.offerArrived
  split <;> rfl

/-- What R113 asks of an offer. -/
def State.authorises (s : State) (m : OfferMsg) : Prop :=
  1 ≤ m.claimed ∧ m.claimed ≤ 63 ∧ m.claimed = s.ownerOf m.circuit ∧ (s.carrier m.claimed).isSome = true

theorem takeOffer_eq (s : State) (m : OfferMsg) : s.takeOffer m =
    if m.claimed = 0 ∨ 63 < m.claimed ∨ m.claimed ≠ s.ownerOf m.circuit then
      (s.offerArrived m.circuit).rejectOffer m (s.ownerOf m.circuit) .unauthorised
    else match s.carrier m.claimed with
      | some c => (s.offerArrived m.circuit).judgeOffer m (s.ownerOf m.circuit) c
      | none => (s.offerArrived m.circuit).rejectOffer m (s.ownerOf m.circuit) .unauthorised := by
  have hcar := (offerArrived_frame s m.circuit).carrier_eq (by decide) m.claimed
  rw [← hcar]
  cases hk : s.circuit m.circuit <;> simp only [State.takeOffer, State.offerArrived, hk, reduceCtorEq, if_true, if_false] <;>
    rfl

theorem takeOffer_unauthorised (h : ¬ s.authorises m) :
    s.takeOffer m = (s.offerArrived m.circuit).rejectOffer m (s.ownerOf m.circuit) .unauthorised := by
  rw [takeOffer_eq]
  split
  · rfl
  · rename_i hn
    split
    · rename_i c hc
      exact absurd ⟨by omega, by omega, by omega, by rw [hc]; rfl⟩ h
    · rfl

theorem takeOffer_authorised (h : s.authorises m) (hc : s.carrier m.claimed = some c) :
    s.takeOffer m = (s.offerArrived m.circuit).judgeOffer m (s.ownerOf m.circuit) c := by
  obtain ⟨h1, h2, h3, -⟩ := h
  rw [takeOffer_eq, if_neg (by omega), hc]

theorem takeOffer_frame (s : State) (m : OfferMsg) :
    OnlyChanges [.tariffs, .bwdOut] (s.offerArrived m.circuit) (s.takeOffer m) := by
  rw [takeOffer_eq]
  split
  · exact rejectOffer_frame _ _ _ _
  · split
    · exact judgeOffer_frame _ _ _ _
    · exact rejectOffer_frame _ _ _ _

/-- Settles O28: the three judgements in their order, on the device that has counted an Unequipped circuit. -/
theorem tariffOfferIsJudged : Obligations.TariffOfferIsJudged := by
  unfold Obligations.TariffOfferIsJudged
  intro s f rest owner hh m hown authorised good
  have e : exec .tariffOffer s = .next ((s.took .backward rest).takeOffer m) := congrArg Host.Outcome.next (takeKind_of hh)
  have howner : (s.took .backward rest).ownerOf m.circuit = owner := ownerOf_eq (s := s.took .backward rest) hown
  have hauth : (s.took .backward rest).authorises m ↔ authorised := by rw [State.authorises, howner]; rfl
  have harr := offerArrived_frame (s.took .backward rest) m.circuit
  have hcirc : ((s.took .backward rest).offerArrived m.circuit).circ = _ := offerArrived_circ (s.took .backward rest) m.circuit
  have unauth := takeOffer_unauthorised (s := s.took .backward rest) (m := m)
  have auth := fun c => takeOffer_authorised (s := s.took .backward rest) (m := m) (c := c)
  have hfr := takeOffer_frame (s.took .backward rest) m
  rw [howner] at unauth auth
  generalize (s.took .backward rest).offerArrived m.circuit = u at *
  have hout : u.bwdOut = s.bwdOut := harr .bwdOut (by decide)
  have htar : u.tariffs = s.tariffs := harr .tariffs (by decide)
  have htime : u.time = s.time := harr .time (by decide)
  have hcar : ∀ id, u.carrier id = s.carrier id := harr.carrier_eq (by decide)
  obtain ⟨htook, hall⟩ := took_backward ((harr.mono (by decide)).trans (hfr.mono (more := [.circ, .tariffs, .bwdOut]) (by decide)))
    (by decide)
  refine ⟨_, e, htook, hall, (hfr .circ (by decide)).trans hcirc, fun hna => ?_, fun c ha hc hp => ?_, fun c ha hc hp hg => ?_,
    fun c b ha hc hp hb hr hm => ?_⟩
  · rw [unauth fun ha => hna (hauth.mp ha)]
    refine ⟨?_, fun c hc => ?_, fun hc => ?_⟩
    · rw [rejectOffer_notice, hout, htime]
    · exact (rejectOffer_declared ((hcar _).trans hc) owner _).congr htar.symm rfl
    · rw [rejectOffer_undeclared ((hcar _).trans hc), htar]; rfl
  · rw [auth c (hauth.mpr ha) hc, judgeOffer_pinned hp]
    exact ⟨hout, (updCarrier_set ((hcar _).trans hc) _).congr htar.symm rfl⟩
  · rw [auth c (hauth.mpr ha) hc, judgeOffer_invalid hp hg]
    exact ⟨by rw [rejectOffer_notice, hout, htime], (rejectOffer_declared ((hcar _).trans hc) owner _).congr htar.symm rfl⟩
  · rw [auth c (hauth.mpr ha) hc, judgeOffer_valid hp hb hr hm]
    exact ⟨hout, (updCarrier_set ((hcar _).trans hc) _).congr htar.symm rfl⟩

end Sys2Proof.Machine
end

