-- ==== Sys2Proof/Proofs/StatusRead.lean ====
section
/-! CERTIFICATES. Read Device Status answers from the device without the request, so the depth of the forward queue that it
reports (R177) is one less than on the device that the request found. -/
namespace Sys2Proof.Machine

variable {s t : State} {f : Frame} {rest : List Frame} {results : List Byte} {rc : ReplyCode}

/-- The status of a device tells the depth of its forward queue. -/
theorem statusBytes_depth {q : List Frame} (h : (s.took .forward q).statusBytes = s.statusBytes) :
    enc 1 q.length = enc 1 s.fwd.queue.length :=
  List.append_cancel_left (List.append_cancel_right (List.append_cancel_right (List.append_cancel_right h)))

/-- The results of the reply are the status of the device without the request. -/
theorem readDeviceStatus_results (h : s.requested 0x04 f rest) (hx : exec .readDeviceStatus s = .next t)
    (hr : Replied f rest rc results s t) : results = (s.took .forward rest).statusBytes := by
  have run : t = _ := Host.Outcome.next.inj (hx.symm.trans (request_runs h (by decide) rfl))
  have out : s.bwdOut ++ [_] = s.bwdOut ++ [_] := hr.2.symm.trans (congrArg State.bwdOut run)
  injection (List.cons.inj (List.append_cancel_left out)).1

/-- A READ_DEVICE_STATUS message. -/
def statusRequest : Frame := build kRequest 0 3 (enc 1 0x04)

/-- The device after the hard reset with that message alone on its forward queue. -/
def statusAsked : State :=
  { State.reset with fwd := { PortState.reset with queue := [statusRequest], peak := 1 } }

theorem statusAsked_requested : statusAsked.requested 0x04 statusRequest [] := by
  refine ⟨⟨rfl, ?kind⟩, ?code, ?length⟩ <;> decide +kernel

/-- Refutes O36: after the hard reset, a READ_DEVICE_STATUS alone on its queue is answered with a depth of 0, where the
state that it found has a depth of 1. -/
theorem not_readsAnswerAndChangeNothing : ¬ Obligations.ReadsAnswerAndChangeNothing := by
  intro h
  have asked := statusAsked_requested
  obtain ⟨readsStatus, -⟩ := h.1 statusAsked statusRequest []
  obtain ⟨t, hx, hr, -⟩ := readsStatus asked
  have depth : enc 1 0 = enc 1 1 := statusBytes_depth (readDeviceStatus_results asked hx hr).symm
  exact absurd depth (by decide)

end Sys2Proof.Machine
end

