-- ==== Sys2Proof/Proofs/StepRouteLaw.lean ====
section
/-! SUPPORT and CERTIFICATE. Every command keeps the laws of the route lists and their gaps (R53, R57, R58, R96) on the
strength of these laws alone: what touches the Route Selector is a Setup, a reselection, a sample, a gap timer, a load of
its tables, a Restart or a reset. -/
namespace Sys2Proof.Machine

variable {s t : State}

/-! ### What leaves the Route Selector alone -/

theorem OnlyChanges.routes_eq {parts : List Part} (hf : OnlyChanges parts s t) (hp : Part.routes ∉ parts) :
    t.routes = s.routes := hf .routes hp

/-- An operation that leaves the Route Selector alone keeps its law. -/
theorem OnlyChanges.routeLaw {parts : List Part} (hf : OnlyChanges parts s t) (hp : Part.routes ∉ parts)
    (h : s.routes.law) : t.routes.law := by
  rwa [hf.routes_eq hp]

theorem proceed_routes (s : State) (i g k : Nat) : (s.proceed i g k).routes = s.routes := by
  unfold State.proceed; split <;> rfl

theorem failCall_routes (s : State) (i : Nat) (cause : Cause) : (s.failCall i cause).routes = s.routes := by
  unfold State.failCall; split <;> rfl

theorem farEnds_routes (s : State) (i g k cause : Nat) (c : Context) : (s.farEnds i g k cause c).routes = s.routes := by
  unfold State.farEnds
  extract_lets now s1 s2
  have h1 : s1.routes = s.routes := (enterGuard_frame (s.emitFwd _) now k).routes_eq (by decide)
  have failed : ∀ b : Prop, [Decidable b] → (if b then s1.healthFailure now g else s1).routes = s1.routes := by
    intro b _
    split
    · exact (healthFailure_frame s1 now g).routes_eq (by decide)
    · rfl
  have h2 : s2.routes = s1.routes := by
    by_cases hp : c.phase = .proceeding
    · rw [show s2 = (if _ then s1.healthFailure now g else s1).endProbe i g from if_pos hp]
      exact ((endProbe_frame _ i g).routes_eq (by decide)).trans (failed _)
    · rw [show s2 = s1 from if_neg hp]
  have h3 : (s2.dispose now i).routes = s2.routes := (dispose_frame s2 now i).routes_eq (by decide)
  exact ((exportIf_frame _ _).routes_eq (by decide)).trans (h3.trans (h2.trans h1))

theorem originEnds_routes (s : State) (i g k cause : Nat) (c : Context) :
    (s.originEnds i g k cause c).routes = s.routes := by
  unfold State.originEnds
  extract_lets now s1 s2
  have h1 : s1.routes = s.routes := (enterReleasing_frame ((s.emitBwd _).emitFwd _) k).routes_eq (by decide)
  have h2 : s2.routes = s1.routes := by
    by_cases hp : c.phase = .proceeding
    · rw [show s2 = s1.endProbe i g from if_pos hp]; exact (endProbe_frame s1 i g).routes_eq (by decide)
    · rw [show s2 = s1 from if_neg hp]
  have h3 : (s2.dispose now i).routes = s2.routes := (dispose_frame s2 now i).routes_eq (by decide)
  have h4 : ((s2.dispose now i).free now i).routes = (s2.dispose now i).routes := (free_frame _ now i).routes_eq (by decide)
  exact ((exportIf_frame _ _).routes_eq (by decide)).trans (h4.trans (h3.trans (h2.trans h1)))

theorem originRelease_routes (s : State) (i cause : Nat) : (s.originRelease i cause).routes = s.routes := by
  unfold State.originRelease
  split
  · rfl
  · rename_i c _
    split
    · exact (free_frame (s.emitBwd (.releaseConfirm c.callRef)) _ i).routes_eq (by decide)
    · exact originEnds_routes s i _ _ cause c
    · rfl

theorem contextProgress_routes (s : State) (i : Nat) : (s.contextProgress i).routes = s.routes := by
  unfold State.contextProgress
  split
  · rfl
  · split
    · exact (healthSuccess_frame (s.updContext i _) _ _).routes_eq (by decide)
    · rfl
    · rfl

theorem contextAnswer_routes (s : State) (i : Nat) : (s.contextAnswer i).routes = s.routes := by
  unfold State.contextAnswer
  split
  · rfl
  · split
    · exact (healthSuccess_frame (s.connect i _) _ _).routes_eq (by decide)
    · rfl
    · rfl

theorem recast_routes (s : State) (k : Nat) (f : Circuit → Circuit) : (s.recast k f).routes = s.routes :=
  (recast_frame s k f).routes_eq (by decide)

theorem expireClear_routes (s : State) (i : Nat) : (s.expireClear i).routes = s.routes := by
  unfold State.expireClear
  split
  · rfl
  · split
    · exact (free_frame s _ i).routes_eq (by decide)
    · rfl

theorem expireGuard_routes (s : State) (g : Nat) : (s.expireGuard g).routes = s.routes := by
  unfold State.expireGuard
  split
  · rfl
  · split
    · rfl
    · split
      · split
        · exact recast_routes _ _ _
        · rfl
      · rfl

theorem expireClearing_routes (s : State) (k : Nat) : (s.expireClearing k).routes = s.routes := by
  unfold State.expireClearing
  split
  · rfl
  · split
    · split
      · exact ((notifyAll_frame (State.markDrained _ _) _ _).routes_eq (by decide)).trans (recast_routes s k _)
      · rfl
    · rfl

theorem expireProbe_routes (s : State) (g : Nat) : (s.expireProbe g).routes = s.routes := by
  unfold State.expireProbe
  split
  · rfl
  · split <;> rfl

theorem expireAccept_routes (s : State) : s.expireAccept.routes = s.routes := by
  unfold State.expireAccept
  dsimp only
  split <;> rfl

theorem wholeSecond_routes (s : State) (now : ExTime) : (s.wholeSecond now).routes = s.routes := by
  unfold State.wholeSecond
  split
  · exact (notifyAll_frame _ _ _).routes_eq (by decide)
  · rfl

theorem portError_routes (s : State) (port : Port) (e : PortErr) : (s.portError port e).routes = s.routes := by
  unfold State.portError
  cases port <;> (dsimp only; split <;> rfl)

theorem arrive_routes (s : State) (port : Port) (f : Frame) : (s.arrive port f).routes = s.routes := by
  unfold State.arrive
  dsimp only
  split
  · exact portError_routes s port .overrun
  · split
    · exact portError_routes s port _
    · cases port <;> rfl

/-! ### The selection pass (R62 to R68) -/

theorem examine_routes (s : State) (now : ExTime) (k : Nat) (priority : Bool) (ch : Choice) :
    (s.examine now k priority ch).1.routes = s.routes := (examine_frame s now k priority ch).routes_eq (by decide)

theorem choiceFailed_routeLaw (h : s.routes.law) (i l k g : Nat) : (s.choiceFailed i l k g).routes.law := by
  unfold State.choiceFailed
  dsimp only
  split
  · exact h
  · exact updList_routeLaw (s := s.updContext i _) h l fun hl => hl.afterAlternate k

/-- A seizure on an alternate points the list at it (R68). -/
theorem seizeCircuit_routeLaw (h : s.routes.law) (now : ExTime) (i : Nat) {l k : Nat}
    (hk : k < (s.routeList l).choices.length) (g n : Nat) (q : Option Quote) :
    (s.seizeCircuit now i l k g n q).routes.law := by
  rw [seizeCircuit_eq]
  extract_lets suspect s1 s2 s3
  have f1 : OnlyChanges [.circ] s s1 := (recast_frame s n _).trans (updTraffic_frame _ g Traffic.seize)
  have f2 : OnlyChanges [.circ] s s2 := by
    refine f1.trans ?_
    by_cases hs : suspect = true
    · rw [show s2 = s1.updMonitor g _ from if_pos hs]; exact updMonitor_frame _ _ _
    · rw [show s2 = s1 from if_neg hs]; exact .refl _ _
  have h2 : s2.routes.law := f2.routeLaw (by decide) h
  show s3.routes.law
  by_cases hz : k = 0
  · rw [show s3 = s2 from if_pos hz]; exact h2
  · rw [show s3 = s2.updList l _ from if_neg hz]
    refine updList_routeLaw h2 l fun hl => hl.pointed (Nat.pos_of_ne_zero hz) ?_
    rw [f2.routeList_eq (by decide)]
    omega

theorem passLoop_routeLaw (now : ExTime) (i l : Nat) (ks : List Nat) (reasons : List Reason) (h : s.routes.law) :
    (passLoop now i l ks reasons s).1.routes.law := by
  induction ks generalizing reasons s with
  | nil => exact h
  | cons k ks ih =>
    unfold passLoop
    split
    · rename_i c ch _ hch
      split
      · exact ih _ h
      · split
        · exact ih _ h
        · extract_lets s1
          have f1 : OnlyChanges [.ctx] s s1 := turnedTo_frame s i k
          have f2 := examine_frame s1 now k c.priority ch
          have h2 := f2.routeLaw (by decide) (f1.routeLaw (by decide) h)
          split
          · rename_i he
            rw [he] at h2
            exact ih _ (choiceFailed_routeLaw h2 _ _ _ _)
          · rename_i he
            rw [he] at h2 f2
            split
            · refine seizeCircuit_routeLaw h2 _ _ ?_ _ _ _
              rw [f2.routeList_eq (by decide), f1.routeList_eq (by decide)]
              exact (List.getElem?_eq_some_iff.mp hch).1
            · exact ih _ (choiceFailed_routeLaw h2 _ _ _ _)
    · exact ih _ h

theorem selectionPass_routeLaw (h : s.routes.law) (now : ExTime) (i l : Nat) :
    (s.selectionPass now i l).1.routes.law := by
  unfold State.selectionPass
  split
  · exact h
  · split
    · exact h
    · exact passLoop_routeLaw now i l _ _ h

/-! ### The loss of a circuit and reselection (R14 to R18) -/

theorem reselect_routeLaw (h : s.routes.law) (now : ExTime) (i : Nat) (instead : Option Cause) :
    (s.reselect now i instead).routes.law := by
  unfold State.reselect
  split
  · exact h
  · rename_i c _
    extract_lets s1
    have h1 : (s1.selectionPass now i c.list).1.routes.law :=
      selectionPass_routeLaw (countList_routeLaw h c.list _) now i c.list
    split
    · rename_i he
      rw [he] at h1
      rwa [proceed_routes]
    · rename_i he
      rw [he] at h1
      rw [failCall_routes]
      exact countList_routeLaw h1 _ _

theorem loseCircuit_routeLaw (h : s.routes.law) (now : ExTime) (i l g : Nat) (cause : Cause) :
    (s.loseCircuit now i l g cause).routes.law := by
  have h1 : ((s.updContext i fun c => c.addTried g).updList l fun r => r.pastLost g).routes.law :=
    updList_routeLaw (s := s.updContext i _) h l fun hl => hl.pastLost g
  exact (dispose_frame _ now i).routeLaw (by decide) h1

/-- What follows the report on the group of a lost circuit: its probe ends, the call loses it and reselects. -/
theorem lost_routeLaw (h : s.routes.law) (now : ExTime) (i l g : Nat) (cause : Cause) (instead : Option Cause) :
    (((s.endProbe i g).loseCircuit now i l g cause).reselect now i instead).routes.law :=
  reselect_routeLaw (loseCircuit_routeLaw ((endProbe_frame s i g).routeLaw (by decide) h) now i l g cause) now i instead

theorem crankback_routeLaw (h : s.routes.law) (i g k : Nat) (cause : Cause) (c : Context) :
    (s.crankback i g k cause c).routes.law := by
  unfold State.crankback
  extract_lets now s1 s2
  have h1 : s1.routes.law := (enterGuard_frame (s.emitFwd _) now k).routeLaw (by decide) h
  have h2 : s2.routes.law := by
    by_cases hc : cause = .circuitUnavailable
    · rw [show s2 = s1.healthFailure now g from if_pos hc]; exact (healthFailure_frame s1 now g).routeLaw (by decide) h1
    · rw [show s2 = s1 from if_neg hc]; exact h1
  exact lost_routeLaw h2 now i c.list g cause none

theorem noResponse_routeLaw (h : s.routes.law) (i g k : Nat) (c : Context) : (s.noResponse i g k c).routes.law := by
  unfold State.noResponse
  extract_lets now s1
  have h1 : s1.routes.law := (enterReleasing_frame (s.emitFwd _) k).routeLaw (by decide) h
  exact lost_routeLaw ((healthFailure_frame s1 now g).routeLaw (by decide) h1) now i c.list g _ _

theorem glareLost_routeLaw (h : s.routes.law) (i g : Nat) (c : Context) : (s.glareLost i g c).routes.law :=
  lost_routeLaw (s := s.updTraffic g _) h _ i c.list g _ _

theorem contextRelease_routeLaw (h : s.routes.law) (i cause : Nat) : (s.contextRelease i cause).routes.law := by
  unfold State.contextRelease
  split
  · exact h
  · split
    · exact h
    · split
      · exact crankback_routeLaw h i _ _ _ _
      · rwa [farEnds_routes]

theorem glare_routeLaw (h : s.routes.law) (i k : Nat) (r : Group) (g : Nat) : (s.glare i k r g).routes.law := by
  unfold State.glare
  split
  · exact h
  · split
    · split
      · exact h
      · exact glareLost_routeLaw ((recast_frame s k _).routeLaw (by decide) h) i g _
    · exact h

theorem farSeize_routeLaw (h : s.routes.law) (k : Nat) (c : Circuit) : (s.farSeize k c).routes.law := by
  have taken : (s.farTakes k).routes.law := (recast_frame s k _).routeLaw (by decide) h
  unfold State.farSeize
  split
  · exact h
  · split
    · exact h
    · split
      · exact h
      · exact taken
    · exact taken
    · exact glare_routeLaw h _ k _ _
    · exact h
    · exact h

/-! ### Setup (R6, R7, R61) -/

theorem refuseRouted_routeLaw (h : s.routes.law) (now : ExTime) (i : Nat) (m : SetupMsg) (cause : Cause) :
    (s.refuseRouted now i m cause).routes.law :=
  (free_frame (s.emitBwd (.refuse m.callRef m.inCircuit cause)) now i).routeLaw (by decide) h

theorem routePass_routeLaw (h : s.routes.law) (now : ExTime) (i l : Nat) (m : SetupMsg) :
    (s.routePass now i l m).routes.law := by
  have h1 := selectionPass_routeLaw h now i l
  unfold State.routePass
  split
  · rename_i he
    rw [he] at h1
    rwa [proceed_routes]
  · rename_i he
    rw [he] at h1
    exact refuseRouted_routeLaw (countList_routeLaw h1 l _) _ _ _ _

theorem routeOver_routeLaw (h : s.routes.law) (now : ExTime) (i l : Nat) (m : SetupMsg) :
    (s.routeOver now i l m).routes.law := by
  unfold State.routeOver
  extract_lets s1
  have h1 : s1.routes.law := countList_routeLaw (s := s.updContext i _) h l _
  split
  · exact routePass_routeLaw (updList_routeLaw h1 l fun hl => hl.judge _ fun _ => rfl) now i l m
  · exact refuseRouted_routeLaw (countList_routeLaw h1 l _) now i m _

theorem route_routeLaw (h : s.routes.law) (now : ExTime) (i : Nat) (m : SetupMsg) : (s.route now i m).routes.law := by
  unfold State.route
  extract_lets r s1
  have h1 : s1.routes.law := countMatch_law h r
  cases r
  case toList l => exact routeOver_routeLaw h1 now i l m
  all_goals exact refuseRouted_routeLaw h1 now i m _

theorem takeSetup_routeLaw (h : s.routes.law) (m : SetupMsg) : (s.takeSetup m).routes.law := by
  rw [takeSetup_eq]
  have refused : ∀ cause, (s.setupCounted.refuseEarly m cause).routes.law := fun _ => h
  split
  · exact refused _
  · split
    · exact refused _
    · cases s.idleContext with
      | none => exact refused _
      | some i =>
        simp only [Option.elim]
        split
        · exact refused _
        · exact route_routeLaw ((allocate_frame s.setupCounted _ i _).routeLaw (by decide) h) _ i m

/-! ### Expiries and the tick (R79, R98, R152 to R158) -/

theorem expireProceed_routeLaw (h : s.routes.law) (i : Nat) : (s.expireProceed i).routes.law := by
  unfold State.expireProceed
  split
  · exact h
  · split
    · exact noResponse_routeLaw h i _ _ _
    · exact h

theorem expireGap_routeLaw (h : s.routes.law) (l : Nat) : (s.expireGap l).routes.law := by
  unfold State.expireGap
  split
  · exact updList_routeLaw h l fun hl => hl.gateOpened
  · exact h

theorem evaluateGroup_routeLaw (h : s.routes.law) (g : Nat) : (s.evaluateGroup g).routes.law := by
  unfold State.evaluateGroup
  split
  · exact h
  · split
    · exact handBand_routeLaw (s := s.updGroup g _) h g _
    · exact h

theorem evaluateGroups_routeLaw (gs : List Nat) (h : s.routes.law) : (gs.foldl State.evaluateGroup s).routes.law := by
  induction gs generalizing s with
  | nil => exact h
  | cons g gs ih => exact ih (evaluateGroup_routeLaw h g)

theorem expireSample_routeLaw (h : s.routes.law) : s.expireSample.routes.law := by
  unfold State.expireSample
  split
  · exact (notifyAll_frame (State.restartSample _) _ _).routeLaw (by decide) (evaluateGroups_routeLaw _ h)
  · exact h

theorem expire_routeLaw (h : s.routes.law) (id : TimerId) : (s.expire id).routes.law := by
  cases id with
  | supervision i => exact (expireClear_routes _ i).symm ▸ expireProceed_routeLaw h i
  | guard g => exact (expireGuard_routes s g).symm ▸ h
  | clearing k => exact (expireClearing_routes s k).symm ▸ h
  | probe g => exact (expireProbe_routes s g).symm ▸ h
  | gap l => exact expireGap_routeLaw h l
  | accept => exact (expireAccept_routes s).symm ▸ h
  | sample => exact expireSample_routeLaw h

theorem expireAll_routeLaw (ids : List TimerId) (h : s.routes.law) : (s.expireAll ids).routes.law := by
  induction ids generalizing s with
  | nil => exact h
  | cons id ids ih => exact ih (expire_routeLaw h id)

theorem settleExpiries_routeLaw (h : s.routes.law) : s.settleExpiries.routes.law := by
  unfold State.settleExpiries
  split
  · exact h
  · exact expire_routeLaw h _
  · exact expireAll_routeLaw (s := { s with draws := s.draws + 1 }) _ h

theorem advance_routeLaw (h : s.routes.law) : s.advance.routes.law := by
  unfold State.advance
  extract_lets s1
  have h1 : s1.routes.law := h
  split
  · unfold State.secondEvent
    split
    · rwa [wholeSecond_routes]
    · rw [wholeSecond_routes]
      exact expireAll_routeLaw (s := { s1 with draws := s1.draws + 1 }) _ h1
  · exact h1

/-! ### Requests on destinations and route lists (R56, R59, R102, R179) -/

theorem loadDestination_routeLaw (h : s.routes.law) (r : LoadDestReq) : (loadDestination r s).state.routes.law := by
  unfold loadDestination
  split
  · exact h
  · split
    · exact h
    · rename_i hf; exact putDest_routeLaw h hf

theorem deleteDestination_routeLaw (h : s.routes.law) (d : DigitString) :
    (deleteDestination d s).state.routes.law := by
  unfold deleteDestination
  split
  · exact filterDests_law h _
  · exact h

theorem loadRouteList_routeLaw (h : s.routes.law) (p : List Byte) : (loadRouteList (loadListOf p) s).state.routes.law := by
  unfold loadRouteList
  split
  · rename_i hv; exact updList_routeLaw h _ fun _ => RouteList.reload_lawful _ hv
  · exact h

theorem restartGap_routeLaw (h : s.routes.law) (l : Nat) : (restartGap l s).state.routes.law := by
  unfold restartGap
  split
  · exact h
  · split
    · exact updList_routeLaw h l fun hl => hl.restartGap
    · exact h

theorem restartRequest_routeLaw (h : s.routes.law) (force : Bool) : (restartRequest force s).state.routes.law := by
  unfold restartRequest
  split
  · exact h
  · exact (notifyAll_frame s.cleared _ _).routeLaw (by decide) (RouteSelector.restart_law h)

/-! ### Requests that leave the Route Selector alone -/

theorem enterService_routes (s : State) : (enterService s).state.routes = s.routes := by
  unfold enterService; split <;> rfl

theorem setExchangeTime_routes (day cs : Nat) (s : State) : (setExchangeTime day cs s).state.routes = s.routes := by
  unfold setExchangeTime; split <;> rfl

theorem setGlobalParameters_routes (g : GlobalParams) (s : State) :
    (setGlobalParameters g s).state.routes = s.routes := by
  unfold setGlobalParameters
  split
  · dsimp only [Answer.ok]
    split
    · rfl
    · exact (compareBoth_frame (s.withMgmt { s.mgmt with params := g }) _).routes_eq (by decide)
  · rfl

theorem loadThresholdSet_routes (n : Nat) (x : ThresholdSet) (s : State) :
    (loadThresholdSet n x s).state.routes = s.routes := by
  unfold loadThresholdSet; split <;> rfl

theorem loadTrunkGroup_routes (r : LoadGroupReq) (s : State) : (loadTrunkGroup r s).state.routes = s.routes := by
  unfold loadTrunkGroup
  split
  · rfl
  · split
    · rfl
    · split
      · rfl
      · split
        · rfl
        · split <;> rfl

theorem removeTrunkGroup_routes (id : Nat) (s : State) : (removeTrunkGroup id s).state.routes = s.routes := by
  unfold removeTrunkGroup
  split
  · rfl
  · split <;> rfl

theorem changeAdmin_routes (s : State) (id : Nat) (a : AdminState) : (s.changeAdmin id a).routes = s.routes := by
  unfold State.changeAdmin
  split
  · exact (drainCheck_frame (s.updGroup id _) _ _).routes_eq (by decide)
  · rfl

theorem setGroupState_routes (id adminByte : Nat) (s : State) :
    (setGroupState id adminByte s).state.routes = s.routes := by
  unfold setGroupState
  split
  · rfl
  · rfl
  · rfl
  · dsimp only [Answer.ok]
    split
    · rfl
    · exact changeAdmin_routes s id _

theorem localBlock_routes (c : Nat) (b : Bool) (s : State) : (localBlock c b s).state.routes = s.routes := by
  unfold localBlock
  split
  · rfl
  · split
    · rfl
    · exact recast_routes _ _ _

theorem declareCarrier_routes (id : Nat) (body : Option Tariff) (s : State) :
    (declareCarrier id body s).state.routes = s.routes := by
  unfold declareCarrier
  split
  · split <;> rfl
  · rfl

theorem removeCarrier_routes (id : Nat) (s : State) : (removeCarrier id s).state.routes = s.routes := by
  unfold removeCarrier
  split
  · rfl
  · split
    · rfl
    · split <;> rfl

theorem loadTariff_routes (r : LoadTariffReq) (s : State) : (loadTariff r s).state.routes = s.routes := by
  unfold loadTariff
  split
  · split <;> rfl
  · rfl

theorem pinCarrier_routes (id : Nat) (s : State) : (pinCarrier id s).state.routes = s.routes := by
  unfold pinCarrier
  split
  · rfl
  · split <;> rfl

theorem unpinCarrier_routes (id : Nat) (s : State) : (unpinCarrier id s).state.routes = s.routes := by
  unfold unpinCarrier
  split
  · rfl
  · split <;> rfl

theorem latchCounters_routes (kindByte id : Nat) (s : State) : (latchCounters kindByte id s).state.routes = s.routes := by
  unfold latchCounters
  split
  · rfl
  · split
    · rfl
    · split <;> rfl

/-! ### Taking a message -/

theorem takeHead_routeLaw (h : s.routes.law) (port : Port) (p : Frame → Bool) {act : Frame → State → State}
    (hact : ∀ f u, u.routes.law → (act f u).routes.law) : (takeHead port p act s).routes.law := by
  unfold takeHead
  split
  · exact h
  · split
    · exact hact _ _ (by cases port <;> exact h)
    · exact h

/-- A message that leaves the Route Selector alone. -/
theorem takeHead_routes (h : s.routes.law) (port : Port) (p : Frame → Bool) {act : Frame → State → State}
    (hact : ∀ f u, (act f u).routes = u.routes) : (takeHead port p act s).routes.law :=
  takeHead_routeLaw h port p fun f u hu => (hact f u).symm ▸ hu

theorem takeRequest_routeLaw (h : s.routes.law) (code : Nat) {act : List Byte → State → Answer}
    (hact : ∀ p u, u.routes.law → (act p u).state.routes.law) : (takeRequest code act s).routes.law := by
  refine takeHead_routeLaw h _ _ fun f u hu => ?_
  change (Answer.state _).routes.law
  split
  · exact hact _ _ hu
  · exact hu

/-- A request that leaves the Route Selector alone. -/
theorem takeRequest_routes (h : s.routes.law) (code : Nat) {act : List Byte → State → Answer}
    (hact : ∀ p u, (act p u).state.routes = u.routes) : (takeRequest code act s).routes.law :=
  takeRequest_routeLaw h code fun p u hu => (hact p u).symm ▸ hu

/-- A request that reads. -/
theorem readRequest_routes (h : s.routes.law) (code : Nat) {act : List Byte → State → Answer}
    (hact : ∀ p u, (act p u).state = u) : (takeRequest code act s).routes.law :=
  takeRequest_routes h code fun p u => by rw [hact p u]

theorem onCircuit_routeLaw (h : s.routes.law) {act : Nat → Circuit → State → State} (f : Frame)
    (hact : ∀ k c, (act k c s).routes.law) : (onCircuit act f s).routes.law := by
  unfold onCircuit
  split
  · exact h
  · exact hact _ _

/-- A message on a circuit that leaves the Route Selector alone. -/
theorem onCircuit_routes {act : Nat → Circuit → State → State} (f : Frame) (s : State)
    (hact : ∀ k c, (act k c s).routes = s.routes) : (onCircuit act f s).routes = s.routes := by
  unfold onCircuit
  split
  · rfl
  · exact hact _ _

/-! ### Every command -/

/-- Every command keeps the law of the Route Selector. -/
theorem exec_routeLaw (c : Instr) (h : s.routes.law) (he : exec c s = .next t) : t.routes.law := by
  cases c <;> cases he
  case hardReset => exact reset_law.routes
  case resetRelease => split <;> exact h
  case referenceTick =>
    split
    · exact h
    · exact advance_routeLaw (settleExpiries_routeLaw h)
  case messageArrival p f =>
    split
    · exact h
    · rwa [arrive_routes]
  case passThrough p => exact takeHead_routes h _ _ fun f u => by cases p <;> rfl
  case setup => exact takeHead_routeLaw h _ _ fun f u hu => takeSetup_routeLaw hu _
  case originRelease =>
    refine takeHead_routes h _ _ fun f u => ?_
    split
    · exact originRelease_routes u _ _
    · rfl
  case originReleaseConfirm =>
    refine takeHead_routes h _ _ fun f u => ?_
    split
    · rfl
    · split
      · rfl
      · split
        · exact (free_frame u _ _).routes_eq (by decide)
        · rfl
  case progress =>
    refine takeHead_routes h _ _ fun f u => onCircuit_routes f u fun k c => ?_
    split
    · exact contextProgress_routes u _
    · rfl
  case answer =>
    refine takeHead_routes h _ _ fun f u => onCircuit_routes f u fun k c => ?_
    split
    · exact contextAnswer_routes u _
    · rfl
  case farRelease =>
    refine takeHead_routeLaw h _ _ fun f u hu => onCircuit_routeLaw hu f fun k c => ?_
    split
    · exact contextRelease_routeLaw hu _ _
    · exact (enterGuard_frame (u.emitFwd _) _ k).routeLaw (by decide) hu
    · exact hu
  case farReleaseConfirm =>
    refine takeHead_routes h _ _ fun f u => onCircuit_routes f u fun k c => ?_
    split
    · rfl
    · exact (enterGuard_frame u _ k).routes_eq (by decide)
    · rfl
  case block => exact takeHead_routes h _ _ fun f u => onCircuit_routes f u fun k _ => recast_routes u k _
  case unblock => exact takeHead_routes h _ _ fun f u => onCircuit_routes f u fun k _ => recast_routes u k _
  case farSeize => exact takeHead_routeLaw h _ _ fun f u hu => onCircuit_routeLaw hu f fun k c => farSeize_routeLaw hu k c
  case farClear =>
    refine takeHead_routes h _ _ fun f u => onCircuit_routes f u fun k c => ?_
    split
    · exact (enterGuard_frame u _ k).routes_eq (by decide)
    · rfl
  case tariffOffer =>
    exact takeHead_routes h _ _ fun f u => ((takeOffer_frame u _).routes_eq (by decide)).trans
      ((offerArrived_frame u _).routes_eq (by decide))
  case batchAccept =>
    refine takeHead_routes h _ _ fun f u => ?_
    split
    · exact (exportLook_frame (u.withSettle u.settle.accept)).routes_eq (by decide)
    · rfl
  case exportHalt => exact takeHead_routes h _ _ fun f u => rfl
  case exportResume =>
    refine takeHead_routes h _ _ fun f u => ?_
    dsimp only
    split
    · exact (exportLook_frame (u.withSettle { u.settle with halt := false })).routes_eq (by decide)
    · rfl
    · rfl
  case tProceedExpiry i => exact expireProceed_routeLaw h i
  case tClearExpiry i => exact (expireClear_routes s i).symm ▸ h
  case guardExpiry g => exact (expireGuard_routes s g).symm ▸ h
  case clearingExpiry k => exact (expireClearing_routes s k).symm ▸ h
  case probeTimerExpiry g => exact (expireProbe_routes s g).symm ▸ h
  case gapTimerExpiry l => exact expireGap_routeLaw h l
  case acceptTimerExpiry => exact (expireAccept_routes s).symm ▸ h
  case sampleExpiry => exact expireSample_routeLaw h
  case unknownRequest => exact takeHead_routes h _ _ fun _ _ => rfl
  case enterService => exact takeRequest_routes h _ fun _ u => enterService_routes u
  case quiesce => exact takeRequest_routes h _ fun _ _ => rfl
  case restart => exact takeRequest_routeLaw h _ fun p u hu => restartRequest_routeLaw hu _
  case readDeviceStatus => exact readRequest_routes h _ fun _ _ => rfl
  case clearErrorFlags => exact takeRequest_routes h _ fun _ _ => rfl
  case setExchangeTime => exact takeRequest_routes h _ fun _ u => setExchangeTime_routes _ _ u
  case setGlobalParameters => exact takeRequest_routes h _ fun _ u => setGlobalParameters_routes _ u
  case loadDestination => exact takeRequest_routeLaw h _ fun p u hu => loadDestination_routeLaw hu _
  case deleteDestination => exact takeRequest_routeLaw h _ fun p u hu => deleteDestination_routeLaw hu _
  case lookupDestination => exact readRequest_routes h _ fun _ u => lookupDestination_state _ u
  case loadRouteList => exact takeRequest_routeLaw h _ fun p u hu => loadRouteList_routeLaw hu p
  case restartGap => exact takeRequest_routeLaw h _ fun p u hu => restartGap_routeLaw hu _
  case loadThresholdSet => exact takeRequest_routes h _ fun _ u => loadThresholdSet_routes _ _ u
  case loadTrunkGroup => exact takeRequest_routes h _ fun _ u => loadTrunkGroup_routes _ u
  case removeTrunkGroup => exact takeRequest_routes h _ fun _ u => removeTrunkGroup_routes _ u
  case setGroupState => exact takeRequest_routes h _ fun _ u => setGroupState_routes _ _ u
  case blockCircuit => exact takeRequest_routes h _ fun _ u => localBlock_routes _ _ u
  case unblockCircuit => exact takeRequest_routes h _ fun _ u => localBlock_routes _ _ u
  case declareCarrier => exact takeRequest_routes h _ fun _ u => declareCarrier_routes _ _ u
  case removeCarrier => exact takeRequest_routes h _ fun _ u => removeCarrier_routes _ u
  case loadTariff => exact takeRequest_routes h _ fun _ u => loadTariff_routes _ u
  case pinCarrier => exact takeRequest_routes h _ fun _ u => pinCarrier_routes _ u
  case unpinCarrier => exact takeRequest_routes h _ fun _ u => unpinCarrier_routes _ u
  case readGroup => exact readRequest_routes h _ fun _ u => readGroup_state _ u
  case readCircuit => exact readRequest_routes h _ fun _ u => readCircuit_state _ u
  case readContext => exact readRequest_routes h _ fun _ u => readContext_state _ u
  case readRouteList => exact readRequest_routes h _ fun _ u => readRouteList_state _ u
  case readCarrier => exact readRequest_routes h _ fun _ u => readCarrier_state _ u
  case latchCounters => exact takeRequest_routes h _ fun _ u => latchCounters_routes _ _ u
  case readLatched => exact readRequest_routes h _ fun _ u => readLatched_state u

/-- Settles O57: a step is its front command, and each command keeps the law by what it does to the Route Selector. -/
theorem stepKeepsRouteLaw : Obligations.StepKeepsRouteLaw := by
  unfold Obligations.StepKeepsRouteLaw
  intro s t h he
  unfold step at he
  split at he
  · cases he; exact h
  · rename_i rest _
    exact exec_routeLaw (s := { s with pending := rest }) _ h he

end Sys2Proof.Machine
end

