-- ==== Sys2Proof/Proofs/DestinationMatch.lean ====
section
/-! SUPPORT and CERTIFICATE. The destination match (R53, R54): the entry that the search keeps is a longest match of those it
has seen, and unique prefixes leave no second one. -/
namespace Sys2Proof.Machine

variable {dests : List DestEntry} {number : List Digit} {e e' : DestEntry} {o : Option DestEntry}

theorem DestEntry.fits_iff (e : DestEntry) (number : List Digit) : e.fits number = true ↔ e.pfx <+: number :=
  List.isPrefixOf_iff_prefix

/-- An entry of the table whose digits begin the number, and no entry with more digits begins it. -/
def LongestMatch (dests : List DestEntry) (number : List Digit) (e : DestEntry) : Prop :=
  e ∈ dests ∧ e.pfx <+: number ∧ ∀ e' ∈ dests, e'.pfx <+: number → e'.pfx.length ≤ e.pfx.length

/-- What a search for the longest match may answer: a longest match, or none where nothing matches. -/
def MatchAnswer (dests : List DestEntry) (number : List Digit) : Option DestEntry → Prop
  | some e => LongestMatch dests number e
  | none => ∀ e ∈ dests, ¬ e.pfx <+: number

/-- One more entry: the search keeps the longer of the two matches. -/
theorem MatchAnswer.longer (h : MatchAnswer dests number o) (e : DestEntry) :
    MatchAnswer (dests ++ [e]) number (longer number o e) := by
  unfold Machine.longer
  by_cases hf : e.fits number = true
  · have hp := (e.fits_iff number).mp hf
    rw [if_pos hf]
    cases o with
    | none =>
      refine ⟨by simp, hp, fun e' he' hp' => ?_⟩
      rcases List.mem_append.mp he' with hm | hm
      · exact absurd hp' (h e' hm)
      · rw [List.mem_singleton.mp hm]
    | some b =>
      obtain ⟨hb, hbp, hmax⟩ := h
      dsimp only
      by_cases hl : b.pfx.length < e.pfx.length
      · rw [if_pos hl]
        refine ⟨by simp, hp, fun e' he' hp' => ?_⟩
        rcases List.mem_append.mp he' with hm | hm
        · exact (hmax e' hm hp').trans hl.le
        · rw [List.mem_singleton.mp hm]
      · rw [if_neg hl]
        refine ⟨List.mem_append_left _ hb, hbp, fun e' he' hp' => ?_⟩
        rcases List.mem_append.mp he' with hm | hm
        · exact hmax e' hm hp'
        · rw [List.mem_singleton.mp hm]; exact Nat.le_of_not_lt hl
  · have hp : ¬ e.pfx <+: number := fun hp => hf ((e.fits_iff number).mpr hp)
    rw [if_neg hf]
    cases o with
    | none =>
      intro e' he'
      rcases List.mem_append.mp he' with hm | hm
      · exact h e' hm
      · rwa [List.mem_singleton.mp hm]
    | some b =>
      obtain ⟨hb, hbp, hmax⟩ := h
      refine ⟨List.mem_append_left _ hb, hbp, fun e' he' hp' => ?_⟩
      rcases List.mem_append.mp he' with hm | hm
      · exact hmax e' hm hp'
      · exact absurd (List.mem_singleton.mp hm ▸ hp') hp

theorem destMatch_answer (dests : List DestEntry) (number : List Digit) :
    MatchAnswer dests number (destMatch dests number) := by
  induction dests using List.reverseRecOn with
  | nil => exact fun e he => absurd he List.not_mem_nil
  | append_singleton dests e ih =>
    rw [destMatch, List.foldl_append]
    exact ih.longer e

/-- Two longest matches of one number have the same digits. -/
theorem LongestMatch.pfx_eq (h : LongestMatch dests number e) (h' : LongestMatch dests number e') : e.pfx = e'.pfx := by
  obtain ⟨hm, hp, hmax⟩ := h
  obtain ⟨hm', hp', hmax'⟩ := h'
  have hlen : e.pfx.length = e'.pfx.length := le_antisymm (hmax' e hm hp) (hmax e' hm' hp')
  exact (List.prefix_of_prefix_length_le hp hp' hlen.le).eq_of_length hlen

/-- In a table with unique prefixes there is one longest match (R53). -/
theorem LongestMatch.unique (hn : (dests.map (·.pfx)).Nodup) (h : LongestMatch dests number e)
    (h' : LongestMatch dests number e') : e = e' := List.inj_on_of_nodup_map hn h.1 h'.1 (h.pfx_eq h')

/-- Settles O47: the search answers a longest match, and there is no other; it answers none only where nothing matches. -/
theorem longestPrefixMatches : Obligations.LongestPrefixMatches := by
  unfold Obligations.LongestPrefixMatches
  intro dests number hn
  have answer := destMatch_answer dests number
  refine ⟨fun e => ⟨fun he => ?_, fun he => ?_⟩, fun hnone => ?_, fun hall => ?_⟩
  · rw [he] at answer; exact answer
  · cases hd : destMatch dests number with
    | none => rw [hd] at answer; exact absurd he.2.1 (answer e he.1)
    | some b => rw [hd] at answer; rw [LongestMatch.unique hn answer he]
  · rw [hnone] at answer; exact answer
  · cases hd : destMatch dests number with
    | none => rfl
    | some b => rw [hd] at answer; exact absurd answer.2.1 (hall b answer.1)

end Sys2Proof.Machine
end

