-- ==== Sys2Proof/Proofs/RouteLoads.lean ====
section
/-! SUPPORT and CERTIFICATES. The requests on destinations (R53, R56) and on route lists (R57, R59, R102, R103). -/
namespace Sys2Proof.Machine

variable {s t : State} {f : Frame} {rest : List Frame}

/-! ### Requests on the Route Selector -/

/-- A request that every device state takes and that leaves the Route Selector as `x`. -/
theorem request_rerouted {cmd : Instr} {code : Nat} {act : List Byte → State → Answer} {x : RouteSelector}
    {rc : ReplyCode} {results : List Byte} (h : s.requested code f rest) (hc : 3 < code)
    (hx : exec cmd s = .next (takeRequest code act s))
    (ha : act (paramsOf f) (s.took .forward rest) = ⟨(s.took .forward rest).withRoutes x, rc, results⟩) :
    ∃ t, exec cmd s = .next t ∧ t.routes = x ∧ Replied f rest rc results s t
      ∧ OnlyChanges [.fwd, .routes, .bwdOut] s t := by
  have e := request_runs h hc hx
  rw [ha] at e
  obtain ⟨htook, hall⟩ := took_forward (((withRoutes_frame (s.took .forward rest) x).mono (by decide)).trans
    ((emitBwd_frame _ (.reply (kindByteOf f) (requestCode f) rc results)).mono (more := [.routes, .bwdOut]) (by decide)))
    (by decide)
  exact ⟨_, e, rfl, ⟨htook, rfl⟩, hall⟩

/-! ### Destinations (R53, R56) -/

/-- What a Load Destination that R56 accepts asks for. -/
def LoadDestReq.Asks (r : LoadDestReq) (e : DestEntry) : Prop :=
  let mask := if r.maskPresent then some r.mask else none
  1 ≤ r.pfx.count ∧ r.pfx.count ≤ 15
    ∧ ((r.kind = 0 ∧ r.list ≤ 511 ∧ mask ≠ some 0 ∧ e = ⟨r.pfx.digits, .route r.list mask⟩)
      ∨ (r.kind = 1 ∧ r.list = 0xFFFF ∧ mask = none ∧ e = ⟨r.pfx.digits, .bar⟩))

theorem LoadDestReq.Asks.pfx {r : LoadDestReq} {e : DestEntry} (h : r.Asks e) : e.pfx = r.pfx.digits := by
  obtain ⟨-, -, ⟨-, -, -, rfl⟩ | ⟨-, -, -, rfl⟩⟩ := h <;> rfl

theorem LoadDestReq.entry_iff (r : LoadDestReq) (e : DestEntry) : r.entry = some e ↔ r.Asks e := by
  unfold LoadDestReq.entry LoadDestReq.Asks
  by_cases hcount : r.pfx.count = 0 ∨ 15 < r.pfx.count
  · rw [if_pos hcount]
    exact iff_of_false (by simp) fun h => by omega
  rw [if_neg hcount]
  have hrange : 1 ≤ r.pfx.count ∧ r.pfx.count ≤ 15 := by omega
  by_cases hroute : r.kind = 0
  · rw [if_pos hroute]
    by_cases hbad : 511 < r.list ∨ (r.maskPresent ∧ r.mask = 0)
    · rw [if_pos hbad]
      refine iff_of_false (by simp) fun h => ?_
      rcases hbad with hl | ⟨hp, hm⟩
      · omega
      · simp [hroute, hp, hm] at h
    · rw [if_neg hbad]
      obtain ⟨hl, hm⟩ := not_or.mp hbad
      have hmask : (if r.maskPresent then some r.mask else none) ≠ some 0 := by
        split
        · rename_i hp; exact fun e => hm ⟨hp, Option.some.inj e⟩
        · simp
      constructor
      · exact fun h => ⟨hrange.1, hrange.2, .inl ⟨hroute, Nat.le_of_not_lt hl, hmask, (Option.some.inj h).symm⟩⟩
      · rintro ⟨-, -, ⟨-, -, -, rfl⟩ | ⟨hk, -⟩⟩
        · rfl
        · omega
  · rw [if_neg hroute]
    by_cases hbar : r.kind = 1
    · rw [if_pos hbar]
      by_cases hbad : r.list ≠ 0xFFFF ∨ r.maskPresent
      · rw [if_pos hbad]
        refine iff_of_false (by simp) fun h => ?_
        rcases hbad with hl | hp
        · omega
        · simp [hbar, hp] at h
      · rw [if_neg hbad]
        obtain ⟨hl, hp⟩ := not_or.mp hbad
        constructor
        · exact fun h => ⟨hrange.1, hrange.2, .inr ⟨hbar, not_not.mp hl, if_neg hp, (Option.some.inj h).symm⟩⟩
        · rintro ⟨-, -, ⟨hk, -⟩ | ⟨-, -, -, rfl⟩⟩
          · omega
          · rfl
    · rw [if_neg hbar]
      exact iff_of_false (by simp) fun h => by omega

theorem hasPrefix_eq_true {d : List DestEntry} {p : List Digit} : hasPrefix d p = true ↔ ∃ e ∈ d, e.pfx = p := by
  simp [hasPrefix]

theorem hasPrefix_eq_false {d : List DestEntry} {p : List Digit} : hasPrefix d p = false ↔ ∀ e ∈ d, e.pfx ≠ p := by
  simp [hasPrefix]

theorem mem_putDest {e e' : DestEntry} {d : List DestEntry} (hn : (d.map (·.pfx)).Nodup) :
    e' ∈ putDest e d ↔ e' = e ∨ (e' ∈ d ∧ e'.pfx ≠ e.pfx) := by
  induction d with
  | nil => simp [putDest]
  | cons x d ih =>
    rw [List.map_cons, List.nodup_cons] at hn
    unfold putDest
    by_cases hx : x.pfx = e.pfx
    · rw [if_pos hx]
      have hothers : ∀ y ∈ d, y.pfx ≠ e.pfx := fun y hy h => hn.1 (List.mem_map.mpr ⟨y, hy, h.trans hx.symm⟩)
      constructor
      · rintro (_ | ⟨_, hm⟩)
        · exact .inl rfl
        · exact .inr ⟨List.mem_cons_of_mem _ hm, hothers e' hm⟩
      · rintro (rfl | ⟨hm, hne⟩)
        · exact List.mem_cons_self
        · rcases List.mem_cons.mp hm with rfl | hm
          · exact absurd hx hne
          · exact List.mem_cons_of_mem _ hm
    · rw [if_neg hx, List.mem_cons, List.mem_cons, ih hn.2]
      constructor
      · rintro (rfl | rfl | ⟨hm, hne⟩)
        · exact .inr ⟨.inl rfl, hx⟩
        · exact .inl rfl
        · exact .inr ⟨.inr hm, hne⟩
      · rintro (rfl | ⟨rfl | hm, hne⟩)
        · exact .inr (.inl rfl)
        · exact .inl rfl
        · exact .inr (.inr ⟨hm, hne⟩)

theorem putDest_nodup {d : List DestEntry} (hn : (d.map (·.pfx)).Nodup) (e : DestEntry) :
    ((putDest e d).map (·.pfx)).Nodup := by
  cases hp : hasPrefix d e.pfx with
  | true => rwa [putDest_of_hasPrefix hp]
  | false =>
    rw [putDest_of_new hp, List.map_append, List.map_singleton, ← List.concat_eq_append]
    refine hn.concat fun hm => ?_
    obtain ⟨x, hx, he⟩ := List.mem_map.mp hm
    exact hasPrefix_eq_false.mp hp x hx he

/-- Load Destination by what it asks for, and the room it finds (R56). -/
theorem loadDestination_of {r : LoadDestReq} {e : DestEntry} (h : r.Asks e) (s : State) :
    loadDestination r s =
      if (∀ x ∈ s.routes.dests, x.pfx ≠ r.pfx.digits) ∧ 8192 ≤ s.routes.dests.length then Answer.refuse s .tableFull
      else Answer.ok (s.withDests (putDest e s.routes.dests)) [] := by
  simp only [loadDestination, (r.entry_iff e).mpr h, hasPrefix_eq_false, h.pfx, Config.destinationMax]

theorem loadDestination_bad {r : LoadDestReq} (h : ∀ e, ¬ r.Asks e) (s : State) :
    loadDestination r s = Answer.refuse s .badParameter := by
  have hnone : r.entry = none := Option.eq_none_iff_forall_ne_some.mpr fun e he => h e ((r.entry_iff e).mp he)
  simp only [loadDestination, hnone]

/-- Settles O39: the entry that a load asks for joins the table or replaces the one with its digits, and a delete filters it
out. -/
theorem destinationsLoadedAndDeleted : Obligations.DestinationsLoadedAndDeleted := by
  unfold Obligations.DestinationsLoadedAndDeleted
  intro s f rest hn r mask asks d full
  refine ⟨fun h => ⟨fun e he hroom => ?_, fun e he hfull => ?_, fun hbad => ?_⟩, fun h hd => ⟨fun hex => ?_, fun hno => ?_⟩⟩
  · obtain ⟨t, ht, hroutes, hreply, hall⟩ := request_rerouted (cmd := .loadDestination) h (by decide) rfl
      ((loadDestination_of (r := r) (e := e) he (s.took .forward rest)).trans (if_neg hroom))
    refine ⟨t, ht, hreply, fun e' => ?_, ?_, ?_, hall⟩
    · rw [hroutes]; exact mem_putDest hn
    · rw [hroutes]; exact putDest_nodup hn e
    · rw [hroutes]; rfl
  · exact request_unchanged (cmd := .loadDestination) h (by decide) rfl
      ((loadDestination_of (r := r) (e := e) he (s.took .forward rest)).trans (if_pos hfull))
  · exact request_unchanged (cmd := .loadDestination) h (by decide) rfl (loadDestination_bad (r := r) hbad _)
  · obtain ⟨t, ht, hroutes, hreply, hall⟩ := request_rerouted (cmd := .deleteDestination) h (by decide) rfl
      (if_pos ⟨hd, hasPrefix_eq_true.mpr hex⟩)
    refine ⟨t, ht, hreply, fun e' => ?_, ?_, hall⟩
    · rw [hroutes]; simp [d]
    · rw [hroutes]; rfl
  · exact request_unchanged (cmd := .deleteDestination) h (by decide) rfl
      (if_neg fun ⟨_, hp⟩ => let ⟨e, he, hpe⟩ := hasPrefix_eq_true.mp hp; hno e he hpe)

/-! ### Route lists (R57, R59, R102, R103) -/

/-- The two checks of R59. -/
def LoadListReq.Good (r : LoadListReq) : Prop :=
  r.list ≤ 511 ∧ (1 ≤ r.count ∧ r.count ≤ 8)
    ∧ (∀ ch ∈ r.choices, (1 ≤ ch.group ∧ ch.group ≤ 255) ∧ ch.ceiling ≤ 2000000)
    ∧ (r.choices.map (·.group)).Nodup ∧ r.budget ≤ 7 ∧ 1 ≤ r.gapFloor ∧ r.gapFloor ≤ r.gapMax

theorem LoadListReq.valid_iff (r : LoadListReq) : r.valid = true ↔ r.Good := by
  simp only [LoadListReq.valid, LoadListReq.Good, Bool.and_eq_true, decide_eq_true_eq, List.all_eq_true]
  constructor
  · rintro ⟨⟨⟨hl, h1, h8, hb, hf, hm⟩, hch⟩, hn⟩
    exact ⟨hl, ⟨h1, h8⟩, fun ch hc => ⟨⟨(hch ch hc).1, (hch ch hc).2.1⟩, (hch ch hc).2.2⟩, hn, hb, hf, hm⟩
  · rintro ⟨hl, ⟨h1, h8⟩, hch, hn, hb, hf, hm⟩
    exact ⟨⟨⟨hl, h1, h8, hb, hf, hm⟩, fun ch hc => ⟨(hch ch hc).1.1, (hch ch hc).1.2, (hch ch hc).2⟩⟩, hn⟩

/-- What stands in the Route Selector alone decides what a list reads. -/
theorem routeList_congr (h : t.routes = s.routes) (l : Nat) : t.routeList l = s.routeList l := by
  rw [State.routeList, h]; rfl

/-- A request that changes one list. -/
theorem request_relisted {cmd : Instr} {code : Nat} {act : List Byte → State → Answer} {l : Nat}
    {g : RouteList → RouteList} (h : s.requested code f rest) (hc : 3 < code)
    (hx : exec cmd s = .next (takeRequest code act s))
    (ha : act (paramsOf f) (s.took .forward rest) = Answer.ok ((s.took .forward rest).updList l g) []) :
    ∃ t, exec cmd s = .next t ∧ Replied f rest .done [] s t ∧ t.routeList l = g (s.routeList l)
      ∧ (∀ n, n ≠ l → t.routeList n = s.routeList n) ∧ t.routes = { s.routes with lists := t.routes.lists }
      ∧ OnlyChanges [.fwd, .routes, .bwdOut] s t := by
  obtain ⟨t, ht, hroutes, hreply, hall⟩ := request_rerouted h hc hx ha
  have hlist : ∀ n, t.routeList n = if l = n then g (s.routeList n) else s.routeList n := fun n =>
    (routeList_congr (s := (s.took .forward rest).updList l g) hroutes n).trans (State.updList_routeList _ _ _ _)
  refine ⟨t, ht, hreply, (hlist l).trans (if_pos rfl), fun n hn => (hlist n).trans (if_neg hn.symm), ?_, hall⟩
  rw [hroutes]; rfl

theorem RouteList.restartGap_eq (r : RouteList) : r.restartGap =
    if r.gapState = .active then { r with gap := r.gapFloor, gate := .opened, gapTimer := none } else r := by
  unfold RouteList.restartGap
  cases r.gapState <;> rfl

/-- Settles O40: both requests change one list by the operation of their rule, or are refused by their checks. -/
theorem routeListsLoadedAndGapRestarted : Obligations.RouteListsLoadedAndGapRestarted := by
  unfold Obligations.RouteListsLoadedAndGapRestarted
  intro s f rest r good l refused
  refine ⟨fun h => ⟨fun hgood => ?_, fun hbad => ?_⟩, fun h => ⟨fun hl => ?_, fun hl hload => ?_, fun hl hload => ?_⟩⟩
  · exact request_relisted (cmd := .loadRouteList) h (by decide) rfl (if_pos (r.valid_iff.mpr hgood))
  · exact request_unchanged (cmd := .loadRouteList) h (by decide) rfl (if_neg fun hv => hbad (r.valid_iff.mp hv))
  · exact request_unchanged (cmd := .restartGap) h (by decide) rfl (if_pos hl)
  · have hn : ¬ ((s.took .forward rest).routeList l).loaded = true := by
      rw [Bool.not_eq_true]; exact hload
    exact request_unchanged (cmd := .restartGap) h (by decide) rfl ((if_neg (Nat.not_lt.mpr hl)).trans (if_neg hn))
  · have ha : restartGap l (s.took .forward rest) = _ := (if_neg (Nat.not_lt.mpr hl)).trans (if_pos hload)
    obtain ⟨t, ht, hreply, hlist, hrest⟩ := request_relisted (cmd := .restartGap) h (by decide) rfl ha
    exact ⟨t, ht, hreply, hlist.trans (RouteList.restartGap_eq _), hrest⟩

end Sys2Proof.Machine
end

