-- ==== Sys2Proof/Proofs/PassSoundness.lean ====
section
/-! SUPPORT and CERTIFICATE. A selection pass that seizes has found a choice that passes its six checks on the device as the
pass found it (R62 to R66, R68): what the failures before it leave is nothing that a check reads. -/
namespace Sys2Proof.Machine

variable {s t e : State} {now : ExTime} {priority : Bool} {i l n k : Nat} {c cc : Context} {ch : Choice} {x y : Group}
  {q : Option Quote} {r : Reason} {rs : List Reason}

/-! ### A choice that passes (R63 to R66) -/

theorem groupReason_eq_none (h : groupReason n priority (some x) = none) :
    x.usable ∧ ¬ x.tooBusy n priority ∧ x.spares n priority := by
  by_cases hu : x.usable
  · by_cases hb : x.tooBusy n priority
    · rw [groupReason_busy hu hb] at h; cases h
    · by_cases hf : x.spares n priority
      · exact ⟨hu, hb, hf⟩
      · rw [groupReason_full hu hb hf] at h; cases h
  · rw [groupReason_unusable hu] at h; cases h

/-- The examination lets a choice pass only where it passes its checks. -/
theorem passes_of_examine (h : (s.examine now n priority ch).2 = .pass q) :
    ∃ x, Passes s now s.settle.slotSum priority n ch x q := by
  cases hr : groupReason n priority (s.group ch.group) with
  | some r => rw [examine_groupReason hr] at h; cases h
  | none =>
    cases hx : s.group ch.group with
    | none => rw [hx] at hr; cases hr
    | some x =>
      rw [hx] at hr
      obtain ⟨hu, hb, hf⟩ := groupReason_eq_none hr
      by_cases ho : x.cfg.owner = 0
      · rw [examine_own hx hr ho] at h
        cases h
        exact ⟨x, hx, hu, hb, hf, .inl ⟨ho, rfl⟩⟩
      · cases hc : s.carrier x.cfg.owner with
        | none =>
          have hc' : (s.updTraffic ch.group Traffic.attempt).carrier x.cfg.owner = none := hc
          simp only [State.examine, hx, hr, if_neg ho, State.priceCheck, hc'] at h
          cases h
        | some car =>
          rw [examine_handover hx hr ho hc] at h
          dsimp only at h
          split at h
          · cases h
          · rename_i hover
            split at h
            · rename_i hslot
              cases h
              exact ⟨x, hx, hu, hb, hf, .inr ⟨ho, (slotFree_iff _ _).mp hslot, car, hc, rfl,
                not_not.mp fun ha => hover ((overCeiling_iff _ _ _).mpr ha)⟩⟩
            · cases h

/-! ### What an examination leaves -/

/-- A group with other traffic counters. -/
def Group.tallied (x : Group) (n : Traffic) : Group := { x with mon := { x.mon with traffic := n } }

theorem tallied_of_updTraffic {g h : Nat} {f : Traffic → Traffic} (hy : (s.updTraffic g f).group h = some y) :
    ∃ x n, s.group h = some x ∧ y = x.tallied n := by
  rw [State.updTraffic, State.updMonitor_group] at hy
  split at hy
  · obtain ⟨x, hx, rfl⟩ := Option.map_eq_some_iff.mp hy
    exact ⟨x, _, hx, rfl⟩
  · exact ⟨y, y.mon.traffic, hy, rfl⟩

/-- An examination changes the traffic counters of groups and the Rating Unit's counters alone. -/
theorem examine_leaves (s : State) (now : ExTime) (n : Nat) (priority : Bool) (ch : Choice) :
    (∀ g y, (s.examine now n priority ch).1.group g = some y → ∃ x m, s.group g = some x ∧ y = x.tallied m)
      ∧ (s.examine now n priority ch).1.circ.circuits = s.circ.circuits := by
  have attempted : (∀ g y, (s.updTraffic ch.group Traffic.attempt).group g = some y →
      ∃ x m, s.group g = some x ∧ y = x.tallied m) := fun g y hy => tallied_of_updTraffic hy
  unfold State.examine
  dsimp only
  split
  · split
    · refine ⟨fun g y hy => ?_, rfl⟩
      obtain ⟨z, m, hz, rfl⟩ := tallied_of_updTraffic hy
      obtain ⟨x, -, hx, rfl⟩ := tallied_of_updTraffic hz
      exact ⟨x, m, hx, rfl⟩
    · exact ⟨attempted, rfl⟩
  · exact ⟨attempted, rfl⟩
  · split
    · exact ⟨attempted, rfl⟩
    · rename_i x _
      split
      · exact ⟨attempted, rfl⟩
      · have hp := priceCheck_frame (s.updTraffic ch.group Traffic.attempt) now priority ch.ceiling x
        have hcirc : ((s.updTraffic ch.group Traffic.attempt).priceCheck now priority ch.ceiling x).1.circ =
            (s.updTraffic ch.group Traffic.attempt).circ := hp .circ (by decide)
        exact ⟨fun g y hy => attempted g y ((hp.group_eq (by decide) g).symm.trans hy),
          by rw [hcirc]; rfl⟩

/-! ### One turn of a pass -/

/-- A pass turns to a choice that it may examine: the choice fails and the pass goes on, or it passes and is seized. -/
theorem passLoop_turn (hc : t.context i = some cc) (hk : (t.routeList l).choices[n]? = some ch)
    (hs : ¬ (ch.group ∈ cc.tried ∨ (n ≠ 0 ∧ (t.routeList l).budget ≤ cc.examined))) (now : ExTime) (ks : List Nat)
    (rs : List Reason) :
    let e := (t.turnedTo i n).examine now n cc.priority ch
    (∃ r, passLoop now i l (n :: ks) rs t = passLoop now i l ks (rs ++ [r]) (e.1.choiceFailed i l n ch.group))
      ∨ (∃ q k, e.2 = .pass q ∧ (e.1.group ch.group).bind Group.hunt = some k
        ∧ passLoop now i l (n :: ks) rs t = (e.1.seizeCircuit now i l n ch.group k q, .seized ch.group k)) := by
  rw [not_or] at hs
  have hloop : passLoop now i l (n :: ks) rs t =
      match (t.turnedTo i n).examine now n cc.priority ch with
      | (s2, .fail r) => passLoop now i l ks (rs ++ [r]) (s2.choiceFailed i l n ch.group)
      | (s2, .pass q) =>
        match (s2.group ch.group).bind Group.hunt with
        | some circuit => (s2.seizeCircuit now i l n ch.group circuit q, .seized ch.group circuit)
        | none => passLoop now i l ks (rs ++ [.noCircuit]) (s2.choiceFailed i l n ch.group) := by
    simp only [passLoop, hc, hk, if_neg hs.1, if_neg hs.2]; rfl
  dsimp only
  rw [hloop]
  cases (t.turnedTo i n).examine now n cc.priority ch with
  | mk e v =>
    cases v with
    | fail r => exact .inl ⟨r, rfl⟩
    | pass q =>
      cases hh : (e.group ch.group).bind Group.hunt with
      | none => exact .inl ⟨.noCircuit, by simp only [hh]⟩
      | some k => exact .inr ⟨q, k, rfl, rfl, by simp only [hh]⟩

/-- What a pass of call `c` that has not seized leaves as its checks have found it: no group has left the tried set, no
alternate is given back to the budget, and groups differ in their traffic counters alone. -/
structure StillSearching (i l : Nat) (c : Context) (s t : State) : Prop where
  context : ∃ cc, t.context i = some cc ∧ cc.priority = c.priority ∧ c.tried ⊆ cc.tried ∧ c.examined ≤ cc.examined
  groups : ∀ g y, t.group g = some y → ∃ x m, s.group g = some x ∧ y = x.tallied m
  circuits : t.circ.circuits = s.circ.circuits
  choices : (t.routeList l).choices = (s.routeList l).choices
  budget : (t.routeList l).budget = (s.routeList l).budget
  frame : OnlyChanges [.ctx, .circ, .routes, .rating] s t

theorem StillSearching.refl (hc : s.context i = some c) (l : Nat) : StillSearching i l c s s where
  context := ⟨c, hc, rfl, fun _ h => h, le_rfl⟩
  groups := fun _ y hy => ⟨y, y.mon.traffic, hy, rfl⟩
  circuits := rfl
  choices := rfl
  budget := rfl
  frame := .refl _ _

theorem Context.subset_addTried (c : Context) (g : Nat) : c.tried ⊆ (c.addTried g).tried := by
  unfold Context.addTried
  split
  · exact fun _ h => h
  · split
    · exact fun _ h => h
    · exact List.subset_append_left _ _

/-- A choice that fails leaves the search going. -/
theorem StillSearching.failed (h : StillSearching i l c s t) (hc : t.context i = some cc) (now : ExTime) (n : Nat)
    (ch : Choice) :
    StillSearching i l c s (((t.turnedTo i n).examine now n cc.priority ch).1.choiceFailed i l n ch.group) := by
  obtain ⟨egroups, ecircuits⟩ := examine_leaves (t.turnedTo i n) now n cc.priority ch
  have ef := examine_frame (t.turnedTo i n) now n cc.priority ch
  generalize ((t.turnedTo i n).examine now n cc.priority ch).1 = e at *
  have f1 := turnedTo_frame t i n
  have hce : e.context i = some (cc.examining n) := (ef.context_eq (by decide) i).trans (turnedTo_set hc n).1
  obtain ⟨fset, flist, -, -⟩ := choiceFailed_of hce l n ch.group
  have ff := choiceFailed_frame e i l n ch.group
  have hlist : e.routeList l = t.routeList l := (ef.routeList_eq (by decide) l).trans (f1.routeList_eq (by decide) l)
  rw [hlist] at flist
  obtain ⟨cc', hc', hpr, htried, hexam⟩ := h.context
  obtain rfl : cc' = cc := Option.some.inj (hc'.symm.trans hc)
  have hcirc : (e.choiceFailed i l n ch.group).circ = e.circ := ff .circ (by decide)
  have hcirct : (t.turnedTo i n).circ = t.circ := f1 .circ (by decide)
  refine ⟨⟨_, fset.1, ?_, ?_, ?_⟩, fun g y hy => ?_, ?_, ?_, ?_, ?_⟩
  · rw [Context.addTried_priority]; exact hpr
  · exact fun _ hg => Context.subset_addTried (cc'.examining n) ch.group (htried hg)
  · rw [Context.addTried_examined, Context.examining]
    dsimp only
    split <;> omega
  · rw [State.group, hcirc] at hy
    obtain ⟨z, m, hz, rfl⟩ := egroups g y hy
    obtain ⟨x, -, hx, rfl⟩ := h.groups g z ((f1.group_eq (by decide) g).symm.trans hz)
    exact ⟨x, m, hx, rfl⟩
  · rw [hcirc, ecircuits, hcirct, h.circuits]
  · rw [flist]; exact h.choices
  · rw [flist]; exact h.budget
  · exact h.frame.trans ((f1.mono (by decide)).trans ((ef.mono (by decide)).trans (ff.mono (by decide))))

/-- What a choice passes on a device whose groups have other traffic counters it passes on the device itself. -/
theorem StillSearching.passes (h : StillSearching i l c s t) (hp : Passes t now t.settle.slotSum priority n ch y q) :
    ∃ x m, y = x.tallied m ∧ Passes s now s.settle.slotSum priority n ch x q := by
  have hsettle : t.settle = s.settle := h.frame .settle (by decide)
  obtain ⟨hy, hu, hb, hf, hq⟩ := hp
  obtain ⟨x, m, hx, rfl⟩ := h.groups _ _ hy
  simp only [h.frame.carrier_eq (by decide), hsettle] at hq
  exact ⟨x, m, rfl, hx, hu, hb, hf, hq⟩

/-- A group with a circuit for the call has a Free one. -/
theorem Group.spares.pos (h : x.spares n priority) : 1 ≤ x.counts.free := by
  unfold Group.spares at h
  split at h
  · exact h
  · omega

/-- For an alternate without priority it has more than the reservation (R64). -/
theorem Group.spares.reserved (h : x.spares n priority) (hn : n ≠ 0) (hp : priority = false) :
    x.cfg.reservation < x.counts.free := by
  rwa [Group.spares, if_neg (by simp [hn, hp])] at h

/-! ### A pass that seizes (R68) -/

theorem seizeCircuit_settle (s : State) (now : ExTime) (i l n g k : Nat) (q : Option Quote) :
    (s.seizeCircuit now i l n g k q).settle =
      { s.settle with reservations := s.settle.reservations + (if q.isSome then 1 else 0) } := by
  have h0 : (s.recast k fun x => { x with cond := .seized i }).settle = s.settle := recast_frame s k _ .settle (by decide)
  rw [seizeCircuit_eq]
  extract_lets suspect s1 s2 s3
  have h2 : s2.settle = s.settle := by
    by_cases hs : suspect = true
    · rw [show s2 = s1.updMonitor g _ from if_pos hs]; exact h0
    · rw [show s2 = s1 from if_neg hs]; exact h0
  have h3 : s3.settle = s.settle := by
    by_cases hn : n = 0
    · rw [show s3 = s2 from if_pos hn]; exact h2
    · rw [show s3 = s2.updList l _ from if_neg hn]; exact h2
  change (if q.isSome then s3.settle.reserve else s3.settle) = _
  rw [h3]
  cases q <;> rfl

/-- Choice `n` of list `l`, which is `ch` on group `x`, is one that call `c` may examine, and it passes its checks; circuit
`k` is the one that its group hunts. -/
structure SeizedOn (now : ExTime) (l : Nat) (c : Context) (n : Nat) (ch : Choice) (x : Group) (q : Option Quote) (g k : Nat)
    (s t : State) : Prop where
  choice : (s.routeList l).choices[n]? = some ch
  group : ch.group = g
  untried : g ∉ c.tried
  budget : n ≠ 0 → c.examined < (s.routeList l).budget
  passes : Passes s now s.settle.slotSum c.priority n ch x q
  hunt : x.hunt = some k
  settle : t.settle = { s.settle with reservations := s.settle.reservations + (if q.isSome then 1 else 0) }

/-- How a pass may end. -/
def PassEnds (now : ExTime) (i l : Nat) (c : Context) (s : State) : State × PassEnd → Prop
  | (t, .seized g k) => ∃ n ch x q, SeizedOn now l c n ch x q g k s t
  | (t, .failed _) => StillSearching i l c s t

/-- A choice that passes on its turn is one that the call may examine, and it passes on the device that the pass found. -/
theorem StillSearching.seizes (h : StillSearching i l c s t) (hc : t.context i = some cc)
    (hk : (t.routeList l).choices[n]? = some ch)
    (hs : ¬ (ch.group ∈ cc.tried ∨ (n ≠ 0 ∧ (t.routeList l).budget ≤ cc.examined)))
    (hpass : ((t.turnedTo i n).examine now n cc.priority ch).2 = .pass q)
    (hhunt : (((t.turnedTo i n).examine now n cc.priority ch).1.group ch.group).bind Group.hunt = some k) :
    ∃ x, SeizedOn now l c n ch x q ch.group k s
      (((t.turnedTo i n).examine now n cc.priority ch).1.seizeCircuit now i l n ch.group k q) := by
  obtain ⟨cc', hc', hpr, htried, hexam⟩ := h.context
  obtain rfl : cc' = cc := Option.some.inj (hc'.symm.trans hc)
  have f1 := turnedTo_frame t i n
  have ef := examine_frame (t.turnedTo i n) now n cc'.priority ch
  have hset1 : (t.turnedTo i n).settle = t.settle := f1 .settle (by decide)
  have hsettle : ((t.turnedTo i n).examine now n cc'.priority ch).1.settle = s.settle :=
    (ef .settle (by decide)).trans (hset1.trans (h.frame .settle (by decide)))
  obtain ⟨y, hp⟩ := passes_of_examine hpass
  rw [hset1, hpr] at hp
  obtain ⟨x, m, rfl, hpx⟩ := h.passes (hp.congr (f1.group_eq (by decide) _).symm fun id => (f1.carrier_eq (by decide) id).symm)
  obtain ⟨z, hz, hzk⟩ := Option.bind_eq_some_iff.mp hhunt
  obtain ⟨y', m', hy', rfl⟩ := (examine_leaves (t.turnedTo i n) now n cc'.priority ch).1 _ z hz
  obtain rfl : y' = x.tallied m := Option.some.inj (hy'.symm.trans hp.group)
  rw [not_or, not_and, not_le] at hs
  refine ⟨x, ?_, rfl, fun hm => hs.1 (htried hm), fun hn => ?_, hpx, hzk, ?_⟩
  · rw [← h.choices]; exact hk
  · rw [← h.budget]; exact hexam.trans_lt (hs.2 hn)
  · rw [seizeCircuit_settle, hsettle]

theorem passLoop_ends (now : ExTime) (ks : List Nat) (rs : List Reason) (h : StillSearching i l c s t) :
    PassEnds now i l c s (passLoop now i l ks rs t) := by
  induction ks generalizing rs t with
  | nil => exact h
  | cons n ks ih =>
    obtain ⟨cc, hc, -⟩ := h.context
    cases hk : (t.routeList l).choices[n]? with
    | none => rw [passLoop_absent hk]; exact ih _ h
    | some ch =>
      by_cases hs : ch.group ∈ cc.tried ∨ (n ≠ 0 ∧ (t.routeList l).budget ≤ cc.examined)
      · rw [passLoop_skip hc hk hs]; exact ih _ h
      · rcases passLoop_turn hc hk hs now ks rs with ⟨r, hr⟩ | ⟨q, k, hpass, hhunt, hseize⟩
        · rw [hr]; exact ih _ (h.failed hc now n ch)
        · rw [hseize]
          obtain ⟨x, hx⟩ := h.seizes hc hk hs hpass hhunt
          exact ⟨n, ch, x, q, hx⟩

theorem selectionPass_ends (hc : s.context i = some c) (now : ExTime) (l : Nat) :
    PassEnds now i l c s (s.selectionPass now i l) := by
  unfold State.selectionPass
  rw [hc]
  dsimp only
  split
  · exact StillSearching.refl hc l
  · exact passLoop_ends now _ _ (StillSearching.refl hc l)

/-- Settles O48: the choice that the pass seizes passes its checks on the device as the pass found it, and each clause is
one of them. -/
theorem seizedChoicePassesChecks : Obligations.SeizedChoicePassesChecks := by
  unfold Obligations.SeizedChoicePassesChecks
  intro s s' now i l g k c hc hpass
  have hmark : c.noFurther = false := by
    cases hm : c.noFurther with
    | false => rfl
    | true =>
      rw [(selectionPass_marked hc hm fun _ => .unavailable).1] at hpass
      cases hpass
  have hends := selectionPass_ends hc now l
  rw [hpass] at hends
  obtain ⟨n, ch, x, q, hchoice, rfl, huntried, hbudget, ⟨hx, ⟨hadmin, hgate⟩, hband, hfree, hquote⟩, hhunt, hsettle⟩ := hends
  refine ⟨n, ch, x, hchoice, rfl, hx, hmark, huntried, hadmin, hgate, ?_, hhunt, hbudget, fun hn hpr => ⟨?_, ?_⟩,
    fun car ho hcar => ?_, fun ho => ?_, ?_⟩
  · exact hfree.pos
  · exact hfree.reserved hn hpr
  · exact fun hb => hband ⟨hn, hpr, hb⟩
  · obtain ⟨h0, -⟩ | ⟨-, -, car', hcar', -, hafford⟩ := hquote
    · exact absurd h0 ho
    · obtain rfl : car' = car := Option.some.inj (hcar'.symm.trans hcar)
      exact hafford
  · obtain ⟨h0, -⟩ | ⟨-, hslot, car, hcar, -⟩ := hquote
    · exact absurd h0 ho
    · exact ⟨Option.isSome_iff_exists.mpr ⟨car, hcar⟩, hslot⟩
  · rw [hsettle]
    obtain ⟨h0, rfl⟩ | ⟨h0, -, car, -, rfl, -⟩ := hquote
    · rw [if_pos h0]; rfl
    · rw [if_neg h0]; rfl

end Sys2Proof.Machine
end

