-- ==== Sys2Proof/Proofs/SetupRefusedByList.lean ====
section
/-! SUPPORT and CERTIFICATES. A Setup that meets its list and is refused there: at a Closed gate (R61, R97), or because no
choice within the budget is usable (R62 to R70). -/
namespace Sys2Proof.Machine

variable {s t u : State} {f : Frame} {rest : List Frame} {i l : Nat} {c c' : Context} {m : SetupMsg} {now : ExTime}
  {examined : List (Choice × Nat)} {reason : Nat → Reason} {cause : Cause} {parts : List Part}

/-! ### The Setup at its list -/

/-- The Setup takes its context and is routed over its list. -/
theorem setup_routed (h : SetupReaches s f rest i l) :
    exec .setup s = .next (((s.took .forward rest).admitted i (setupOf f)).routeOver s.time.now i l (setupOf f)) := by
  obtain ⟨hh, hdev, href, hi, hn, hlow, h1, h20, p, mask, hd, hmask⟩ := h
  have hroutes : ((s.took .forward rest).admitted i (setupOf f)).routes = s.routes :=
    admitted_frame (s.took .forward rest) i (setupOf f) .routes (by decide)
  refine congrArg Host.Outcome.next ((takeKind_of hh).trans
    ((takeSetup_routed (s := s.took .forward rest) hdev href hi hn hlow h1 h20).trans ?_))
  refine route_toList (s := (s.took .forward rest).admitted i (setupOf f)) ?_
  rw [hroutes]
  exact judgeMatch_route hd hmask

theorem admitted_context (s : State) (i : Nat) (m : SetupMsg) :
    (s.admitted i m).context i = some (m.context s.time.now) :=
  ((allocate_of (now := s.time.now) s.setupCounted i (m.context s.time.now)).1 i).trans (if_pos rfl)

/-- What lies between the allocation and the Refuse changes the call's own context and these parts; the refusal undoes the
allocation. -/
theorem refuseRouted_after (h : SetupReaches s f rest i l)
    (hset : ContextSet i c' ((s.took .forward rest).admitted i (setupOf f)) u) (hc : c'.callRef = (setupOf f).callRef)
    (hu : OnlyChanges (.ctx :: parts) ((s.took .forward rest).admitted i (setupOf f)) u)
    (hp : Part.fwd ∉ parts ∧ Part.mgmt ∉ parts ∧ Part.bwdOut ∉ parts) (cause : Cause) :
    let t := u.refuseRouted s.time.now i (setupOf f) cause
    TookHead .forward rest s t ∧ RefusedInRouting s t ∧ t.bwdOut = s.bwdOut ++ s.refusalRun (setupOf f) cause
      ∧ OnlyChanges [.ctx, .bwdOut] u t ∧ OnlyChanges (.fwd :: .ctx :: .bwdOut :: parts) s t := by
  obtain ⟨hfwd, hmgmt, hbwd⟩ := hp
  obtain ⟨-, -, href, -, hn, -⟩ := h
  have ha := admitted_frame (s.took .forward rest) i (setupOf f)
  obtain ⟨⟨hcontexts, hrefs, hrest⟩, hout, hlast⟩ := refuseRouted_of (s := s.took .forward rest) hn href hset hc
    ((hu .mgmt (by simp [hmgmt])).trans (ha .mgmt (by decide))) (hu .bwdOut (by simp [hbwd])) cause
  obtain ⟨htook, hall⟩ := took_forward (parts := .ctx :: .bwdOut :: parts) ((ha.mono (by simp)).trans
    ((hu.mono (by simp)).trans (hlast.mono (by simp)))) (by simp [hfwd])
  exact ⟨htook, ⟨hcontexts, hrefs, hrest⟩, hout, hlast, hall⟩

/-! ### A Closed gate (R97) -/

/-- The device when the gate of list `l` has refused the Setup of context `i`: offered and gapped are counted (R60). -/
def State.gapCounted (s : State) (i l : Nat) : State :=
  ((s.updContext i fun c => { c with list := l }).countList l fun k => { k with offered := inc32 k.offered }).countList l
    fun k => { k with gapped := inc32 k.gapped }

theorem routeOver_gapped (h : ¬ (s.routeList l).letsIn m.priority) :
    s.routeOver now i l m = (s.gapCounted i l).refuseRouted now i m .gapped := by
  have hclosed : ¬ (((s.updContext i fun c => { c with list := l }).countList l fun k =>
      { k with offered := inc32 k.offered }).routeList l).admits m.priority = true := by
    rw [RouteList.admits_iff]
    change ¬ ((State.updList _ l _).routeList l).letsIn m.priority
    rw [State.updList_routeList, if_pos rfl]
    exact h
  simp only [State.routeOver, if_neg hclosed]
  rfl

theorem gapCounted_of (hc : s.context i = some c) (l : Nat) :
    let t := s.gapCounted i l
    ContextSet i { c with list := l } s t
      ∧ t.routeList l = { s.routeList l with counters := { (s.routeList l).counters with
          offered := min ((s.routeList l).counters.offered + 1) 4294967295
          gapped := min ((s.routeList l).counters.gapped + 1) 4294967295 } }
      ∧ (∀ n, n ≠ l → t.routeList n = s.routeList n) ∧ t.routes = { s.routes with lists := t.routes.lists }
      ∧ OnlyChanges [.ctx, .routes] s t := by
  refine ⟨(updContext_set hc fun c => { c with list := l }).congr rfl rfl, ?_, fun n hn => ?_, rfl, ?_⟩
  · refine (State.updList_routeList _ _ _ _).trans ((if_pos rfl).trans ?_)
    rw [State.countList, State.updList_routeList, if_pos rfl]
    rfl
  · refine (State.updList_routeList _ _ _ _).trans ((if_neg hn.symm).trans ?_)
    exact (State.updList_routeList _ _ _ _).trans (if_neg hn.symm)
  · exact ((updContext_frame _ _ _).mono (by decide)).trans (((countList_frame _ _ _).mono (by decide)).trans
      ((countList_frame _ _ _).mono (by decide)))

/-- Settles O13: the gate does not let the Setup in, so it is counted and refused with its context undone. -/
theorem setupAtClosedGateIsGapped : Obligations.SetupAtClosedGateIsGapped := by
  unfold Obligations.SetupAtClosedGateIsGapped
  intro s f rest i l h m hpr hact hclosed
  have ha := admitted_frame (s.took .forward rest) i m
  have hlists : ∀ n, ((s.took .forward rest).admitted i m).routeList n = s.routeList n := ha.routeList_eq (by decide)
  have hroutes : ((s.took .forward rest).admitted i m).routes = s.routes := ha .routes (by decide)
  have hgate : ¬ (((s.took .forward rest).admitted i m).routeList l).letsIn m.priority := by
    rw [hlists]; simp [RouteList.letsIn, hact, hclosed, hpr]
  have e := (setup_routed h).trans (congrArg Host.Outcome.next (routeOver_gapped hgate))
  obtain ⟨gset, glist, glists, grouting, gframe⟩ := gapCounted_of (admitted_context (s.took .forward rest) i m) l
  obtain ⟨htook, hrefused, hout, hlast, hall⟩ := refuseRouted_after h gset rfl gframe (by decide) .gapped
  refine ⟨_, e, htook, ?_, fun n hn => ?_, ?_, hrefused, hout, hall.mono (by decide)⟩
  · rw [hlast.routeList_eq (by decide), glist, hlists]
  · rw [hlast.routeList_eq (by decide), glists n hn, hlists]
  · rw [hlast.routes_eq (by decide), grouting, hroutes]

/-! ### The order of a first pass against the budget (R58, R62) -/

/-- A fresh call may examine the primary and as many alternates as the budget allows. -/
theorem eligible_budget (r : RouteList) (budget : Nat) : eligible [] budget 0 r.inTurn = r.inTurn.take (budget + 1) := by
  obtain ⟨alts, hin, hz, ha⟩ := r.inTurn_split
  cases hc : r.choices with
  | nil => simp [RouteList.inTurn, hc, eligible]
  | cons a as =>
    have hone : r.choices.zipIdx.take 1 = [(a, 0)] := by simp [hc]
    rw [hin, eligible_primary hz ha, hone]
    simp

/-- The alternates of a list stand in the order of a pass as the round that begins at the pointer. -/
theorem RouteList.inTurn_round {r : RouteList} {a : Choice} {as : List Choice} (hc : r.choices = a :: as)
    (hp : r.pointer ≤ max 1 as.length) :
    ∃ alts, r.inTurn = (a, 0) :: alts ∧ (∀ p ∈ alts, p.2 ≠ 0)
      ∧ alts.map (·.2) = (List.range' 1 as.length).rotate (r.pointer - 1) := by
  obtain ⟨alts, hin, -, ha⟩ := r.inTurn_split
  have hone : r.choices.zipIdx.take 1 = [(a, 0)] := by simp [hc]
  refine ⟨alts, by rw [hin, hone]; rfl, ha, ?_⟩
  have halts : alts = (as.zipIdx 1).drop (r.pointer - 1) ++ (as.zipIdx 1).take (r.pointer - 1) := by
    have := hin.symm
    rw [RouteList.inTurn, List.append_assoc] at this
    have h := List.append_cancel_left this
    rw [h, hc]
    rfl
  rw [halts, ← List.rotate_eq_drop_append_take (by rw [List.length_zipIdx]; omega), List.map_rotate, List.zipIdx_map_snd]

/-- The place of the `j`-th alternate of a round. -/
theorem getElem?_round {k j q : Nat} (hj : j < k) (hq : q < k) :
    ((List.range' 1 k).rotate q)[j]? = some (if j + q < k then j + q + 1 else j + q - k + 1) := by
  rw [List.getElem?_rotate (by simpa using hj), List.length_range']
  have hmod : (j + q) % k = if j + q < k then j + q else j + q - k := by
    split
    · rename_i h; exact Nat.mod_eq_of_lt h
    · rename_i h
      rw [Nat.mod_eq_sub_mod (Nat.le_of_not_lt h), Nat.mod_eq_of_lt (by omega)]
  rw [hmod, List.getElem?_range' (by split <;> omega)]
  split <;> simp [Nat.add_comm]

/-- The pointer is past the alternates examined in vain: at the first one beyond them, or where it was when the round is
complete (R58). -/
theorem RouteList.pointerPast_take (r : RouteList) (h1 : 1 ≤ r.pointer)
    (h2 : r.pointer ≤ max 1 (r.choices.length - 1)) (b : Nat) :
    r.pointerPast (r.inTurn.take (b + 1)) = ((r.inTurn.drop (b + 1)).head?.map (·.2)).getD r.pointer := by
  cases hc : r.choices with
  | nil => simp [RouteList.inTurn, hc, RouteList.pointerPast]
  | cons a as =>
    rw [hc, List.length_cons, Nat.add_sub_cancel] at h2
    obtain ⟨alts, hin, ha, hround⟩ := RouteList.inTurn_round hc h2
    have hlen : alts.length = as.length := by simpa using congrArg List.length hround
    have hplace : ∀ j, j < as.length → alts[j]?.map (·.2) =
        some (if j + (r.pointer - 1) < as.length then j + (r.pointer - 1) + 1 else j + (r.pointer - 1) - as.length + 1) := by
      intro j hj
      rw [← List.getElem?_map, hround, getElem?_round hj (by omega)]
    have hfilter : ((alts.take b).filter fun p => decide (p.2 ≠ 0)) = alts.take b :=
      List.filter_eq_self.mpr fun p hp => decide_eq_true (ha p (List.mem_of_mem_take hp))
    have hlast : r.pointerPast ((a, 0) :: alts.take b) =
        (alts.take b).getLast?.elim r.pointer fun p => if p.2 + 1 < as.length + 1 then p.2 + 1 else 1 := by
      rw [RouteList.pointerPast, List.filter_cons_of_neg (by simp), hfilter, hc, List.length_cons]
      cases (alts.take b).getLast? <;> rfl
    rw [hin, List.take_succ_cons, List.drop_succ_cons, hlast, List.head?_drop]
    by_cases hnone : b = 0 ∨ as.length = 0
    · have htake : alts.take b = [] :=
        List.take_eq_nil_iff.mpr (hnone.imp id fun h0 => List.length_eq_zero_iff.mp (hlen.trans h0))
      rw [htake]
      by_cases h0 : as.length = 0
      · rw [List.getElem?_eq_none (by omega)]; rfl
      · have hb : b = 0 := by omega
        rw [hb, hplace 0 (by omega), if_pos (by omega)]
        simp only [List.getLast?_nil, Option.elim_none, Option.getD_some]
        omega
    · have hat : (alts.take b).getLast? = alts[min b as.length - 1]? := by
        rw [List.getLast?_eq_getElem?, List.length_take, hlen, List.getElem?_take_of_lt (by omega)]
      obtain ⟨p, hp, hval⟩ := Option.map_eq_some_iff.mp (hplace (min b as.length - 1) (by omega))
      rw [hat, hp, Option.elim_some]
      by_cases hb : b < as.length
      · rw [hplace b hb, Option.getD_some]
        split_ifs at hval ⊢ <;> omega
      · rw [List.getElem?_eq_none (by omega), Option.map_none, Option.getD_none]
        split_ifs at hval ⊢ <;> omega

/-- A first pass in which every choice that it may examine fails, on a list with distinct groups and its pointer at an
alternate. -/
theorem selectionPass_firstFails (hc : s.context i = some c) (hm : c.noFurther = false) (ht : c.tried = [])
    (he : c.examined = 0) (hnd : ((s.routeList l).choices.map (·.group)).Nodup) (hptr : 1 ≤ (s.routeList l).pointer)
    (hex : (s.routeList l).inTurn.take ((s.routeList l).budget + 1) = examined)
    (hf : ∀ p ∈ examined, FailsBy s now s.settle.slotSum c.priority p.2 p.1 (reason p.2)) :
    ∃ t, s.selectionPass now i l = (t, .failed (examined.map fun p => reason p.2))
      ∧ Examined now i l c examined reason s t := by
  have horder : choicesAt (s.routeList l).choices (passOrder (s.routeList l).choices.length (s.routeList l).pointer) =
      (s.routeList l).inTurn := by
    rw [choicesAt_passOrder, if_neg (by omega), List.nil_append]
  obtain ⟨t, ks, cc, hloop, hdone, hct, -, hspent, -⟩ := passLoop_examines (now := now) (i := i) (l := l) (more := [])
    examined [] s (passOrder (s.routeList l).choices.length (s.routeList l).pointer) [] c (Examined.nil hc) hc rfl
    (by rw [ht, he, horder, eligible_budget, hex, List.append_nil]) hf
    (fun _ => by rw [horder, List.nil_append]; exact (s.routeList l).inTurn_groups hnd)
  have hpass : s.selectionPass now i l =
      passLoop now i l (passOrder (s.routeList l).choices.length (s.routeList l).pointer) [] s := by
    simp [State.selectionPass, hc, hm]
  rw [List.nil_append] at hdone
  refine ⟨t, ?_, hdone⟩
  rw [hpass, hloop, List.nil_append]
  exact passLoop_spent hct (by rw [hdone.budget, hdone.choices]; exact hspent)

/-! ### No usable choice (R60, R70) -/

theorem RouteList.pointerPast_congr {r r' : RouteList} (hc : r'.choices = r.choices) (hp : r'.pointer = r.pointer)
    (failed : List (Choice × Nat)) : r'.pointerPast failed = r.pointerPast failed := by
  rw [RouteList.pointerPast, hc, hp]; rfl

theorem CircuitMap.eq_of_same {a b : CircuitMap} (hc : a.circuits = b.circuits) (hn : a.counters = b.counters) :
    a = { b with groups := a.groups } := by
  rw [← hc, ← hn]

/-- A call that has lost no circuit reports the cause of its reasons alone. -/
theorem passCause_none (reasons : List Reason) : passCause reasons none = causeOf reasons := by
  unfold passCause causeOf
  repeat' split
  all_goals rfl

theorem causeOf_cases (reasons : List Reason) : causeOf reasons = .congestion ∨ causeOf reasons = .pricedOut
    ∨ causeOf reasons = .settlementFull ∨ causeOf reasons = .routeUnavailable := by
  unfold causeOf
  split
  · simp
  · split
    · simp
    · split <;> simp

/-- The refused counter of a cause, after the Setup has been offered. -/
theorem refuse_offered (n : ListCounters) (reasons : List Reason) :
    ({ n with offered := min (n.offered + 1) 4294967295 } : ListCounters).refuse (causeOf reasons) =
      n.offeredAndRefused (causeOf reasons) := by
  rcases causeOf_cases reasons with h | h | h | h <;> rw [h] <;> rfl

/-- A first pass that fails ends in the Refuse with the cause by precedence, counted at the list (R7, R60, R70); of the
Circuit Map only groups have changed. -/
theorem routePass_fails (hc : s.context i = some c) (hm : c.noFurther = false) (ht : c.tried = [])
    (he : c.examined = 0) (hnd : ((s.routeList l).choices.map (·.group)).Nodup) (hptr : 1 ≤ (s.routeList l).pointer)
    (hex : (s.routeList l).inTurn.take ((s.routeList l).budget + 1) = examined)
    (hf : ∀ p ∈ examined, FailsBy s now s.settle.slotSum c.priority p.2 p.1 (reason p.2)) :
    let cause := causeOf (examined.map fun p => reason p.2)
    ∃ t, s.routePass now i l m = (t.countList l fun k => k.refuse cause).refuseRouted now i m cause
      ∧ Examined now i l c examined reason s t ∧ t.circ = { s.circ with groups := t.circ.groups } := by
  obtain ⟨t, hpass, hdone⟩ := selectionPass_firstFails hc hm ht he hnd hptr hex hf
  have hsearch := selectionPass_ends hc now l
  rw [hpass] at hsearch
  refine ⟨t, ?_, hdone, CircuitMap.eq_of_same (StillSearching.circuits hsearch) hdone.counters⟩
  simp only [State.routePass, hpass, passCause_none]

/-- Changes of the lists alone, one after the other. -/
theorem RouteSelector.relisted_trans {a b c : RouteSelector} (h : b = { a with lists := b.lists })
    (h' : c = { b with lists := c.lists }) : c = { a with lists := c.lists } := by
  rw [h] at h'; exact h'

/-- What a Setup that its gate has let in finds before its pass: its context names the list, the list has let it pass and
counted it as offered (R60, R61, R97, R98). -/
structure AtList (f : Frame) (rest : List Frame) (i l : Nat) (s t : State) : Prop where
  context : ContextSet i { (setupOf f).context s.time.now with list := l }
    ((s.took .forward rest).admitted i (setupOf f)) t
  list : t.routeList l = { (s.routeList l).passed (setupOf f).priority s.time.ticks with
    counters := { (s.routeList l).counters with offered := min ((s.routeList l).counters.offered + 1) 4294967295 } }
  lists : ∀ n, n ≠ l → t.routeList n = s.routeList n
  routing : t.routes = { s.routes with lists := t.routes.lists }
  since : OnlyChanges [.ctx, .routes] ((s.took .forward rest).admitted i (setupOf f)) t

theorem setup_atList (h : SetupReaches s f rest i l) (hlet : (s.routeList l).letsIn (setupOf f).priority) :
    ∃ t, exec .setup s = .next (t.routePass s.time.now i l (setupOf f)) ∧ AtList f rest i l s t := by
  have ha := admitted_frame (s.took .forward rest) i (setupOf f)
  have hlists : ∀ n, ((s.took .forward rest).admitted i (setupOf f)).routeList n = s.routeList n :=
    ha.routeList_eq (by decide)
  have hroutes : ((s.took .forward rest).admitted i (setupOf f)).routes = s.routes := ha .routes (by decide)
  have htime : ((s.took .forward rest).admitted i (setupOf f)).time = s.time := ha .time (by decide)
  obtain ⟨hset, hlist, hothers, hrouting, hframe⟩ :=
    enteredList_of (admitted_context (s.took .forward rest) i (setupOf f)) l (setupOf f)
  rw [hlists, htime] at hlist
  simp only [hlists] at hothers
  rw [hroutes] at hrouting
  exact ⟨_, (setup_routed h).trans (congrArg _ (routeOver_admitted (by rw [hlists]; exact hlet))),
    hset, hlist, hothers, hrouting, hframe⟩

theorem AtList.frame (h : AtList f rest i l s t) : OnlyChanges [.fwd, .ctx, .routes, .bwdOut] s t :=
  ((withPort_forward_frame s _).mono (by decide)).trans (((admitted_frame _ i _).mono (by decide)).trans
    (h.since.mono (by decide)))

/-- The pass meets the choices, the pointer and the budget of the list as the Setup found them. -/
theorem AtList.order (h : AtList f rest i l s t) : (t.routeList l).choices = (s.routeList l).choices
    ∧ (t.routeList l).pointer = (s.routeList l).pointer ∧ (t.routeList l).budget = (s.routeList l).budget := by
  obtain ⟨hch, hptr, hbud, -⟩ := (s.routeList l).passed_same (setupOf f).priority s.time.ticks
  rw [h.list]
  exact ⟨hch, hptr, hbud⟩

/-- Settles O15: the Setup takes its context, the gate lets it in, its pass fails on every choice within the budget, and the
refusal undoes the allocation. -/
theorem setupWithoutUsableChoiceIsRefused : Obligations.SetupWithoutUsableChoiceIsRefused := by
  unfold Obligations.SetupWithoutUsableChoiceIsRefused
  intro s f rest i l reason h m list examined beyond cause hlet hnd hptr1 hptr2 hfails
  obtain ⟨v, e, hv⟩ := setup_atList h hlet
  obtain ⟨hch, hptr, hbud⟩ := hv.order
  have hgrp : ∀ g, v.group g = s.group g := hv.frame.group_eq (by decide)
  have hcar : ∀ id, v.carrier id = s.carrier id := hv.frame.carrier_eq (by decide)
  have hsettle : v.settle = s.settle := hv.frame .settle (by decide)
  have hcirc : v.circ = s.circ := hv.frame .circ (by decide)
  obtain ⟨u, he, hex, hmap⟩ := routePass_fails (m := m) hv.context.1 rfl rfl rfl (by rw [hch]; exact hnd)
    (by rw [hptr]; exact hptr1) (examined := examined) (by rw [hbud, RouteList.inTurn_congr hch hptr]) fun p hp => by
      rw [hsettle]; exact (hfails p hp).congr (hgrp _) hcar
  have hpast : (v.routeList l).pointerPast examined = (beyond.head?.map (·.2)).getD list.pointer := by
    rw [RouteList.pointerPast_congr hch hptr]
    exact list.pointerPast_take hptr1 hptr2 list.budget
  have fu : OnlyChanges [.routes] u (u.countList l fun k => k.refuse cause) := countList_frame _ _ _
  obtain ⟨htook, hrefused, hout, hlast, hall⟩ := refuseRouted_after (parts := [.circ, .routes, .rating]) h
    ((hv.context.trans hex.context).congr rfl (fu .ctx (by decide))) (Context.afterTrying_same _ _).1
    ((hv.since.mono (by decide)).trans ((hex.frame.mono (by decide)).trans (fu.mono (by decide)))) (by decide) cause
  have hend := fu.mono (more := [.routes, .ctx, .bwdOut]) (by decide) |>.trans (hlast.mono (by decide))
  have hrating := hend .rating (by decide)
  have hcircuits := hend .circ (by decide)
  refine ⟨_, e.trans (congrArg _ he), htook, hrefused, hout, ?_, fun n hn => ?_, ?_, fun g => ?_, ?_, ?_,
    hall.mono (by decide)⟩
  · rw [hlast.routeList_eq (by decide)]
    refine (State.updList_routeList _ _ _ _).trans ((if_pos rfl).trans ?_)
    rw [hex.list, hpast, hv.list]
    exact congrArg (fun n => { list.passed m.priority s.time.ticks with
      pointer := (beyond.head?.map Prod.snd).getD list.pointer, counters := n }) (refuse_offered _ _)
  · rw [hlast.routeList_eq (by decide)]
    exact ((State.updList_routeList _ _ _ _).trans (if_neg hn.symm)).trans ((hex.lists n hn).trans (hv.lists n hn))
  · rw [hlast.routes_eq (by decide)]
    exact RouteSelector.relisted_trans hv.routing (RouteSelector.relisted_trans hex.routing rfl)
  · rw [hend.group_eq (by decide), hex.groups]
    exact afterFailures_congr (hgrp g)
  · rw [hcirc] at hmap
    exact hcircuits.trans (hmap.trans (by rw [hcircuits]))
  · exact hrating.trans (hex.rating.trans (afterQuotes_congr (hv.frame .rating (by decide)) (fun p _ => hgrp _) hcar))

end Sys2Proof.Machine
end

