-- ==== Sys2Proof/Proofs/MonitorRules.lean ====
section
/-! SUPPORT and CERTIFICATES. The arithmetic of one evaluation: occupancy (R80), the smoothing step (R81) and the band test
(R82). -/
namespace Sys2Proof.Machine

/-! ### Occupancy (R80) -/

theorem occupancy_blocked {size : Nat} {n : Counts} (h : size - n.blocked = 0) : occupancy size n = 1000 := if_pos h

theorem occupancy_open {size : Nat} {n : Counts} (h : size - n.blocked ≠ 0) :
    occupancy size n = 1000 * (n.seized + n.farSeized + n.releasing + n.guard) / (size - n.blocked) := if_neg h

/-- Settles O49: the quotient of R80 is bounded on both sides, and it is 1,000 where the busy circuits are all that are not
Blocked. -/
theorem occupancyIsBusyShare : Obligations.OccupancyIsBusyShare := by
  unfold Obligations.OccupancyIsBusyShare
  intro size n hsum busy o
  have share : size - n.blocked ≠ 0 → (size - n.blocked) * o ≤ 1000 * busy ∧ 1000 * busy < (size - n.blocked) * (o + 1) := by
    intro h
    simp only [o, occupancy_open h]
    exact ⟨Nat.mul_div_le _ _, Nat.lt_mul_div_succ _ (Nat.pos_of_ne_zero h)⟩
  have full : o = 1000 ↔ n.free = 0 := by
    by_cases h : size - n.blocked = 0
    · exact iff_of_true (occupancy_blocked h) (by omega)
    obtain ⟨low, -⟩ := share h
    constructor
    · intro e
      rw [e] at low
      simp only [busy] at low
      omega
    · intro e
      have all : n.seized + n.farSeized + n.releasing + n.guard = size - n.blocked := by omega
      simp only [o, occupancy_open h, all]
      exact Nat.mul_div_cancel _ (Nat.pos_of_ne_zero h)
  exact ⟨occupancy_blocked, share, occupancy_le hsum, full⟩

/-! ### The smoothing step (R81) -/

/-- A quotient by a positive divisor lies between zero and its dividend, and reaches zero from above alone. -/
theorem ediv_between {d m : Int} (hm : 1 ≤ m) : (0 ≤ d → 0 ≤ d / m ∧ d / m ≤ d) ∧ (d < 0 → d ≤ d / m ∧ d / m < 0) := by
  refine ⟨fun h => ⟨Int.ediv_nonneg h (by omega), Int.ediv_le_self m h⟩, fun h => ⟨?_, ?_⟩⟩
  · rw [Int.le_ediv_iff_mul_le (by omega)]
    nlinarith
  · exact Int.ediv_neg_of_neg_of_pos h (by omega)

/-- The step over the whole numbers: the new value is never below zero, so nothing is cut off. -/
theorem smooth_eq (k o v : Nat) : (smooth k o v : Int) = v + (256 * (o : Int) - v) / 2 ^ k := by
  have hm : (1 : Int) ≤ 2 ^ k := one_le_pow₀ (by norm_num)
  obtain ⟨up, down⟩ := ediv_between (d := 256 * (o : Int) - v) hm
  rw [smooth, Int.fdiv_eq_ediv_of_nonneg _ (by omega), Int.toNat_of_nonneg]
  rcases lt_or_ge (256 * (o : Int) - v) 0 with h | h
  · have := (down h).1; omega
  · have := (up h).1; omega

/-- Settles O50: the difference of the step is a floor quotient, whose bounds and sign say the rest. -/
theorem smoothingStepStaysBetween : Obligations.SmoothingStepStaysBetween := by
  unfold Obligations.SmoothingStepStaysBetween
  intro k o v _ ho hv new
  have hm : (1 : Int) ≤ 2 ^ k := one_le_pow₀ (by norm_num)
  have hnew : (new : Int) - v = (256 * (o : Int) - v) / 2 ^ k := by have := smooth_eq k o v; omega
  obtain ⟨up, down⟩ := ediv_between (d := 256 * (o : Int) - v) hm
  rw [← hnew] at up down
  refine ⟨⟨?_, ?_⟩, fun h => ?_, fun h => ?_, fun hk => ?_, smooth_le ho hv⟩
  · rw [hnew]
    exact Int.mul_ediv_self_le (by omega)
  · rw [hnew, Int.mul_add, Int.mul_one]
    exact Int.lt_mul_ediv_self_add (by omega)
  · have := up (by omega); omega
  · have := down (by omega); omega
  · rw [hk, pow_zero, Int.ediv_one] at hnew
    omega

/-! ### The band test (R82) -/

theorem Band.value_le (b : Band) : b.value ≤ 3 := by cases b <;> decide

theorem bandOf_value (b : Band) : bandOf b.value = b := by cases b <;> rfl

theorem value_bandOf {n : Nat} (h : n ≤ 3) : (bandOf n).value = n := by
  match n, h with
  | 0, _ | 1, _ | 2, _ | 3, _ => rfl

theorem ThresholdSet.bound_mono {x : ThresholdSet} (h12 : x.t1 < x.t2) (h23 : x.t2 < x.t3) {i j : Nat} (hi : 1 ≤ i)
    (hij : i ≤ j) (hj : j ≤ 3) : x.bound i ≤ x.bound j := by
  interval_cases j <;> interval_cases i <;> simp only [ThresholdSet.bound] <;> omega

/-- A band number from which R82 moves up. -/
def ThresholdSet.rises (x : ThresholdSet) (s b : Nat) : Prop := b < 3 ∧ x.bound (b + 1) + x.hysteresis ≤ s

/-- A band number from which R82 moves down. -/
def ThresholdSet.falls (x : ThresholdSet) (s b : Nat) : Prop := 0 < b ∧ s < x.bound b

/-- The rising loop with fuel enough ends where no rise is due, at a bound plus H that S reaches if it moves at all. -/
theorem riseBand_spec (x : ThresholdSet) (s : Nat) {fuel b : Nat} (hf : 3 ≤ fuel + b) (hb : b ≤ 3) :
    let c := riseBand x s fuel b
    b ≤ c ∧ c ≤ 3 ∧ ¬ x.rises s c ∧ (b < c → x.bound c + x.hysteresis ≤ s) := by
  induction fuel generalizing b with
  | zero =>
    have top : 3 ≤ b := by omega
    exact ⟨Nat.le_refl _, hb, fun h => Nat.not_lt.mpr top h.1, fun h => absurd h (lt_irrefl _)⟩
  | succ fuel ih =>
    by_cases hr : b < 3 ∧ x.bound (b + 1) + x.hysteresis ≤ s
    · rw [riseBand, if_pos hr]
      obtain ⟨hle, htop, hdone, hreach⟩ := ih (b := b + 1) (by omega) (by omega)
      refine ⟨by omega, htop, hdone, fun _ => ?_⟩
      rcases Nat.eq_or_lt_of_le hle with e | hlt
      · rw [← e]; exact hr.2
      · exact hreach hlt
    · rw [riseBand, if_neg hr]
      exact ⟨Nat.le_refl _, hb, hr, fun h => absurd h (lt_irrefl _)⟩

/-- The falling loop with fuel enough ends where no fall is due, below a bound that S misses if it moves at all. -/
theorem fallBand_spec (x : ThresholdSet) (s : Nat) {fuel b : Nat} (hf : b ≤ fuel) :
    let c := fallBand x s fuel b
    c ≤ b ∧ ¬ x.falls s c ∧ (c < b → s < x.bound (c + 1)) := by
  induction fuel generalizing b with
  | zero => exact ⟨Nat.le_refl _, fun h => Nat.not_lt.mpr hf h.1, fun h => absurd h (lt_irrefl _)⟩
  | succ fuel ih =>
    by_cases hr : 0 < b ∧ s < x.bound b
    · rw [fallBand, if_pos hr]
      obtain ⟨hle, hdone, hmiss⟩ := ih (b := b - 1) (by omega)
      refine ⟨by omega, hdone, fun _ => ?_⟩
      rcases Nat.eq_or_lt_of_le hle with e | hlt
      · rw [e, Nat.sub_add_cancel hr.1]; exact hr.2
      · exact hmiss hlt
    · rw [fallBand, if_neg hr]
      exact ⟨Nat.le_refl _, hr, fun h => absurd h (lt_irrefl _)⟩

/-- Settles O51: a band that has risen has a bound at or below S, so it does not fall, and a band that falls has not risen;
the end of each loop says the rest. -/
theorem bandTestSettles : Obligations.BandTestSettles := by
  unfold Obligations.BandTestSettles
  intro x s b _ h12 h23 new rises falls
  have hb := b.value_le
  obtain ⟨hle, htop, hcalm, hreach⟩ := riseBand_spec x s (fuel := 3) (by omega) hb
  obtain ⟨hge, hstay, hmiss⟩ := fallBand_spec x s (fuel := 3) htop
  have mono : ∀ {i j : Nat}, 1 ≤ i → i ≤ j → j ≤ 3 → x.bound i ≤ x.bound j := ThresholdSet.bound_mono h12 h23
  have hnew : new.value = fallBand x s 3 (riseBand x s 3 b.value) := value_bandOf (hge.trans htop)
  rw [← hnew] at hge hstay hmiss
  generalize riseBand x s 3 b.value = top at hle htop hcalm hreach hge hmiss
  have risen : b.value < top → new.value = top := by
    intro hlt
    by_contra hne
    have := hreach hlt
    have := hmiss (by omega)
    have := mono (i := new.value + 1) (j := top) (by omega) (by omega) htop
    omega
  have unrisen : ¬ rises b → top = b.value := by
    intro hn
    by_contra hne
    have := hreach (by omega)
    have := mono (i := b.value + 1) (j := top) (by omega) (by omega) htop
    exact hn ⟨by omega, by omega⟩
  refine ⟨fun h => ?_, hstay, fun hr hf => ?_, fun h => ?_, fun h => ?_⟩
  · rcases Nat.eq_or_lt_of_le hge with e | hlt
    · exact hcalm (e ▸ h)
    · have := hmiss hlt
      have := h.2
      omega
  · have htb := unrisen hr
    have hkeep : new.value = b.value := by
      by_contra hne
      have := hmiss (by omega)
      have := mono (i := new.value + 1) (j := b.value) (by omega) (by omega) hb
      exact hf ⟨by omega, by omega⟩
    rw [← bandOf_value new, hkeep, bandOf_value]
  · have hlt : b.value < top := by
      rcases Nat.eq_or_lt_of_le hle with e | hlt
      · exact absurd (e ▸ h) hcalm
      · exact hlt
    rw [risen hlt]
    exact ⟨hlt, hreach hlt⟩
  · obtain ⟨hpos, hlow⟩ := h
    have htb : top = b.value := unrisen fun hr => by
      have := hr.2
      have := mono (i := b.value) (j := b.value + 1) hpos (by omega) (by have := hr.1; omega)
      omega
    have hlt : new.value < b.value := by
      rcases Nat.eq_or_lt_of_le (htb ▸ hge) with e | hlt
      · exact absurd (e.symm ▸ ⟨hpos, hlow⟩) hstay
      · exact hlt
    exact ⟨hlt, hmiss (by omega)⟩

end Sys2Proof.Machine
end

