-- ==== Sys2Proof/Proofs/SampleEvent.lean ====
section
/-! SUPPORT and CERTIFICATES. The expiry of the sample timer (R79): what the evaluations of the groups, one after the other,
leave of the groups (R80 to R84, R89) and of the lists that they drive (R99 to R101). -/
namespace Sys2Proof.Machine

variable {s t u : State} {g : Nat} {gs gs' : List Nat}

/-! ### One group and one list -/

/-- What a sample makes of a group: one that is Out of Service holds its values (R84). -/
def State.evaluated (s : State) (x : Group) : Group :=
  if x.sampled then x.evaluate (s.thresholds x.cfg.thrSet) else x

/-- The group that drives a list: the one of choice 0, where the list is loaded and its gap enable is set (R99). -/
def RouteList.driver (r : RouteList) : Option Nat := if r.loaded && r.gapEnable then r.choices.head?.map (·.group) else none

/-- What a sample makes of a list: the adaptation to the band of its driver, where that group is evaluated (R99, R100). -/
def State.adapted (s : State) (r : RouteList) : RouteList :=
  match r.driver.bind s.group with
  | some x => if x.sampled then r.adapt (s.evaluated x).mon.band else r
  | none => r

theorem Group.sampled_iff (x : Group) : x.sampled = true ↔ x.admin ≠ .outOfService := decide_eq_true_iff

theorem RouteList.drivenBy_iff (r : RouteList) (g : Nat) : r.drivenBy g = true ↔ r.driver = some g := by
  unfold RouteList.drivenBy RouteList.driver
  by_cases hr : (r.loaded && r.gapEnable) = true <;> simp [hr]

/-- The adaptation changes gap fields alone, so the list keeps its driver (R100). -/
theorem RouteList.adapt_driver (r : RouteList) (b : Band) : (r.adapt b).driver = r.driver := by
  have recover : r.recover.driver = r.driver := by
    unfold RouteList.recover
    split <;> rfl
  unfold RouteList.adapt
  split <;> first | rfl | exact recover

theorem RouteList.driver_eq_some {r : RouteList} {g : Nat} :
    r.driver = some g ↔ r.loaded = true ∧ r.gapEnable = true ∧ ∃ ch, r.choices.head? = some ch ∧ ch.group = g := by
  unfold RouteList.driver
  by_cases hr : (r.loaded && r.gapEnable) = true
  · rw [if_pos hr, Option.map_eq_some_iff]
    rw [Bool.and_eq_true] at hr
    simp only [hr, true_and]
  · rw [if_neg hr]
    rw [Bool.and_eq_true] at hr
    exact iff_of_false (by simp) fun ⟨hl, he, _⟩ => hr ⟨hl, he⟩

theorem adapted_of {r : RouteList} {x : Group} (hd : r.driver = some g) (hx : s.group g = some x)
    (hs : x.sampled = true) : s.adapted r = r.adapt (s.evaluated x).mon.band := by
  simp only [State.adapted, hd, Option.bind_some, hx, hs, if_true]

/-- A list with no driver, or with one that is not evaluated, is as it was (R84, R99). -/
theorem adapted_held {r : RouteList} (h : ∀ g x, r.driver = some g → s.group g = some x → x.sampled = false) :
    s.adapted r = r := by
  unfold State.adapted
  split
  · rename_i x hx
    obtain ⟨g, hg, hx⟩ := Option.bind_eq_some_iff.mp hx
    simp [h g x hg hx]
  · rfl

theorem adapted_driver (s : State) (r : RouteList) : (s.adapted r).driver = r.driver := by
  unfold State.adapted
  split
  · split
    · exact r.adapt_driver _
    · rfl
  · rfl

theorem evaluated_congr (hm : t.mon = s.mon) : t.evaluated = s.evaluated := by
  unfold State.evaluated State.thresholds
  rw [hm]

/-- A sample reads of a list's driver its group alone. -/
theorem adapted_congr {r : RouteList} (hm : t.mon = s.mon) (hg : ∀ g, r.driver = some g → t.group g = s.group g) :
    t.adapted r = s.adapted r := by
  have hx : r.driver.bind t.group = r.driver.bind s.group := by
    cases hd : r.driver with
    | none => rfl
    | some g => exact hg g hd
  rw [State.adapted, hx, evaluated_congr hm]
  rfl

/-! ### The groups in turn -/

/-- From `s` to `t` the groups of the list `gs` have been evaluated, each once, and their bands handed to the lists. -/
structure Sampled (gs : List Nat) (s t : State) : Prop where
  groups : ∀ g, t.group g = if g ∈ gs then (s.group g).map s.evaluated else s.group g
  map : t.circ = { s.circ with groups := t.circ.groups }
  lists : ∀ l, t.routeList l = if ∃ g ∈ gs, (s.routeList l).driver = some g then s.adapted (s.routeList l)
    else s.routeList l
  routing : t.routes = { s.routes with lists := t.routes.lists }
  frame : OnlyChanges [.circ, .routes] s t

theorem Sampled.nil (s : State) : Sampled [] s s where
  groups _ := by simp
  map := rfl
  lists _ := by simp
  routing := rfl
  frame := .refl _ _

/-- Two runs over groups apart from each other are one run. -/
theorem Sampled.append (ht : Sampled gs s t) (hu : Sampled gs' t u) (hd : gs.Disjoint gs') :
    Sampled (gs ++ gs') s u where
  groups g := by
    have hmon : t.mon = s.mon := ht.frame .mon (by decide)
    rw [hu.groups, ht.groups, evaluated_congr hmon]
    by_cases hg : g ∈ gs
    · have hlater : g ∉ gs' := fun hm => hd hg hm
      simp [hg, hlater]
    · simp [hg]
  map := by
    have h := hu.map
    rw [ht.map] at h
    exact h
  lists l := by
    have hmon : t.mon = s.mon := ht.frame .mon (by decide)
    have hdrv : (t.routeList l).driver = (s.routeList l).driver := by
      rw [ht.lists]
      split
      · exact adapted_driver _ _
      · rfl
    rw [hu.lists, hdrv]
    by_cases hlater : ∃ g ∈ gs', (s.routeList l).driver = some g
    · obtain ⟨g, hg, hgd⟩ := hlater
      have hearlier : ¬ ∃ g' ∈ gs, (s.routeList l).driver = some g' := by
        rintro ⟨g', hg', hgd'⟩
        exact hd hg' (Option.some.inj (hgd.symm.trans hgd') ▸ hg)
      rw [if_pos ⟨g, hg, hgd⟩, if_pos ⟨g, List.mem_append_right _ hg, hgd⟩, ht.lists, if_neg hearlier]
      refine adapted_congr hmon fun g' hg' => ?_
      rw [ht.groups, if_neg fun hm => hearlier ⟨g', hm, hg'⟩]
    · rw [if_neg hlater, ht.lists]
      refine if_congr ⟨?_, ?_⟩ rfl rfl
      · rintro ⟨g, hg, hgd⟩
        exact ⟨g, List.mem_append_left _ hg, hgd⟩
      · rintro ⟨g, hg, hgd⟩
        exact ⟨g, (List.mem_append.mp hg).resolve_right fun hm => hlater ⟨g, hm, hgd⟩, hgd⟩
  routing := RouteSelector.relisted_trans ht.routing hu.routing
  frame := ht.frame.trans hu.frame

theorem handBand_routeList (s : State) (g : Nat) (b : Band) (l : Nat) : (s.handBand g b).routeList l =
    if (s.routeList l).driver = some g then (s.routeList l).adapt b else s.routeList l := by
  have hfind : Table.find l (s.handBand g b).routes.lists =
      (Table.find l s.routes.lists).map fun r => if r.drivenBy g then r.adapt b else r := by
    simp only [State.handBand, State.withRoutes_routes, Table.find_mapAll]
  unfold State.routeList
  rw [hfind]
  cases Table.find l s.routes.lists with
  | none => rfl
  | some r => exact if_congr (r.drivenBy_iff g) rfl rfl

/-- A group that is not there or Out of Service holds its values and hands no band (R84). -/
theorem Sampled.held (hx : ∀ x, s.group g = some x → x.sampled = false) : Sampled [g] s s where
  groups h := by
    split
    · rename_i hm
      obtain rfl := List.mem_singleton.mp hm
      cases e : s.group h with
      | none => rfl
      | some x => simp [State.evaluated, hx x e]
    · rfl
  map := rfl
  lists l := by
    split
    · rename_i hm
      obtain ⟨g', hm, hd⟩ := hm
      obtain rfl := List.mem_singleton.mp hm
      refine (adapted_held fun g y hg hy => hx y ?_).symm
      rwa [Option.some.inj (hd.symm.trans hg)]
    · rfl
  routing := rfl
  frame := .refl _ _

/-- A group that is evaluated takes its new values and hands its band to its lists (R79). -/
theorem Sampled.evaluates {x : Group} (hx : s.group g = some x) (hs : x.sampled = true) :
    Sampled [g] s ((s.updGroup g fun _ => x.evaluate (s.thresholds x.cfg.thrSet)).handBand g
      (x.evaluate (s.thresholds x.cfg.thrSet)).mon.band) where
  groups h := by
    refine (State.updGroup_group _ _ _ _).trans ?_
    by_cases hh : g = h
    · subst hh; simp [hx, State.evaluated, hs]
    · simp [hh, Ne.symm hh]
  map := rfl
  lists l := by
    rw [handBand_routeList]
    by_cases hd : (s.routeList l).driver = some g
    · simp [hd, adapted_of hd hx hs, State.evaluated, hs]
    · simp [hd]
  routing := rfl
  frame := ((updGroup_frame s g _).mono (by decide)).trans ((withRoutes_frame _ _).mono (by decide))

theorem evaluateGroup_sampled (s : State) (g : Nat) : Sampled [g] s (s.evaluateGroup g) := by
  cases hx : s.group g with
  | none =>
    simp only [State.evaluateGroup, hx]
    exact .held fun x h => by simp [hx] at h
  | some x =>
    cases hs : x.sampled with
    | true =>
      simp only [State.evaluateGroup, hx, hs]
      exact .evaluates hx hs
    | false =>
      simp only [State.evaluateGroup, hx, hs]
      exact .held fun y h => by rw [hx] at h; exact Option.some.inj h ▸ hs

theorem evaluateGroups_sampled (hn : gs.Nodup) (s : State) : Sampled gs s (gs.foldl State.evaluateGroup s) := by
  induction gs generalizing s with
  | nil => exact .nil s
  | cons g gs ih =>
    obtain ⟨hg, hn⟩ := List.nodup_cons.mp hn
    exact (evaluateGroup_sampled s g).append (ih hn _) (List.disjoint_cons_left.mpr ⟨hg, List.disjoint_nil_left _⟩)

/-! ### The expiry (R79) -/

theorem withMon_frame (s : State) (x : OccupancyMonitor) : OnlyChanges [.mon] s (s.withMon x) := by
  intro p hp; cases p <;> simp at hp <;> rfl

theorem restartSample_mon (s : State) :
    s.restartSample.mon = { s.mon with sampleTimer := some (s.time.ticks + 10 * s.mgmt.params.samplePeriod) } := by
  rw [Nat.mul_comm]; rfl

/-- The sample of all the groups of the Circuit Map. -/
theorem sampleAll (hw : Table.wf s.circ.groups = true) :
    let t := (Table.keys s.circ.groups).foldl State.evaluateGroup s
    (∀ g, t.group g = (s.group g).map s.evaluated) ∧ (∀ l, t.routeList l = s.adapted (s.routeList l))
      ∧ Sampled (Table.keys s.circ.groups) s t := by
  have done := evaluateGroups_sampled (Table.nodup_keys hw) s
  have absent : ∀ {g}, g ∉ Table.keys s.circ.groups → s.group g = none := Table.find_eq_none.mpr
  refine ⟨fun g => ?_, fun l => ?_, done⟩
  · rw [done.groups]
    split
    · rfl
    · rename_i hg; rw [absent hg]; rfl
  · rw [done.lists]
    split
    · rfl
    · rename_i hl
      refine (adapted_held fun g x hd hx => ?_).symm
      rw [absent fun hg => hl ⟨g, hg, hd⟩] at hx
      cases hx

/-- The expiry leaves the groups and the lists of the sample, its notices in some order, and the timer afresh. -/
theorem expireSample_of {d : Nat} (hd : s.mon.sampleTimer = some d) (hdue : d ≤ s.time.ticks)
    (hw : Table.wf s.circ.groups = true) :
    let t := s.expireSample
    (∀ g, t.group g = (s.group g).map s.evaluated) ∧ t.circ = { s.circ with groups := t.circ.groups }
      ∧ (∀ l, t.routeList l = s.adapted (s.routeList l)) ∧ t.routes = { s.routes with lists := t.routes.lists }
      ∧ t.mon = { s.mon with sampleTimer := some (s.time.ticks + 10 * s.mgmt.params.samplePeriod) }
      ∧ (∃ ns : List Notice, t.bwdOut = s.bwdOut ++ ns.map (OutMsg.notice s.time.tickTime) ∧ ns.Perm s.bandNotices)
      ∧ OnlyChanges [.circ, .routes, .mon, .bwdOut, .draws] s t := by
  obtain ⟨hgroups, hlists, done⟩ := sampleAll hw
  have due : timerDue s.time.ticks s.mon.sampleTimer = true := by rw [hd]; exact decide_eq_true hdue
  rw [State.expireSample, if_pos due]
  generalize (Table.keys s.circ.groups).foldl State.evaluateGroup s = u at hgroups hlists done
  have last := notifyAll_frame u.restartSample s.time.tickTime s.bandNotices
  obtain ⟨ns, hout, hperm⟩ := notifyAll_bwdOut u.restartSample s.time.tickTime s.bandNotices
  have hcirc := last .circ (by decide)
  have hroutes := last .routes (by decide)
  refine ⟨fun g => ?_, ?_, fun l => ?_, ?_, ?_, ⟨ns, ?_, hperm⟩, ?_⟩
  · rw [last.group_eq (by decide)]; exact hgroups g
  · rw [hcirc]; exact done.map
  · rw [last.routeList_eq (by decide)]; exact hlists l
  · rw [hroutes]; exact done.routing
  · have hmon : u.mon = s.mon := done.frame .mon (by decide)
    have htime : u.time = s.time := done.frame .time (by decide)
    have hmgmt : u.mgmt = s.mgmt := done.frame .mgmt (by decide)
    exact (last .mon (by decide)).trans (by rw [restartSample_mon, hmon, htime, hmgmt])
  · rw [hout]; exact congrArg (· ++ _) (done.frame .bwdOut (by decide))
  · exact (done.frame.mono (by decide)).trans (((withMon_frame u _).mono (by decide)).trans (last.mono (by decide)))

theorem bandNotices_eq (s : State) : s.bandNotices = s.circ.groups.flatMap fun e =>
    let y := e.2.evaluate (s.thresholds e.2.cfg.thrSet)
    if e.2.admin ≠ .outOfService ∧ y.mon.band ≠ e.2.mon.band ∧ e.2.cfg.bandReport = true then
      [.bandChange e.1 e.2.mon.band y.mon.band y.mon.s]
    else [] := by
  refine List.flatMap_congr fun e _ => ?_
  by_cases hr : e.2.sampled = true
  · have hadmin := e.2.sampled_iff.mp hr
    rw [if_pos hr, Group.bandNotice]
    exact if_congr ⟨fun ⟨hb, hc⟩ => ⟨hadmin, hb.symm, hc⟩, fun ⟨_, hb, hc⟩ => ⟨hb.symm, hc⟩⟩ rfl rfl
  · rw [if_neg hr]
    exact (if_neg fun h => hr (e.2.sampled_iff.mpr h.1)).symm

/-- Settles O32: the groups are evaluated one after the other, each list adapts to its one driver, and the notices and the
timer follow. -/
theorem sampleEvaluatesGroups : Obligations.SampleEvaluatesGroups := by
  unfold Obligations.SampleEvaluatesGroups
  intro s d hd hdue hw s256 band runs
  obtain ⟨hgroups, hcirc, hlists, hroutes, hmon, ⟨ns, hout, hperm⟩, hall⟩ := expireSample_of hd hdue hw
  have hband : ∀ {x : Group}, runs x → (s.evaluated x).mon.band = band x := fun {x} hx => by
    rw [State.evaluated, if_pos (x.sampled_iff.mpr hx)]; rfl
  refine ⟨_, rfl, fun g => ?_, hcirc, ?_, hroutes, hmon, ⟨ns, hout, hperm.trans (.of_eq (bandNotices_eq s))⟩,
    hall⟩
  · rw [hgroups]
    refine Option.map_congr fun x _ => ?_
    exact if_congr x.sampled_iff rfl rfl
  · rintro l r rfl
    refine ⟨fun ch x hload hgap hch hx hr => ?_, fun hheld => ?_⟩
    · rw [hlists, adapted_of (RouteList.driver_eq_some.mpr ⟨hload, hgap, ch, hch, rfl⟩) hx (x.sampled_iff.mpr hr), hband hr]
    · rw [hlists]
      refine adapted_held fun g x hg hx => ?_
      obtain ⟨hload, hgap, ch, hch, rfl⟩ := RouteList.driver_eq_some.mp hg
      rcases hheld with h | h | h | ⟨ch', hch', hout⟩
      · simp [hload] at h
      · simp [hgap] at h
      · simp [h] at hch
      · rw [hch] at hch'
        cases hch'
        exact Bool.eq_false_iff.mpr fun he => hout x hx (x.sampled_iff.mp he)

end Sys2Proof.Machine
end

