-- ==== Sys2Proof/Proofs/MonitorRequests.lean ====
section
/-! SUPPORT and CERTIFICATES. The requests on the Occupancy Monitor: the threshold sets (R78) and the counter latch (R91 to
R93), with the bytes of what Read Latched returns (R182). -/
namespace Sys2Proof.Machine

variable {s : State} {f : Frame} {rest : List Frame}

/-- A request that every device state takes and that leaves the Occupancy Monitor as `x`. -/
theorem request_monitored {cmd : Instr} {code : Nat} {act : List Byte → State → Answer} {x : OccupancyMonitor}
    {results : List Byte} (h : s.requested code f rest) (hc : 3 < code)
    (hx : exec cmd s = .next (takeRequest code act s))
    (ha : act (paramsOf f) (s.took .forward rest) = Answer.ok ((s.took .forward rest).withMon x) results) :
    ∃ t, exec cmd s = .next t ∧ t.mon = x ∧ Replied f rest .done results s t ∧ OnlyChanges [.fwd, .mon, .bwdOut] s t := by
  have e := request_runs h hc hx
  rw [ha] at e
  obtain ⟨htook, hall⟩ := took_forward (((withMon_frame (s.took .forward rest) x).mono (by decide)).trans
    ((emitBwd_frame _ (.reply (kindByteOf f) (requestCode f) .done results)).mono (more := [.mon, .bwdOut]) (by decide)))
    (by decide)
  exact ⟨_, e, rfl, ⟨htook, rfl⟩, hall⟩

/-! ### Threshold sets (R78) -/

/-- The ranges of R78. -/
theorem ThresholdSet.valid_iff (x : ThresholdSet) : x.valid = true ↔
    (1 ≤ x.t1 ∧ x.t1 < x.t2 ∧ x.t2 < x.t3 ∧ x.t3 ≤ 999) ∧ x.hysteresis ≤ 200 ∧ x.shift ≤ 6 := by
  simp only [ThresholdSet.valid, decide_eq_true_eq, and_assoc]

/-- What stands in the Occupancy Monitor alone decides what a threshold set reads. -/
theorem thresholds_congr {t : State} (h : t.mon = s.mon) (n : Nat) : t.thresholds n = s.thresholds n := by
  rw [State.thresholds, h]; rfl

/-- Settles O41: the ranges decide between the one set replaced and the refusal. -/
theorem thresholdSetsLoaded : Obligations.ThresholdSetsLoaded := by
  unfold Obligations.ThresholdSetsLoaded
  intro s f rest h p n x good
  have checks : n ≤ 15 ∧ x.valid = true ↔ good := and_congr_right' x.valid_iff
  refine ⟨fun hgood => ?_, fun hbad => ?_⟩
  · obtain ⟨t, ht, hmon, hreply, hall⟩ := request_monitored (cmd := .loadThresholdSet) h (by decide) rfl
      (if_pos (checks.mpr hgood))
    have hset : ∀ j, t.thresholds j = if n = j then x else s.thresholds j := fun j =>
      (thresholds_congr (s := (s.took .forward rest).setThresholds n x) hmon j).trans (State.setThresholds_thresholds _ _ _ _)
    refine ⟨t, ht, hreply, (hset n).trans (if_pos rfl), fun j hj => (hset j).trans (if_neg hj.symm), ?_, hall⟩
    rw [hmon]; rfl
  · exact request_unchanged (cmd := .loadThresholdSet) h (by decide) rfl (if_neg fun hv => hbad (checks.mp hv))

/-! ### Numbers in their bytes (R182) -/

theorem enc_length (w n : Nat) : (enc w n).length = w := by
  induction w with
  | zero => rfl
  | succ w ih => rw [enc, List.length_cons, ih]

theorem be_cons (b : Byte) (bs : List Byte) : be (b :: bs) = b.toNat * 256 ^ bs.length + be bs := by
  have shift : ∀ (bs : List Byte) (a : Nat),
      bs.foldl (fun a b => a * 256 + b.toNat) a = a * 256 ^ bs.length + be bs := by
    intro bs
    induction bs with
    | nil => intro a; simp [be]
    | cons c bs ih =>
      intro a
      rw [be, List.foldl_cons, List.foldl_cons, ih, ih, List.length_cons, pow_succ']
      ring
  rw [be, List.foldl_cons, shift, Nat.zero_mul, Nat.zero_add]

/-- A number in `w` bytes reads back but for what the bytes cannot hold. -/
theorem be_enc (w n : Nat) : be (enc w n) = n % 256 ^ w := by
  induction w with
  | zero => simp [enc, be, Nat.mod_one]
  | succ w ih =>
    have split : n % 256 ^ (w + 1) = n % 256 ^ w + 256 ^ w * (n / 256 ^ w % 256) := by rw [pow_succ, Nat.mod_mul]
    rw [enc, be_cons, ih, enc_length, BitVec.toNat_ofNat, split, Nat.add_comm, Nat.mul_comm]

/-- The bytes of a layout. -/
def Items.bytes (items : Items) : List Byte := items.flatMap fun p => enc p.1 p.2

/-- The bytes of a layout carry its numbers where each fits its width (R182). -/
theorem carries_bytes {items : Items} (h : items.Fit) : Carries items items.bytes := by
  induction items with
  | nil => rfl
  | cons p items ih =>
    obtain ⟨w, v⟩ := p
    obtain ⟨hv, hrest⟩ := List.forall_mem_cons.mp h
    have hbytes : Items.bytes ((w, v) :: items) = enc w v ++ Items.bytes items := rfl
    have hlen := enc_length w v
    rw [hbytes]
    refine ⟨by simp [hlen], ?_, ?_⟩
    · rw [field, List.drop_zero, List.take_left' hlen, be_enc, Nat.mod_eq_of_lt hv]
    · rw [List.drop_left' hlen]
      exact ih hrest

theorem Items.bytes_append (a b : Items) : Items.bytes (a ++ b) = a.bytes ++ b.bytes := List.flatMap_append

theorem items32_bytes (ns : List Nat) : (items32 ns).bytes = enc32s ns := List.flatMap_map _ _ ns

/-- A set flag is the byte 1 (log entry 29). -/
theorem encFlag_eq (b : Bool) : encFlag b = enc 1 b.toNat := by cases b <;> rfl

theorem Traffic.bytes_eq (n : Traffic) : n.bytes = Items.bytes n.items := by
  rw [Traffic.items, Items.bytes_append, items32_bytes]
  simp [Traffic.bytes, Items.bytes]

theorem ListCounters.bytes_eq (n : ListCounters) : n.bytes = Items.bytes n.items := (items32_bytes _).symm

theorem CarrierCounters.bytes_eq (n : CarrierCounters) : n.bytes = Items.bytes n.items := by
  rw [CarrierCounters.items, Items.bytes_append, items32_bytes]
  simp [CarrierCounters.bytes, Items.bytes]

/-- A latched copy is sent as kind, id, time and flag, then its counters (R182). -/
theorem Latch.bytes_of {x : Latch} {items : Items} (h : x.counters.bytes = Items.bytes items) : x.bytes =
    Items.bytes ([(1, x.kind.value), (2, x.id)] ++ x.time.items ++ [(1, x.valid.toNat)] ++ items) := by
  rw [Items.bytes_append, ← h, Latch.bytes, encFlag_eq]
  simp [Items.bytes, encTime, ExTime.items]

theorem Latch.bytes_eq (x : Latch) : x.bytes = Items.bytes x.items := by
  obtain ⟨kind, id, time, valid, counters⟩ := x
  cases counters with
  | group n => exact Latch.bytes_of n.bytes_eq
  | list n => exact Latch.bytes_of n.bytes_eq
  | carrier n => exact Latch.bytes_of n.bytes_eq

/-! ### The counter latch (R91 to R93) -/

section

variable {kindByte id : Nat} {k : ObjectKind} {n : LatchedCounters}

theorem latchCounters_unknown (hk : objectOf kindByte = none) : latchCounters kindByte id s = ⟨s, .badParameter, []⟩ := by
  simp only [latchCounters, hk]; rfl

theorem latchCounters_unfit (hk : objectOf kindByte = some k) (hid : k.idFits id = false) :
    latchCounters kindByte id s = ⟨s, .badParameter, []⟩ := by
  simp only [latchCounters, hk, hid]; rfl

theorem latchCounters_absent (hk : objectOf kindByte = some k) (hid : k.idFits id = true)
    (hn : s.countersOf k id = none) : latchCounters kindByte id s = ⟨s, .notFound, []⟩ := by
  simp only [latchCounters, hk, hid, hn]; rfl

theorem latchCounters_copies (hk : objectOf kindByte = some k) (hid : k.idFits id = true)
    (hn : s.countersOf k id = some n) :
    latchCounters kindByte id s = Answer.ok (s.latch ⟨k, id, s.time.now, s.time.valid, n⟩) (encTime s.time.now) := by
  simp only [latchCounters, hk, hid, hn]; rfl

theorem readLatched_none (hx : s.mon.latch = none) : readLatched s = ⟨s, .notFound, []⟩ := by
  simp only [readLatched, hx]; rfl

theorem readLatched_some {x : Latch} (hx : s.mon.latch = some x) : readLatched s = ⟨s, .done, x.bytes⟩ := by
  simp only [readLatched, hx]; rfl

theorem objectOf_of_lt (h : 2 < kindByte) : objectOf kindByte = none := by
  match kindByte, h with
  | n + 3, _ => rfl

end

/-- LATCH_COUNTERS with an id out of the range of its kind, with none there, and with the object there (R92). -/
theorem latch_request (h : s.requested 0x48 f rest) {k : ObjectKind} (hk : objectOf (field 0 1 (paramsOf f)) = some k) :
    let id := field 1 2 (paramsOf f)
    let refused := fun (rc : ReplyCode) =>
      ∃ t, exec .latchCounters s = .next t ∧ Replied f rest rc [] s t ∧ OnlyChanges [.fwd, .bwdOut] s t
    (k.idFits id = false → refused .badParameter)
    ∧ (k.idFits id = true → s.countersOf k id = none → refused .notFound)
    ∧ ∀ n, k.idFits id = true → s.countersOf k id = some n → ∃ t, exec .latchCounters s = .next t
        ∧ t.mon = { s.mon with latch := some ⟨k, id, s.time.now, s.time.valid, n⟩ }
        ∧ Replied f rest .done (encTime s.time.now) s t ∧ OnlyChanges [.fwd, .mon, .bwdOut] s t := by
  have same : ∀ id, (s.took .forward rest).countersOf k id = s.countersOf k id := fun _ => by cases k <;> rfl
  refine ⟨fun hid => ?_, fun hid hn => ?_, fun n hid hn => ?_⟩
  · exact request_unchanged h (by decide) rfl (latchCounters_unfit hk hid)
  · exact request_unchanged h (by decide) rfl (latchCounters_absent hk hid ((same _).trans hn))
  · exact request_monitored h (by decide) rfl (latchCounters_copies hk hid ((same _).trans hn))

/-- Settles O46: the checks of R92 by the object kind, the copy on the device without the request, and the bytes of the copy
as those of its items. -/
theorem latchCopiesCounters : Obligations.LatchCopiesCounters := by
  unfold Obligations.LatchCopiesCounters
  refine ⟨?_, fun x hfit => x.bytes_eq ▸ carries_bytes hfit⟩
  intro s f rest kind id refused copies
  have group : kind = 0 → objectOf kind = some .trunkGroup := congrArg objectOf
  have list : kind = 1 → objectOf kind = some .routeList := congrArg objectOf
  have carrier : kind = 2 → objectOf kind = some .carrier := congrArg objectOf
  refine ⟨fun h => ⟨?_, fun hk h1 h255 => ?_, fun hk h511 => ?_, fun hk h1 h63 => ?_⟩, fun h => ⟨fun hx => ?_, fun x hx => ?_⟩⟩
  · rintro (hk | ⟨hk, hid⟩ | ⟨hk, hid⟩ | ⟨hk, hid⟩)
    · exact request_unchanged h (by decide) rfl (latchCounters_unknown (objectOf_of_lt hk))
    · exact (latch_request h (group hk)).1 (decide_eq_false (show ¬ (1 ≤ id ∧ id ≤ 255) by omega))
    · exact (latch_request h (list hk)).1 (decide_eq_false (show ¬ id < 512 by omega))
    · exact (latch_request h (carrier hk)).1 (decide_eq_false (show ¬ (1 ≤ id ∧ id ≤ 63) by omega))
  · obtain ⟨-, absent, present⟩ := latch_request h (group hk)
    have hid : ObjectKind.trunkGroup.idFits id = true := decide_eq_true ⟨h1, h255⟩
    exact ⟨fun hx => absent hid (Option.map_eq_none_iff.mpr hx),
      fun x hx => present _ hid (Option.map_eq_some_iff.mpr ⟨x, hx, rfl⟩)⟩
  · obtain ⟨-, -, present⟩ := latch_request h (list hk)
    exact present _ (decide_eq_true (Nat.lt_succ_of_le h511)) rfl
  · obtain ⟨-, absent, present⟩ := latch_request h (carrier hk)
    have hid : ObjectKind.carrier.idFits id = true := decide_eq_true ⟨h1, h63⟩
    exact ⟨fun hx => absent hid (Option.map_eq_none_iff.mpr hx),
      fun x hx => present _ hid (Option.map_eq_some_iff.mpr ⟨x, hx, rfl⟩)⟩
  · exact request_unchanged h (by decide) rfl (readLatched_none (s := s.took .forward rest) hx)
  · exact request_unchanged h (by decide) rfl (readLatched_some (s := s.took .forward rest) hx)

end Sys2Proof.Machine
end

