-- ==== Sys2Proof/Proofs/AdmissionControl.lean ====
section
/-! SUPPORT and CERTIFICATES. Admission Control: the gap of a list under a band (R100), and the global parameters with the
comparison of new watermarks (R107, R178). -/
namespace Sys2Proof.Machine

/-! ### The gap of a list (R100) -/

section

variable {r : RouteList} {b : Band}

theorem RouteList.adapt_off_low (hr : r.gapState = .off) (hb : b.value ≤ 1) : r.adapt b = r := by
  unfold RouteList.adapt
  cases b with
  | clear | busy => rw [hr]
  | congested | critical => exact absurd hb (by decide)

theorem RouteList.adapt_off_high (hr : r.gapState = .off) (hb : 2 ≤ b.value) :
    r.adapt b = { r with gapState := .active, gap := r.gapFloor, gate := .opened, gapTimer := none } := by
  unfold RouteList.adapt
  cases b with
  | clear | busy => exact absurd hb (by decide)
  | congested | critical => rw [hr]

theorem RouteList.adapt_active_low (hr : r.gapState = .active) (hb : b.value ≤ 1) : r.adapt b = r.recover := by
  unfold RouteList.adapt
  cases b with
  | clear | busy => rw [hr]
  | congested | critical => exact absurd hb (by decide)

theorem RouteList.adapt_active_congested (hr : r.gapState = .active) : r.adapt .congested = r := by
  unfold RouteList.adapt
  rw [hr]

theorem RouteList.adapt_active_critical (hr : r.gapState = .active) :
    r.adapt .critical = { r with gap := min (r.gap + r.gapStep) r.gapMax } := by
  unfold RouteList.adapt
  rw [hr]

theorem RouteList.recover_at_floor (h : r.gap = r.gapFloor) :
    r.recover = { r with gapState := .off, gate := .opened, gapTimer := none } := if_pos h

theorem RouteList.recover_above_floor (h : r.gapFloor < r.gap) :
    r.recover = { r with gap := max (r.gap - r.gapStep) r.gapFloor } := if_neg h.ne'

end

/-- Settles O52: by the gap state and the band; in Active a low band recovers, from the floor or above it. -/
theorem gapFollowsBand : Obligations.GapFollowsBand := by
  unfold Obligations.GapFollowsBand
  intro r b _ active opened
  have same (hr : r.gapState = .active) : active = r := by simp only [active, ← hr]
  refine ⟨RouteList.adapt_off_low, RouteList.adapt_off_high, fun hr hb => ?_, fun hr hb => ?_, fun hr hb hgap => ?_,
    fun hr hb hgap => ?_⟩
  · rw [hb, same hr, RouteList.adapt_active_critical hr]
  · rw [hb, RouteList.adapt_active_congested hr]
  · rw [RouteList.adapt_active_low hr hb, RouteList.recover_at_floor hgap]
  · rw [same hr, RouteList.adapt_active_low hr hb, RouteList.recover_above_floor hgap]

/-! ### Watermarks (R105, R107) -/

/-- The count is at or above the high watermark with the offer Open, at or below the low one with it Held, or neither. -/
theorem compareBoth_eq (s : State) (now : ExTime) : s.compareBoth now =
    if s.ctx.offer = .opened ∧ s.mgmt.params.highWater ≤ s.ctx.inUse then
      (s.withCtx { s.ctx with offer := .held }).notify now (.holdOffer s.ctx.inUse s.mgmt.params.highWater)
    else if s.ctx.offer = .held ∧ s.ctx.inUse ≤ s.mgmt.params.lowWater then
      (s.withCtx { s.ctx with offer := .opened }).notify now (.resumeOffer s.ctx.inUse s.mgmt.params.lowWater)
    else s := by
  unfold State.compareBoth
  cases ho : s.ctx.offer with
  | opened => simp [State.compareHigh, ho]
  | held => simp [State.compareLow, ho]

/-! ### Set Global Parameters (R178) -/

section

variable {s : State} {f : Frame} {rest : List Frame} {g : GlobalParams}

/-- The ranges of R178. -/
theorem GlobalParams.valid_iff (g : GlobalParams) : g.valid = true ↔
    1 ≤ g.samplePeriod ∧ (1 ≤ g.highWater ∧ g.highWater ≤ 8192) ∧ g.lowWater < g.highWater
      ∧ (1 ≤ g.batchSize ∧ g.batchSize ≤ 64) := by
  simp only [GlobalParams.valid, decide_eq_true_eq, and_assoc]

theorem withMgmt_frame (s : State) (x : ManagementAgent) : OnlyChanges [.mgmt] s (s.withMgmt x) := by
  intro p hp; cases p <;> simp at hp <;> rfl

/-- The parameters `g` move a watermark. -/
abbrev State.waterMoved (s : State) (g : GlobalParams) : Prop :=
  g.highWater ≠ s.mgmt.params.highWater ∨ g.lowWater ≠ s.mgmt.params.lowWater

/-- Under the parameters `g` the Open offer is Held at once (R105, R107). -/
abbrev State.holdsUnder (s : State) (g : GlobalParams) : Prop :=
  s.waterMoved g ∧ s.ctx.offer = .opened ∧ g.highWater ≤ s.ctx.inUse

/-- Under the parameters `g` the Held offer is Open at once (R105, R107). -/
abbrev State.resumesUnder (s : State) (g : GlobalParams) : Prop :=
  s.waterMoved g ∧ s.ctx.offer = .held ∧ s.ctx.inUse ≤ g.lowWater

/-- Valid parameters take the place of the old ones, and the offer follows their watermarks where one has moved. -/
theorem setGlobalParameters_eq (hv : g.valid = true) : setGlobalParameters g s =
    let u := s.withMgmt { s.mgmt with params := g }
    Answer.ok
      (if s.holdsUnder g then
        (u.withCtx { s.ctx with offer := .held }).notify s.time.now (.holdOffer s.ctx.inUse g.highWater)
      else if s.resumesUnder g then
        (u.withCtx { s.ctx with offer := .opened }).notify s.time.now (.resumeOffer s.ctx.inUse g.lowWater)
      else u) s.mgmt.params.bytes := by
  by_cases hm : s.waterMoved g
  · have hne := not_and_or.mpr hm
    simp only [setGlobalParameters, hv, if_true, if_neg hne, compareBoth_eq]
    exact congrArg (Answer.ok · _) (if_congr (and_iff_right hm).symm rfl (if_congr (and_iff_right hm).symm rfl rfl))
  · have heq : g.highWater = s.mgmt.params.highWater ∧ g.lowWater = s.mgmt.params.lowWater := by
      simpa only [State.waterMoved, not_or, not_not] using hm
    simp only [setGlobalParameters, hv, if_true, if_pos heq, State.holdsUnder, State.resumesUnder, hm, false_and, if_false]

/-- What an accepted Set Global Parameters leaves: the parameters, the offer with its notice, and nothing else (R178). -/
theorem setGlobalParameters_leaves (s : State) (hv : g.valid = true) :
    ∃ u, setGlobalParameters g s = Answer.ok u s.mgmt.params.bytes ∧ u.mgmt = { s.mgmt with params := g }
      ∧ u.ctx = { s.ctx with
          offer := if s.holdsUnder g then .held else if s.resumesUnder g then .opened else s.ctx.offer }
      ∧ u.bwdOut = s.bwdOut
          ++ (if s.holdsUnder g then [.notice s.time.now (.holdOffer s.ctx.inUse g.highWater)]
              else if s.resumesUnder g then [.notice s.time.now (.resumeOffer s.ctx.inUse g.lowWater)] else [])
      ∧ OnlyChanges [.ctx, .mgmt, .bwdOut] s u := by
  have params := (withMgmt_frame s { s.mgmt with params := g }).mono (more := [.ctx, .mgmt, .bwdOut]) (by decide)
  have offer (x : ContextTable) (now : ExTime) (n : Notice) := params.trans
    (((withCtx_frame _ x).mono (by decide)).trans ((notify_frame _ now n).mono (by decide)))
  refine ⟨_, setGlobalParameters_eq hv, ?_⟩
  split
  · exact ⟨rfl, rfl, rfl, offer _ _ _⟩
  · split
    · exact ⟨rfl, rfl, rfl, offer _ _ _⟩
    · exact ⟨rfl, rfl, (List.append_nil _).symm, params⟩

/-- A request that every device state takes and that changes no more than the offer and the parameters, with notices. -/
theorem request_offered {cmd : Instr} {code : Nat} {act : List Byte → State → Answer} {u : State} {results : List Byte}
    (h : s.requested code f rest) (hc : 3 < code) (hx : exec cmd s = .next (takeRequest code act s))
    (ha : act (paramsOf f) (s.took .forward rest) = Answer.ok u results)
    (hu : OnlyChanges [.ctx, .mgmt, .bwdOut] (s.took .forward rest) u) :
    ∃ t, exec cmd s = .next t ∧ TookHead .forward rest s t ∧ t.mgmt = u.mgmt ∧ t.ctx = u.ctx
      ∧ t.bwdOut = u.bwdOut ++ [.reply (kindByteOf f) code .done results]
      ∧ OnlyChanges [.fwd, .ctx, .mgmt, .bwdOut] s t := by
  have e := request_runs h hc hx
  obtain ⟨-, rfl, -⟩ := h
  rw [ha] at e
  obtain ⟨htook, hall⟩ := took_forward (hu.trans
    ((emitBwd_frame u (.reply (kindByteOf f) (requestCode f) .done results)).mono (by decide))) (by decide)
  exact ⟨_, e, htook, rfl, rfl, rfl, hall⟩

end

/-- Settles O38: the ranges of R178 decide between the replacement, with the offer as the new watermarks leave it, and the
refusal. -/
theorem globalParametersReplaced : Obligations.GlobalParametersReplaced := by
  unfold Obligations.GlobalParametersReplaced
  intro s f rest h g old good moved holds resumes
  have checks : g.valid = true ↔ good := g.valid_iff
  refine ⟨fun hgood => ?_, fun hbad => ?_⟩
  · obtain ⟨u, hrun, hmgmt, hctx, hout, hu⟩ := setGlobalParameters_leaves (s.took .forward rest) (checks.mpr hgood)
    obtain ⟨t, ht, htook, hmgmt', hctx', hout', hall⟩ :=
      request_offered (cmd := .setGlobalParameters) h (by decide) rfl hrun hu
    exact ⟨t, ht, htook, hmgmt'.trans hmgmt, hctx'.trans hctx, hout'.trans (congrArg (· ++ _) hout), hall⟩
  · exact request_unchanged (cmd := .setGlobalParameters) h (by decide) rfl (if_neg fun hv => hbad (checks.mp hv))

end Sys2Proof.Machine
end

