-- ==== Sys2Proof/Proofs/TariffBodies.lean ====
section
/-! SUPPORT and CERTIFICATE. Fields read back from the bytes of a layout, and with them a tariff body from its 57 bytes
(R110, R168, section 10.6). -/
namespace Sys2Proof.Machine

/-! ### Reading a layout's bytes by offset -/

/-- The width of a layout in bytes. -/
def Items.width (items : Items) : Nat := (items.map (·.1)).sum

theorem Items.width_cons (p : Nat × Nat) (items : Items) : Items.width (p :: items) = p.1 + items.width := rfl

theorem Items.width_append (a b : Items) : Items.width (a ++ b) = a.width + b.width := by
  rw [Items.width, List.map_append, List.sum_append]; rfl

theorem Items.width_map {α : Type} (w : Nat) (f : α → Nat) (xs : List α) :
    Items.width (xs.map fun x => (w, f x)) = w * xs.length := by
  have hconst : (xs.map fun x => (w, f x)).map (·.1) = List.replicate xs.length w := by
    rw [List.map_map]; exact List.map_const
  rw [Items.width, hconst, List.sum_replicate, smul_eq_mul, Nat.mul_comm]

theorem Items.bytes_length (items : Items) : items.bytes.length = items.width := by
  simp only [Items.bytes, Items.width, List.length_flatMap, enc_length]

/-- The number at its offset is read whatever stands before and after it. -/
theorem field_of_items {items before after : Items} {w v : Nat} (h : items = before ++ (w, v) :: after) (hv : v < 256 ^ w)
    (rest : List Byte) : field before.width w (items.bytes ++ rest) = v := by
  have hbytes : items.bytes ++ rest = before.bytes ++ (enc w v ++ (after.bytes ++ rest)) := by
    rw [h, Items.bytes_append, List.append_assoc, ← List.append_assoc (enc w v)]; rfl
  rw [field, hbytes, ← before.bytes_length, List.drop_left, List.take_left' (enc_length w v), be_enc, Nat.mod_eq_of_lt hv]

/-- A run of numbers of one width is read one after the other. -/
theorem fields_of_items {items before after : Items} {w : Nat} {ns : List Nat}
    (h : items = before ++ (ns.map fun v => (w, v)) ++ after) (hv : ∀ v ∈ ns, v < 256 ^ w) (rest : List Byte) :
    (List.range ns.length).map (fun j => field (before.width + w * j) w (items.bytes ++ rest)) = ns := by
  refine List.ext_getElem (by simp) fun j hj hj' => ?_
  have hsplit : items = (before ++ (ns.take j).map fun v => (w, v))
      ++ (w, ns[j]) :: ((ns.drop (j + 1)).map (fun v => (w, v)) ++ after) := by
    conv_lhs => rw [h, ← List.take_append_drop j ns, List.drop_eq_getElem_cons hj']
    simp only [List.map_append, List.map_cons, List.append_assoc, List.cons_append]
  have hread := field_of_items hsplit (hv _ (List.getElem_mem hj')) rest
  rw [Items.width_append, Items.width_map w fun v => v, List.length_take, min_eq_left (Nat.le_of_lt hj')] at hread
  simpa using hread

/-! ### A tariff body (section 10.6) -/

/-- The bytes of a body are those of its layout. -/
theorem encTariff_eq (x : Tariff) : encTariff x = Items.bytes x.items := by
  have padding (n : Nat) : (List.replicate n (Period.mk 0 0)).flatMap (fun p => enc 2 p.start ++ enc 3 p.base) =
      Items.bytes (List.replicate n [(2, 0), (3, 0)]).flatten := by
    rw [Items.bytes, ← List.flatMap_id, List.flatMap_assoc, List.flatMap_replicate, List.flatMap_replicate]; rfl
  have signed : encSigned16 = fun v => enc 2 (v % 65536).toNat := rfl
  rw [encTariff, List.flatMap_append, padding, signed]
  simp [Tariff.items, Items.bytes, List.flatMap_assoc, List.flatMap_map]

/-- A period entry in its five bytes. -/
def Period.items (p : Period) : Items := [(2, p.start), (3, p.base)]

theorem periods_width (ps : List Period) : Items.width (ps.flatMap Period.items) = 5 * ps.length := by
  induction ps with
  | nil => rfl
  | cons p ps ih => rw [List.flatMap_cons, Items.width_append, ih, List.length_cons, Nat.mul_succ, Nat.add_comm]; rfl

theorem periodsOf_items {items before after : Items} {ps : List Period}
    (h : items = before ++ ps.flatMap Period.items ++ after)
    (hp : ∀ p ∈ ps, p.start < 256 ^ 2 ∧ p.base < 256 ^ 3) (rest : List Byte) :
    periodsOf (items.bytes ++ rest) before.width ps.length = ps := by
  induction ps generalizing before with
  | nil => rfl
  | cons p ps ih =>
    obtain ⟨⟨hstart, hbase⟩, hps⟩ := List.forall_mem_cons.mp hp
    have hstart' : items = before ++ (2, p.start) ::
        ((3, p.base) :: ps.flatMap Period.items ++ after) := by simp [h, Period.items]
    have hbase' : items = (before ++ [(2, p.start)]) ++ (3, p.base) ::
        (ps.flatMap Period.items ++ after) := by simp [h, Period.items]
    have htail := ih (before := before ++ p.items) (by simp [h]) hps
    have hread1 := field_of_items hstart' hstart rest
    have hread2 := field_of_items hbase' hbase rest
    rw [Items.width_append] at htail hread2
    rw [List.length_cons, periodsOf]
    exact congrArg₂ _ (congrArg₂ _ hread1 hread2) htail

/-- Two's complement gives a number of 16 bits back. -/
theorem signed16_mod {v : Int} (h : -32768 ≤ v ∧ v < 32768) : signed16 (v % 65536).toNat = v := by
  unfold signed16
  split <;> omega

/-- The layout of a body up to its setup fee: the count and the four period entries. -/
def Tariff.head (x : Tariff) : Items :=
  (1, x.periods.length) :: x.periods.flatMap Period.items
    ++ (List.replicate (4 - x.periods.length) [(2, 0), (3, 0)]).flatten

/-- The layout of a body up to its floor. -/
def Tariff.upToFloor (x : Tariff) : Items :=
  x.head ++ [(3, x.setupFee)] ++ (x.mults.map fun m => (2, m)) ++ (x.slopes.map fun v => (v % 65536).toNat).map fun n => (2, n)

theorem Tariff.items_eq (x : Tariff) : x.items =
    x.upToFloor ++ [(3, x.floor), (3, x.ceiling), (1, x.billingStep), (2, x.minSeconds)] := by
  have entry : Period.items = fun p => [(2, p.start), (3, p.base)] := rfl
  simp [Tariff.items, Tariff.upToFloor, Tariff.head, entry]

section

variable {x : Tariff}

theorem Tariff.head_width (h : x.periods.length ≤ 4) : x.head.width = 21 := by
  have padding (n : Nat) : Items.width (List.replicate n [(2, 0), (3, 0)]).flatten = 5 * n := by
    induction n with
    | zero => rfl
    | succ n ih => rw [List.replicate_succ, List.flatten_cons, Items.width_append, ih, Nat.mul_succ, Nat.add_comm]; rfl
  rw [Tariff.head, Items.width_append, Items.width_cons, periods_width, padding]
  simp only
  omega

theorem Tariff.multsAt (h : x.InRange) : (x.head ++ [(3, x.setupFee)]).width = 24 := by
  rw [Items.width_append, Tariff.head_width h.periods.2]; rfl

theorem Tariff.slopesAt (h : x.InRange) :
    (x.head ++ [(3, x.setupFee)] ++ (x.mults.map fun m => (2, m))).width = 32 := by
  rw [Items.width_append, Tariff.multsAt h, Items.width_map 2 fun m => m, h.mults.1]

theorem Tariff.floorAt (h : x.InRange) : x.upToFloor.width = 48 := by
  rw [Tariff.upToFloor, Items.width_append, Tariff.slopesAt h, Items.width_map 2 fun n => n, List.length_map, h.slopes.1]

theorem encTariff_length (h : x.InRange) : (encTariff x).length = 57 := by
  rw [encTariff_eq, Items.bytes_length, Tariff.items_eq, Items.width_append, Tariff.floorAt h]; rfl

/-- The four multipliers stand at 24, the eight slopes at 32. -/
theorem mults_read (h : x.InRange) (rest : List Byte) :
    let bs := encTariff x ++ rest
    [field 24 2 bs, field 26 2 bs, field 28 2 bs, field 30 2 bs] = x.mults := by
  obtain ⟨hlen, hle⟩ := h.mults
  have hread := fields_of_items (items := x.items) (before := x.head ++ [(3, x.setupFee)]) (w := 2)
    (by rw [Tariff.items_eq, Tariff.upToFloor, List.append_assoc _ _ [_, _, _, _]])
    (fun m hm => (hle m hm).trans_lt (by norm_num)) rest
  rw [Tariff.multsAt h, ← encTariff_eq, hlen] at hread
  exact hread

theorem slopes_read (h : x.InRange) (rest : List Byte) :
    ([32, 34, 36, 38, 40, 42, 44, 46].map fun o => signed16 (field o 2 (encTariff x ++ rest))) = x.slopes := by
  obtain ⟨hlen, hle⟩ := h.slopes
  have hread := fields_of_items (items := x.items) (w := 2) (ns := x.slopes.map fun v => (v % 65536).toNat)
    (by rw [Tariff.items_eq, Tariff.upToFloor])
    (fun n hn => by obtain ⟨v, -, rfl⟩ := List.mem_map.mp hn; omega) rest
  rw [Tariff.slopesAt h, ← encTariff_eq, List.length_map, hlen] at hread
  calc ([32, 34, 36, 38, 40, 42, 44, 46].map fun o => signed16 (field o 2 (encTariff x ++ rest)))
      = ((List.range 8).map fun j => field (32 + 2 * j) 2 (encTariff x ++ rest)).map signed16 := rfl
    _ = x.slopes.map (signed16 ∘ fun v => (v % 65536).toNat) := by rw [hread, List.map_map]
    _ = x.slopes := (List.map_congr_left fun v hv => signed16_mod (by have := hle v hv; omega)).trans (List.map_id x.slopes)

/-- The count stands at 0 and the entries behind it. -/
theorem periods_read (h : x.InRange) (rest : List Byte) :
    field 0 1 (encTariff x ++ rest) = x.periods.length
      ∧ periodsOf (encTariff x ++ rest) 1 x.periods.length = x.periods := by
  rw [encTariff_eq]
  refine ⟨field_of_items (before := []) rfl (h.periods.2.trans_lt (by norm_num)) rest, ?_⟩
  refine periodsOf_items (items := x.items) (before := [(1, x.periods.length)])
    (by simp only [Tariff.items, List.append_assoc, List.cons_append]; rfl) (fun p hp => ?_) rest
  obtain ⟨hstart, hbase⟩ := h.each p hp
  exact ⟨hstart.trans_lt (by norm_num), hbase.trans_lt (by norm_num)⟩

/-- The single numbers: the setup fee at 21, and from 48 on floor, ceiling, billing step and minimum seconds. -/
theorem singles_read (h : x.InRange) (rest : List Byte) :
    let bs := encTariff x ++ rest
    field 21 3 bs = x.setupFee ∧ field 48 3 bs = x.floor ∧ field 51 3 bs = x.ceiling ∧ field 54 1 bs = x.billingStep
      ∧ field 55 2 bs = x.minSeconds := by
  obtain ⟨-, hceiling⟩ := h.bounds
  have fee : field x.head.width 3 (x.items.bytes ++ rest) = x.setupFee :=
    field_of_items (by rw [Tariff.items_eq, Tariff.upToFloor]; simp only [List.append_assoc]; rfl)
      (h.fee.trans_lt (by norm_num)) rest
  have last {before after : Items} {w v : Nat}
      (hs : [(3, x.floor), (3, x.ceiling), (1, x.billingStep), (2, x.minSeconds)] = before ++ (w, v) :: after)
      (hv : v < 256 ^ w) : field (48 + before.width) w (x.items.bytes ++ rest) = v := by
    have hread := field_of_items (items := x.items) (before := x.upToFloor ++ before)
      (by rw [Tariff.items_eq, hs, List.append_assoc]) hv rest
    rwa [Items.width_append, Tariff.floorAt h] at hread
  rw [Tariff.head_width h.periods.2] at fee
  rw [encTariff_eq]
  exact ⟨fee, last (before := []) rfl ((h.bounds.1.trans hceiling).trans_lt (by norm_num)),
    last (before := [(3, x.floor)]) rfl (hceiling.trans_lt (by norm_num)),
    last (before := [(3, x.floor), (3, x.ceiling)]) rfl (h.step.2.trans_lt (by norm_num)),
    last (before := [(3, x.floor), (3, x.ceiling), (1, x.billingStep)]) rfl (h.minimum.trans_lt (by norm_num))⟩

end

/-- Settles O54: every field of a body is read at the offset where its layout holds it. -/
theorem tariffBodyReadsBack : Obligations.TariffBodyReadsBack := by
  unfold Obligations.TariffBodyReadsBack
  intro x rest h
  refine ⟨encTariff_length h, ?_⟩
  obtain ⟨hcount, hperiods⟩ := periods_read h rest
  obtain ⟨hfee, hfloor, hceiling, hstep, hmin⟩ := singles_read h rest
  have hmults := mults_read h rest
  have hslopes := slopes_read h rest
  simp only [tariffOf, hcount, if_neg (Nat.not_lt.mpr h.periods.2), hperiods, hfee, hmults, hslopes, hfloor, hceiling, hstep,
    hmin]

end Sys2Proof.Machine
end

