-- ==== Sys2Proof/Proofs/CarrierRequests.lean ====
section
/-! SUPPORT and CERTIFICATES. The requests on carriers: Declare and Remove Carrier (R111, R112), Load Tariff (R116), Pin and
Unpin Carrier (R117). -/
namespace Sys2Proof.Machine

variable {s : State} {f : Frame} {rest : List Frame} {id : Nat} {b : Tariff} {body : Option Tariff} {c : Carrier}

/-- A request that every device state takes, and that is done with no more than the Tariff Table changed. -/
theorem request_tariffed {cmd : Instr} {code : Nat} {act : List Byte → State → Answer} {u : State} {results : List Byte}
    (h : s.requested code f rest) (hc : 3 < code) (hx : exec cmd s = .next (takeRequest code act s))
    (ha : act (paramsOf f) (s.took .forward rest) = Answer.ok u results)
    (hu : OnlyChanges [.tariffs] (s.took .forward rest) u) :
    ∃ t, exec cmd s = .next t ∧ t.tariffs = u.tariffs ∧ Replied f rest .done results s t
      ∧ OnlyChanges [.fwd, .tariffs, .bwdOut] s t := by
  have e := request_runs h hc hx
  rw [ha] at e
  obtain ⟨htook, hall⟩ := took_forward ((hu.mono (by decide)).trans
    ((emitBwd_frame u (.reply (kindByteOf f) (requestCode f) .done results)).mono (more := [.tariffs, .bwdOut]) (by decide)))
    (by decide)
  exact ⟨_, e, rfl, ⟨htook, congrArg (· ++ _) (hu .bwdOut (by decide))⟩, hall⟩

/-- Such a request that sets one carrier. -/
theorem request_carrierSet {cmd : Instr} {code : Nat} {act : List Byte → State → Answer} {u : State} {results : List Byte}
    (h : s.requested code f rest) (hc : 3 < code) (hx : exec cmd s = .next (takeRequest code act s))
    (ha : act (paramsOf f) (s.took .forward rest) = Answer.ok u results)
    (hu : OnlyChanges [.tariffs] (s.took .forward rest) u) (hset : CarrierSet id c (s.took .forward rest) u) :
    ∃ t, exec cmd s = .next t ∧ Replied f rest .done results s t ∧ CarrierSet id c s t
      ∧ OnlyChanges [.fwd, .tariffs, .bwdOut] s t := by
  obtain ⟨t, ht, htariffs, hreply, hall⟩ := request_tariffed h hc hx ha hu
  exact ⟨t, ht, hreply, hset.congr rfl htariffs, hall⟩

/-- Such a request that changes one declared carrier. -/
theorem request_carrierChanged {cmd : Instr} {code : Nat} {act : List Byte → State → Answer} {g : Carrier → Carrier}
    {c' : Carrier} {results : List Byte} (h : s.requested code f rest) (hc : 3 < code)
    (hx : exec cmd s = .next (takeRequest code act s))
    (ha : act (paramsOf f) (s.took .forward rest) = Answer.ok ((s.took .forward rest).updCarrier id g) results)
    (hold : s.carrier id = some c) (hnew : g c = c') :
    ∃ t, exec cmd s = .next t ∧ Replied f rest .done results s t ∧ CarrierSet id c' s t
      ∧ OnlyChanges [.fwd, .tariffs, .bwdOut] s t :=
  request_carrierSet h hc hx ha (updCarrier_frame _ _ _) (hnew ▸ updCarrier_set (s := s.took .forward rest) hold g)

theorem carrierId_iff : carrierId id = true ↔ 1 ≤ id ∧ id ≤ 63 := decide_eq_true_iff

theorem carrierId_bad (h : ¬ (1 ≤ id ∧ id ≤ 63)) : carrierId id = false := decide_eq_false h

/-! ### Declare and Remove Carrier (R111, R112) -/

/-- A body that is absent or not in range is no valid body. -/
theorem validBody_none (h : ¬ ∃ b, body = some b ∧ b.InRange) : validBody body = none :=
  Option.eq_none_iff_forall_ne_some.mpr fun b hb => h ⟨b, inRange_of_validBody hb⟩

theorem putCarrier_set (s : State) (id : Nat) (c : Carrier) : CarrierSet id c s (s.putCarrier id c) :=
  ⟨Table.find_put_self _ _ _, fun _ hn => Table.find_put_of_ne hn _ _, rfl⟩

theorem declareCarrier_bad (h : ¬ ((1 ≤ id ∧ id ≤ 63) ∧ ∃ b, body = some b ∧ b.InRange)) :
    declareCarrier id body s = Answer.refuse s .badParameter := by
  unfold declareCarrier
  split
  · rename_i hid hb
    exact absurd ⟨carrierId_iff.mp hid, _, inRange_of_validBody hb⟩ h
  · rfl

theorem declareCarrier_of (hid : 1 ≤ id ∧ id ≤ 63) (hb : b.InRange) : declareCarrier id (some b) s =
    if (s.carrier id).isSome then Answer.refuse s .busy else Answer.ok (s.putCarrier id (Carrier.declared b)) [] := by
  simp only [declareCarrier, carrierId_iff.mpr hid, validBody_inRange hb]

/-- An equipped group names the carrier as owner (R112). -/
theorem ownsGroup_iff (hw : Table.wf s.circ.groups = true) :
    s.ownsGroup id = true ↔ ∃ g x, s.group g = some x ∧ x.cfg.owner = id := by
  rw [State.ownsGroup, List.any_eq_true]
  constructor
  · rintro ⟨⟨g, x⟩, hx, howner⟩
    exact ⟨g, x, Table.find_of_mem hw hx, of_decide_eq_true howner⟩
  · rintro ⟨g, x, hx, howner⟩
    exact ⟨(g, x), Table.mem_of_find hx, decide_eq_true howner⟩

/-- The checks of R112 on a carrier id in range. -/
theorem removeCarrier_of (hid : 1 ≤ id ∧ id ≤ 63) : removeCarrier id s =
    if (s.carrier id).isNone then Answer.refuse s .notFound
    else if s.ownsGroup id then Answer.refuse s .busy
    else Answer.ok (s.withTariffs { s.tariffs with carriers := Table.del id s.tariffs.carriers }) [] := by
  rw [removeCarrier, carrierId_iff.mpr hid]; rfl

/-- Settles O44: the checks of R111 and of R112 in their order, and the record put or taken away. -/
theorem carriersDeclaredAndRemoved : Obligations.CarriersDeclaredAndRemoved := by
  unfold Obligations.CarriersDeclaredAndRemoved
  intro s f rest id real good owns refused hw
  have hcar : (s.took .forward rest).carrier id = s.carrier id := rfl
  have howns : (s.took .forward rest).ownsGroup id = true ↔ owns := ownsGroup_iff (s := s.took .forward rest) hw
  have declared (hd : (s.carrier id).isSome = true) : ¬ (s.carrier id).isNone = true := by
    simpa [Option.isSome_iff_ne_none] using hd
  refine ⟨fun h => ⟨fun hbad => ?_, fun hid ⟨b, hbody, hb⟩ hdecl => ?_, fun b hid hbody hb hnone => ?_⟩,
    fun h => ⟨fun hbad => ?_, fun hid hnone => ?_, fun hid hdecl hown => ?_, fun hid hdecl hfree => ?_⟩⟩
  · exact request_unchanged (cmd := .declareCarrier) h (by decide) rfl (declareCarrier_bad hbad)
  · refine request_unchanged (cmd := .declareCarrier) h (by decide) rfl ?_
    rw [hbody, declareCarrier_of hid hb, hcar, if_pos hdecl]; rfl
  · refine request_carrierSet (cmd := .declareCarrier) h (by decide) rfl ?_ (withTariffs_frame _ _)
      (putCarrier_set (s.took .forward rest) id (Carrier.declared b))
    dsimp only
    rw [hbody, declareCarrier_of hid hb, hcar, hnone]; rfl
  · exact request_unchanged (cmd := .removeCarrier) h (by decide) rfl (if_pos (carrierId_bad hbad))
  · refine request_unchanged (cmd := .removeCarrier) h (by decide) rfl ?_
    rw [removeCarrier_of hid, hcar, hnone]; rfl
  · refine request_unchanged (cmd := .removeCarrier) h (by decide) rfl ?_
    rw [removeCarrier_of hid, hcar, if_neg (declared hdecl), if_pos (howns.mpr hown)]; rfl
  · have ha := removeCarrier_of (s := s.took .forward rest) hid
    rw [hcar, if_neg (declared hdecl), if_neg fun hown => hfree (howns.mp hown)] at ha
    obtain ⟨t, ht, htariffs, hreply, hall⟩ :=
      request_tariffed (cmd := .removeCarrier) h (by decide) rfl ha (withTariffs_frame _ _)
    have hread : ∀ n, t.carrier n = Table.find n (Table.del id s.tariffs.carriers) := fun n => by
      rw [State.carrier, htariffs]; rfl
    refine ⟨t, ht, hreply, (hread id).trans (Table.find_del_self _ _), fun n hn => ?_, ?_, hall⟩
    · exact (hread n).trans (Table.find_del_of_ne hn _)
    · rw [htariffs]; rfl

/-! ### Load Tariff (R116) -/

section

variable {q : LoadTariffReq}

theorem LoadTariffReq.fieldsFit_iff : q.fieldsFit = true ↔
    (1 ≤ q.carrier ∧ q.carrier ≤ 63) ∧ (q.mode = 0 ∨ (q.mode = 1 ∧ q.minute ≤ 1439)) := by
  rw [LoadTariffReq.fieldsFit, Bool.and_eq_true, carrierId_iff, decide_eq_true_iff]

/-- What the first check of R116 asks of a load. -/
def LoadTariffReq.Good (q : LoadTariffReq) : Prop :=
  (1 ≤ q.carrier ∧ q.carrier ≤ 63) ∧ (∃ b, q.body = some b ∧ b.InRange) ∧ (q.mode = 0 ∨ (q.mode = 1 ∧ q.minute ≤ 1439))

theorem loadTariff_bad (h : ¬ q.Good) : loadTariff q s = Answer.refuse s .badParameter := by
  unfold loadTariff
  split
  · rename_i hfit hb
    obtain ⟨hid, hmode⟩ := LoadTariffReq.fieldsFit_iff.mp hfit
    exact absurd ⟨hid, ⟨_, inRange_of_validBody hb⟩, hmode⟩ h
  · rfl

theorem loadTariff_of (h : q.Good) (hb : q.body = some b) : loadTariff q s =
    if (s.carrier q.carrier).isNone then Answer.refuse s .notFound
    else Answer.ok (s.updCarrier q.carrier fun c => c.load q b) [] := by
  obtain ⟨hid, ⟨b', hbody, hrange⟩, hmode⟩ := h
  obtain rfl : b' = b := Option.some.inj (hbody.symm.trans hb)
  simp only [loadTariff, LoadTariffReq.fieldsFit_iff.mpr ⟨hid, hmode⟩, hb, validBody_inRange hrange]

theorem Carrier.load_immediate (h : q.mode = 0) : c.load q b =
    { c with current := b, source := .localLoad, pending := if q.discard then none else c.pending } := if_pos h

theorem Carrier.load_pending (h : q.mode = 1) :
    c.load q b = { c with pending := some ⟨b, q.day, q.minute, .localLoad⟩ } := if_neg (by omega)

end

/-! ### Pin and Unpin Carrier (R117) -/

theorem Carrier.offeredPending_iff : c.offeredPending = true ↔ ∃ p, c.pending = some p ∧ p.source = .offered := by
  rw [Carrier.offeredPending, decide_eq_true_iff, Option.map_eq_some_iff]

theorem Carrier.pin_offered (h : c.offeredPending = true) : c.pin = { c with pinned := true, pending := none } := by
  rw [Carrier.pin, if_pos h]

theorem Carrier.pin_kept (h : c.offeredPending = false) : c.pin = { c with pinned := true } := by
  rw [Carrier.pin, h]; rfl

theorem pinCarrier_none (hid : 1 ≤ id ∧ id ≤ 63) (hc : s.carrier id = none) :
    pinCarrier id s = Answer.refuse s .notFound := by
  simp only [pinCarrier, carrierId_iff.mpr hid, hc]; rfl

theorem pinCarrier_some (hid : 1 ≤ id ∧ id ≤ 63) (hc : s.carrier id = some c) :
    pinCarrier id s = Answer.ok (s.updCarrier id Carrier.pin) (encFlag c.offeredPending) := by
  simp only [pinCarrier, carrierId_iff.mpr hid, hc]; rfl

theorem unpinCarrier_of (hid : 1 ≤ id ∧ id ≤ 63) : unpinCarrier id s =
    if (s.carrier id).isNone then Answer.refuse s .notFound
    else Answer.ok (s.updCarrier id fun c => { c with pinned := false }) [] := by
  rw [unpinCarrier, carrierId_iff.mpr hid]; rfl

/-- Settles O45: each request by its checks, and the one carrier that it changes. -/
theorem tariffsLoadedAndPinned : Obligations.TariffsLoadedAndPinned := by
  unfold Obligations.TariffsLoadedAndPinned
  intro s f rest q id real good refused becomes
  have declared {y : Carrier} (hy : s.carrier id = some y) : ¬ (s.carrier id).isNone = true := by simp [hy]
  refine ⟨fun h => ⟨fun hbad => ?_, fun hid hgood hnone => ?_, fun b y hid hgood hb hy => ?_⟩,
    fun cmd code hmem h => ?_, fun y h hid hy => ?_, fun y h hid hy => ?_⟩
  · exact request_unchanged (cmd := .loadTariff) h (by decide) rfl (loadTariff_bad (q := q) hbad)
  · obtain ⟨b, hb, -⟩ := hgood.1
    exact request_unchanged (cmd := .loadTariff) h (by decide) rfl
      ((loadTariff_of (q := q) ⟨hid, hgood⟩ hb).trans (if_pos (Option.isNone_iff_eq_none.mpr hnone)))
  · have ha : loadTariff q (s.took .forward rest) = _ := (loadTariff_of ⟨hid, hgood⟩ hb).trans (if_neg (declared hy))
    exact ⟨fun hmode => request_carrierChanged (cmd := .loadTariff) h (by decide) rfl ha hy (Carrier.load_immediate hmode),
      fun hmode => request_carrierChanged (cmd := .loadTariff) h (by decide) rfl ha hy (Carrier.load_pending hmode)⟩
  · simp only [List.mem_cons, List.not_mem_nil, or_false, Prod.mk.injEq] at hmem
    rcases hmem with ⟨rfl, rfl⟩ | ⟨rfl, rfl⟩
    · exact ⟨fun hbad => request_unchanged h (by decide) rfl (if_pos (carrierId_bad hbad)),
        fun hid hnone => request_unchanged h (by decide) rfl (pinCarrier_none hid hnone)⟩
    · exact ⟨fun hbad => request_unchanged h (by decide) rfl (if_pos (carrierId_bad hbad)), fun hid hnone =>
        request_unchanged h (by decide) rfl ((unpinCarrier_of hid).trans (if_pos (Option.isNone_iff_eq_none.mpr hnone)))⟩
  · have ha := pinCarrier_some (s := s.took .forward rest) hid hy
    refine ⟨fun hw => ?_, fun hw => ?_⟩
    · have hoff := Carrier.offeredPending_iff.mpr hw
      rw [hoff] at ha
      exact request_carrierChanged (cmd := .pinCarrier) h (by decide) rfl ha hy (Carrier.pin_offered hoff)
    · have hoff := Bool.eq_false_iff.mpr fun h => hw (Carrier.offeredPending_iff.mp h)
      rw [hoff] at ha
      exact request_carrierChanged (cmd := .pinCarrier) h (by decide) rfl ha hy (Carrier.pin_kept hoff)
  · exact request_carrierChanged (cmd := .unpinCarrier) h (by decide) rfl
      ((unpinCarrier_of (s := s.took .forward rest) hid).trans (if_neg (declared hy))) hy rfl

end Sys2Proof.Machine
end

