-- ==== Sys2Proof/Proofs/ExpiryFrames.lean ====
section
/-! SUPPORT. What an expiry leaves alone (R157), through the reselection that an expiry of T-proceed raises (R14, R17). -/
namespace Sys2Proof.Machine

variable {s u : State} {i : Nat} {c : Context}

/-! ### The reselection after T-proceed (R14, R17, R68) -/

theorem seizeCircuit_frame (s : State) (now : ExTime) (i l k g n : Nat) (q : Option Quote) :
    OnlyChanges [.ctx, .circ, .routes, .settle] s (s.seizeCircuit now i l k g n q) := by
  rw [seizeCircuit_eq]
  extract_lets suspect s1 s2 s3
  have f1 : OnlyChanges [.circ] s s1 := (recast_frame s n _).trans (updTraffic_frame _ g Traffic.seize)
  have f2 : OnlyChanges [.circ] s1 s2 := by
    dsimp only [s2]
    split
    · exact updMonitor_frame _ _ _
    · exact .refl _ _
  have f3 : OnlyChanges [.routes] s2 s3 := by
    dsimp only [s3]
    split
    · exact .refl _ _
    · exact updList_frame _ _ _
  exact ((f1.trans f2).mono (by decide)).trans ((f3.mono (by decide)).trans
    (((withSettle_frame _ _).mono (by decide)).trans ((updContext_frame _ _ _).mono (by decide))))

/-- The parts that a selection pass works on. -/
def passParts : List Part := [.ctx, .circ, .routes, .rating, .settle]

theorem passLoop_frame (s : State) (now : ExTime) (i l : Nat) (ks : List Nat) (reasons : List Reason) :
    OnlyChanges passParts s (passLoop now i l ks reasons s).1 := by
  induction ks generalizing reasons s with
  | nil => exact .refl _ _
  | cons k ks ih =>
    unfold passLoop
    split
    · rename_i c ch _ _
      split
      · exact ih _ _
      · split
        · exact ih _ _
        · extract_lets s1
          have f2 : OnlyChanges passParts s (s1.examine now k c.priority ch).1 :=
            ((turnedTo_frame s i k).mono (by decide)).trans ((examine_frame s1 now k c.priority ch).mono (by decide))
          have failed (s2 : State) (hs : OnlyChanges passParts s s2) (rs : List Reason) :
              OnlyChanges passParts s (passLoop now i l ks rs (s2.choiceFailed i l k ch.group)).1 :=
            hs.trans (((choiceFailed_frame s2 i l k ch.group).mono (by decide)).trans (ih _ _))
          split
          · rename_i he
            rw [he] at f2
            exact failed _ f2 _
          · rename_i he
            rw [he] at f2
            split
            · exact f2.trans ((seizeCircuit_frame _ _ _ _ _ _ _ _).mono (by decide))
            · exact failed _ f2 _
    · exact ih _ _

theorem selectionPass_frame (s : State) (now : ExTime) (i l : Nat) :
    OnlyChanges passParts s (s.selectionPass now i l).1 := by
  unfold State.selectionPass
  split
  · exact .refl _ _
  · split
    · exact .refl _ _
    · exact passLoop_frame _ _ _ _ _ _

theorem proceed_frame (s : State) (i g k : Nat) : OnlyChanges [.ctx, .fwdOut] s (s.proceed i g k) := by
  unfold State.proceed
  split
  · exact .refl _ _
  · exact ((startProceeding_frame s i).mono (by decide)).trans ((emitFwd_frame _ _).mono (by decide))

theorem failCall_frame (s : State) (i : Nat) (cause : Cause) : OnlyChanges [.ctx, .bwdOut] s (s.failCall i cause) := by
  unfold State.failCall
  split
  · exact .refl _ _
  · exact ((emitBwd_frame s _).mono (by decide)).trans ((startClearing_frame _ i).mono (by decide))

/-- The parts that an expiry may change (R157): neither the tariffs nor the time is among them. -/
def expiryParts : List Part := [.ctx, .circ, .routes, .mon, .rating, .settle, .fwdOut, .bwdOut, .draws]

theorem reselect_frame (s : State) (now : ExTime) (i : Nat) (instead : Option Cause) :
    OnlyChanges expiryParts s (s.reselect now i instead) := by
  unfold State.reselect
  split
  · exact .refl _ _
  · rename_i c _
    extract_lets s1
    have f1 : OnlyChanges expiryParts s (s1.selectionPass now i c.list).1 :=
      ((countList_frame s c.list _).mono (by decide)).trans ((selectionPass_frame s1 now i c.list).mono (by decide))
    split
    · rename_i he
      rw [he] at f1
      exact f1.trans ((proceed_frame _ _ _ _).mono (by decide))
    · rename_i he
      rw [he] at f1
      exact f1.trans (((countList_frame _ _ _).mono (by decide)).trans ((failCall_frame _ _ _).mono (by decide)))

/-- A call in Proceeding is not rated when it loses its circuit, so no carrier's totals grow (R10). -/
theorem noResponse_frame (hc : s.context i = some c) (hp : c.phase = .proceeding) (g k : Nat) :
    OnlyChanges expiryParts s (s.noResponse i g k c) := by
  unfold State.noResponse
  extract_lets now s1
  have f1 : OnlyChanges [.circ, .fwdOut, .bwdOut] s (s1.healthFailure now g) :=
    ((emitFwd_frame s _).mono (by decide)).trans (((enterReleasing_frame _ k).mono (by decide)).trans
      ((healthFailure_frame s1 now g).mono (by decide)))
  have hset := (endProbe_set ((f1.context_eq (by decide) i).trans hc) g).1
  have f2 := (f1.mono (more := expiryParts) (by decide)).trans
    ((endProbe_frame (s1.healthFailure now g) i g).mono (by decide))
  have f3 := (loseCircuit_of (k := k) (g := g) (c := { c with probe := false }) ⟨hset, fun _ _ => rfl, rfl⟩ hp
    (fun _ _ => rfl) (fun _ _ => rfl) rfl (.refl _ _) now .noResponse).2
  exact f2.trans ((f3.mono (by decide)).trans (reselect_frame _ _ _ _))

/-! ### The expiries (R157) -/

theorem expireProceed_frame (s : State) (i : Nat) : OnlyChanges expiryParts s (s.expireProceed i) := by
  unfold State.expireProceed
  split
  · exact .refl _ _
  · rename_i c hc
    split
    · rename_i hp _ _
      exact noResponse_frame hc hp _ _
    · exact .refl _ _

theorem expireClear_frame (s : State) (i : Nat) : OnlyChanges expiryParts s (s.expireClear i) := by
  unfold State.expireClear
  split
  · exact .refl _ _
  · split
    · exact ((free_frame s _ i).mono (by decide)).trans (((notify_frame _ _ _).mono (by decide)).trans
        ((countCtx_frame _ _).mono (by decide)))
    · exact .refl _ _

theorem expireGuard_frame (s : State) (g : Nat) : OnlyChanges expiryParts s (s.expireGuard g) := by
  unfold State.expireGuard
  split
  · exact .refl _ _
  · split
    · exact .refl _ _
    · split
      · split
        · exact (recast_frame s _ _).mono (by decide)
        · exact .refl _ _
      · exact .refl _ _

theorem expireClearing_frame (s : State) (k : Nat) : OnlyChanges expiryParts s (s.expireClearing k) := by
  unfold State.expireClearing
  split
  · exact .refl _ _
  · split
    · split
      · exact ((recast_frame s k _).mono (by decide)).trans (((updGroup_frame _ _ _).mono (by decide)).trans
          (((notifyAll_frame _ _ _).mono (by decide)).trans ((countCirc_frame _ _).mono (by decide))))
      · exact .refl _ _
    · exact .refl _ _

theorem expireProbe_frame (s : State) (g : Nat) : OnlyChanges expiryParts s (s.expireProbe g) := by
  unfold State.expireProbe
  split
  · exact .refl _ _
  · split
    · exact (updMonitor_frame s g _).mono (by decide)
    · exact .refl _ _

theorem expireGap_frame (s : State) (l : Nat) : OnlyChanges expiryParts s (s.expireGap l) := by
  unfold State.expireGap
  split
  · exact (updList_frame s l _).mono (by decide)
  · exact .refl _ _

theorem expireAccept_frame (s : State) : OnlyChanges expiryParts s s.expireAccept := by
  unfold State.expireAccept
  extract_lets q
  split
  · exact ((withSettle_frame s _).mono (by decide)).trans ((notify_frame _ _ _).mono (by decide))
  · exact .refl _ _

theorem evaluateGroups_frame (gs : List Nat) (s : State) :
    OnlyChanges expiryParts s (gs.foldl State.evaluateGroup s) := by
  induction gs generalizing s with
  | nil => exact .refl _ _
  | cons g gs ih => exact ((evaluateGroup_sampled s g).frame.mono (by decide)).trans (ih _)

theorem expireSample_frame (s : State) : OnlyChanges expiryParts s s.expireSample := by
  unfold State.expireSample
  split
  · exact (evaluateGroups_frame _ s).trans (((withMon_frame _ _).mono (by decide)).trans
      ((notifyAll_frame _ _ _).mono (by decide)))
  · exact .refl _ _

theorem expire_frame (s : State) (id : TimerId) : OnlyChanges expiryParts s (s.expire id) := by
  cases id with
  | supervision i => exact (expireProceed_frame s i).trans (expireClear_frame _ i)
  | guard g => exact expireGuard_frame s g
  | clearing k => exact expireClearing_frame s k
  | probe g => exact expireProbe_frame s g
  | gap l => exact expireGap_frame s l
  | accept => exact expireAccept_frame s
  | sample => exact expireSample_frame s

theorem expireAll_frame (s : State) (ids : List TimerId) : OnlyChanges expiryParts s (s.expireAll ids) := by
  induction ids generalizing s with
  | nil => exact .refl _ _
  | cons id ids ih => exact (expire_frame s id).trans (ih _)

/-- Expiries taken in any order leave the tariffs and the time alone. -/
theorem ExpiriesTaken.frame {ids : List TimerId} (h : ExpiriesTaken ids s u) : OnlyChanges expiryParts s u := by
  obtain ⟨d, rfl⟩ := h
  have drawn : OnlyChanges [.draws] s { s with draws := d } := by
    intro p hp; cases p <;> simp at hp <;> rfl
  rw [← expireAll_eq_ran]
  exact (drawn.mono (by decide)).trans (expireAll_frame _ ids)

end Sys2Proof.Machine
end

