-- ==== Sys2Proof/Proofs/WholeSecond.lean ====
section
/-! CERTIFICATE. The whole-second event of a tick: the activation of the due tariffs (R118, R119, R154, R158). -/
namespace Sys2Proof.Machine

/-- A carrier whose pending tariff becomes its current one where it is due. -/
def Carrier.activatedWhere (due : Pending → Bool) (c : Carrier) : Carrier :=
  match c.pending with
  | some p => if due p then { c with current := p.body, source := p.source, pending := none } else c
  | none => c

/-- The notice of that activation. -/
def Carrier.noticeWhere (due : Pending → Bool) (id : Nat) (c : Carrier) : List Notice :=
  match c.pending with
  | some p => if due p then [.tariffActivated id p.source p.day p.minute] else []
  | none => []

theorem Carrier.activate_eq (c : Carrier) (now : ExTime) : c.activate now = c.activatedWhere fun p => p.due now := by
  unfold Carrier.activate Carrier.activatedWhere
  cases c.pending <;> rfl

theorem Carrier.activation_eq (id : Nat) (c : Carrier) (now : ExTime) :
    c.activation id now = c.noticeWhere (fun p => p.due now) id := by
  unfold Carrier.activation Carrier.noticeWhere
  cases c.pending <;> rfl

theorem Carrier.activatedWhere_never (c : Carrier) : (c.activatedWhere fun _ => false) = c := by
  unfold Carrier.activatedWhere
  cases c.pending <;> rfl

theorem Carrier.noticeWhere_never (id : Nat) (c : Carrier) : c.noticeWhere (fun _ => false) id = [] := by
  unfold Carrier.noticeWhere
  cases c.pending <;> rfl

/-- A pending tariff that a whole-second event at `now` activates (R118, R119). -/
def State.activates (s : State) (now : ExTime) (p : Pending) : Bool := s.time.valid && p.due now

/-- What a whole-second event leaves: the carriers with their due tariffs active, and one notice for each in some order. -/
theorem wholeSecond_of (s : State) (now : ExTime) :
    let t := s.wholeSecond now
    t.tariffs.unknownRejected = s.tariffs.unknownRejected
      ∧ (∀ id, t.carrier id = (s.carrier id).map (Carrier.activatedWhere (s.activates now)))
      ∧ (∃ ns : List Notice, t.bwdOut = s.bwdOut ++ ns.map (OutMsg.notice now)
        ∧ ns.Perm (s.tariffs.carriers.flatMap fun e => e.2.noticeWhere (s.activates now) e.1))
      ∧ OnlyChanges [.tariffs, .bwdOut, .draws] s t := by
  cases hv : s.time.valid with
  | false =>
    have hnever : s.activates now = fun _ => false := funext fun p => by rw [State.activates, hv]; rfl
    rw [State.wholeSecond, hv, hnever]
    refine ⟨rfl, fun id => ?_, ⟨[], (List.append_nil _).symm, ?_⟩, .refl _ _⟩
    · rw [funext Carrier.activatedWhere_never]; exact Option.map_id'.symm
    · simp only [Carrier.noticeWhere_never]
      exact .of_eq (List.flatMap_eq_nil_iff.mpr fun _ _ => rfl).symm
  | true =>
    have hdue : s.activates now = fun p => p.due now := funext fun p => by rw [State.activates, hv]; rfl
    rw [State.wholeSecond, hv, hdue]
    simp only [← Carrier.activation_eq, if_true]
    generalize (s.tariffs.carriers.flatMap fun e => e.2.activation e.1 now) = activations
    generalize hx : ({ s.tariffs with carriers := _ } : TariffTable) = x
    have last := notifyAll_frame (s.withTariffs x) now activations
    have htariffs : ((s.withTariffs x).notifyAll now activations).tariffs = x := last .tariffs (by decide)
    refine ⟨?_, fun id => ?_, notifyAll_bwdOut (s.withTariffs x) now activations,
      ((withTariffs_frame s x).mono (by decide)).trans (last.mono (by decide))⟩
    · rw [htariffs, ← hx]
    · rw [State.carrier, htariffs, ← hx, Table.find_mapAll]
      exact Option.map_congr fun c _ => c.activate_eq now

/-- Settles O6: the tick takes what is due, advances the time, takes some of its own expiries, and then raises the event. -/
theorem wholeSecondActivatesDueTariffs : Obligations.WholeSecondActivatesDueTariffs := by
  unfold Obligations.WholeSecondActivatesDueTariffs
  intro s hline hcs
  obtain ⟨before, hbefore, hu, hnone⟩ := settleExpiries_taken s
  have htick : exec .referenceTick s = .next s.settleExpiries.advance :=
    congrArg Host.Outcome.next (if_neg (by simp [hline]))
  generalize s.settleExpiries = u at hu hnone htick
  have htime : u.time = s.time := hu.frame .time (by decide)
  have htariffs : u.tariffs = s.tariffs := hu.frame .tariffs (by decide)
  obtain ⟨first, later, v, hperm, hv, hstill, hevent⟩ := secondEvent_stands (u.withTime u.time.tick)
  have hadvance : u.advance = v.wholeSecond u.time.tick.now :=
    (if_pos (show u.time.now.tick.cs % 100 = 0 by rw [htime]; exact hcs)).trans hevent
  have hvtime : v.time = u.time.tick := hv.frame .time (by decide)
  have hvtariffs : v.tariffs = s.tariffs := (hv.frame .tariffs (by decide)).trans htariffs
  obtain ⟨hunknown, hcarrier, hnotices, hall⟩ := wholeSecond_of v u.time.tick.now
  have hnow : (v.wholeSecond u.time.tick.now).time = u.time.tick := (hall .time (by decide)).trans hvtime
  have hcar : ∀ id, v.carrier id = s.carrier id := fun id => by rw [State.carrier, hvtariffs]; rfl
  have hdue : v.activates u.time.tick.now = fun p => u.time.tick.valid && p.due u.time.tick.now := by
    rw [← hvtime]; rfl
  refine ⟨before, first, later, u, v, v.wholeSecond u.time.tick.now, hbefore, hu, hnone, hperm, hv, hstill, hvtariffs,
    hadvance ▸ htick, ?_⟩
  rw [hnow]
  simp only [hdue, hvtariffs, hcar] at hunknown hcarrier hnotices
  exact ⟨hunknown, hcarrier, hnotices, hall⟩

end Sys2Proof.Machine
end

