-- ==== Sys2Proof/Proofs/ChargeEquation.lean ====
section
/-! SUPPORT and CERTIFICATE. Every command keeps the charge equation (R134) of the queued Settlement Records, whatever the
other parts hold: a record joins the queue in a rating alone, with the charge that R134 gives it; after that its repeat flag
changes and nothing else of it, until it leaves. -/
namespace Sys2Proof.Machine

variable {s t : State}

/-! ### Records and the queue (R134, R141, R145, R148) -/

/-- The charge equation of R134 over the values that a record carries. -/
def SettlementRecord.Charged (r : SettlementRecord) : Prop :=
  r.charge = min (r.setupFee + (r.chargeable * r.rate + 30) / 60) 4294967295 ∧ r.chargeable ≤ 4294967295

/-- Every queued record keeps the charge equation. -/
def SettlementQueue.Charged (q : SettlementQueue) : Prop := ∀ r ∈ q.queued, r.Charged

theorem recordOf_charged (q : Quote) (callRef g k : Nat) (a now : ExTime) : (recordOf q callRef g k a now).Charged :=
  ⟨rfl, Nat.min_le_right _ _⟩

/-- What a rating puts into a record keeps the equation, whatever the quote. -/
theorem Context.record_charged {c : Context} {now : ExTime} {r : SettlementRecord} (h : c.record now = some r) :
    r.Charged := by
  unfold Context.record at h
  split at h
  · split at h
    · cases h; exact recordOf_charged _ _ _ _ _ _
    · simp at h
  · simp at h

theorem SettlementQueue.Charged.append {q : SettlementQueue} (h : q.Charged) {r : SettlementRecord} (hr : r.Charged) :
    (q.append r).Charged := fun x hx => by
  rcases List.mem_append.mp hx with hx | hx
  · exact h x hx
  · rw [List.mem_singleton.mp hx]; exact hr

theorem SettlementQueue.Charged.accept {q : SettlementQueue} (h : q.Charged) : q.accept.Charged :=
  fun x hx => h x (List.mem_of_mem_drop hx)

theorem markRepeats_charged {rs : List SettlementRecord} (h : ∀ r ∈ rs, r.Charged) (b : Nat) :
    ∀ r ∈ markRepeats b rs, r.Charged := fun x hx => by
  rcases List.mem_append.mp hx with hx | hx
  · obtain ⟨r, hr, rfl⟩ := List.mem_map.mp hx
    exact h r (List.mem_of_mem_take hr)
  · exact h x (List.mem_of_mem_drop hx)

/-! ### What rates, returns, sends or leaves alone -/

/-- An operation that leaves the Settlement Queue alone keeps the equation. -/
theorem OnlyChanges.charged {parts : List Part} (hf : OnlyChanges parts s t) (hp : Part.settle ∉ parts)
    (h : s.settle.Charged) : t.settle.Charged := by
  have e : t.settle = s.settle := hf .settle hp
  rwa [e]

/-- The queue grows by the record of the call, or not at all. -/
theorem dispose_charged (h : s.settle.Charged) (now : ExTime) (i : Nat) : (s.dispose now i).settle.Charged := by
  unfold State.dispose
  split
  · exact h
  · dsimp only
    rw [State.updContext_settle]
    split
    · rename_i hr; exact h.append (Context.record_charged hr)
    · split <;> exact h

theorem exportLook_charged (h : s.settle.Charged) : s.exportLook.settle.Charged := by
  unfold State.exportLook
  split <;> exact h

theorem exportIf_charged (h : s.settle.Charged) (rated : Bool) : (s.exportIf rated).settle.Charged := by
  cases rated
  · exact h
  · exact exportLook_charged h

theorem resendBatch_charged (h : s.settle.Charged) : s.resendBatch.settle.Charged := markRepeats_charged h _

/-! ### The selection pass and reselection (R14 to R18, R62 to R68) -/

theorem seizeCircuit_charged (h : s.settle.Charged) (now : ExTime) (i l k g n : Nat) (q : Option Quote) :
    (s.seizeCircuit now i l k g n q).settle.Charged := by
  rw [seizeCircuit_settle]; exact h

theorem passLoop_charged (now : ExTime) (i l : Nat) (ks : List Nat) (reasons : List Reason) (h : s.settle.Charged) :
    (passLoop now i l ks reasons s).1.settle.Charged := by
  induction ks generalizing reasons s with
  | nil => exact h
  | cons k ks ih =>
    unfold passLoop
    split
    · rename_i c ch _ _
      split
      · exact ih _ h
      · split
        · exact ih _ h
        · extract_lets s1
          have h2 : (s1.examine now k c.priority ch).1.settle.Charged :=
            (examine_frame s1 now k c.priority ch).charged (by decide) ((turnedTo_frame s i k).charged (by decide) h)
          have failed {s2 : State} (hs : s2.settle.Charged) (rs : List Reason) :
              (passLoop now i l ks rs (s2.choiceFailed i l k ch.group)).1.settle.Charged :=
            ih _ ((choiceFailed_frame s2 i l k ch.group).charged (by decide) hs)
          split
          · rename_i he; rw [he] at h2; exact failed h2 _
          · rename_i he
            rw [he] at h2
            split
            · exact seizeCircuit_charged h2 _ _ _ _ _ _ _
            · exact failed h2 _
    · exact ih _ h

theorem selectionPass_charged (h : s.settle.Charged) (now : ExTime) (i l : Nat) :
    (s.selectionPass now i l).1.settle.Charged := by
  unfold State.selectionPass
  split
  · exact h
  · split
    · exact h
    · exact passLoop_charged now i l _ _ h

theorem reselect_charged (h : s.settle.Charged) (now : ExTime) (i : Nat) (instead : Option Cause) :
    (s.reselect now i instead).settle.Charged := by
  unfold State.reselect
  split
  · exact h
  · rename_i c _
    extract_lets s1
    have h1 : (s1.selectionPass now i c.list).1.settle.Charged := selectionPass_charged (s := s1) h now i c.list
    split
    · rename_i he
      rw [he] at h1
      exact (proceed_frame _ _ _ _).charged (by decide) h1
    · rename_i he
      rw [he] at h1
      exact (failCall_frame (State.countList _ _ _) _ _).charged (by decide) h1

/-- What follows the report on the group of a lost circuit: its probe ends, the call loses it and reselects. -/
theorem lost_charged (h : s.settle.Charged) (now : ExTime) (i l g : Nat) (cause : Cause) (instead : Option Cause) :
    (((s.endProbe i g).loseCircuit now i l g cause).reselect now i instead).settle.Charged := by
  have ended : (s.endProbe i g).settle.Charged := (endProbe_frame s i g).charged (by decide) h
  refine reselect_charged ?_ now i instead
  exact dispose_charged (s := ((s.endProbe i g).updContext i _).updList l _) ended now i

theorem crankback_charged (h : s.settle.Charged) (i g k : Nat) (cause : Cause) (c : Context) :
    (s.crankback i g k cause c).settle.Charged := by
  unfold State.crankback
  extract_lets now s1 s2
  have h1 : s1.settle.Charged := (enterGuard_frame (s.emitFwd _) now k).charged (by decide) h
  have h2 : s2.settle.Charged := by
    dsimp only [s2]
    split
    · exact (healthFailure_frame s1 now g).charged (by decide) h1
    · exact h1
  exact lost_charged h2 now i c.list g cause none

theorem noResponse_charged (h : s.settle.Charged) (i g k : Nat) (c : Context) :
    (s.noResponse i g k c).settle.Charged := by
  unfold State.noResponse
  extract_lets now s1
  have h1 : s1.settle.Charged := (enterReleasing_frame (s.emitFwd _) k).charged (by decide) h
  exact lost_charged ((healthFailure_frame s1 now g).charged (by decide) h1) now i c.list g _ _

theorem glareLost_charged (h : s.settle.Charged) (i g : Nat) (c : Context) : (s.glareLost i g c).settle.Charged :=
  lost_charged (s := s.updTraffic g _) h _ i c.list g _ _

/-! ### Release (R16, R20, R21) -/

theorem farEnds_charged (h : s.settle.Charged) (i g k cause : Nat) (c : Context) :
    (s.farEnds i g k cause c).settle.Charged := by
  unfold State.farEnds
  extract_lets now s1 s2
  have h1 : s1.settle.Charged := (enterGuard_frame (s.emitFwd _) now k).charged (by decide) h
  have h2 : s2.settle.Charged := by
    dsimp only [s2]
    split
    · refine (endProbe_frame _ i g).charged (by decide) ?_
      split
      · exact (healthFailure_frame s1 now g).charged (by decide) h1
      · exact h1
    · exact h1
  refine exportIf_charged ?_ _
  exact dispose_charged h2 now i

theorem originEnds_charged (h : s.settle.Charged) (i g k cause : Nat) (c : Context) :
    (s.originEnds i g k cause c).settle.Charged := by
  unfold State.originEnds
  extract_lets now s1 s2
  have h1 : s1.settle.Charged := (enterReleasing_frame ((s.emitBwd _).emitFwd _) k).charged (by decide) h
  have h2 : s2.settle.Charged := by
    dsimp only [s2]
    split
    · exact (endProbe_frame s1 i g).charged (by decide) h1
    · exact h1
  exact exportIf_charged ((free_frame _ now i).charged (by decide) (dispose_charged h2 now i)) _

theorem originRelease_charged (h : s.settle.Charged) (i cause : Nat) : (s.originRelease i cause).settle.Charged := by
  unfold State.originRelease
  split
  · exact h
  · rename_i c _
    split
    · exact (free_frame (s.emitBwd (.releaseConfirm c.callRef)) _ i).charged (by decide) h
    · exact originEnds_charged h i _ _ cause c
    · exact h

theorem contextRelease_charged (h : s.settle.Charged) (i cause : Nat) : (s.contextRelease i cause).settle.Charged := by
  unfold State.contextRelease
  split
  · exact h
  · split
    · exact h
    · split
      · exact crankback_charged h i _ _ _ _
      · exact farEnds_charged h i _ _ _ _

/-! ### Far side (R12, R13, R42, R43) -/

theorem contextProgress_frame (s : State) (i : Nat) : OnlyChanges [.ctx, .circ, .bwdOut] s (s.contextProgress i) := by
  unfold State.contextProgress
  split
  · exact .refl _ _
  · split
    · exact ((updContext_frame s i _).mono (by decide)).trans (((healthSuccess_frame _ _ _).mono (by decide)).trans
        ((emitBwd_frame _ _).mono (by decide)))
    · exact (emitBwd_frame s _).mono (by decide)
    · exact (countCtx_frame s _).mono (by decide)

theorem connect_frame (s : State) (i g : Nat) : OnlyChanges [.ctx, .circ] s (s.connect i g) :=
  ((updContext_frame s i _).mono (by decide)).trans ((updTraffic_frame _ g _).mono (by decide))

theorem contextAnswer_frame (s : State) (i : Nat) : OnlyChanges [.ctx, .circ, .bwdOut] s (s.contextAnswer i) := by
  unfold State.contextAnswer
  split
  · exact .refl _ _
  · split
    · exact ((connect_frame s i _).mono (by decide)).trans (((healthSuccess_frame _ _ _).mono (by decide)).trans
        ((emitBwd_frame _ _).mono (by decide)))
    · exact ((connect_frame s i _).mono (by decide)).trans ((emitBwd_frame _ _).mono (by decide))
    · exact (countCtx_frame s _).mono (by decide)

theorem glare_charged (h : s.settle.Charged) (i k : Nat) (r : Group) (g : Nat) : (s.glare i k r g).settle.Charged := by
  unfold State.glare
  split
  · exact h
  · split
    · split
      · exact h
      · exact glareLost_charged ((recast_frame s k _).charged (by decide) h) i g _
    · exact h

theorem farSeize_charged (h : s.settle.Charged) (k : Nat) (c : Circuit) : (s.farSeize k c).settle.Charged := by
  have taken : (s.farTakes k).settle.Charged := (recast_frame s k _).charged (by decide) h
  unfold State.farSeize
  split
  · exact h
  · split
    · exact h
    · split
      · exact h
      · exact taken
    · exact taken
    · exact glare_charged h _ k _ _
    · exact h
    · exact h

/-! ### Setup (R6, R7, R61) -/

theorem refuseRouted_charged (h : s.settle.Charged) (now : ExTime) (i : Nat) (m : SetupMsg) (cause : Cause) :
    (s.refuseRouted now i m cause).settle.Charged :=
  (free_frame (s.emitBwd (.refuse m.callRef m.inCircuit cause)) now i).charged (by decide) h

theorem routePass_charged (h : s.settle.Charged) (now : ExTime) (i l : Nat) (m : SetupMsg) :
    (s.routePass now i l m).settle.Charged := by
  have h1 := selectionPass_charged h now i l
  unfold State.routePass
  split
  · rename_i he
    rw [he] at h1
    exact (proceed_frame _ _ _ _).charged (by decide) h1
  · rename_i he
    rw [he] at h1
    exact refuseRouted_charged (s := State.countList _ _ _) h1 _ _ _ _

theorem routeOver_charged (h : s.settle.Charged) (now : ExTime) (i l : Nat) (m : SetupMsg) :
    (s.routeOver now i l m).settle.Charged := by
  unfold State.routeOver
  extract_lets s1
  split
  · exact routePass_charged (s := s1.updList l _) h now i l m
  · exact refuseRouted_charged (s := s1.countList l _) h now i m _

theorem route_charged (h : s.settle.Charged) (now : ExTime) (i : Nat) (m : SetupMsg) :
    (s.route now i m).settle.Charged := by
  unfold State.route
  extract_lets r s1
  cases r
  case toList l => exact routeOver_charged (s := s1) h now i l m
  all_goals exact refuseRouted_charged (s := s1) h now i m _

theorem takeSetup_charged (h : s.settle.Charged) (m : SetupMsg) : (s.takeSetup m).settle.Charged := by
  rw [takeSetup_eq]
  have refused : ∀ cause, (s.setupCounted.refuseEarly m cause).settle.Charged := fun _ => h
  split
  · exact refused _
  · split
    · exact refused _
    · cases s.idleContext with
      | none => exact refused _
      | some i =>
        simp only [Option.elim]
        split
        · exact refused _
        · exact route_charged ((allocate_frame s.setupCounted _ i _).charged (by decide) h) _ i m

/-! ### Expiries and the tick (R17, R22, R32, R35, R79, R88, R98, R146, R152 to R158) -/

theorem expireProceed_charged (h : s.settle.Charged) (i : Nat) : (s.expireProceed i).settle.Charged := by
  unfold State.expireProceed
  split
  · exact h
  · split
    · exact noResponse_charged h i _ _ _
    · exact h

theorem expireClear_charged (h : s.settle.Charged) (i : Nat) : (s.expireClear i).settle.Charged := by
  unfold State.expireClear
  split
  · exact h
  · split
    · exact (free_frame s _ i).charged (by decide) h
    · exact h

theorem expireGuard_charged (h : s.settle.Charged) (g : Nat) : (s.expireGuard g).settle.Charged := by
  unfold State.expireGuard
  split
  · exact h
  · split
    · exact h
    · split
      · split
        · exact (recast_frame s _ _).charged (by decide) h
        · exact h
      · exact h

theorem expireClearing_charged (h : s.settle.Charged) (k : Nat) : (s.expireClearing k).settle.Charged := by
  unfold State.expireClearing
  split
  · exact h
  · split
    · split
      · exact (notifyAll_frame (State.markDrained _ _) _ _).charged (by decide) ((recast_frame s k _).charged (by decide) h)
      · exact h
    · exact h

theorem expireProbe_charged (h : s.settle.Charged) (g : Nat) : (s.expireProbe g).settle.Charged := by
  unfold State.expireProbe
  split
  · exact h
  · split <;> exact h

theorem expireGap_charged (h : s.settle.Charged) (l : Nat) : (s.expireGap l).settle.Charged := by
  unfold State.expireGap
  split <;> exact h

/-- A stall keeps the records of the batch (R146). -/
theorem expireAccept_charged (h : s.settle.Charged) : s.expireAccept.settle.Charged := by
  unfold State.expireAccept
  dsimp only
  split <;> exact h

theorem evaluateGroups_charged (gs : List Nat) (h : s.settle.Charged) :
    (gs.foldl State.evaluateGroup s).settle.Charged := by
  induction gs generalizing s with
  | nil => exact h
  | cons g gs ih => exact ih ((evaluateGroup_sampled s g).frame.charged (by decide) h)

theorem expireSample_charged (h : s.settle.Charged) : s.expireSample.settle.Charged := by
  unfold State.expireSample
  split
  · exact (notifyAll_frame (State.restartSample _) _ _).charged (by decide) (evaluateGroups_charged _ h)
  · exact h

theorem expire_charged (h : s.settle.Charged) (id : TimerId) : (s.expire id).settle.Charged := by
  cases id with
  | supervision i => exact expireClear_charged (expireProceed_charged h i) i
  | guard g => exact expireGuard_charged h g
  | clearing k => exact expireClearing_charged h k
  | probe g => exact expireProbe_charged h g
  | gap l => exact expireGap_charged h l
  | accept => exact expireAccept_charged h
  | sample => exact expireSample_charged h

theorem expireAll_charged (ids : List TimerId) (h : s.settle.Charged) : (s.expireAll ids).settle.Charged := by
  induction ids generalizing s with
  | nil => exact h
  | cons id ids ih => exact ih (expire_charged h id)

/-- Expiries taken in any order keep the equation. -/
theorem ExpiriesTaken.charged {ids : List TimerId} (ht : ExpiriesTaken ids s t) (h : s.settle.Charged) :
    t.settle.Charged := by
  obtain ⟨d, rfl⟩ := ht
  rw [← expireAll_eq_ran]
  exact expireAll_charged (s := { s with draws := d }) ids h

theorem wholeSecond_settle (s : State) (now : ExTime) : (s.wholeSecond now).settle = s.settle := by
  unfold State.wholeSecond
  split
  · exact notifyAll_frame (s.withTariffs _) _ _ .settle (by decide)
  · rfl

theorem advance_charged (h : s.settle.Charged) : s.advance.settle.Charged := by
  unfold State.advance
  extract_lets s1
  split
  · obtain ⟨_, _, v, -, hv, -, he⟩ := secondEvent_stands s1
    rw [he, wholeSecond_settle]
    exact hv.charged h
  · exact h

/-- The tick takes the expiries that stand, and then its own (R157, R158). -/
theorem tick_charged (h : s.settle.Charged) : s.settleExpiries.advance.settle.Charged := by
  obtain ⟨_, -, ht, -⟩ := settleExpiries_taken s
  exact advance_charged (ht.charged h)

/-! ### Ports (R162, R165, R169) -/

theorem portError_settle (s : State) (port : Port) (e : PortErr) : (s.portError port e).settle = s.settle := by
  unfold State.portError
  cases port <;> (dsimp only; split <;> rfl)

theorem arrive_settle (s : State) (port : Port) (f : Frame) : (s.arrive port f).settle = s.settle := by
  unfold State.arrive
  dsimp only
  split
  · exact portError_settle s port .overrun
  · split
    · exact portError_settle s port _
    · cases port <;> rfl

/-! ### Requests -/

theorem enterService_settle (s : State) : (enterService s).state.settle = s.settle := by
  unfold enterService; split <;> rfl

theorem setExchangeTime_settle (day cs : Nat) (s : State) : (setExchangeTime day cs s).state.settle = s.settle := by
  unfold setExchangeTime; split <;> rfl

theorem setGlobalParameters_settle (g : GlobalParams) (s : State) :
    (setGlobalParameters g s).state.settle = s.settle := by
  unfold setGlobalParameters
  split
  · dsimp only [Answer.ok]
    split
    · rfl
    · exact compareBoth_frame (s.withMgmt { s.mgmt with params := g }) _ .settle (by decide)
  · rfl

theorem loadDestination_settle (r : LoadDestReq) (s : State) : (loadDestination r s).state.settle = s.settle := by
  unfold loadDestination
  split
  · rfl
  · split <;> rfl

theorem deleteDestination_settle (d : DigitString) (s : State) : (deleteDestination d s).state.settle = s.settle := by
  unfold deleteDestination; split <;> rfl

theorem loadRouteList_settle (r : LoadListReq) (s : State) : (loadRouteList r s).state.settle = s.settle := by
  unfold loadRouteList; split <;> rfl

theorem restartGap_settle (l : Nat) (s : State) : (restartGap l s).state.settle = s.settle := by
  unfold restartGap
  split
  · rfl
  · split <;> rfl

theorem loadThresholdSet_settle (n : Nat) (x : ThresholdSet) (s : State) :
    (loadThresholdSet n x s).state.settle = s.settle := by
  unfold loadThresholdSet; split <;> rfl

theorem loadTrunkGroup_settle (r : LoadGroupReq) (s : State) : (loadTrunkGroup r s).state.settle = s.settle := by
  unfold loadTrunkGroup
  split
  · rfl
  · split
    · rfl
    · split
      · rfl
      · split
        · rfl
        · split <;> rfl

theorem removeTrunkGroup_settle (id : Nat) (s : State) : (removeTrunkGroup id s).state.settle = s.settle := by
  unfold removeTrunkGroup
  split
  · rfl
  · split <;> rfl

theorem changeAdmin_settle (s : State) (id : Nat) (a : AdminState) : (s.changeAdmin id a).settle = s.settle := by
  unfold State.changeAdmin
  split
  · exact drainCheck_frame (s.updGroup id _) _ _ .settle (by decide)
  · rfl

theorem setGroupState_settle (id adminByte : Nat) (s : State) :
    (setGroupState id adminByte s).state.settle = s.settle := by
  unfold setGroupState
  split
  · rfl
  · rfl
  · rfl
  · dsimp only [Answer.ok]
    split
    · rfl
    · exact changeAdmin_settle s id _

theorem localBlock_settle (c : Nat) (b : Bool) (s : State) : (localBlock c b s).state.settle = s.settle := by
  unfold localBlock
  split
  · rfl
  · split
    · rfl
    · exact recast_frame s c _ .settle (by decide)

theorem declareCarrier_settle (id : Nat) (body : Option Tariff) (s : State) :
    (declareCarrier id body s).state.settle = s.settle := by
  unfold declareCarrier
  split
  · split <;> rfl
  · rfl

theorem removeCarrier_settle (id : Nat) (s : State) : (removeCarrier id s).state.settle = s.settle := by
  unfold removeCarrier
  split
  · rfl
  · split
    · rfl
    · split <;> rfl

theorem loadTariff_settle (r : LoadTariffReq) (s : State) : (loadTariff r s).state.settle = s.settle := by
  unfold loadTariff
  split
  · split <;> rfl
  · rfl

theorem pinCarrier_settle (id : Nat) (s : State) : (pinCarrier id s).state.settle = s.settle := by
  unfold pinCarrier
  split
  · rfl
  · split <;> rfl

theorem unpinCarrier_settle (id : Nat) (s : State) : (unpinCarrier id s).state.settle = s.settle := by
  unfold unpinCarrier
  split
  · rfl
  · split <;> rfl

theorem latchCounters_settle (kindByte id : Nat) (s : State) :
    (latchCounters kindByte id s).state.settle = s.settle := by
  unfold latchCounters
  split
  · rfl
  · split
    · rfl
    · split <;> rfl

/-- A Restart empties the queue (R151, R180). -/
theorem restartRequest_charged (h : s.settle.Charged) (force : Bool) :
    (restartRequest force s).state.settle.Charged := by
  unfold restartRequest
  split
  · exact h
  · refine (notifyAll_frame s.cleared s.time.now s.circ.restartNotices).charged (by decide) ?_
    exact fun r hr => absurd hr List.not_mem_nil

/-! ### Taking a message -/

theorem takeHead_charged (h : s.settle.Charged) (port : Port) (p : Frame → Bool) {act : Frame → State → State}
    (hact : ∀ f u, u.settle.Charged → (act f u).settle.Charged) : (takeHead port p act s).settle.Charged := by
  unfold takeHead
  split
  · exact h
  · split
    · refine hact _ _ ?_
      rwa [State.withPort_settle]
    · exact h

theorem takeRequest_charged (h : s.settle.Charged) (code : Nat) {act : List Byte → State → Answer}
    (hact : ∀ p u, u.settle.Charged → (act p u).state.settle.Charged) : (takeRequest code act s).settle.Charged := by
  refine takeHead_charged h _ _ fun f u hu => ?_
  change (Answer.state _).settle.Charged
  split
  · exact hact _ _ hu
  · exact hu

/-- A request that leaves the Settlement Queue alone. -/
theorem takeRequest_settle (h : s.settle.Charged) (code : Nat) {act : List Byte → State → Answer}
    (hact : ∀ p u, (act p u).state.settle = u.settle) : (takeRequest code act s).settle.Charged :=
  takeRequest_charged h code fun p u hu => (hact p u).symm ▸ hu

/-- A request that reads. -/
theorem readRequest_settle (h : s.settle.Charged) (code : Nat) {act : List Byte → State → Answer}
    (hact : ∀ p u, (act p u).state = u) : (takeRequest code act s).settle.Charged :=
  takeRequest_settle h code fun p u => by rw [hact p u]

theorem onCircuit_charged (h : s.settle.Charged) {act : Nat → Circuit → State → State} (f : Frame)
    (hact : ∀ k c, (act k c s).settle.Charged) : (onCircuit act f s).settle.Charged := by
  unfold onCircuit
  split
  · exact h
  · exact hact _ _

/-! ### Every command -/

/-- Every command keeps the charge equation of the queued records. -/
theorem exec_charged (c : Instr) (h : s.settle.Charged) (he : exec c s = .next t) : t.settle.Charged := by
  cases c <;> cases he
  case hardReset => exact fun r hr => absurd hr List.not_mem_nil
  case resetRelease => split <;> exact h
  case referenceTick =>
    split
    · exact h
    · exact tick_charged h
  case messageArrival p f =>
    split
    · exact h
    · rwa [arrive_settle]
  case passThrough p => exact takeHead_charged h _ _ fun f u hu => by cases p <;> exact hu
  case setup => exact takeHead_charged h _ _ fun f u hu => takeSetup_charged hu _
  case originRelease =>
    refine takeHead_charged h _ _ fun f u hu => ?_
    split
    · exact originRelease_charged hu _ _
    · exact hu
  case originReleaseConfirm =>
    refine takeHead_charged h _ _ fun f u hu => ?_
    split
    · exact hu
    · split
      · exact hu
      · split
        · exact (free_frame u _ _).charged (by decide) hu
        · exact hu
  case progress =>
    refine takeHead_charged h _ _ fun f u hu => onCircuit_charged hu f fun k c => ?_
    split
    · exact (contextProgress_frame u _).charged (by decide) hu
    · exact hu
  case answer =>
    refine takeHead_charged h _ _ fun f u hu => onCircuit_charged hu f fun k c => ?_
    split
    · exact (contextAnswer_frame u _).charged (by decide) hu
    · exact hu
  case farRelease =>
    refine takeHead_charged h _ _ fun f u hu => onCircuit_charged hu f fun k c => ?_
    split
    · exact contextRelease_charged hu _ _
    · exact (enterGuard_frame (u.emitFwd _) _ k).charged (by decide) hu
    · exact hu
  case farReleaseConfirm =>
    refine takeHead_charged h _ _ fun f u hu => onCircuit_charged hu f fun k c => ?_
    split
    · exact hu
    · exact (enterGuard_frame u _ k).charged (by decide) hu
    · exact hu
  case block | unblock =>
    exact takeHead_charged h _ _ fun f u hu =>
      onCircuit_charged hu f fun k _ => (recast_frame u k _).charged (by decide) hu
  case farSeize => exact takeHead_charged h _ _ fun f u hu => onCircuit_charged hu f fun k c => farSeize_charged hu k c
  case farClear =>
    refine takeHead_charged h _ _ fun f u hu => onCircuit_charged hu f fun k c => ?_
    split
    · exact (enterGuard_frame u _ k).charged (by decide) hu
    · exact hu
  case tariffOffer =>
    exact takeHead_charged h _ _ fun f u hu => (takeOffer_frame u _).charged (by decide)
      ((offerArrived_frame u _).charged (by decide) hu)
  case batchAccept =>
    refine takeHead_charged h _ _ fun f u hu => ?_
    split
    · exact exportLook_charged (s := u.withSettle u.settle.accept) hu.accept
    · exact hu
  case exportHalt => exact takeHead_charged h _ _ fun f u hu => hu
  case exportResume =>
    refine takeHead_charged h _ _ fun f u hu => ?_
    dsimp only
    split
    · exact exportLook_charged (s := u.withSettle { u.settle with halt := false }) hu
    · exact hu
    · exact resendBatch_charged (s := u.withSettle { u.settle with halt := false }) hu
  case tProceedExpiry i => exact expireProceed_charged h i
  case tClearExpiry i => exact expireClear_charged h i
  case guardExpiry g => exact expireGuard_charged h g
  case clearingExpiry k => exact expireClearing_charged h k
  case probeTimerExpiry g => exact expireProbe_charged h g
  case gapTimerExpiry l => exact expireGap_charged h l
  case acceptTimerExpiry => exact expireAccept_charged h
  case sampleExpiry => exact expireSample_charged h
  case unknownRequest => exact takeHead_charged h _ _ fun _ _ hu => hu
  case enterService => exact takeRequest_settle h _ fun _ u => enterService_settle u
  case quiesce => exact takeRequest_settle h _ fun _ _ => rfl
  case restart => exact takeRequest_charged h _ fun p u hu => restartRequest_charged hu _
  case readDeviceStatus => exact readRequest_settle h _ fun _ _ => rfl
  case clearErrorFlags => exact takeRequest_settle h _ fun _ _ => rfl
  case setExchangeTime => exact takeRequest_settle h _ fun _ u => setExchangeTime_settle _ _ u
  case setGlobalParameters => exact takeRequest_settle h _ fun _ u => setGlobalParameters_settle _ u
  case loadDestination => exact takeRequest_settle h _ fun _ u => loadDestination_settle _ u
  case deleteDestination => exact takeRequest_settle h _ fun _ u => deleteDestination_settle _ u
  case lookupDestination => exact readRequest_settle h _ fun _ u => lookupDestination_state _ u
  case loadRouteList => exact takeRequest_settle h _ fun _ u => loadRouteList_settle _ u
  case restartGap => exact takeRequest_settle h _ fun _ u => restartGap_settle _ u
  case loadThresholdSet => exact takeRequest_settle h _ fun _ u => loadThresholdSet_settle _ _ u
  case loadTrunkGroup => exact takeRequest_settle h _ fun _ u => loadTrunkGroup_settle _ u
  case removeTrunkGroup => exact takeRequest_settle h _ fun _ u => removeTrunkGroup_settle _ u
  case setGroupState => exact takeRequest_settle h _ fun _ u => setGroupState_settle _ _ u
  case blockCircuit | unblockCircuit => exact takeRequest_settle h _ fun _ u => localBlock_settle _ _ u
  case declareCarrier => exact takeRequest_settle h _ fun _ u => declareCarrier_settle _ _ u
  case removeCarrier => exact takeRequest_settle h _ fun _ u => removeCarrier_settle _ u
  case loadTariff => exact takeRequest_settle h _ fun _ u => loadTariff_settle _ u
  case pinCarrier => exact takeRequest_settle h _ fun _ u => pinCarrier_settle _ u
  case unpinCarrier => exact takeRequest_settle h _ fun _ u => unpinCarrier_settle _ u
  case readGroup => exact readRequest_settle h _ fun _ u => readGroup_state _ u
  case readCircuit => exact readRequest_settle h _ fun _ u => readCircuit_state _ u
  case readContext => exact readRequest_settle h _ fun _ u => readContext_state _ u
  case readRouteList => exact readRequest_settle h _ fun _ u => readRouteList_state _ u
  case readCarrier => exact readRequest_settle h _ fun _ u => readCarrier_state _ u
  case latchCounters => exact takeRequest_settle h _ fun _ u => latchCounters_settle _ _ u
  case readLatched => exact readRequest_settle h _ fun _ u => readLatched_state u

/-- Settles O60: a step is its front command, and each command keeps the equation by what it does to the queue. -/
theorem stepKeepsChargeEquation : Obligations.StepKeepsChargeEquation := by
  unfold Obligations.StepKeepsChargeEquation
  intro s t charged h he
  unfold step at he
  split at he
  · cases he; exact h
  · rename_i rest _
    exact exec_charged (s := { s with pending := rest }) _ h he

end Sys2Proof.Machine
end

