-- ==== Sys2Proof/Proofs/RateRules.lean ====
section
/-! SUPPORT and CERTIFICATE. The rate that a valid tariff quotes (R126 to R129): the period in force, the multiplier of the
band, the surcharge of the segments, the clamp. -/
namespace Sys2Proof.Machine

variable {x : Tariff} {minute s : Nat} {band : Band}

/-! ### The period in force (R126) -/

/-- Of the listed periods, `r` is one that has started at the minute and none that has started later than it; there is none
where no period has started. -/
def LatestStarted (minute : Nat) (ps : List Period) : Option Period → Prop
  | none => ∀ p ∈ ps, minute < p.start
  | some q => q ∈ ps ∧ q.start ≤ minute ∧ ∀ p ∈ ps, p.start ≤ minute → p.start ≤ q.start

/-- What holds of every listed period and of one more holds of all of them. -/
theorem forall_mem_concat {ps : List Period} {p : Period} {P : Period → Prop} (hps : ∀ r ∈ ps, P r) (hp : P p) :
    ∀ r ∈ ps ++ [p], P r :=
  List.forall_mem_append.mpr ⟨hps, List.forall_mem_singleton.mpr hp⟩

/-- One more period in the list. -/
theorem LatestStarted.concat {ps : List Period} {best : Option Period} (h : LatestStarted minute ps best) (p : Period) :
    LatestStarted minute (ps ++ [p]) (laterPeriod minute best p) := by
  have last : p ∈ ps ++ [p] := List.mem_append_right _ (List.mem_singleton_self p)
  unfold laterPeriod
  split
  · rename_i hp
    cases best with
    | none => exact forall_mem_concat h hp
    | some q =>
      obtain ⟨hq, hle, hmax⟩ := h
      exact ⟨List.mem_append_left _ hq, hle, forall_mem_concat hmax fun hpm => by omega⟩
  · rename_i hp
    have started := Nat.not_lt.mp hp
    cases best with
    | none =>
      exact ⟨last, started, forall_mem_concat (fun r hr hrm => absurd (h r hr) (Nat.not_lt.mpr hrm)) fun _ => le_rfl⟩
    | some q =>
      obtain ⟨hq, hle, hmax⟩ := h
      dsimp only
      split
      · rename_i hqp
        exact ⟨last, started, forall_mem_concat (fun r hr hrm => (hmax r hr hrm).trans hqp) fun _ => le_rfl⟩
      · rename_i hqp
        exact ⟨List.mem_append_left _ hq, hle, forall_mem_concat hmax fun _ => (Nat.not_le.mp hqp).le⟩

/-- The search over all periods finds the one in force. -/
theorem latestStarted_foldl (minute : Nat) (ps : List Period) :
    LatestStarted minute ps (ps.foldl (laterPeriod minute) none) := by
  induction ps using List.reverseRecOn with
  | nil => exact fun p hp => absurd hp List.not_mem_nil
  | append_singleton ps p ih => rw [List.foldl_concat]; exact ih.concat p

/-- A valid tariff has a period in force at every minute, since one starts at minute 0 (R110, R126). -/
theorem Tariff.InRange.periodAt (h : x.InRange) (minute : Nat) :
    ∃ p ∈ x.periods, p.start ≤ minute ∧ (∀ p' ∈ x.periods, p'.start ≤ minute → p'.start ≤ p.start)
      ∧ x.baseAt minute = p.base := by
  have hl := latestStarted_foldl minute x.periods
  obtain ⟨q, hq, hq0⟩ := Option.map_eq_some_iff.mp h.first
  cases hf : x.periods.foldl (laterPeriod minute) none with
  | none =>
    rw [hf] at hl
    have := hl q (List.mem_of_head? hq)
    omega
  | some p =>
    rw [hf] at hl
    obtain ⟨hp, hle, hmax⟩ := hl
    exact ⟨p, hp, hle, hmax, by simp [Tariff.baseAt, hf]⟩

/-! ### Banded rate and surcharge (R127, R128) -/

theorem Tariff.InRange.multAt (h : x.InRange) (band : Band) : ∃ mult, x.mults[band.value]? = some mult := by
  have hb : band.value < x.mults.length := by rw [h.mults.1]; exact Nat.lt_succ_of_le band.value_le
  exact ⟨_, List.getElem?_eq_getElem hb⟩

theorem Tariff.banded_of {p : Period} {mult : Nat} (hp : x.baseAt minute = p.base)
    (hm : x.mults[band.value]? = some mult) : x.banded minute band = p.base * mult / 256 := by
  simp [Tariff.banded, hp, List.getD_eq_getElem?_getD, hm]

/-- S lies within a segment: the full slopes below it and its part of the segment's own. -/
theorem Tariff.surcharge_within (h : x.InRange) {v : Int} (hv : x.slopes[s / 125]? = some v) :
    x.surcharge s =
      (x.slopes.take (s / 125)).sum + Int.tdiv (v * ((s : Int) - 125 * ((s / 125 : Nat) : Int))) 125 := by
  have hj : s / 125 < 8 := h.slopes.1 ▸ (List.getElem?_eq_some_iff.mp hv).1
  simp only [Tariff.surcharge, if_pos hj, List.getD_eq_getElem?_getD, hv, Option.getD_some]

/-- S is past the last segment: the full slopes alone. -/
theorem Tariff.surcharge_past (h : x.InRange) (hv : x.slopes[s / 125]? = none) :
    x.surcharge s = (x.slopes.take (s / 125)).sum + 0 := by
  have hj : ¬ s / 125 < 8 := Nat.not_lt.mpr (h.slopes.1 ▸ List.getElem?_eq_none_iff.mp hv)
  simp only [Tariff.surcharge, if_neg hj]

/-! ### The clamp (R129) -/

theorem Tariff.rate_below (h : x.rawRate minute band s < x.floor) : x.rate minute band s = x.floor := if_pos h

theorem Tariff.rate_above (hb : x.floor ≤ x.ceiling) (h : x.ceiling < x.rawRate minute band s) :
    x.rate minute band s = x.ceiling :=
  (if_neg (by omega)).trans (if_pos h)

theorem Tariff.rate_between (hf : x.floor ≤ x.rawRate minute band s) (hc : x.rawRate minute band s ≤ x.ceiling) :
    (x.rate minute band s : Int) = x.rawRate minute band s := by
  have e : x.rate minute band s = (x.rawRate minute band s).toNat :=
    (if_neg (Int.not_lt.mpr hf)).trans (if_neg (Int.not_lt.mpr hc))
  omega

/-- The rate lies between floor and ceiling. -/
theorem Tariff.rate_bounds (hb : x.floor ≤ x.ceiling) (minute : Nat) (band : Band) (s : Nat) :
    x.floor ≤ x.rate minute band s ∧ x.rate minute band s ≤ x.ceiling := by
  by_cases hlow : x.rawRate minute band s < x.floor
  · rw [Tariff.rate_below hlow]; exact ⟨le_rfl, hb⟩
  · by_cases hhigh : x.ceiling < x.rawRate minute band s
    · rw [Tariff.rate_above hb hhigh]; exact ⟨hb, le_rfl⟩
    · have := Tariff.rate_between (Int.not_lt.mp hlow) (Int.not_lt.mp hhigh)
      omega

/-- Settles O53: the raw rate of the period and the multiplier that a valid tariff has, then the clamp. -/
theorem rateFollowsTariff : Obligations.RateFollowsTariff := by
  unfold Obligations.RateFollowsTariff
  intro x minute s band h _
  obtain ⟨p, hp, hle, hmax, hbase⟩ := h.periodAt minute
  obtain ⟨mult, hmult⟩ := h.multAt band
  obtain ⟨hb, htop⟩ := h.bounds
  obtain ⟨hlow, hhigh⟩ := Tariff.rate_bounds hb minute band s
  refine ⟨p, mult, x.rawRate minute band s, hp, hle, hmax, hmult, ?_, rfl, Tariff.rate_below, Tariff.rate_above hb,
    Tariff.rate_between, hlow, hhigh, hhigh.trans htop⟩
  rw [Tariff.rawRate, Tariff.banded_of hbase hmult, add_assoc]
  congr 1
  cases hv : x.slopes[s / 125]? with
  | some v => exact Tariff.surcharge_within h hv
  | none => exact Tariff.surcharge_past h hv

end Sys2Proof.Machine
end

