-- ==== Sys2Proof/Proofs/RequestFrames.lean ====
section
/-! SUPPORT. What an arrival and each changing request leave alone (R162, R169, R174): every one of them works on the block
that it names. -/
namespace Sys2Proof.Machine

/-! ### Ports (R162, R169) -/

theorem withPort_frame (s : State) (p : Port) (x : PortState) : OnlyChanges [.fwd, .bwd] s (s.withPort p x) := by
  cases p
  · exact (withPort_forward_frame s x).mono (by decide)
  · exact (withPort_backward_frame s x).mono (by decide)

theorem emitOn_frame (s : State) (p : Port) (m : OutMsg) : OnlyChanges [.fwdOut, .bwdOut] s (s.emitOn p m) := by
  cases p
  · exact (emitFwd_frame s m).mono (by decide)
  · exact (emitBwd_frame s m).mono (by decide)

theorem portError_frame (s : State) (p : Port) (e : PortErr) :
    OnlyChanges [.fwd, .bwd, .bwdOut] s (s.portError p e) := by
  have counted := (withPort_frame s p ((s.port p).discard e)).mono (more := [.fwd, .bwd, .bwdOut]) (by decide)
  unfold State.portError
  dsimp only
  split
  · exact counted
  · exact counted.trans ((notify_frame _ _ _).mono (by decide))

theorem arrive_frame (s : State) (p : Port) (f : Frame) : OnlyChanges [.fwd, .bwd, .bwdOut] s (s.arrive p f) := by
  unfold State.arrive
  dsimp only
  split
  · exact portError_frame s p .overrun
  · split
    · exact portError_frame s p _
    · exact (withPort_frame s p _).mono (by decide)

/-! ### Time and destinations (R56, R156) -/

theorem withTime_frame (s : State) (x : TimeBase) : OnlyChanges [.time] s (s.withTime x) := by
  intro p hp; cases p <;> simp at hp <;> rfl

theorem setExchangeTime_frame (day cs : Nat) (s : State) : OnlyChanges [.time] s (setExchangeTime day cs s).state := by
  unfold setExchangeTime
  split
  · exact .refl _ _
  · exact withTime_frame s _

theorem loadDestination_frame (r : LoadDestReq) (s : State) : OnlyChanges [.routes] s (loadDestination r s).state := by
  unfold loadDestination
  split
  · exact .refl _ _
  · split
    · exact .refl _ _
    · exact withRoutes_frame s _

theorem deleteDestination_frame (d : DigitString) (s : State) :
    OnlyChanges [.routes] s (deleteDestination d s).state := by
  unfold deleteDestination
  split
  · exact withRoutes_frame s _
  · exact .refl _ _

/-! ### Route lists and the Occupancy Monitor (R59, R78, R92, R102) -/

theorem loadRouteList_frame (r : LoadListReq) (s : State) : OnlyChanges [.routes] s (loadRouteList r s).state := by
  unfold loadRouteList
  split
  · exact updList_frame s _ _
  · exact .refl _ _

theorem restartGap_frame (l : Nat) (s : State) : OnlyChanges [.routes] s (restartGap l s).state := by
  unfold restartGap
  split
  · exact .refl _ _
  · split
    · exact updList_frame s _ _
    · exact .refl _ _

theorem loadThresholdSet_frame (n : Nat) (x : ThresholdSet) (s : State) :
    OnlyChanges [.mon] s (loadThresholdSet n x s).state := by
  unfold loadThresholdSet
  split
  · exact withMon_frame s _
  · exact .refl _ _

theorem latchCounters_frame (kindByte id : Nat) (s : State) : OnlyChanges [.mon] s (latchCounters kindByte id s).state := by
  unfold latchCounters
  split
  · exact .refl _ _
  · split
    · exact .refl _ _
    · split
      · exact .refl _ _
      · exact withMon_frame s _

/-! ### Trunk groups and circuits (R41, R45 to R49) -/

theorem loadTrunkGroup_frame (r : LoadGroupReq) (s : State) : OnlyChanges [.circ] s (loadTrunkGroup r s).state := by
  unfold loadTrunkGroup
  split
  · exact .refl _ _
  · split
    · exact .refl _ _
    · split
      · exact .refl _ _
      · split
        · exact withCirc_frame s _
        · split
          · exact withCirc_frame s _
          · exact .refl _ _

theorem removeTrunkGroup_frame (id : Nat) (s : State) : OnlyChanges [.circ] s (removeTrunkGroup id s).state := by
  unfold removeTrunkGroup
  split
  · exact .refl _ _
  · split
    · exact withCirc_frame s _
    · exact .refl _ _

theorem changeAdmin_frame (s : State) (id : Nat) (a : AdminState) :
    OnlyChanges [.circ, .bwdOut] s (s.changeAdmin id a) := by
  unfold State.changeAdmin
  split
  · exact ((updGroup_frame s id _).mono (by decide)).trans (drainCheck_frame _ _ _)
  · exact (updGroup_frame s id _).mono (by decide)

theorem setGroupState_frame (id adminByte : Nat) (s : State) :
    OnlyChanges [.circ, .bwdOut] s (setGroupState id adminByte s).state := by
  unfold setGroupState
  split
  · exact .refl _ _
  · exact .refl _ _
  · exact .refl _ _
  · dsimp only [Answer.ok]
    split
    · exact .refl _ _
    · exact changeAdmin_frame s id _

theorem localBlock_frame (c : Nat) (b : Bool) (s : State) : OnlyChanges [.circ] s (localBlock c b s).state := by
  unfold localBlock
  split
  · exact .refl _ _
  · split
    · exact .refl _ _
    · exact recast_frame s c _

/-! ### Carriers (R111, R112, R116, R117) -/

theorem declareCarrier_frame (id : Nat) (body : Option Tariff) (s : State) :
    OnlyChanges [.tariffs] s (declareCarrier id body s).state := by
  unfold declareCarrier
  split
  · split
    · exact .refl _ _
    · exact withTariffs_frame s _
  · exact .refl _ _

theorem removeCarrier_frame (id : Nat) (s : State) : OnlyChanges [.tariffs] s (removeCarrier id s).state := by
  unfold removeCarrier
  split
  · exact .refl _ _
  · split
    · exact .refl _ _
    · split
      · exact .refl _ _
      · exact withTariffs_frame s _

theorem loadTariff_frame (r : LoadTariffReq) (s : State) : OnlyChanges [.tariffs] s (loadTariff r s).state := by
  unfold loadTariff
  split
  · split
    · exact .refl _ _
    · exact updCarrier_frame s _ _
  · exact .refl _ _

theorem pinCarrier_frame (id : Nat) (s : State) : OnlyChanges [.tariffs] s (pinCarrier id s).state := by
  unfold pinCarrier
  split
  · exact .refl _ _
  · split
    · exact .refl _ _
    · exact updCarrier_frame s _ _

theorem unpinCarrier_frame (id : Nat) (s : State) : OnlyChanges [.tariffs] s (unpinCarrier id s).state := by
  unfold unpinCarrier
  split
  · exact .refl _ _
  · split
    · exact .refl _ _
    · exact updCarrier_frame s _ _

end Sys2Proof.Machine
end

