-- ==== Sys2Proof/Proofs/StepSettlementLaw.lean ====
section
/-! SUPPORT and CERTIFICATE. Every command keeps the law of the Settlement Queue (R138, R141, R143 to R148, R151) on the
strength of this law and of parameters in range alone. Most of a command moves the reservations at most, and the law does not
read them; a record joins in the rating of a Connected call, and the event that rates looks at the condition of R143. -/
namespace Sys2Proof.Machine

variable {s t u v : State} {i : Nat} {c : Context}

/-! ### The law, and what it does not read -/

/-- The law of the Settlement Queue, with the parameters in range that its batches need (R144, R178). -/
def State.ExportLaw (s : State) : Prop := s.settle.law ∧ s.mgmt.params.valid = true

/-- From `s` to `t` the Settlement Queue changes in its reservations at most, and the global parameters stay (R139, R140). -/
def OnlyReserves (s t : State) : Prop :=
  (∃ n, t.settle = { s.settle with reservations := n }) ∧ t.mgmt.params = s.mgmt.params

theorem OnlyReserves.refl (s : State) : OnlyReserves s s := ⟨⟨_, rfl⟩, rfl⟩

theorem OnlyReserves.trans (h : OnlyReserves s t) (h' : OnlyReserves t u) : OnlyReserves s u := by
  obtain ⟨⟨_, hs⟩, hp⟩ := h
  obtain ⟨⟨n, hs'⟩, hp'⟩ := h'
  exact ⟨⟨n, by rw [hs', hs]⟩, hp'.trans hp⟩

theorem OnlyReserves.exportLaw (h : OnlyReserves s t) (hl : s.ExportLaw) : t.ExportLaw := by
  obtain ⟨⟨_, hs⟩, hp⟩ := h
  unfold State.ExportLaw
  rw [hs, hp]
  exact hl

/-- An operation that leaves queue and parameters alone. -/
theorem OnlyChanges.onlyReserves {parts : List Part} (hf : OnlyChanges parts s t) (hs : Part.settle ∉ parts := by decide)
    (hm : Part.mgmt ∉ parts := by decide) : OnlyReserves s t := by
  have es : t.settle = s.settle := hf .settle hs
  have em : t.mgmt = s.mgmt := hf .mgmt hm
  exact ⟨⟨_, es⟩, by rw [em]⟩

theorem OnlyChanges.exportLaw {parts : List Part} (hf : OnlyChanges parts s t) (hl : s.ExportLaw)
    (hs : Part.settle ∉ parts := by decide) (hm : Part.mgmt ∉ parts := by decide) : t.ExportLaw :=
  (hf.onlyReserves hs hm).exportLaw hl

/-! ### The selection pass and reselection (R14, R62 to R68) -/

theorem seizeCircuit_onlyReserves (s : State) (now : ExTime) (i l k g n : Nat) (q : Option Quote) :
    OnlyReserves s (s.seizeCircuit now i l k g n q) :=
  ⟨⟨_, seizeCircuit_settle s now i l k g n q⟩,
    congrArg ManagementAgent.params (seizeCircuit_frame s now i l k g n q .mgmt (by decide))⟩

theorem passLoop_onlyReserves (s : State) (now : ExTime) (i l : Nat) (ks : List Nat) (reasons : List Reason) :
    OnlyReserves s (passLoop now i l ks reasons s).1 := by
  induction ks generalizing reasons s with
  | nil => exact .refl _
  | cons k ks ih =>
    unfold passLoop
    split
    · rename_i c ch _ _
      split
      · exact ih _ _
      · split
        · exact ih _ _
        · extract_lets s1
          have examined : OnlyReserves s (s1.examine now k c.priority ch).1 :=
            (turnedTo_frame s i k).onlyReserves.trans (examine_frame s1 now k c.priority ch).onlyReserves
          have failed {s2 : State} (hs : OnlyReserves s s2) (rs : List Reason) :
              OnlyReserves s (passLoop now i l ks rs (s2.choiceFailed i l k ch.group)).1 :=
            hs.trans ((choiceFailed_frame s2 i l k ch.group).onlyReserves.trans (ih _ _))
          split
          · rename_i he; rw [he] at examined; exact failed examined _
          · rename_i he
            rw [he] at examined
            split
            · exact examined.trans (seizeCircuit_onlyReserves _ _ _ _ _ _ _ _)
            · exact failed examined _
    · exact ih _ _

theorem selectionPass_onlyReserves (s : State) (now : ExTime) (i l : Nat) :
    OnlyReserves s (s.selectionPass now i l).1 := by
  unfold State.selectionPass
  split
  · exact .refl _
  · split
    · exact .refl _
    · exact passLoop_onlyReserves _ _ _ _ _ _

theorem reselect_onlyReserves (s : State) (now : ExTime) (i : Nat) (instead : Option Cause) :
    OnlyReserves s (s.reselect now i instead) := by
  unfold State.reselect
  split
  · exact .refl _
  · rename_i c _
    extract_lets s1
    have passed : OnlyReserves s (s1.selectionPass now i c.list).1 :=
      (countList_frame s c.list _).onlyReserves.trans (selectionPass_onlyReserves s1 now i c.list)
    split
    · rename_i he
      rw [he] at passed
      exact passed.trans (proceed_frame _ _ _ _).onlyReserves
    · rename_i he
      rw [he] at passed
      exact passed.trans ((countList_frame _ _ _).onlyReserves.trans (failCall_frame _ _ _).onlyReserves)

/-! ### The loss of a circuit (R15, R17, R18): a call in Proceeding is not rated (R10) -/

theorem loseCircuit_onlyReserves (hp : Proceeds i s) (now : ExTime) (l g : Nat) (cause : Cause) :
    OnlyReserves s (s.loseCircuit now i l g cause) := by
  obtain ⟨c, hc, hphase⟩ := hp
  have tried : ((s.updContext i fun c => c.addTried g).updList l fun r => r.pastLost g).context i = some (c.addTried g) := by
    rw [(updList_frame _ _ _).context_eq (by decide), State.updContext_context]; simp [hc]
  have unrated : (c.addTried g).phase ≠ .connected := by rw [(c.addTried_same g).1, hphase]; simp
  obtain ⟨hsettle, hf⟩ := dispose_unrated_settle tried (.inr unrated) now
  exact ⟨⟨_, hsettle⟩, congrArg ManagementAgent.params (hf .mgmt (by decide))⟩

/-- What follows the report on the group of a lost circuit: its probe ends, the call loses it and reselects. -/
theorem lost_onlyReserves (hp : Proceeds i s) (now : ExTime) (l g : Nat) (cause : Cause) (instead : Option Cause) :
    OnlyReserves s (((s.endProbe i g).loseCircuit now i l g cause).reselect now i instead) :=
  (endProbe_frame s i g).onlyReserves.trans
    ((loseCircuit_onlyReserves (hp.endProbe g) now l g cause).trans (reselect_onlyReserves _ now i instead))

/-- The same after operations that touch neither contexts nor queue nor parameters. -/
theorem lost_after_onlyReserves {parts : List Part} (hf : OnlyChanges parts s t)
    (hparts : ∀ p ∈ [Part.ctx, .settle, .mgmt], p ∉ parts) (hp : Proceeds i s) (now : ExTime) (l g : Nat) (cause : Cause)
    (instead : Option Cause) :
    OnlyReserves s (((t.endProbe i g).loseCircuit now i l g cause).reselect now i instead) :=
  (hf.onlyReserves (hparts _ (by decide)) (hparts _ (by decide))).trans
    (lost_onlyReserves (hp.of_frame hf (hparts _ (by decide))) now l g cause instead)

theorem crankback_onlyReserves (hc : s.context i = some c) (hp : c.phase = .proceeding) (g k : Nat) (cause : Cause) :
    OnlyReserves s (s.crankback i g k cause c) := by
  unfold State.crankback
  extract_lets now s1 s2
  have f1 : OnlyChanges [.circ, .fwdOut, .bwdOut] s s1 :=
    ((emitFwd_frame s _).mono (by decide)).trans (((enterGuard_frame _ now k).mono (by decide)).trans
      ((updTraffic_frame _ g _).mono (by decide)))
  have f2 : OnlyChanges [.circ, .fwdOut, .bwdOut] s s2 := by
    dsimp only [s2]
    split
    · exact f1.trans ((healthFailure_frame s1 now g).mono (by decide))
    · exact f1
  exact lost_after_onlyReserves f2 (by decide) ⟨c, hc, hp⟩ now c.list g cause none

theorem noResponse_onlyReserves (hc : s.context i = some c) (hp : c.phase = .proceeding) (g k : Nat) :
    OnlyReserves s (s.noResponse i g k c) := by
  have f1 : OnlyChanges [.circ, .fwdOut, .bwdOut] s
      (((s.emitFwd (.release k Cause.noResponse.value)).enterReleasing k).healthFailure s.time.tickTime g) :=
    ((emitFwd_frame s _).mono (by decide)).trans (((enterReleasing_frame _ k).mono (by decide)).trans
      ((healthFailure_frame _ _ g).mono (by decide)))
  exact lost_after_onlyReserves f1 (by decide) ⟨c, hc, hp⟩ s.time.tickTime c.list g .noResponse _

theorem glareLost_onlyReserves (hc : s.context i = some c) (hp : c.phase = .proceeding) (g : Nat) :
    OnlyReserves s (s.glareLost i g c) :=
  lost_after_onlyReserves (updTraffic_frame s g _) (by decide) ⟨c, hc, hp⟩ s.time.now c.list g .congestion _

/-! ### The end of a call by a Release (R16, R20): the event that rates looks at the condition of R143 -/

/-- The disposal of a seizure: a record joins at most where the call was rated. -/
theorem dispose_lawUpTo (h : s.ExportLaw) (hc : s.context i = some c) (now : ExTime) :
    (s.dispose now i).settle.lawUpTo c.rated := by
  obtain ⟨hl, -⟩ := h
  have hl : s.settle.lawUpTo false := (SettlementQueue.lawUpTo_false _).mpr hl
  cases hr : c.rated with
  | false =>
    have unrated : c.quote = none ∨ c.phase ≠ .connected := by
      simp only [Context.rated, Bool.and_eq_false_iff, decide_eq_false_iff_not, Option.isSome_eq_false_iff,
        Option.isNone_iff_eq_none] at hr
      exact hr.symm
    rw [(dispose_unrated_settle hc unrated now).1]
    exact hl
  | true =>
    simp only [State.dispose, hc, State.updContext_settle]
    split
    · exact SettlementQueue.append_lawUpTo hl _
    · split <;> exact hl.rated

theorem exportIf_exportLaw {rated : Bool} (h : s.settle.lawUpTo rated) (hp : s.mgmt.params.valid = true) :
    (s.exportIf rated).ExportLaw := by
  cases rated with
  | false => exact ⟨(SettlementQueue.lawUpTo_false _).mp h, hp⟩
  | true => exact ⟨exportLook_law h hp, (exportLook_frame s .mgmt (by decide)) ▸ hp⟩

/-- A call ends: its circuit has been let go (`u`), its probe ends in Proceeding (R9), its seizure is disposed of, its context
is freed or cleared (`v`), and the look of R143 comes last (log entry 11). -/
theorem callEnds_exportLaw {parts : List Part} (h : s.ExportLaw) (hc : s.context i = some c) (hf : OnlyChanges parts s u)
    (hparts : ∀ p ∈ [Part.ctx, .settle, .mgmt], p ∉ parts) {g : Nat} {now : ExTime}
    (hv : OnlyChanges [.ctx, .bwdOut] ((if c.phase = .proceeding then u.endProbe i g else u).dispose now i) v) :
    (v.exportIf c.rated).ExportLaw := by
  generalize ht : (if c.phase = .proceeding then u.endProbe i g else u) = t at hv
  have hu : u.ExportLaw := hf.exportLaw h (hparts _ (by decide)) (hparts _ (by decide))
  have same : SameButProbe i c u := SameButProbe.of_frame ⟨c.probe, hc⟩ hf (hparts _ (by decide))
  obtain ⟨htl, b, hb⟩ : t.ExportLaw ∧ SameButProbe i c t := by
    rw [← ht]
    split
    · exact ⟨(endProbe_frame u i g).exportLaw hu, same.endProbe g⟩
    · exact ⟨hu, same⟩
  have es : v.settle = (t.dispose now i).settle := hv .settle (by decide)
  have em : v.mgmt = t.mgmt := (hv .mgmt (by decide)).trans (dispose_frame t now i .mgmt (by decide))
  refine exportIf_exportLaw ?_ ?_
  · rw [es]; exact dispose_lawUpTo htl hb now
  · rw [em]; exact htl.2

theorem originEnds_exportLaw (h : s.ExportLaw) (hc : s.context i = some c) (g k cause : Nat) :
    (s.originEnds i g k cause c).ExportLaw := by
  have letsGo : OnlyChanges [.circ, .fwdOut, .bwdOut] s
      (((s.emitBwd (.releaseConfirm c.callRef)).emitFwd (.release k cause)).enterReleasing k) :=
    ((emitBwd_frame s _).mono (by decide)).trans (((emitFwd_frame _ _).mono (by decide)).trans
      ((enterReleasing_frame _ k).mono (by decide)))
  exact callEnds_exportLaw h hc letsGo (by decide) (free_frame _ _ i)

theorem farEnds_exportLaw (h : s.ExportLaw) (hc : s.context i = some c) (g k cause : Nat) :
    (s.farEnds i g k cause c).ExportLaw := by
  let s1 := (s.emitFwd (.releaseConfirm k)).enterGuard s.time.now k
  let s2 := if c.phase = .proceeding ∧ cause = Cause.circuitFailure.value then s1.healthFailure s.time.now g else s1
  have letsGo : OnlyChanges [.circ, .fwdOut, .bwdOut] s s2 := by
    have guarded : OnlyChanges [.circ, .fwdOut, .bwdOut] s s1 :=
      ((emitFwd_frame s _).mono (by decide)).trans ((enterGuard_frame _ _ k).mono (by decide))
    dsimp only [s2]
    split
    · exact guarded.trans ((healthFailure_frame s1 _ g).mono (by decide))
    · exact guarded
  have e : s.farLetsGo i g k cause c = if c.phase = .proceeding then s2.endProbe i g else s2 := by
    by_cases hp : c.phase = .proceeding <;> simp only [State.farLetsGo, s2, s1, hp, true_and, false_and, if_true, if_false]
  rw [farEnds_eq, e]
  exact callEnds_exportLaw h hc letsGo (by decide)
    (((emitBwd_frame _ _).mono (by decide)).trans ((startClearing_frame _ i).mono (by decide)))

theorem originRelease_exportLaw (h : s.ExportLaw) (i cause : Nat) : (s.originRelease i cause).ExportLaw := by
  unfold State.originRelease
  split
  · exact h
  · rename_i c hc
    split
    · exact (free_frame (s.emitBwd (.releaseConfirm c.callRef)) _ i).exportLaw h
    · exact originEnds_exportLaw h hc _ _ cause
    · exact h

theorem contextRelease_exportLaw (h : s.ExportLaw) (i cause : Nat) : (s.contextRelease i cause).ExportLaw := by
  unfold State.contextRelease
  split
  · exact h
  · rename_i c hc
    split
    · exact h
    · split
      · rename_i hp _
        exact (crankback_onlyReserves hc hp _ _ _).exportLaw h
      · exact farEnds_exportLaw h hc _ _ cause

/-! ### Far seizures (R42, R43) -/

theorem glare_onlyReserves (s : State) (i k : Nat) (r : Group) (g : Nat) : OnlyReserves s (s.glare i k r g) := by
  unfold State.glare
  split
  · exact .refl _
  · rename_i c hc
    split
    · rename_i hp
      split
      · exact .refl _
      · have taken := recast_frame s k fun x => { x with cond := .farSeized }
        exact taken.onlyReserves.trans
          (glareLost_onlyReserves ((taken.context_eq (by decide) i).trans hc) hp g)
    · exact .refl _

theorem farSeize_onlyReserves (s : State) (k : Nat) (c : Circuit) : OnlyReserves s (s.farSeize k c) := by
  have taken : OnlyReserves s (s.farTakes k) := (recast_frame s k _).onlyReserves
  unfold State.farSeize
  split
  · exact .refl _
  · split
    · exact .refl _
    · split
      · exact .refl _
      · exact taken
    · exact taken
    · exact glare_onlyReserves s _ k _ _
    · exact .refl _
    · exact .refl _

/-! ### Setup (R6, R7, R61) -/

theorem refuseRouted_onlyReserves (s : State) (now : ExTime) (i : Nat) (m : SetupMsg) (cause : Cause) :
    OnlyReserves s (s.refuseRouted now i m cause) :=
  (free_frame (s.emitBwd (.refuse m.callRef m.inCircuit cause)) now i).onlyReserves

theorem routePass_onlyReserves (s : State) (now : ExTime) (i l : Nat) (m : SetupMsg) :
    OnlyReserves s (s.routePass now i l m) := by
  have passed := selectionPass_onlyReserves s now i l
  unfold State.routePass
  split
  · rename_i he
    rw [he] at passed
    exact passed.trans (proceed_frame _ _ _ _).onlyReserves
  · rename_i he
    rw [he] at passed
    exact passed.trans ((countList_frame _ _ _).onlyReserves.trans
      (refuseRouted_onlyReserves _ _ _ _ _))

theorem routeOver_onlyReserves (s : State) (now : ExTime) (i l : Nat) (m : SetupMsg) :
    OnlyReserves s (s.routeOver now i l m) := by
  unfold State.routeOver
  extract_lets s1
  split
  · exact routePass_onlyReserves (s1.updList l _) now i l m
  · exact refuseRouted_onlyReserves (s1.countList l _) now i m _

theorem route_onlyReserves (s : State) (now : ExTime) (i : Nat) (m : SetupMsg) : OnlyReserves s (s.route now i m) := by
  unfold State.route
  extract_lets r s1
  cases r
  case toList l => exact routeOver_onlyReserves s1 now i l m
  all_goals exact refuseRouted_onlyReserves s1 now i m _

theorem takeSetup_onlyReserves (s : State) (m : SetupMsg) : OnlyReserves s (s.takeSetup m) := by
  have refused : ∀ cause, OnlyReserves s (s.setupCounted.refuseEarly m cause) := fun _ => .refl _
  rw [takeSetup_eq]
  split
  · exact refused _
  · split
    · exact refused _
    · cases s.idleContext with
      | none => exact refused _
      | some i =>
        simp only [Option.elim]
        split
        · exact refused _
        · exact (allocate_frame s.setupCounted _ i _).onlyReserves.trans
            (route_onlyReserves _ _ i m)

/-! ### The collector (R143, R145 to R148) -/

theorem batchAccept_exportLaw (h : s.ExportLaw) : (s.withSettle s.settle.accept).exportLook.ExportLaw := by
  obtain ⟨hl, hp⟩ := h
  have hl : s.settle.lawUpTo false := (SettlementQueue.lawUpTo_false _).mpr hl
  exact exportIf_exportLaw (s := s.withSettle s.settle.accept) (rated := true) (SettlementQueue.accept_lawUpTo hl) hp

/-- An Export Resume goes on by the state that it finds (R148). -/
theorem exportResume_exportLaw (h : s.ExportLaw) :
    let u := s.withSettle { s.settle with halt := false }
    (s.settle.exportState = .ready → u.exportLook.ExportLaw) ∧ (s.settle.exportState = .awaitingAccept → u.ExportLaw)
      ∧ (s.settle.exportState = .stalled → u.resendBatch.ExportLaw) := by
  obtain ⟨hl, hp⟩ := h
  intro u
  have resumed : u.settle.lawUpTo true := SettlementQueue.resumed_lawUpTo hl
  have busy : u.settle.exportState ≠ .ready → u.settle.law := resumed.law_of_busy
  exact ⟨fun _ => exportIf_exportLaw (s := u) (rated := true) resumed hp,
    fun he => ⟨busy fun e => absurd (he.symm.trans e) (by simp), hp⟩,
    fun he => ⟨resendBatch_law (s := u) (busy fun e => absurd (he.symm.trans e) (by simp)) he, hp⟩⟩

theorem expireAccept_exportLaw (h : s.ExportLaw) : s.expireAccept.ExportLaw := by
  obtain ⟨hl, hp⟩ := h
  unfold State.expireAccept
  dsimp only
  split
  · rename_i hc; exact ⟨SettlementQueue.stalled_law hl hc.2 _, hp⟩
  · exact ⟨hl, hp⟩

/-! ### Expiries and the tick (R17, R22, R32, R35, R79, R88, R98, R152 to R158) -/

theorem expireProceed_onlyReserves (s : State) (i : Nat) : OnlyReserves s (s.expireProceed i) := by
  unfold State.expireProceed
  split
  · exact .refl _
  · rename_i c hc
    split
    · rename_i hp _ _
      exact noResponse_onlyReserves hc hp _ _
    · exact .refl _

theorem expireClear_onlyReserves (s : State) (i : Nat) : OnlyReserves s (s.expireClear i) := by
  unfold State.expireClear
  split
  · exact .refl _
  · split
    · exact (free_frame s _ i).onlyReserves
    · exact .refl _

theorem expireGuard_onlyReserves (s : State) (g : Nat) : OnlyReserves s (s.expireGuard g) := by
  unfold State.expireGuard
  split
  · exact .refl _
  · split
    · exact .refl _
    · split
      · split
        · exact (recast_frame s _ _).onlyReserves
        · exact .refl _
      · exact .refl _

theorem expireClearing_onlyReserves (s : State) (k : Nat) : OnlyReserves s (s.expireClearing k) := by
  unfold State.expireClearing
  split
  · exact .refl _
  · split
    · split
      · exact (recast_frame s k _).onlyReserves.trans
          (notifyAll_frame (State.markDrained _ _) _ _).onlyReserves
      · exact .refl _
    · exact .refl _

theorem expireProbe_onlyReserves (s : State) (g : Nat) : OnlyReserves s (s.expireProbe g) := by
  unfold State.expireProbe
  split
  · exact .refl _
  · split <;> exact .refl _

theorem expireGap_onlyReserves (s : State) (l : Nat) : OnlyReserves s (s.expireGap l) := by
  unfold State.expireGap
  split <;> exact .refl _

theorem evaluateGroups_onlyReserves (gs : List Nat) (s : State) : OnlyReserves s (gs.foldl State.evaluateGroup s) := by
  induction gs generalizing s with
  | nil => exact .refl _
  | cons g gs ih => exact (evaluateGroup_sampled s g).frame.onlyReserves.trans (ih _)

theorem expireSample_onlyReserves (s : State) : OnlyReserves s s.expireSample := by
  unfold State.expireSample
  split
  · exact (evaluateGroups_onlyReserves _ s).trans
      (notifyAll_frame (State.restartSample _) _ _).onlyReserves
  · exact .refl _

theorem expire_exportLaw (h : s.ExportLaw) (id : TimerId) : (s.expire id).ExportLaw := by
  cases id with
  | supervision i => exact ((expireProceed_onlyReserves s i).trans (expireClear_onlyReserves _ i)).exportLaw h
  | guard g => exact (expireGuard_onlyReserves s g).exportLaw h
  | clearing k => exact (expireClearing_onlyReserves s k).exportLaw h
  | probe g => exact (expireProbe_onlyReserves s g).exportLaw h
  | gap l => exact (expireGap_onlyReserves s l).exportLaw h
  | accept => exact expireAccept_exportLaw h
  | sample => exact (expireSample_onlyReserves s).exportLaw h

theorem expireAll_exportLaw (ids : List TimerId) (h : s.ExportLaw) : (s.expireAll ids).ExportLaw := by
  induction ids generalizing s with
  | nil => exact h
  | cons id ids ih => exact ih (expire_exportLaw h id)

/-- Expiries taken in any order keep the law. -/
theorem ExpiriesTaken.exportLaw {ids : List TimerId} (ht : ExpiriesTaken ids s t) (h : s.ExportLaw) : t.ExportLaw := by
  obtain ⟨d, rfl⟩ := ht
  rw [← expireAll_eq_ran]
  exact expireAll_exportLaw (s := { s with draws := d }) ids h

theorem wholeSecond_onlyReserves (s : State) (now : ExTime) : OnlyReserves s (s.wholeSecond now) := by
  obtain ⟨-, -, -, hf⟩ := wholeSecond_of s now
  exact hf.onlyReserves

theorem advance_exportLaw (h : s.ExportLaw) : s.advance.ExportLaw := by
  unfold State.advance
  extract_lets s1
  split
  · obtain ⟨_, _, v, -, hv, -, he⟩ := secondEvent_stands s1
    rw [he]
    exact (wholeSecond_onlyReserves v _).exportLaw (hv.exportLaw h)
  · exact h

/-- The tick takes the expiries that stand, and then its own (R157, R158). -/
theorem tick_exportLaw (h : s.ExportLaw) : s.settleExpiries.advance.ExportLaw := by
  obtain ⟨_, -, ht, -⟩ := settleExpiries_taken s
  exact advance_exportLaw (ht.exportLaw h)

/-! ### Requests on queue and parameters (R151, R175, R178, R180) -/

theorem enterService_onlyReserves (s : State) : OnlyReserves s (enterService s).state := by
  unfold enterService
  split <;> exact .refl _

theorem restartRequest_exportLaw (h : s.ExportLaw) (force : Bool) : (restartRequest force s).state.ExportLaw := by
  obtain ⟨hl, hp⟩ := h
  unfold restartRequest
  split
  · exact ⟨hl, hp⟩
  · exact (notifyAll_frame s.cleared s.time.now s.circ.restartNotices).exportLaw
      ⟨SettlementQueue.restart_law hl, hp⟩

/-- Only parameters in range are taken (R178). -/
theorem setGlobalParameters_exportLaw (h : s.ExportLaw) (g : GlobalParams) : (setGlobalParameters g s).state.ExportLaw := by
  obtain ⟨hl, hp⟩ := h
  unfold setGlobalParameters
  split
  · rename_i hg
    dsimp only [Answer.ok]
    have taken : (s.withMgmt { s.mgmt with params := g }).ExportLaw := ⟨hl, hg⟩
    split
    · exact taken
    · exact (compareBoth_frame _ _).exportLaw taken
  · exact ⟨hl, hp⟩

/-! ### Taking a message -/

theorem takeHead_exportLaw (h : s.ExportLaw) (port : Port) (p : Frame → Bool) {act : Frame → State → State}
    (hact : ∀ f u, u.ExportLaw → (act f u).ExportLaw) : (takeHead port p act s).ExportLaw := by
  unfold takeHead
  split
  · exact h
  · split
    · exact hact _ _ ((withPort_frame s port _).exportLaw h)
    · exact h

/-- A message that moves the reservations at most. -/
theorem reservingHead_exportLaw (h : s.ExportLaw) (port : Port) (p : Frame → Bool) {act : Frame → State → State}
    (hact : ∀ f u, OnlyReserves u (act f u)) : (takeHead port p act s).ExportLaw :=
  takeHead_exportLaw h port p fun f u hu => (hact f u).exportLaw hu

theorem takeRequest_exportLaw (h : s.ExportLaw) (code : Nat) {act : List Byte → State → Answer}
    (hact : ∀ p u, u.ExportLaw → (act p u).state.ExportLaw) : (takeRequest code act s).ExportLaw := by
  refine takeHead_exportLaw h _ _ fun f u hu => ?_
  change (Answer.state _).ExportLaw
  split
  · exact hact _ _ hu
  · exact hu

/-- A request that works on other blocks. -/
theorem frameRequest_exportLaw (h : s.ExportLaw) (code : Nat) {act : List Byte → State → Answer} (parts : List Part)
    (hact : ∀ p u, OnlyChanges parts u (act p u).state) (hs : Part.settle ∉ parts := by decide)
    (hm : Part.mgmt ∉ parts := by decide) : (takeRequest code act s).ExportLaw :=
  takeRequest_exportLaw h code fun p u hu => (hact p u).exportLaw hu hs hm

/-- A request that reads. -/
theorem readRequest_exportLaw (h : s.ExportLaw) (code : Nat) {act : List Byte → State → Answer}
    (hact : ∀ p u, (act p u).state = u) : (takeRequest code act s).ExportLaw :=
  takeRequest_exportLaw h code fun p u hu => (hact p u).symm ▸ hu

/-- A far message moves the reservations at most where what its circuit makes of it does. -/
theorem onCircuit_onlyReserves {act : Nat → Circuit → State → State} (f : Frame) (s : State)
    (hact : ∀ k c, OnlyReserves s (act k c s)) : OnlyReserves s (onCircuit act f s) := by
  unfold onCircuit
  split
  · exact .refl _
  · exact hact _ _

/-! ### Every command -/

/-- Every command keeps the law of the Settlement Queue, and parameters in range. -/
theorem exec_exportLaw (c : Instr) (h : s.ExportLaw) (he : exec c s = .next t) : t.ExportLaw := by
  cases c <;> cases he
  case hardReset => exact ⟨reset_law.settle, reset_law.params⟩
  case resetRelease => split <;> exact h
  case referenceTick =>
    split
    · exact h
    · exact tick_exportLaw h
  case messageArrival p f =>
    split
    · exact h
    · exact (arrive_frame s p f).exportLaw h
  case passThrough p =>
    exact reservingHead_exportLaw h _ _ fun f u =>
      (withPort_frame u p _).onlyReserves.trans (emitOn_frame _ p _).onlyReserves
  case setup => exact reservingHead_exportLaw h _ _ fun f u => takeSetup_onlyReserves u _
  case originRelease =>
    refine takeHead_exportLaw h _ _ fun f u hu => ?_
    split
    · exact originRelease_exportLaw hu _ _
    · exact hu
  case originReleaseConfirm =>
    refine reservingHead_exportLaw h _ _ fun f u => ?_
    split
    · exact .refl _
    · split
      · exact .refl _
      · split
        · exact (free_frame u _ _).onlyReserves
        · exact .refl _
  case progress =>
    refine reservingHead_exportLaw h _ _ fun f u => onCircuit_onlyReserves f u fun k c => ?_
    split
    · exact (contextProgress_frame u _).onlyReserves
    · exact .refl _
  case answer =>
    refine reservingHead_exportLaw h _ _ fun f u => onCircuit_onlyReserves f u fun k c => ?_
    split
    · exact (contextAnswer_frame u _).onlyReserves
    · exact .refl _
  case farRelease =>
    refine takeHead_exportLaw h _ _ fun f u hu => ?_
    dsimp only [onCircuit]
    split
    · exact hu
    · split
      · exact contextRelease_exportLaw hu _ _
      · exact (enterGuard_frame (u.emitFwd _) _ _).exportLaw hu
      · exact hu
  case farReleaseConfirm =>
    refine reservingHead_exportLaw h _ _ fun f u => onCircuit_onlyReserves f u fun k c => ?_
    split
    · exact .refl _
    · exact (enterGuard_frame u _ k).onlyReserves
    · exact .refl _
  case block | unblock =>
    exact reservingHead_exportLaw h _ _ fun f u => onCircuit_onlyReserves f u fun k _ =>
      (recast_frame u k _).onlyReserves
  case farSeize =>
    exact reservingHead_exportLaw h _ _ fun f u => onCircuit_onlyReserves f u fun k c => farSeize_onlyReserves u k c
  case farClear =>
    refine reservingHead_exportLaw h _ _ fun f u => onCircuit_onlyReserves f u fun k c => ?_
    split
    · exact (enterGuard_frame u _ k).onlyReserves
    · exact .refl _
  case tariffOffer =>
    exact reservingHead_exportLaw h _ _ fun f u => (offerArrived_frame u _).onlyReserves.trans
      (takeOffer_frame u _).onlyReserves
  case batchAccept =>
    refine takeHead_exportLaw h _ _ fun f u hu => ?_
    split
    · exact batchAccept_exportLaw hu
    · exact hu
  case exportHalt => exact takeHead_exportLaw h _ _ fun f u hu => ⟨SettlementQueue.halted_law hu.1, hu.2⟩
  case exportResume =>
    refine takeHead_exportLaw h _ _ fun f u hu => ?_
    obtain ⟨ready, awaiting, stalled⟩ := exportResume_exportLaw hu
    dsimp only
    split
    · rename_i he; exact ready he
    · rename_i he; exact awaiting he
    · rename_i he; exact stalled he
  case tProceedExpiry i => exact (expireProceed_onlyReserves s i).exportLaw h
  case tClearExpiry i => exact (expireClear_onlyReserves s i).exportLaw h
  case guardExpiry g => exact (expireGuard_onlyReserves s g).exportLaw h
  case clearingExpiry k => exact (expireClearing_onlyReserves s k).exportLaw h
  case probeTimerExpiry g => exact (expireProbe_onlyReserves s g).exportLaw h
  case gapTimerExpiry l => exact (expireGap_onlyReserves s l).exportLaw h
  case acceptTimerExpiry => exact expireAccept_exportLaw h
  case sampleExpiry => exact (expireSample_onlyReserves s).exportLaw h
  case unknownRequest => exact reservingHead_exportLaw h _ _ fun _ _ => .refl _
  case enterService => exact takeRequest_exportLaw h _ fun _ u hu => (enterService_onlyReserves u).exportLaw hu
  case quiesce => exact takeRequest_exportLaw h _ fun _ _ hu => hu
  case restart => exact takeRequest_exportLaw h _ fun _ _ hu => restartRequest_exportLaw hu _
  case readDeviceStatus => exact readRequest_exportLaw h _ fun _ _ => rfl
  case clearErrorFlags => exact takeRequest_exportLaw h _ fun _ _ hu => hu
  case setExchangeTime => exact frameRequest_exportLaw h _ [.time] fun _ u => setExchangeTime_frame _ _ u
  case setGlobalParameters => exact takeRequest_exportLaw h _ fun _ _ hu => setGlobalParameters_exportLaw hu _
  case loadDestination => exact frameRequest_exportLaw h _ [.routes] fun _ u => loadDestination_frame _ u
  case deleteDestination => exact frameRequest_exportLaw h _ [.routes] fun _ u => deleteDestination_frame _ u
  case lookupDestination => exact readRequest_exportLaw h _ fun _ u => lookupDestination_state _ u
  case loadRouteList => exact frameRequest_exportLaw h _ [.routes] fun _ u => loadRouteList_frame _ u
  case restartGap => exact frameRequest_exportLaw h _ [.routes] fun _ u => restartGap_frame _ u
  case loadThresholdSet => exact frameRequest_exportLaw h _ [.mon] fun _ u => loadThresholdSet_frame _ _ u
  case loadTrunkGroup => exact frameRequest_exportLaw h _ [.circ] fun _ u => loadTrunkGroup_frame _ u
  case removeTrunkGroup => exact frameRequest_exportLaw h _ [.circ] fun _ u => removeTrunkGroup_frame _ u
  case setGroupState => exact frameRequest_exportLaw h _ [.circ, .bwdOut] fun _ u => setGroupState_frame _ _ u
  case blockCircuit | unblockCircuit => exact frameRequest_exportLaw h _ [.circ] fun _ u => localBlock_frame _ _ u
  case declareCarrier => exact frameRequest_exportLaw h _ [.tariffs] fun _ u => declareCarrier_frame _ _ u
  case removeCarrier => exact frameRequest_exportLaw h _ [.tariffs] fun _ u => removeCarrier_frame _ u
  case loadTariff => exact frameRequest_exportLaw h _ [.tariffs] fun _ u => loadTariff_frame _ u
  case pinCarrier => exact frameRequest_exportLaw h _ [.tariffs] fun _ u => pinCarrier_frame _ u
  case unpinCarrier => exact frameRequest_exportLaw h _ [.tariffs] fun _ u => unpinCarrier_frame _ u
  case readGroup => exact readRequest_exportLaw h _ fun _ u => readGroup_state _ u
  case readCircuit => exact readRequest_exportLaw h _ fun _ u => readCircuit_state _ u
  case readContext => exact readRequest_exportLaw h _ fun _ u => readContext_state _ u
  case readRouteList => exact readRequest_exportLaw h _ fun _ u => readRouteList_state _ u
  case readCarrier => exact readRequest_exportLaw h _ fun _ u => readCarrier_state _ u
  case latchCounters => exact frameRequest_exportLaw h _ [.mon] fun _ u => latchCounters_frame _ _ u
  case readLatched => exact readRequest_exportLaw h _ fun _ u => readLatched_state u

/-- Settles O58: a step is its front command, and each command keeps the law by what it does to queue and parameters. -/
theorem stepKeepsSettlementLaw : Obligations.StepKeepsSettlementLaw := by
  unfold Obligations.StepKeepsSettlementLaw
  intro s t hl hp he
  unfold step at he
  split at he
  · cases he; exact ⟨hl, hp⟩
  · rename_i rest _
    exact exec_exportLaw (s := { s with pending := rest }) _ ⟨hl, hp⟩ he

end Sys2Proof.Machine
end

