-- ==== Sys2Proof/Proofs/CollectorEvents.lean ====
section
/-! CERTIFICATE. What the settlement collector's three messages make of the Settlement Queue, by the state that they find
(R143 to R145, R147, R148). -/
namespace Sys2Proof.Machine

variable {s : State} {f : Frame} {rest : List Frame}

/-! ### Batches (R143, R144, R148) -/

/-- Where the condition of R143 holds, the look sends a batch (R144). -/
theorem exportLook_sends (hr : s.settle.exportState = .ready) (hh : s.settle.halt = false) (hq : s.settle.queued ≠ []) :
    let b := min s.mgmt.params.batchSize s.settle.queued.length
    s.exportLook.settle = { s.settle with
        outstanding := b, exportState := .awaitingAccept
        acceptTimer := some (s.time.ticks + interval s.mgmt.params.tAccept)
        counters := { s.settle.counters with
          batchesSent := min (s.settle.counters.batchesSent + 1) 4294967295
          recordsSent := min (s.settle.counters.recordsSent + b) 4294967295 } }
      ∧ s.exportLook.bwdOut = s.bwdOut ++ batchOf s.settle.queued b false := by
  have e : s.exportLook = s.sendBatch := if_pos ⟨hr, hh, hq⟩
  rw [e]
  exact ⟨rfl, List.append_assoc _ _ _⟩

/-- Where it does not hold, the look changes nothing. -/
theorem exportLook_waits (h : ¬ (s.settle.halt = false ∧ s.settle.queued ≠ [])) : s.exportLook = s :=
  if_neg fun ⟨_, hw⟩ => h hw

/-- The stalled batch leaves again, each record with its repeat flag set (R148). -/
theorem resendBatch_of (s : State) :
    let again := (s.settle.queued.take s.settle.outstanding).map (fun r => { r with resent := true })
      ++ s.settle.queued.drop s.settle.outstanding
    s.resendBatch.settle = { s.settle with
        queued := again, exportState := .awaitingAccept
        acceptTimer := some (s.time.ticks + interval s.mgmt.params.tAccept)
        counters := { s.settle.counters with
          batchesResent := min (s.settle.counters.batchesResent + 1) 4294967295
          recordsSent := min (s.settle.counters.recordsSent + s.settle.outstanding) 4294967295 } }
      ∧ s.resendBatch.bwdOut = s.bwdOut ++ batchOf again s.settle.outstanding true :=
  ⟨rfl, List.append_assoc _ _ _⟩

theorem resendBatch_frame (s : State) : OnlyChanges [.settle, .bwdOut] s s.resendBatch := by
  intro p hp; cases p <;> simp at hp <;> rfl

/-! ### The three messages -/

/-- A Batch Accept of the outstanding batch: it leaves the queue, and the look of R143 follows (R145). -/
theorem batchAccept_of_awaiting (hh : s.headed .forward 0x22 f rest) (he : s.settle.exportState = .awaitingAccept) :
    exec .batchAccept s = .next ((s.took .forward rest).withSettle s.settle.accept).exportLook := by
  refine congrArg Host.Outcome.next ((takeKind_of hh).trans ?_)
  have he' : (s.took .forward rest).settle.exportState = .awaitingAccept := he
  simp only [he']
  rfl

/-- A Batch Accept in another state is counted alone (R145). -/
theorem batchAccept_of_other (hh : s.headed .forward 0x22 f rest) (he : s.settle.exportState ≠ .awaitingAccept) :
    exec .batchAccept s = .next ((s.took .forward rest).withSettle { s.settle with counters := { s.settle.counters with
      unexpectedAccepts := inc32 s.settle.counters.unexpectedAccepts } }) := by
  refine congrArg Host.Outcome.next ((takeKind_of hh).trans ?_)
  split
  · rename_i ha; exact absurd ha he
  · rfl

/-- The device once an Export Resume has been taken and the halt flag cleared (R148). -/
def State.resumed (s : State) (rest : List Frame) : State :=
  (s.took .forward rest).withSettle { s.settle with halt := false }

/-- What an Export Resume goes on to, by the state that it finds (R148). -/
theorem exportResume_of (hh : s.headed .forward 0x24 f rest) :
    (s.settle.exportState = .ready → exec .exportResume s = .next (s.resumed rest).exportLook)
      ∧ (s.settle.exportState = .awaitingAccept → exec .exportResume s = .next (s.resumed rest))
      ∧ (s.settle.exportState = .stalled → exec .exportResume s = .next (s.resumed rest).resendBatch) := by
  have e : exec .exportResume s = .next (match s.settle.exportState with
      | .ready => (s.resumed rest).exportLook
      | .awaitingAccept => s.resumed rest
      | .stalled => (s.resumed rest).resendBatch) := congrArg Host.Outcome.next (takeKind_of hh)
  exact ⟨fun hx => by rw [e, hx], fun hx => by rw [e, hx], fun hx => by rw [e, hx]⟩

theorem resumed_frame (s : State) (rest : List Frame) : OnlyChanges [.settle] (s.took .forward rest) (s.resumed rest) :=
  withSettle_frame _ _

/-- Settles O29: each message by the state that it finds, through the look of R143 and the batch that is sent again. -/
theorem collectorDrivesExport : Obligations.CollectorDrivesExport := by
  unfold Obligations.CollectorDrivesExport
  refine ⟨fun s f rest hh => ?_, fun s f rest => ?_⟩
  · intro q left sends b
    refine ⟨fun he => ?_, fun he => ?_⟩
    · let u := (s.took .forward rest).withSettle s.settle.accept
      have accepted : OnlyChanges [.settle, .bwdOut] (s.took .forward rest) u := (withSettle_frame _ _).mono (by decide)
      obtain ⟨htook, hall⟩ := took_forward (accepted.trans (exportLook_frame u)) (by decide)
      have e := batchAccept_of_awaiting hh he
      by_cases hs : sends
      · obtain ⟨hsettle, hout⟩ := exportLook_sends (s := u) rfl hs.1 hs.2
        simp only [if_pos hs]
        exact ⟨_, e, htook, hsettle, hout, hall⟩
      · rw [exportLook_waits (s := u) hs] at e htook hall
        simp only [if_neg hs, List.append_nil]
        exact ⟨_, e, htook, rfl, rfl, hall⟩
    · obtain ⟨htook, hall⟩ := took_forward (rest := rest) (withSettle_frame (s.took .forward rest) _) (by decide)
      exact ⟨_, batchAccept_of_other hh he, htook, rfl, hall⟩
  · intro q b again timer
    refine ⟨fun hh => ?_, fun hh hx => ?_, fun hh hr hq => ?_, fun hh hs => ?_⟩
    · obtain ⟨htook, hall⟩ := took_forward (rest := rest) (withSettle_frame (s.took .forward rest) _) (by decide)
      exact ⟨_, congrArg Host.Outcome.next (takeKind_of hh), htook, rfl, hall⟩
    · obtain ⟨htook, hall⟩ := took_forward (resumed_frame s rest) (by decide)
      obtain ⟨ready, awaiting, -⟩ := exportResume_of hh
      refine ⟨s.resumed rest, ?_, htook, rfl, hall⟩
      rcases hx with ha | ⟨hr, hq⟩
      · exact awaiting ha
      · rw [ready hr, exportLook_waits (s := s.resumed rest) fun h => h.2 hq]
    · obtain ⟨htook, hall⟩ := took_forward
        (((resumed_frame s rest).mono (by decide)).trans (exportLook_frame (s.resumed rest))) (by decide)
      obtain ⟨hsettle, hout⟩ := exportLook_sends (s := s.resumed rest) hr rfl hq
      exact ⟨_, (exportResume_of hh).1 hr, htook, hsettle, hout, hall⟩
    · obtain ⟨htook, hall⟩ := took_forward
        (((resumed_frame s rest).mono (by decide)).trans (resendBatch_frame (s.resumed rest))) (by decide)
      obtain ⟨hsettle, hout⟩ := resendBatch_of (s.resumed rest)
      obtain ⟨-, -, stalled⟩ := exportResume_of hh
      exact ⟨_, stalled hs, htook, hsettle, hout, hall⟩

end Sys2Proof.Machine
end

