-- ==== Sys2Proof/Proofs/TimeAndTimers.lean ====
section
/-! CERTIFICATES. Exchange time and the timers (chapter 9): the reference tick (R152, R153), the reset line (R158, R160, R161,
R171), the two requests on flags and time (R156, R169), and the timers that do not expire (R157). -/
namespace Sys2Proof.Machine

variable {s : State}

/-! ### The reference tick (R152, R153) -/

theorem ExTime.tick_eq (t : ExTime) : t.tick =
    if t.cs < 8639999 then ⟨t.day, t.cs + 1⟩ else if t.day < 65535 then ⟨t.day + 1, 0⟩ else ⟨0, 0⟩ :=
  if_congr Nat.succ_lt_succ_iff rfl rfl

/-- A tick raises absolute time by one centisecond, but for the tick that completes day 65,535. -/
theorem TimeBase.law.tick_absolute {b : TimeBase} (h : b.law) (hnext : b.now.cs < 8639999 ∨ b.now.day < 65535) :
    b.tick.now.day * 8640000 + b.tick.now.cs = b.now.day * 8640000 + b.now.cs + 1 := by
  obtain ⟨-, hcs, -, -⟩ := h
  rw [TimeBase.tick, ExTime.tick_eq]
  split
  · exact (Nat.add_assoc _ _ _).symm
  · rename_i hlast
    rw [if_pos (hnext.resolve_left hlast)]
    simp only [Config.dayLength] at hcs ⊢
    omega

/-- The tick that completes day 65,535 is the one that clears the time-valid flag (R153). -/
theorem TimeBase.law.tick_valid {b : TimeBase} (h : b.law) :
    b.tick.valid = if b.now.cs = 8639999 ∧ b.now.day = 65535 then false else b.valid := by
  obtain ⟨hday, hcs, -, -⟩ := h
  have last : b.now.lastTick = true ↔ b.now.cs = 8639999 ∧ b.now.day = 65535 := by
    rw [ExTime.lastTick, decide_eq_true_eq]
    simp only [Config.dayLength, Config.dayMax] at hday hcs ⊢
    omega
  simp only [TimeBase.tick, ← last]
  cases b.now.lastTick <;> simp

/-- A whole-second event and the expiries around it leave the Time Base as the tick has set it (R154). -/
theorem advance_time (s : State) : s.advance.time = s.time.tick := by
  unfold State.advance
  dsimp only
  split
  · obtain ⟨_, _, v, -, hv, -, hevent⟩ := secondEvent_stands (s.withTime s.time.tick)
    obtain ⟨-, -, -, hall⟩ := wholeSecond_of v (s.withTime s.time.tick).time.now
    rw [hevent]
    exact (hall .time (by decide)).trans (hv.frame .time (by decide))
  · rfl

/-- A tick that raises no whole-second event changes the Time Base alone. -/
theorem advance_frame (h : s.time.now.tick.cs % 100 ≠ 0) : OnlyChanges [.time] s s.advance := by
  have still : s.advance = s.withTime s.time.tick := if_neg h
  rw [still]
  exact withTime_frame s _

/-- Settles O5: what is due is taken first and leaves the time alone, then the Time Base ticks. -/
theorem tickAdvancesTime : Obligations.TickAdvancesTime := by
  unfold Obligations.TickAdvancesTime
  intro s hline hlaw
  obtain ⟨ids, hperm, hu, hnone⟩ := settleExpiries_taken s
  have htick : exec .referenceTick s = .next s.settleExpiries.advance :=
    congrArg Host.Outcome.next (if_neg (by simp [hline]))
  generalize s.settleExpiries = u at hu hnone htick
  have htime : u.time = s.time := hu.frame .time (by decide)
  have hafter : u.advance.time = s.time.tick := htime ▸ advance_time u
  refine ⟨ids, u, u.advance, hperm, hu, hnone, htime, htick, ?_⟩
  rw [hafter]
  exact ⟨s.time.now.tick_eq, hlaw.tick_valid, hlaw.tick_absolute, rfl, rfl,
    fun h => advance_frame (by rw [htime]; exact h)⟩

/-! ### The reset line (R158, R160, R161, R171) -/

/-- The line is released and the sample timer starts with 100 ticks (R158, R161). -/
theorem resetRelease_of_held (h : s.resetLine = true) : exec .resetRelease s =
    .next { s with resetLine := false, mon := { s.mon with sampleTimer := some (s.time.ticks + 100) } } :=
  congrArg Host.Outcome.next (if_pos h)

/-- Settles O4: each command asks the line first. -/
theorem resetLineHoldsAndReleases : Obligations.ResetLineHoldsAndReleases := by
  unfold Obligations.ResetLineHoldsAndReleases
  refine ⟨fun s => ⟨fun held => ?_, fun released => ?_⟩, fun s held => ⟨?_, fun p f => ?_⟩⟩
  · refine ⟨_, resetRelease_of_held held, rfl, rfl, ?_⟩
    intro p hp; cases p <;> simp at hp <;> rfl
  · exact congrArg Host.Outcome.next (if_neg (by simp [released]))
  · exact congrArg Host.Outcome.next (if_pos held)
  · exact congrArg Host.Outcome.next (if_pos held)

/-! ### The requests on flags and time (R155, R156, R169, R177) -/

theorem setExchangeTime_done {day cs : Nat} (h : cs ≤ 8639999) (s : State) : setExchangeTime day cs s =
    Answer.ok (s.withTime { s.time with now := ⟨day, cs⟩, valid := true }) (encTime s.time.now ++ encFlag s.time.valid) :=
  if_neg (Nat.not_le.mpr (Nat.lt_succ_of_le h))

theorem setExchangeTime_refused {day cs : Nat} (h : 8639999 < cs) (s : State) :
    setExchangeTime day cs s = Answer.refuse s .badParameter := if_pos h

/-- Settles O37: the flags of both ports, and the time where the centisecond is one of a day. -/
theorem flagsClearedAndTimeSet : Obligations.FlagsClearedAndTimeSet := by
  unfold Obligations.FlagsClearedAndTimeSet
  intro s f rest
  refine ⟨fun h => ?_, fun h => ?_⟩
  · have e := request_runs (cmd := .clearErrorFlags) h (by decide) rfl
    obtain ⟨-, hcode, -⟩ := h
    refine ⟨_, e, rfl, rfl, ?_, ?_⟩
    · rw [← hcode]; rfl
    · intro p hp; cases p <;> simp at hp <;> rfl
  · intro day cs
    refine ⟨fun hcs => ?_, fun hcs => ?_⟩
    · have e := request_runs (cmd := .setExchangeTime) h (by decide) rfl
      rw [setExchangeTime_done hcs] at e
      obtain ⟨htook, hall⟩ := took_forward (rest := rest)
        (((withTime_frame (s.took .forward rest) _).mono (by decide)).trans
          ((emitBwd_frame _ _).mono (more := [.time, .bwdOut]) (by decide))) (by decide)
      exact ⟨_, e, rfl, ⟨htook, rfl⟩, hall⟩
    · exact request_unchanged (cmd := .setExchangeTime) h (by decide) rfl (setExchangeTime_refused hcs _)

/-! ### Timers that do not expire (R157) -/

/-- A timer that is stopped or not yet due (R157). -/
theorem timerDue_eq_false {ticks : Nat} {timer : Option Nat} :
    timerDue ticks timer = false ↔ ∀ d, timer = some d → ticks < d := by
  cases timer <;> simp [timerDue]

theorem expireProceed_idle {i : Nat} (h : ∀ c, s.context i = some c → timerDue s.time.ticks c.timer = false) :
    s.expireProceed i = s := by
  unfold State.expireProceed
  split
  · rfl
  · rename_i c hc
    rw [h c hc]
    split
    · contradiction
    · rfl

theorem expireClear_idle {i : Nat} (h : ∀ c, s.context i = some c → timerDue s.time.ticks c.timer = false) :
    s.expireClear i = s := by
  unfold State.expireClear
  split
  · rfl
  · rename_i c hc
    rw [h c hc]
    split
    · contradiction
    · rfl

/-- The circuit at the head of the guard list is the one that is asked (R32). -/
theorem expireGuard_idle {g : Nat} (h : ∀ x k r d, s.group g = some x → x.guardList.head? = some k →
    s.circuit k = some r → r.cond = .guard d → s.time.ticks < d) : s.expireGuard g = s := by
  unfold State.expireGuard
  split
  · rfl
  · rename_i k hk
    obtain ⟨x, hx, hhead⟩ := Option.bind_eq_some_iff.mp hk
    split
    · rfl
    · rename_i r hr
      split
      · rename_i d hd
        exact if_neg (Nat.not_le.mpr (h x k r d hx hhead hr hd))
      · rfl

theorem expireClearing_idle {k : Nat}
    (h : ∀ r d, s.circuit k = some r → r.cond = .releasing d → s.time.ticks < d) : s.expireClearing k = s := by
  unfold State.expireClearing
  split
  · rfl
  · rename_i r hr
    split
    · rename_i d hd
      exact if_neg (Nat.not_le.mpr (h r d hr hd))
    · rfl

theorem expireProbe_idle {g : Nat} (h : ∀ x, s.group g = some x → timerDue s.time.ticks x.mon.probeTimer = false) :
    s.expireProbe g = s := by
  unfold State.expireProbe
  split
  · rfl
  · rename_i x hx
    exact if_neg (by simp [h x hx])

theorem expireGap_idle {l : Nat} (h : timerDue s.time.ticks (s.routeList l).gapTimer = false) : s.expireGap l = s :=
  if_neg (by simp [h])

theorem expireAccept_idle (h : timerDue s.time.ticks s.settle.acceptTimer = false) : s.expireAccept = s :=
  if_neg (by simp [h])

theorem expireSample_idle (h : timerDue s.time.ticks s.mon.sampleTimer = false) : s.expireSample = s :=
  if_neg (by simp [h])

/-- Settles O33: each expiry asks its timer, or the condition of its circuit. -/
theorem timersNotDueDoNothing : Obligations.TimersNotDueDoNothing := by
  unfold Obligations.TimersNotDueDoNothing
  intro s idle
  have undue {timer : Option Nat} : idle timer → timerDue s.time.ticks timer = false := timerDue_eq_false.mpr
  refine ⟨fun i h => ⟨?_, ?_⟩, fun g h => ?_, fun k h => ?_, fun g h => ?_, fun l h => ?_, fun h => ?_, fun h => ?_⟩ <;>
    refine congrArg Host.Outcome.next ?_
  · exact expireProceed_idle fun c hc => undue (h c hc)
  · exact expireClear_idle fun c hc => undue (h c hc)
  · exact expireGuard_idle h
  · exact expireClearing_idle h
  · exact expireProbe_idle fun x hx => undue (h x hx)
  · exact expireGap_idle (undue h)
  · exact expireAccept_idle (undue h)
  · exact expireSample_idle (undue h)

end Sys2Proof.Machine
end

