-- ==== Sys2Proof/Proofs/CommandOutcomes.lean ====
section
/-! SUPPORT and CERTIFICATE. Every command ends in a next state and leaves the commands that wait alone: no event of the
device puts a command into the queue or takes one from it (log entries 1 and 2). -/
namespace Sys2Proof.Machine

variable {s t : State}

/-! ### What an event leaves of the waiting commands -/

section

variable (s)

@[simp] theorem enterGuard_pending (now : ExTime) (k : Nat) : (s.enterGuard now k).pending = s.pending :=
  enterGuard_frame s now k .pending (by decide)

@[simp] theorem enterReleasing_pending (k : Nat) : (s.enterReleasing k).pending = s.pending :=
  enterReleasing_frame s k .pending (by decide)

@[simp] theorem healthFailure_pending (now : ExTime) (g : Nat) : (s.healthFailure now g).pending = s.pending :=
  healthFailure_frame s now g .pending (by decide)

@[simp] theorem endProbe_pending (i g : Nat) : (s.endProbe i g).pending = s.pending :=
  endProbe_frame s i g .pending (by decide)

@[simp] theorem dispose_pending (now : ExTime) (i : Nat) : (s.dispose now i).pending = s.pending :=
  dispose_frame s now i .pending (by decide)

@[simp] theorem free_pending (now : ExTime) (i : Nat) : (s.free now i).pending = s.pending :=
  free_frame s now i .pending (by decide)

@[simp] theorem startClearing_pending (i : Nat) : (s.startClearing i).pending = s.pending :=
  startClearing_frame s i .pending (by decide)

@[simp] theorem exportIf_pending (b : Bool) : (s.exportIf b).pending = s.pending :=
  exportIf_frame s b .pending (by decide)

@[simp] theorem reselect_pending (now : ExTime) (i : Nat) (instead : Option Cause) :
    (s.reselect now i instead).pending = s.pending := reselect_frame s now i instead .pending (by decide)

@[simp] theorem farTakes_pending (k : Nat) : (s.farTakes k).pending = s.pending :=
  recast_frame s k _ .pending (by decide)

/-! ### Release (R15, R16, R20, R21) -/

@[simp] theorem loseCircuit_pending (now : ExTime) (i l g : Nat) (cause : Cause) :
    (s.loseCircuit now i l g cause).pending = s.pending := by
  simp [State.loseCircuit]

@[simp] theorem crankback_pending (i g k : Nat) (cause : Cause) (c : Context) :
    (s.crankback i g k cause c).pending = s.pending := by
  unfold State.crankback
  dsimp only
  split <;> simp

@[simp] theorem farEnds_pending (i g k cause : Nat) (c : Context) : (s.farEnds i g k cause c).pending = s.pending := by
  unfold State.farEnds
  dsimp only
  split_ifs <;> simp

@[simp] theorem contextRelease_pending (i cause : Nat) : (s.contextRelease i cause).pending = s.pending := by
  unfold State.contextRelease
  split
  · rfl
  · split
    · rfl
    · split
      · exact crankback_pending ..
      · exact farEnds_pending ..

@[simp] theorem originEnds_pending (i g k cause : Nat) (c : Context) :
    (s.originEnds i g k cause c).pending = s.pending := by
  unfold State.originEnds
  dsimp only
  split <;> simp

@[simp] theorem originRelease_pending (i cause : Nat) : (s.originRelease i cause).pending = s.pending := by
  unfold State.originRelease
  split
  · rfl
  · split
    · exact free_pending ..
    · exact originEnds_pending ..
    · rfl

/-! ### Far seizure and offers (R42, R43, R113) -/

@[simp] theorem glare_pending (i k : Nat) (r : Group) (g : Nat) : (s.glare i k r g).pending = s.pending := by
  unfold State.glare
  split
  · rfl
  · split
    · split
      · rfl
      · simp [State.glareLost]
    · rfl

@[simp] theorem farSeize_pending (k : Nat) (c : Circuit) : (s.farSeize k c).pending = s.pending := by
  unfold State.farSeize
  split
  · rfl
  · split
    · rfl
    · split
      · rfl
      · exact farTakes_pending ..
    · exact farTakes_pending ..
    · exact glare_pending ..
    · rfl
    · rfl

@[simp] theorem takeOffer_pending (m : OfferMsg) : (s.takeOffer m).pending = s.pending :=
  (takeOffer_frame s m .pending (by decide)).trans (offerArrived_frame s m.circuit .pending (by decide))

/-! ### Setup (R6, R7, R61) -/

@[simp] theorem refuseRouted_pending (now : ExTime) (i : Nat) (m : SetupMsg) (cause : Cause) :
    (s.refuseRouted now i m cause).pending = s.pending := by
  simp [State.refuseRouted]

@[simp] theorem routePass_pending (now : ExTime) (i l : Nat) (m : SetupMsg) :
    (s.routePass now i l m).pending = s.pending := by
  have passed : (s.selectionPass now i l).1.pending = s.pending := selectionPass_frame s now i l .pending (by decide)
  unfold State.routePass
  split
  · rename_i he
    rw [he] at passed
    exact (proceed_frame _ _ _ _ .pending (by decide)).trans passed
  · rename_i he
    rw [he] at passed
    simpa using passed

@[simp] theorem routeOver_pending (now : ExTime) (i l : Nat) (m : SetupMsg) :
    (s.routeOver now i l m).pending = s.pending := by
  unfold State.routeOver
  dsimp only
  split <;> simp

@[simp] theorem route_pending (now : ExTime) (i : Nat) (m : SetupMsg) : (s.route now i m).pending = s.pending := by
  unfold State.route
  dsimp only
  split <;> simp

@[simp] theorem takeSetup_pending (m : SetupMsg) : (s.takeSetup m).pending = s.pending := by
  have refused (cause : Cause) : (s.setupCounted.refuseEarly m cause).pending = s.pending := rfl
  rw [takeSetup_eq]
  split
  · exact refused _
  · split
    · exact refused _
    · cases s.idleContext with
      | none => exact refused _
      | some i =>
        simp only [Option.elim]
        split
        · exact refused _
        · exact (route_pending ..).trans (allocate_frame s.setupCounted _ i _ .pending (by decide))

/-! ### The tick (R152 to R158) -/

@[simp] theorem advance_pending : s.advance.pending = s.pending := by
  unfold State.advance
  dsimp only
  split
  · obtain ⟨_, _, v, -, hv, -, hevent⟩ := secondEvent_stands (s.withTime s.time.tick)
    obtain ⟨-, -, -, hall⟩ := wholeSecond_of v (s.withTime s.time.tick).time.now
    rw [hevent]
    exact (hall .pending (by decide)).trans (hv.frame .pending (by decide))
  · rfl

/-- The tick takes the expiries that stand, and then its own. -/
theorem tick_pending : s.settleExpiries.advance.pending = s.pending := by
  obtain ⟨_, -, taken, -⟩ := settleExpiries_taken s
  exact (advance_pending _).trans (taken.frame .pending (by decide))

end

/-! ### Taking a message -/

theorem takeHead_pending (port : Port) (p : Frame → Bool) {act : Frame → State → State}
    (hact : ∀ f u, (act f u).pending = u.pending) : (takeHead port p act s).pending = s.pending := by
  unfold takeHead
  split
  · rfl
  · split
    · exact (hact _ _).trans (withPort_frame s port _ .pending (by decide))
    · rfl

theorem takeRequest_pending (code : Nat) {act : List Byte → State → Answer}
    (hact : ∀ p u, (act p u).state.pending = u.pending) : (takeRequest code act s).pending = s.pending := by
  refine takeHead_pending _ _ fun f u => ?_
  change (Answer.state _).pending = u.pending
  split
  · exact hact _ _
  · rfl

/-- A request that reads. -/
theorem readRequest_pending (code : Nat) {act : List Byte → State → Answer} (hact : ∀ p u, (act p u).state = u) :
    (takeRequest code act s).pending = s.pending := takeRequest_pending code fun p u => congrArg State.pending (hact p u)

theorem onCircuit_pending {act : Nat → Circuit → State → State} (f : Frame)
    (hact : ∀ k c, (act k c s).pending = s.pending) : (onCircuit act f s).pending = s.pending := by
  unfold onCircuit
  split
  · rfl
  · exact hact _ _

/-! ### Every command -/

/-- Every command ends in a next state: none faults or is refused. -/
theorem exec_next (c : Instr) (s : State) : ∃ t, exec c s = .next t := by cases c <;> exact ⟨_, rfl⟩

/-- Every command leaves the waiting commands alone. -/
theorem exec_pending (c : Instr) (he : exec c s = .next t) : t.pending = s.pending := by
  cases c <;> cases he
  case hardReset => rfl
  case resetRelease => split <;> rfl
  case referenceTick =>
    split
    · rfl
    · exact tick_pending s
  case messageArrival p f =>
    split
    · rfl
    · exact arrive_frame s p f .pending (by decide)
  case passThrough p =>
    exact takeHead_pending _ _ fun f u =>
      (emitOn_frame _ p _ .pending (by decide)).trans (withPort_frame u p _ .pending (by decide))
  case setup => exact takeHead_pending _ _ fun f u => takeSetup_pending u _
  case originRelease =>
    refine takeHead_pending _ _ fun f u => ?_
    split
    · exact originRelease_pending ..
    · rfl
  case originReleaseConfirm =>
    refine takeHead_pending _ _ fun f u => ?_
    split
    · rfl
    · split
      · rfl
      · split
        · exact free_pending ..
        · rfl
  case progress =>
    refine takeHead_pending _ _ fun f u => onCircuit_pending f fun k c => ?_
    split
    · exact contextProgress_frame u _ .pending (by decide)
    · rfl
  case answer =>
    refine takeHead_pending _ _ fun f u => onCircuit_pending f fun k c => ?_
    split
    · exact contextAnswer_frame u _ .pending (by decide)
    · rfl
  case farRelease =>
    refine takeHead_pending _ _ fun f u => onCircuit_pending f fun k c => ?_
    split
    · exact contextRelease_pending ..
    · exact enterGuard_pending (u.emitFwd _) _ k
    · rfl
  case farReleaseConfirm =>
    refine takeHead_pending _ _ fun f u => onCircuit_pending f fun k c => ?_
    split
    · rfl
    · exact enterGuard_pending ..
    · rfl
  case block | unblock =>
    exact takeHead_pending _ _ fun f u => onCircuit_pending f fun k _ => recast_frame u k _ .pending (by decide)
  case farSeize => exact takeHead_pending _ _ fun f u => onCircuit_pending f fun k c => farSeize_pending u k c
  case farClear =>
    refine takeHead_pending _ _ fun f u => onCircuit_pending f fun k c => ?_
    split
    · exact enterGuard_pending ..
    · rfl
  case tariffOffer => exact takeHead_pending _ _ fun f u => takeOffer_pending u _
  case batchAccept =>
    refine takeHead_pending _ _ fun f u => ?_
    split
    · exact exportLook_frame (u.withSettle _) .pending (by decide)
    · rfl
  case exportHalt => exact takeHead_pending _ _ fun _ _ => rfl
  case exportResume =>
    refine takeHead_pending _ _ fun f u => ?_
    dsimp only
    split
    · exact exportLook_frame (u.withSettle _) .pending (by decide)
    · rfl
    · rfl
  case tProceedExpiry i => exact expireProceed_frame s i .pending (by decide)
  case tClearExpiry i => exact expireClear_frame s i .pending (by decide)
  case guardExpiry g => exact expireGuard_frame s g .pending (by decide)
  case clearingExpiry k => exact expireClearing_frame s k .pending (by decide)
  case probeTimerExpiry g => exact expireProbe_frame s g .pending (by decide)
  case gapTimerExpiry l => exact expireGap_frame s l .pending (by decide)
  case acceptTimerExpiry => exact expireAccept_frame s .pending (by decide)
  case sampleExpiry => exact expireSample_frame s .pending (by decide)
  case unknownRequest => exact takeHead_pending _ _ fun _ _ => rfl
  case enterService => exact takeRequest_pending _ fun _ u => by unfold enterService; split <;> rfl
  case quiesce => exact takeRequest_pending _ fun _ _ => rfl
  case restart =>
    refine takeRequest_pending _ fun _ u => ?_
    unfold restartRequest
    split
    · rfl
    · exact notifyAll_frame u.cleared _ _ .pending (by decide)
  case readDeviceStatus => exact readRequest_pending _ fun _ _ => rfl
  case clearErrorFlags => exact takeRequest_pending _ fun _ _ => rfl
  case setExchangeTime => exact takeRequest_pending _ fun _ u => setExchangeTime_frame _ _ u .pending (by decide)
  case setGlobalParameters =>
    refine takeRequest_pending _ fun _ u => ?_
    unfold setGlobalParameters
    split
    · dsimp only [Answer.ok]
      split
      · rfl
      · exact compareBoth_frame (u.withMgmt _) _ .pending (by decide)
    · rfl
  case loadDestination => exact takeRequest_pending _ fun _ u => loadDestination_frame _ u .pending (by decide)
  case deleteDestination => exact takeRequest_pending _ fun _ u => deleteDestination_frame _ u .pending (by decide)
  case lookupDestination => exact readRequest_pending _ fun _ u => lookupDestination_state _ u
  case loadRouteList => exact takeRequest_pending _ fun _ u => loadRouteList_frame _ u .pending (by decide)
  case restartGap => exact takeRequest_pending _ fun _ u => restartGap_frame _ u .pending (by decide)
  case loadThresholdSet => exact takeRequest_pending _ fun _ u => loadThresholdSet_frame _ _ u .pending (by decide)
  case loadTrunkGroup => exact takeRequest_pending _ fun _ u => loadTrunkGroup_frame _ u .pending (by decide)
  case removeTrunkGroup => exact takeRequest_pending _ fun _ u => removeTrunkGroup_frame _ u .pending (by decide)
  case setGroupState => exact takeRequest_pending _ fun _ u => setGroupState_frame _ _ u .pending (by decide)
  case blockCircuit | unblockCircuit => exact takeRequest_pending _ fun _ u => localBlock_frame _ _ u .pending (by decide)
  case declareCarrier => exact takeRequest_pending _ fun _ u => declareCarrier_frame _ _ u .pending (by decide)
  case removeCarrier => exact takeRequest_pending _ fun _ u => removeCarrier_frame _ u .pending (by decide)
  case loadTariff => exact takeRequest_pending _ fun _ u => loadTariff_frame _ u .pending (by decide)
  case pinCarrier => exact takeRequest_pending _ fun _ u => pinCarrier_frame _ u .pending (by decide)
  case unpinCarrier => exact takeRequest_pending _ fun _ u => unpinCarrier_frame _ u .pending (by decide)
  case readGroup => exact readRequest_pending _ fun _ u => readGroup_state _ u
  case readCircuit => exact readRequest_pending _ fun _ u => readCircuit_state _ u
  case readContext => exact readRequest_pending _ fun _ u => readContext_state _ u
  case readRouteList => exact readRequest_pending _ fun _ u => readRouteList_state _ u
  case readCarrier => exact readRequest_pending _ fun _ u => readCarrier_state _ u
  case latchCounters => exact takeRequest_pending _ fun _ u => latchCounters_frame _ _ u .pending (by decide)
  case readLatched => exact readRequest_pending _ fun _ u => readLatched_state u

/-- Settles O2: no command faults or is refused, and none touches the queue of commands. -/
theorem everyCommandAnswersNext : Obligations.EveryCommandAnswersNext := by
  unfold Obligations.EveryCommandAnswersNext
  intro c s
  obtain ⟨t, he⟩ := exec_next c s
  exact ⟨t, he, exec_pending c he⟩

end Sys2Proof.Machine
end

