-- ==== Sys2Proof/Proofs/PortEvents.lean ====
section
/-! CERTIFICATES. The Port Interface (chapter 10): the commands that wait for their message at the head of the queue (R162,
R166), a pass-through (R165), and the arrival of a message (R162, R163, R164, R169). -/
namespace Sys2Proof.Machine

variable {s : State} {f : Frame} {rest : List Frame}

/-! ### Commands without their message (log entry 2) -/

/-- With no request of this code and its length at the head nothing changes. -/
theorem takeRequest_none {code : Nat} {act : List Byte → State → Answer}
    (h : ∀ f, s.fwd.queue.head? = some f →
      ¬ (kindOf f = 0x40 ∧ requestCode f = code ∧ requestLength code = some f.length)) :
    takeRequest code act s = s := by
  refine takeHead_none fun f hf => Bool.eq_false_iff.mpr fun taken => h f hf ?_
  simp only [knownRequest, Bool.and_eq_true, decide_eq_true_eq] at taken
  obtain ⟨⟨hkind, hlength⟩, hcode⟩ := taken
  exact ⟨hkind, hcode, hcode ▸ hlength⟩

/-- A command that comes to `t` leaves `s` without effect. -/
abbrev Stays (s t : State) : Prop := (Host.Outcome.next t : Host.Outcome State Fault Refusal) = .next s

/-- Settles O10: each command takes the head message of one kind, one request, or a pass-through, and nothing else. -/
theorem commandsWaitForTheirMessage : Obligations.CommandsWaitForTheirMessage := by
  unfold Obligations.CommandsWaitForTheirMessage
  intro s
  refine ⟨fun c k hc h => ?_, fun c k hc h => ?_, fun c code hc h => ?_, fun p h => ?_⟩
  · have waits (act : Frame → State → State) : Stays s (takeKind .forward k act s) := congrArg _ (takeKind_none h)
    clear h
    fin_cases hc <;> exact waits _
  · have waits (act : Frame → State → State) : Stays s (takeKind .backward k act s) := congrArg _ (takeKind_none h)
    clear h
    fin_cases hc <;> exact waits _
  · have waits (act : List Byte → State → Answer) : Stays s (takeRequest code act s) := congrArg _ (takeRequest_none h)
    clear h
    fin_cases hc <;> exact waits _
  · refine congrArg Host.Outcome.next (takeHead_none fun f hf => ?_)
    simp [isPassThrough, h f hf]

/-! ### Pass-through (R165) -/

/-- The message leaves its queue and is emitted on the output of its direction. -/
theorem execPassThrough_of {p : Port} (hq : (s.port p).queue = f :: rest) (hk : 128 ≤ kindOf f) :
    exec (.passThrough p) s = .next
      ((s.withPort p { s.port p with queue := rest, passed := inc32 (s.port p).passed }).emitOn p (.passed f)) := by
  refine congrArg Host.Outcome.next ((takeHead_of hq (decide_eq_true hk)).trans ?_)
  cases p <;> rfl

/-- Settles O9: the head message is taken, counted and emitted as it came. -/
theorem passThroughLeavesUnchanged : Obligations.PassThroughLeavesUnchanged := by
  unfold Obligations.PassThroughLeavesUnchanged
  intro s p f rest hq hk
  refine ⟨_, execPassThrough_of hq hk, by cases p <;> rfl, ?_, ?_, rfl⟩
  · rintro rfl
    exact ⟨rfl, ((withPort_forward_frame s _).mono (by decide)).trans ((emitFwd_frame _ _).mono (by decide))⟩
  · rintro rfl
    exact ⟨rfl, ((withPort_backward_frame s _).mono (by decide)).trans ((emitBwd_frame _ _).mono (by decide))⟩

/-! ### The discard of a message (R169) -/

theorem ErrCounters.get_count (c : ErrCounters) (e e' : PortErr) :
    (c.count e).get e' = if e' = e then min (c.get e + 1) 65535 else c.get e' := by
  cases e <;> cases e' <;> rfl

theorem ErrFlags.get_raise (x : ErrFlags) (e e' : PortErr) :
    (x.raise e).get e' = if e' = e then true else x.get e' := by
  cases e <;> cases e' <;> rfl

/-- The block that holds a port's input side. -/
def portPart : Port → Part
  | .forward => .fwd
  | .backward => .bwd

theorem withPort_part (s : State) (p : Port) (x : PortState) : OnlyChanges [portPart p] s (s.withPort p x) := by
  cases p
  · exact withPort_forward_frame s x
  · exact withPort_backward_frame s x

theorem portError_port (s : State) (p : Port) (e : PortErr) : (s.portError p e).port p = (s.port p).discard e := by
  unfold State.portError
  dsimp only
  split <;> cases p <;> rfl

theorem portError_bwdOut (s : State) (p : Port) (e : PortErr) : (s.portError p e).bwdOut =
    if (s.port p).flags.get e then s.bwdOut
    else s.bwdOut ++ [.notice s.time.now (.portError p e (min ((s.port p).errors.get e + 1) 65535))] := by
  have value : ((s.port p).errors.count e).get e = min ((s.port p).errors.get e + 1) 65535 :=
    (ErrCounters.get_count _ _ _).trans (if_pos rfl)
  unfold State.portError
  dsimp only
  rw [value]
  split <;> cases p <;> rfl

theorem portError_part (s : State) (p : Port) (e : PortErr) : OnlyChanges [portPart p, .bwdOut] s (s.portError p e) := by
  have counted := (withPort_part s p ((s.port p).discard e)).mono (more := [portPart p, .bwdOut]) (by simp)
  unfold State.portError
  dsimp only
  split
  · exact counted
  · exact counted.trans ((notify_frame _ _ _).mono (by simp))

/-! ### The arrival of a message (R162) -/

/-- The check that an arriving message fails: the queue's room first, then those of R163. -/
def PortState.arrivalError (x : PortState) (p : Port) (f : Frame) : Option PortErr :=
  if 128 ≤ x.queue.length then some .overrun else frameError p f

theorem arrive_discards {p : Port} {e : PortErr} (h : (s.port p).arrivalError p f = some e) :
    s.arrive p f = s.portError p e := by
  unfold PortState.arrivalError at h
  unfold State.arrive
  split at h
  · cases h; exact if_pos ‹_›
  · rw [h]; exact if_neg ‹_›

theorem arrive_joins {p : Port} (h : (s.port p).arrivalError p f = none) :
    s.arrive p f = s.withPort p ((s.port p).join f) := by
  unfold PortState.arrivalError at h
  unfold State.arrive
  split at h
  · cases h
  · rw [h]; exact if_neg ‹_›

/-! ### The checks of a frame (R163, R164) -/

theorem field_one (i : Nat) (f : List Byte) : field i 1 f = (f[i]?.getD 0).toNat := by
  rw [field, List.take_one, List.head?_drop]
  cases f[i]? <;> simp [be]

theorem field_two {i : Nat} {f : List Byte} (h : i + 1 < f.length) :
    field i 2 f = 256 * (f[i]?.getD 0).toNat + (f[i + 1]?.getD 0).toNat := by
  have bytes : (f.drop i).take 2 = [f[i], f[i + 1]] := by
    rw [List.drop_eq_getElem_cons (by omega), List.drop_eq_getElem_cons h]; rfl
  simp [field, bytes, be, List.getElem?_eq_getElem h, List.getElem?_eq_getElem (Nat.lt_of_succ_lt h), Nat.mul_comm]

/-- The kinds that each port accepts (R164). -/
def acceptedKinds : Port → List Nat
  | .forward => [0x01, 0x04, 0x05, 0x22, 0x23, 0x24, 0x40]
  | .backward => [0x02, 0x03, 0x04, 0x05, 0x08, 0x09, 0x0C, 0x0D, 0x10]

theorem accepts_iff (p : Port) (k : Nat) : accepts p k = true ↔ k ∈ acceptedKinds p := by
  cases p <;> exact decide_eq_true_iff

/-- The kinds that a port accepts are below those of a pass-through (R164, R165). -/
theorem acceptedKinds_lt {p : Port} {k : Nat} (h : k ∈ acceptedKinds p) : k < 128 := by
  have below : ∀ k ∈ acceptedKinds p, k < 128 := by cases p <;> decide
  exact below k h

/-- The lengths that section 10.6 gives to the kinds. -/
theorem lengthFits_iff (f : Frame) : lengthFits f = true ↔
    if kindOf f = 0x01 then f.length = 13 + (field 9 1 f + 1) / 2 else if kindOf f = 0x10 then f.length = 70
    else if kindOf f = 0x40 then 9 ≤ f.length ∧ f.length ≤ 120 else f.length = 8 := by
  simp only [lengthFits, Bool.ite_eq_true_distrib, decide_eq_true_eq]
  rfl

/-- Does the length field or the length itself break the first check of R163? -/
def misfits (f : Frame) : Prop := lengthOf f ≠ f.length ∨ f.length < 8 ∨ 120 < f.length

/-- Does the check in the last two bytes differ from the check over the others (R163)? -/
def breaks (f : Frame) : Prop := checkOf f ≠ (crc (f.take (f.length - 2))).toNat

section

variable {p : Port}

theorem frameError_misfit (h : misfits f) : frameError p f = some .length := if_pos h

theorem frameError_broken (h : ¬ misfits f) (hb : breaks f) : frameError p f = some .check :=
  (if_neg h).trans (if_pos hb)

/-- A whole frame is judged by its kind (R164, R165). -/
theorem frameError_whole (h : ¬ misfits f) (hb : ¬ breaks f) : frameError p f =
    if 128 ≤ kindOf f then none else if accepts p (kindOf f) = false then some .kind
    else if lengthFits f then none else some .length := by
  refine (if_neg h).trans ((if_neg hb).trans ?_)
  cases lengthFits f <;> simp [isPassThrough]

end

/-- A frame misfits, or is as long as the shortest message. -/
theorem length_of_not_misfits (h : ¬ misfits f) : 8 ≤ f.length := by
  unfold misfits at h
  omega

/-! ### The check, bit by bit (R163) -/

/-- One bit of a message enters the check. -/
def crcShift (r : BitVec 16) (b : Bool) : BitVec 16 :=
  if (r.getLsbD 15 != b) = true then (r <<< 1) ^^^ 0x1021#16 else r <<< 1

/-- A byte at the top of the register moves up by one bit. -/
theorem topByte_shiftLeft (b : Byte) : (b.setWidth 16 <<< 8) <<< 1 = (b <<< 1).setWidth 16 <<< 8 := by
  bv_omega

/-- With a byte's bits added at the top of the register, one step enters the first bit and moves the others up. -/
theorem crcBit_xor (r : BitVec 16) (b : Byte) :
    crcBit (r ^^^ (b.setWidth 16 <<< 8)) = crcShift r (b.getLsbD 7) ^^^ ((b <<< 1).setWidth 16 <<< 8) := by
  have top : (r ^^^ (b.setWidth 16 <<< 8)).getLsbD 15 = (r.getLsbD 15 != b.getLsbD 7) := by simp
  unfold crcBit crcShift
  rw [top, BitVec.shiftLeft_xor_distrib, topByte_shiftLeft]
  split
  · rw [BitVec.xor_assoc, BitVec.xor_comm _ 0x1021#16, BitVec.xor_assoc]
  · rfl

/-- A byte enters bit by bit, and after eight bits none is left. -/
theorem crcByte_eq (r : BitVec 16) (b : Byte) :
    crcByte r b = (List.range 8).foldl (fun x i => crcShift x (b.getLsbD (7 - i))) r := by
  have places : List.range 8 = [0, 1, 2, 3, 4, 5, 6, 7] := rfl
  simp [crcByte, crcBit_xor, places, ← BitVec.shiftLeft_add]

theorem crc_concat (bs : List Byte) (b : Byte) : crc (bs ++ [b]) = crcByte (crc bs) b := List.foldl_concat ..

/-- Settles O7: the first check that fails decides, and the check over the bytes is the one bit by bit. -/
theorem arrivalQueuesOrDiscards : Obligations.ArrivalQueuesOrDiscards := by
  unfold Obligations.ArrivalQueuesOrDiscards
  refine ⟨?arrival, ?checks, ?bits⟩
  case arrival =>
    intro s p f hline part error
    have hpart : part = portPart p := by cases p <;> rfl
    have run : exec (.messageArrival p f) s = .next (s.arrive p f) :=
      congrArg Host.Outcome.next (if_neg (by simp [hline]))
    refine ⟨_, run, fun sound => ?_, fun e he => ?_⟩
    · rw [arrive_joins sound, hpart]
      exact ⟨State.withPort_port _ _ _, withPort_part _ _ _⟩
    · rw [arrive_discards he, hpart, portError_port]
      exact ⟨rfl, rfl, rfl, ErrCounters.get_count _ e, ErrFlags.get_raise _ e, portError_bwdOut s p e,
        portError_part s p e⟩
  case checks =>
    intro p f byte kind misfit broken accepted fits
    have hkind : kindOf f = kind := field_one 0 f
    have hmisfit : misfits f ↔ misfit := by simp only [misfits, lengthOf, field_one]; exact Iff.rfl
    have hbroken (h : ¬ misfit) : breaks f ↔ broken := by
      have long := length_of_not_misfits (mt hmisfit.mp h)
      have last : f.length - 2 + 1 = f.length - 1 := by omega
      rw [breaks, checkOf, field_two (by omega), last]
    have haccepted : accepts p kind = true ↔ accepted := by cases p <;> exact accepts_iff _ _
    have hfits : lengthFits f = true ↔ fits := by
      rw [lengthFits_iff, hkind, field_one]
    have whole (h : ¬ misfit) (hb : ¬ broken) := frameError_whole (p := p) (mt hmisfit.mp h) (mt (hbroken h).mp hb)
    rw [hkind] at whole
    have known (ha : accepted) : ¬ 128 ≤ kind ∧ ¬ accepts p kind = false :=
      ⟨Nat.not_le.mpr (acceptedKinds_lt ((accepts_iff p kind).mp (haccepted.mpr ha))), by simp [haccepted.mpr ha]⟩
    refine ⟨fun h => frameError_misfit (hmisfit.mpr h),
      fun h hb => frameError_broken (mt hmisfit.mp h) ((hbroken h).mpr hb), fun h hb hk => ?passes,
      fun h hb hk ha => ?foreign, fun h hb ha hf => ?unfit, fun h hb ha hf => ?sound⟩
    case passes => rw [whole h hb, if_pos hk]
    case foreign => rw [whole h hb, if_neg (Nat.not_le.mpr hk), if_pos (Bool.eq_false_iff.mpr (mt haccepted.mp ha))]
    case unfit =>
      obtain ⟨hk, hknown⟩ := known ha
      rw [whole h hb, if_neg hk, if_neg hknown, if_neg (mt hfits.mp hf)]
    case sound =>
      obtain ⟨hk, hknown⟩ := known ha
      rw [whole h hb, if_neg hk, if_neg hknown, if_pos (hfits.mpr hf)]
  case bits => exact fun bs b => ⟨rfl, (crc_concat bs b).trans (crcByte_eq _ b)⟩

end Sys2Proof.Machine
end

