-- ==== Sys2Proof/Proofs/EmittedMessages.lean ====
section
/-! CERTIFICATES. What leaves on the lanes (section 10.6): a built frame passes the checks of length and of its bytes (R163,
R168), every emitted message has the layout of its kind (R168, R170, R172), and a reply leaves in its parts (R168, R182). -/
namespace Sys2Proof.Machine

variable {f : Frame} {kind key kindByte : Nat} {body : List Byte}

/-! ### A built frame (R163, R168, R172) -/

/-- The common header (section 10.6). -/
def headerItems (kind length key kindByte : Nat) : Items := [(1, kind), (1, length), (3, key), (1, kindByte)]

/-- A frame but for its check. -/
def unchecked (kind key kindByte : Nat) (body : List Byte) : List Byte :=
  (headerItems kind (body.length + 8) key kindByte).bytes ++ body

theorem unchecked_length (kind key kindByte : Nat) (body : List Byte) :
    (unchecked kind key kindByte body).length = body.length + 6 := by
  rw [unchecked, List.length_append, Items.bytes_length, Nat.add_comm]; rfl

theorem build_eq (kind key kindByte : Nat) (body : List Byte) : build kind key kindByte body =
    unchecked kind key kindByte body ++ enc 2 (crc (unchecked kind key kindByte body)).toNat := by
  simp [build, unchecked, headerItems, Items.bytes]

theorem build_length (kind key kindByte : Nat) (body : List Byte) :
    (build kind key kindByte body).length = body.length + 8 := by
  rw [build_eq, List.length_append, unchecked_length, enc_length]

/-- The check stands behind all other bytes. -/
theorem build_take (kind key kindByte : Nat) (body : List Byte) :
    (build kind key kindByte body).take ((build kind key kindByte body).length - 2) = unchecked kind key kindByte body := by
  rw [build_length, build_eq]
  exact List.take_left' (unchecked_length _ _ _ _)

theorem build_check (kind key kindByte : Nat) (body : List Byte) :
    checkOf (build kind key kindByte body) = (crc (unchecked kind key kindByte body)).toNat := by
  have behind : (build kind key kindByte body).drop (body.length + 6) =
      enc 2 (crc (unchecked kind key kindByte body)).toNat := by
    rw [build_eq, List.drop_left' (unchecked_length _ _ _ _)]
  rw [checkOf, field, build_length]
  change be (((build kind key kindByte body).drop (body.length + 6)).take 2) = _
  rw [behind, List.take_of_length_le (by rw [enc_length]), be_enc, Nat.mod_eq_of_lt]
  exact BitVec.isLt _

/-- A built frame reads its header as it was written, and its body. -/
theorem build_header (hkind : kind < 256) (hkey : key < 16777216) (hbyte : kindByte < 256) (hbody : body.length ≤ 112) :
    let f := build kind key kindByte body
    kindOf f = kind ∧ lengthOf f = f.length ∧ keyOf f = key ∧ kindByteOf f = kindByte
      ∧ (f.drop 6).take body.length = body := by
  intro f
  have bytes : f = (headerItems kind (body.length + 8) key kindByte).bytes
      ++ (body ++ enc 2 (crc (unchecked kind key kindByte body)).toNat) := by
    rw [← List.append_assoc]; exact build_eq _ _ _ _
  have hlength : f.length = body.length + 8 := build_length _ _ _ _
  have reads {before after : Items} {w v : Nat}
      (h : headerItems kind (body.length + 8) key kindByte = before ++ (w, v) :: after) (hv : v < 256 ^ w) :
      field before.width w f = v := by rw [bytes]; exact field_of_items h hv _
  refine ⟨reads (before := []) rfl hkind, ?length, reads (before := [_, _]) rfl hkey,
    reads (before := [_, _, _]) rfl hbyte, ?body⟩
  case length => rw [hlength]; exact reads (before := [_]) rfl (by omega)
  case body =>
    have width : (headerItems kind (body.length + 8) key kindByte).bytes.length = 6 := Items.bytes_length _
    rw [bytes, List.drop_left' width, List.take_left]

/-- A built frame is judged by its kind alone (R163). -/
theorem build_frameError (p : Port) (hkind : kind < 256) (hkey : key < 16777216) (hbyte : kindByte < 256)
    (hbody : body.length ≤ 112) :
    let f := build kind key kindByte body
    frameError p f = if 128 ≤ kind then none else if accepts p kind = false then some .kind
      else if lengthFits f then none else some .length := by
  intro f
  have hlength : f.length = body.length + 8 := build_length _ _ _ _
  obtain ⟨hk, hl, -, -, -⟩ := build_header hkind hkey hbyte hbody
  have fits : ¬ misfits f := by
    rintro (h | h)
    · exact h hl
    · omega
  have checked : ¬ breaks f := by
    rw [breaks, not_ne_iff, build_take, build_check]
  rw [frameError_whole fits checked, hk]

/-! ### A layout's frame -/

/-- The frame that a layout describes. -/
def Layout.frame (y : Layout) : Frame := build y.kind y.key y.kindByte y.fields.bytes

theorem Layout.frame_framed {y : Layout} (hkind : y.kind < 256) (h : y.Fit) : y.Framed y.frame := by
  obtain ⟨hkey, hbyte, hfields, hsize⟩ := h
  have hbody : y.fields.bytes.length = (y.fields.map (·.1)).sum := Items.bytes_length _
  have hlength : y.frame.length = y.fields.bytes.length + 8 := build_length _ _ _ _
  have htake : y.frame.take (y.frame.length - 2) = _ := build_take y.kind y.key y.kindByte y.fields.bytes
  refine ⟨by rw [hlength, hbody], ?_, ?_⟩
  · rw [htake, unchecked, ← hlength, ← Items.bytes_append]
    refine carries_bytes fun e he => ?_
    rcases List.mem_append.mp he with he | he
    · have header : Items.Fit (headerItems y.kind y.frame.length y.key y.kindByte) := by
        simp only [Items.Fit, headerItems, List.forall_mem_cons]
        exact ⟨hkind, by omega, hkey, hbyte, List.forall_mem_nil _⟩
      exact header e he
    · exact hfields e he
  · rw [htake]; exact build_check _ _ _ _

/-! ### The fields of each message (R168, R170, R172) -/

/-- Two digits share a byte, the first in the high half. -/
theorem packedByte (d e : Digit) : d.setWidth 8 <<< 4 ||| e.setWidth 8 = BitVec.ofNat 8 (16 * d.toNat + e.toNat) := by
  revert d e; decide

/-- The bytes of a digit string by their places: byte `j` holds digits `2 * j` and `2 * j + 1`, absent ones as 0. -/
theorem packDigits_eq (ds : List Digit) : packDigits ds = (List.range ((ds.length + 1) / 2)).flatMap fun j =>
    enc 1 (16 * (ds[2 * j]?.getD 0).toNat + (ds[2 * j + 1]?.getD 0).toNat) := by
  induction ds using packDigits.induct with
  | case1 => rfl
  | case2 d =>
    have alone : d.setWidth 8 <<< 4 = BitVec.ofNat 8 (16 * d.toNat) := by simpa using packedByte d 0
    simp [packDigits, enc, alone]
  | case3 d e t ih =>
    have count : (t.length + 1 + 1 + 1) / 2 = (t.length + 1) / 2 + 1 := by omega
    have first : enc 1 (16 * d.toNat + e.toNat) = [d.setWidth 8 <<< 4 ||| e.setWidth 8] := by
      rw [packedByte]; simp [enc]
    have later (j : Nat) : 2 * (j + 1) = 2 * j + 1 + 1 := by omega
    simp [packDigits, count, List.range_succ_eq_map, List.flatMap_map, ih, first, later]

theorem encFlag_bit (b : Bool) : encFlag b = enc 1 (flagBit 1 b) := by cases b <;> rfl

theorem encTime_eq (t : ExTime) : encTime t = Items.bytes t.items := by simp [encTime, ExTime.items, Items.bytes]

theorem encRecord_eq (r : SettlementRecord) : encRecord r = Items.bytes r.items := by
  have flags : r.source.value + 2 * r.clamped.toNat + 4 * r.resent.toNat =
      flagBit 1 (decide (r.source = .offered)) + flagBit 2 r.clamped + flagBit 4 r.resent := by
    cases r.source <;> cases r.clamped <;> cases r.resent <;> rfl
  simp [encRecord, SettlementRecord.items, encTime_eq, flags, Items.bytes]

theorem encNotice_eq (n : Notice) : encNotice n = (n.items.1, Items.bytes n.items.2) := by
  cases n
  case portError p e v => cases p <;> simp [encNotice, Notice.items, Items.bytes, portValue]
  all_goals simp [encNotice, Notice.items, Items.bytes]

/-- The fields of a called number, without its count. -/
theorem digits_bytes (ds : List Digit) :
    packDigits ds = Items.bytes ((itemsDigits ((ds.length + 1) / 2) ds).drop 1) := by
  rw [packDigits_eq, itemsDigits, List.drop_one, List.tail_cons, Items.bytes, List.flatMap_map]

/-- A Setup's category and priority share a byte. -/
theorem setup_byte {category : Nat} (h : category < 8) (priority : Bool) :
    category % 8 + (if priority then 128 else 0) = category + flagBit 128 priority := by
  rw [Nat.mod_eq_of_lt h]; rfl

/-- Every message of one frame leaves as the frame of its layout, of a kind below 256. -/
theorem wire_of_layout {m : OutMsg} {y : Layout} (h : m.layout = some y) : m.wire = [y.frame] ∧ y.kind < 256 := by
  cases m
  case setup circuit group inCircuit category priority number =>
    rw [OutMsg.layout] at h
    split at h
    · rename_i hc
      cases h
      refine ⟨?_, by simp⟩
      simp [OutMsg.wire, Layout.frame, setup_byte hc, digits_bytes, Items.bytes, kSetup]
    · cases h
  case reply | passed => cases h
  all_goals cases h
  case batchEnd count first again => simp [OutMsg.wire, Layout.frame, Items.bytes, encFlag_bit, kBatchEnd]
  case record r => simp [OutMsg.wire, Layout.frame, encRecord_eq, kRecord]
  case notice time n => simp [OutMsg.wire, Layout.frame, encTime_eq, encNotice_eq, Items.bytes_append, kNotice]
  case refuse callRef inCircuit cause => simp [OutMsg.wire, Layout.frame, Items.bytes, kRefuse]
  all_goals exact ⟨rfl, by simp⟩

/-! ### The parts of a reply (R168, R182) -/

/-- How many parts carry that many bytes of results, 109 to a part. -/
def partCount (length : Nat) : Nat := max 1 ((length + 108) / 109)

theorem partCount_of_le {length : Nat} (h : length ≤ 109) : partCount length = 1 := by
  unfold partCount; omega

theorem partCount_of_gt {length : Nat} (h : 109 < length) : partCount length = partCount (length - 109) + 1 := by
  unfold partCount; omega

/-- Place `j` of the parts of a reply whose first part has number `n`. -/
def partFrame (tag code : Nat) (rc : ReplyCode) (n : Nat) (rest : List Byte) (j : Nat) : Frame :=
  build kReply 0 tag (enc 1 code ++ enc 1 rc.value
    ++ enc 1 ((n + j) % 128 + (if j + 1 = partCount rest.length then 128 else 0)) ++ (rest.drop (109 * j)).take 109)

/-- The first part is the last one where no results are left behind it. -/
theorem partFrame_zero (tag code : Nat) (rc : ReplyCode) (n : Nat) (rest : List Byte) :
    partFrame tag code rc n rest 0 = build kReply 0 tag (enc 1 code ++ enc 1 rc.value
      ++ enc 1 (n % 128 + (if (rest.drop 109).isEmpty then 128 else 0)) ++ rest.take 109) := by
  have last : 0 + 1 = partCount rest.length ↔ (rest.drop 109).isEmpty = true := by
    rw [List.isEmpty_iff, List.drop_eq_nil_iff, partCount]
    omega
  simp only [partFrame, last, Nat.add_zero, Nat.mul_zero, List.drop_zero]

/-- The parts behind the first are those of the rest. -/
theorem partFrame_succ (tag code : Nat) (rc : ReplyCode) (n : Nat) {rest : List Byte} (h : 109 < rest.length) (j : Nat) :
    partFrame tag code rc n rest (j + 1) = partFrame tag code rc (n + 1) (rest.drop 109) j := by
  have place : n + (j + 1) = n + 1 + j := by omega
  have start : 109 * (j + 1) = 109 + 109 * j := by omega
  simp [partFrame, partCount_of_gt h, place, start]

/-- The parts one by one, as long as the fuel is more than the results. -/
theorem replyParts_eq (tag code : Nat) (rc : ReplyCode) (n fuel : Nat) (rest : List Byte) (h : rest.length < fuel) :
    replyParts tag code rc n fuel rest = (List.range (partCount rest.length)).map (partFrame tag code rc n rest) := by
  induction fuel generalizing n rest with
  | zero => exact absurd h (Nat.not_lt_zero _)
  | succ fuel ih =>
    have unrolled : replyParts tag code rc n (fuel + 1) rest = partFrame tag code rc n rest 0 ::
        (if (rest.drop 109).isEmpty then [] else replyParts tag code rc (n + 1) fuel (rest.drop 109)) := by
      rw [partFrame_zero]; rfl
    rw [unrolled]
    by_cases hlast : rest.length ≤ 109
    · have nothing : rest.drop 109 = [] := List.drop_eq_nil_of_le hlast
      simp [nothing, partCount_of_le hlast]
    · have hlong : 109 < rest.length := Nat.lt_of_not_le hlast
      have more : (rest.drop 109).isEmpty = false := by simp [hlong]
      have later := ih (n + 1) (rest.drop 109) (by rw [List.length_drop]; omega)
      simp [more, later, partCount_of_gt hlong, List.range_succ_eq_map, partFrame_succ _ _ _ _ hlong]

theorem bytes_of_bytes (bs : List Byte) : Items.bytes (bs.map fun b => (1, b.toNat)) = bs := by
  simp [Items.bytes, List.flatMap_map, enc]

section

variable {tag code : Nat} {rc : ReplyCode} {results : List Byte} {j : Nat}

/-- Each of up to 128 parts is the frame of its layout. -/
theorem partFrame_eq (hj : j < 128) :
    partFrame tag code rc 0 results j = (replyPart tag code rc results (partCount results.length) j).frame := by
  have number : (0 + j) % 128 + (if j + 1 = partCount results.length then 128 else 0) =
      j + flagBit 128 (decide (j + 1 = partCount results.length)) := by
    rw [Nat.zero_add, Nat.mod_eq_of_lt hj]
    simp [flagBit]
  rw [partFrame, number, Layout.frame, replyPart]
  simp only [Items.bytes_append, bytes_of_bytes]
  simp [Items.bytes, kReply]

theorem ReplyCode.value_lt (rc : ReplyCode) : rc.value < 256 := by cases rc <;> decide

/-- The fields of a part fit their widths and its message. -/
theorem replyPart_fit (htag : tag < 256) (hcode : code < 256) (hj : j < 128) (parts : Nat) :
    (replyPart tag code rc results parts j).Fit := by
  have number : j + flagBit 128 (decide (j + 1 = parts)) < 256 := by unfold flagBit; split <;> omega
  have size := Items.width_map 1 BitVec.toNat ((results.drop (109 * j)).take 109)
  refine ⟨by simp [replyPart], htag, fun e he => ?_, ?_⟩
  · simp only [replyPart, List.mem_append, List.mem_cons, List.mem_map, List.not_mem_nil, or_false] at he
    rcases he with (rfl | rfl | rfl) | ⟨b, -, rfl⟩
    · exact hcode
    · exact rc.value_lt
    · exact number
    · exact b.isLt
  · have width : Items.width (replyPart tag code rc results parts j).fields ≤ 112 := by
      rw [replyPart, Items.width_append, size, List.length_take]
      change 3 + _ ≤ _
      omega
    exact Nat.add_le_add_right width 8

end

/-! ### The obligation -/

/-- Settles O8: a built frame is its header, its body and their check; each message is the frame of its layout, and each
part of a reply the frame of the part's own. -/
theorem emittedMessagesHaveTheirLayout : Obligations.EmittedMessagesHaveTheirLayout := by
  unfold Obligations.EmittedMessagesHaveTheirLayout
  refine ⟨fun p kind key kindByte body hkind hkey hbyte hbody => ?built, fun m y hy hfit => ?framed,
    fun tag code rc results htag hcode hsize => ?reply, ?values⟩
  case built =>
    obtain ⟨hk, hl, hkey', hb, hbody'⟩ := build_header hkind hkey hbyte hbody
    exact ⟨build_length _ _ _ _, hk, hl, hkey', hb, hbody', build_frameError p hkind hkey hbyte hbody⟩
  case framed =>
    obtain ⟨hwire, hkind⟩ := wire_of_layout hy
    exact ⟨y.frame, hwire, Layout.frame_framed hkind hfit⟩
  case reply =>
    intro parts
    have few : partCount results.length ≤ 128 := by unfold partCount; omega
    have hwire : (OutMsg.reply tag code rc results).wire = _ :=
      replyParts_eq tag code rc 0 (results.length + 1) results (Nat.lt_succ_self _)
    refine ⟨by simp [hwire, partCount, parts], fun j f hf => ?_⟩
    rw [hwire, List.getElem?_map, Option.map_eq_some_iff] at hf
    obtain ⟨i, hi, rfl⟩ := hf
    obtain ⟨hlt, hplace⟩ := List.getElem?_eq_some_iff.mp hi
    rw [List.length_range] at hlt
    rw [List.getElem_range] at hplace
    subst hplace
    rw [partFrame_eq (by omega)]
    exact Layout.frame_framed (by simp [replyPart]) (replyPart_fit htag hcode (by omega) _)
  case values =>
    exact ⟨rfl, rfl, rfl, rfl, rfl, rfl, rfl, rfl, rfl, rfl, rfl, rfl, rfl, rfl, rfl, rfl, rfl, rfl, fun _ _ => rfl⟩

end Sys2Proof.Machine
end

