-- ==== Sys2Proof/Proofs/DeviceRequests.lean ====
section
/-! CERTIFICATE. The first two checks of a Management Request (R174), and the two requests that move the device state (R175,
R176). -/
namespace Sys2Proof.Machine

variable {s : State} {f : Frame} {rest : List Frame} {cmd : Instr}

/-! ### The reply after the request has left the queue (R174) -/

/-- A refusal leaves nothing but its reply. -/
theorem refusal_answered {rc : ReplyCode} (e : exec cmd s = .next ((Answer.refuse (s.took .forward rest) rc).send f)) :
    ∃ t, exec cmd s = .next t ∧ Replied f rest rc [] s t ∧ OnlyChanges [.fwd, .bwdOut] s t := by
  obtain ⟨htook, hall⟩ := took_forward (t := (Answer.refuse (s.took .forward rest) rc).send f)
    (emitBwd_frame (s.took .forward rest) _) (by decide)
  exact ⟨_, e, ⟨htook, rfl⟩, hall⟩

theorem setDevice_frame (s : State) (d : DeviceState) : OnlyChanges [.mgmt] s (s.setDevice d) := by
  intro p hp; cases p <;> simp at hp <;> rfl

/-- A move of the device state changes no other part of the device. -/
theorem setDevice_answered {d : DeviceState}
    (e : exec cmd s = .next ((Answer.ok ((s.took .forward rest).setDevice d) []).send f)) :
    ∃ t, exec cmd s = .next t ∧ t.mgmt = { s.mgmt with device := d } ∧ Replied f rest .done [] s t
      ∧ OnlyChanges [.fwd, .mgmt, .bwdOut] s t := by
  obtain ⟨htook, hall⟩ := took_forward (t := (Answer.ok ((s.took .forward rest).setDevice d) []).send f)
    (((setDevice_frame (s.took .forward rest) d).mono (by decide)).trans
      ((emitBwd_frame _ _).mono (more := [.mgmt, .bwdOut]) (by decide))) (by decide)
  exact ⟨_, e, rfl, ⟨htook, rfl⟩, hall⟩

/-! ### The two checks of every request (R174) -/

/-- A request of unknown code or wrong length is refused on the device without it. -/
theorem unknownRequest_runs (h : s.headed .forward 0x40 f rest) (hl : requestLength (requestCode f) ≠ some f.length) :
    exec .unknownRequest s = .next ((Answer.refuse (s.took .forward rest) .badParameter).send f) := by
  obtain ⟨hq, hk⟩ := h
  exact congrArg Host.Outcome.next (takeHead_of hq (by simp [hk, kRequest, knownRequest, hl]))

/-- A request that the device state does not allow is answered so, whatever its own checks are. -/
theorem request_notAvailable {code : Nat} {act : List Byte → State → Answer} (h : s.requested code f rest)
    (ha : available code s.mgmt.device = false) (hx : exec cmd s = .next (takeRequest code act s)) :
    ∃ t, exec cmd s = .next t ∧ Replied f rest .notAvailable [] s t ∧ OnlyChanges [.fwd, .bwdOut] s t := by
  refine refusal_answered (hx.trans (congrArg _ ((takeRequest_unavailable h ha).trans ?_)))
  obtain ⟨-, hcode, -⟩ := h
  rw [← hcode]
  rfl

/-! ### Availability of the two requests (table of section 11.3) -/

theorem available_enterService (h : s.mgmt.device ≠ .inService) : available 0x01 s.mgmt.device = true := by
  cases hd : s.mgmt.device with
  | inService => exact absurd hd h
  | unconfigured | quiesced => rfl

theorem available_quiesce (h : s.mgmt.device ≠ .unconfigured) : available 0x02 s.mgmt.device = true := by
  cases hd : s.mgmt.device with
  | unconfigured => exact absurd hd h
  | inService | quiesced => rfl

/-! ### ENTER_SERVICE and QUIESCE (R175, R176) -/

theorem enterService_done (h : s.mgmt.device = .unconfigured → s.time.valid = true) :
    enterService s = Answer.ok (s.setDevice .inService) [] :=
  if_neg fun ⟨hd, hv⟩ => absurd (h hd) (by simp [hv])

theorem enterService_withoutTime (hd : s.mgmt.device = .unconfigured) (hv : s.time.valid = false) :
    enterService s = Answer.refuse s .notAvailable := if_pos ⟨hd, hv⟩

/-- Outside In Service, ENTER_SERVICE is judged on the device without the request. -/
theorem enterService_runs (h : s.requested 0x01 f rest) (hd : s.mgmt.device ≠ .inService) :
    exec .enterService s = .next ((enterService (s.took .forward rest)).send f) :=
  congrArg Host.Outcome.next (takeRequest_of h (available_enterService hd))

/-- Outside Unconfigured, QUIESCE is carried out on the device without the request. -/
theorem quiesce_runs (h : s.requested 0x02 f rest) (hd : s.mgmt.device ≠ .unconfigured) :
    exec .quiesce s = .next ((Answer.ok ((s.took .forward rest).setDevice .quiesced) []).send f) :=
  congrArg Host.Outcome.next (takeRequest_of h (available_quiesce hd))

/-- Settles O34: the two checks in their order, then each of the two requests where the device state allows it. -/
theorem deviceStateJudgesRequests : Obligations.DeviceStateJudgesRequests := by
  unfold Obligations.DeviceStateJudgesRequests
  refine fun s f rest => ⟨fun h hl => ?unknown, fun c code d hc h hd => ?unavailable, fun h hd => ?enters,
    fun h hd hv => ?withoutTime, fun h hd => ?quiesces⟩
  case unknown => exact refusal_answered (unknownRequest_runs h hl)
  case unavailable =>
    simp only [List.mem_cons, List.not_mem_nil, or_false, Prod.mk.injEq] at hc
    rcases hc with ⟨rfl, rfl, rfl⟩ | ⟨rfl, rfl, rfl⟩ | ⟨rfl, rfl, rfl⟩ <;>
      exact request_notAvailable h (by simp [hd, available]) rfl
  case enters =>
    have hout : s.mgmt.device ≠ .inService := by rcases hd with ⟨hd, -⟩ | hd <;> simp [hd]
    have htime : s.mgmt.device = .unconfigured → s.time.valid = true := by
      rcases hd with ⟨-, hv⟩ | hd
      · exact fun _ => hv
      · simp [hd]
    have e := enterService_runs h hout
    rw [enterService_done (s := s.took .forward rest) htime] at e
    exact setDevice_answered e
  case withoutTime =>
    have e := enterService_runs h (by simp [hd])
    rw [enterService_withoutTime (s := s.took .forward rest) hd hv] at e
    exact refusal_answered e
  case quiesces => exact setDevice_answered (quiesce_runs h hd)

end Sys2Proof.Machine
end


-- ==== Sys2Proof/Proofs/StepEquations.lean ====
section
/-! CERTIFICATE. The step by the queue of waiting commands (log entry 1): one equation per form of the queue. -/
namespace Sys2Proof.Machine

variable {s : State} {c : Instr} {rest : List Instr}

/-- The command has left the queue when it runs: its meaning sees the rest alone. -/
theorem step_of_pending_cons (h : s.pending = c :: rest) : step s = exec c { s with pending := rest } := by
  rw [step, h]

theorem step_of_pending_nil (h : s.pending = []) : step s = .next s := by
  rw [step, h]

/-- Settles O1: the equations of the step for a queue with a front command and for an empty one. -/
theorem stepRunsFrontCommand : Obligations.StepRunsFrontCommand :=
  ⟨fun _ _ _ => step_of_pending_cons, fun _ => step_of_pending_nil⟩

end Sys2Proof.Machine
end
